-- ==== Sys2Proof/Word.lean ====
section
/-!
DEFINITION. Word types, and the finite maps in which every array of the machine is held.
-/

namespace Sys2Proof

abbrev Byte := BitVec 8
abbrev Half := BitVec 16
abbrev Word := BitVec 32
abbrev DWord := BitVec 64

/-- A finite map from numbers, held as a list of pairs with keys strictly rising. -/
abbrev Map (α : Type) := List (Nat × α)

/-- The value at a key; `d` where the key is not listed. -/
def Map.get {α : Type} (d : α) : Map α → Nat → α
  | [], _ => d
  | (j, v) :: m, k => if j = k then v else Map.get d m k

/-- The map without a key. -/
def Map.erase {α : Type} : Map α → Nat → Map α
  | [], _ => []
  | (j, v) :: m, k => if j = k then Map.erase m k else (j, v) :: Map.erase m k

/-- Puts a pair before the first larger key. -/
def Map.insert {α : Type} (k : Nat) (v : α) : Map α → Map α
  | [] => [(k, v)]
  | (j, u) :: m => if k < j then (k, v) :: (j, u) :: m else (j, u) :: Map.insert k v m

/-- The map with `v` at `k`. -/
def Map.put {α : Type} (m : Map α) (k : Nat) (v : α) : Map α :=
  Map.insert k v (Map.erase m k)

/-- The map with `v` at `k`, where a value equal to the default `d` is not listed. -/
def Map.set {α : Type} [DecidableEq α] (d : α) (m : Map α) (k : Nat) (v : α) : Map α :=
  if v = d then Map.erase m k else Map.put m k v

/-- Keys strictly rise from `lo` on, and no value is the default. -/
def Map.wfFrom {α : Type} [DecidableEq α] (d : α) : Nat → Map α → Bool
  | _, [] => true
  | lo, (k, v) :: m => decide (lo ≤ k) && decide (v ≠ d) && Map.wfFrom d (k + 1) m

/-- The canonical form: keys strictly rising, no entry equal to the default. -/
def Map.wf {α : Type} [DecidableEq α] (d : α) (m : Map α) : Bool := Map.wfFrom d 0 m

end Sys2Proof
end

