-- ==== Sys2Proof/Config.lean ====
section
/-!
DEFINITION. What an implementation fixes, and the free values: choices that the spec leaves open. A free value has no
body, so no proof can rest on a value of it. The step counter `State.freeCtr` gives a fresh argument for each use.
-/

namespace Sys2Proof.Config

/-- Which `mufu` result inside the bound of Table 5.5 (R119): a fixed function of the sub-op and the source. Log 10. -/
opaque mufuChoice : Nat → Nat → Nat

/-- Which write of the allowed set a read returns (R312): an index. Log 8. -/
opaque readChoice : Nat → Nat

/-- How many loads of one agent may return older writes once a write is there for them to see (R314): finitely many. Log 8. -/
opaque staleBound : Nat → Nat

/-- On which side of a serialisation point an event falls that has not been performed (R319). Log 39. -/
opaque fenceSide : Nat → Bool

/-- The conversion error of one step at RPT 0 to 3 (R188 to R190), before it is limited to its range. Log 11. -/
opaque conversionError : Nat → Int

/-- Which elements of a row the matrix engine writes next (R206, R216). Log 36. -/
opaque elementNow : Nat → Bool

/-- A byte that a peer's atomic leaves, or of a status to which the spec gives no value. Log 19. -/
opaque openByte : Nat → Byte

/-- Which value of a code word a fetch takes where the word is written while its grid runs (R63). Log 44. -/
opaque codeChoice : Nat → Nat

/-- Whether a walker still holds a table pointer that it has cached (R341). Log 43. -/
opaque pointerHeld : Nat → Bool

/-- The cause with which a peer package fails to translate an access, where it is below 4 (R375). Log 27. -/
opaque peerFault : Nat → Nat

/-- Energy of a grid since the last update (R366): the amount is measured. Log 13. -/
opaque energyIncrement : Nat → Nat

/-- The package that a turn string leads to: the cabling of the fabric (R373). Log 24. -/
opaque cabling : Nat → Nat

/-- The turn string of the answer to a frame, by the frame's source and path (R373). Log 24. -/
opaque returnPath : Nat → Nat

/-- The CRC of a frame's header (Table 24.1). Log 27. -/
opaque headerCheck : Nat → Nat

/-- Whether a frame of a tracked send is performed at its destination before its acknowledgement comes (R376). Log 27. -/
opaque frameLands : Nat → Bool

/-- Whether a frame that is on its way is dropped at a unit that is being retired (R374). Log 24. -/
opaque frameDropped : Nat → Bool

/-- The fixed tree of a communicator's reductions (R379): which partial results each step combines. Log 25. -/
opaque reduceTree : Nat → Nat

/-- The tile that a rotation on request moves a team to (R291): an index among those that qualify. Log 26. -/
opaque tileChoice : Nat → Nat

/-- The temperature estimate of a tile (R290, R364): firmware's. Log 31. -/
opaque tileHeat : Nat → Nat

/-- The two hashes of a line number that index the allocation filters of a memory-side cache slice; their last 13 bits count (R353). Log 30. -/
opaque bloomHash : Nat → Nat → Nat

/-- The revision that the identity window shows (Table 24.4). Log 20. -/
opaque revision : Nat

/-- A signature of the attestation path (R382). Log 20. -/
opaque attestation : Nat → Nat

end Sys2Proof.Config
end

