-- ==== Sys2Proof/Machine/Bits.lean ====
section
/-!
DEFINITION. Bytes, bit fields and signs. Words and memory are little-endian (R26, chapter 01).
-/

namespace Sys2Proof

/-- The `n` low bytes of `x`, least significant first. -/
def leBytes : Nat → Nat → List Byte
  | 0, _ => []
  | n + 1, x => BitVec.ofNat 8 (x % 256) :: leBytes n (x / 256)

/-- The number whose little-endian bytes are given. -/
def leValue : List Byte → Nat
  | [] => 0
  | b :: bs => b.toNat + 256 * leValue bs

/-- Bit `i` of a number. -/
abbrev bitOf (x i : Nat) : Bool := x.testBit i

/-- Bits `hi` down to `lo` of a number. -/
def bitsOf (x hi lo : Nat) : Nat := (x / 2 ^ lo) % 2 ^ (hi + 1 - lo)

/-- The low `n` bits of a number read as two's complement. -/
def signedOf (n x : Nat) : Int :=
  if x % 2 ^ n < 2 ^ (n - 1) then (x % 2 ^ n : Nat) else ((x % 2 ^ n : Nat) : Int) - (2 ^ n : Nat)

/-- The two's-complement pattern of an integer in `n` bits. -/
def wrapInt (n : Nat) (x : Int) : Nat := (x % (2 ^ n : Nat)).toNat

end Sys2Proof
end

