-- ==== Sys2Proof/Syntax.lean ====
section
/-!
DEFINITION. The abstract form of every step of the opcode table: the instructions that words encode, and the events
of the machine's other agents (engines, schedulers, directories, the driver), each with its operands.
-/

namespace Sys2Proof

/-! ### Operands -/

/-- An 8-bit register field (R32): `v n` for 0–223, `s n` for 224–255. -/
inductive Reg where
  | v (n : Nat)
  | s (n : Nat)
  deriving DecidableEq, Repr

/-- The predicate of a lane X word (R34). -/
structure Pred where
  neg : Bool
  k : BitVec 3
  deriving DecidableEq, Repr

/-- Rounding modes (Table 4.7). -/
inductive Rm where
  | rne | rz | ru | rd
  deriving DecidableEq, Repr

/-- Memory widths (Table 2.2). -/
inductive Width where
  | b8 | b16 | b32 | b64 | b128 | i8 | i16
  deriving DecidableEq, Repr

/-- Address spaces (Table 2.2). -/
inductive Space where
  | gen | glob | loc | priv
  deriving DecidableEq, Repr

/-- Request types (Table 7.3). -/
inductive ReqType where
  | own | wt | selfinv | unc
  deriving DecidableEq, Repr

/-- Order field (Table 2.2): `ar` is acquire on loads, release on stores, both on read-modify-writes. -/
inductive Order where
  | plain | mk | ar | sc
  deriving DecidableEq, Repr

/-- Scopes (Table 2.2). -/
inductive Scope where
  | team | cluster | wide | fab
  deriving DecidableEq, Repr

/-- The memory X word (Table 2.2). -/
structure MemX where
  pred : Pred
  width : Width
  space : Space
  rtype : ReqType
  order : Order
  scope : Scope
  scale : BitVec 2
  sx : Bool
  off : BitVec 14
  deriving DecidableEq, Repr

/-- Atomic operations (Table 2.3). -/
inductive AtomOp where
  | add | and | or | xor | minI | maxI | minN | maxN | exch | cas | inc | dec | fadd | prog
  deriving DecidableEq, Repr

/-- The atomic X word (Table 2.4) without its C field. -/
structure AtomX where
  pred : Pred
  op : AtomOp
  wide64 : Bool
  order : Order
  scope : Scope
  off : BitVec 9
  deriving DecidableEq, Repr

/-- The fields of a uniform memory access (Table 2.11). -/
structure UMemX where
  rtype : ReqType
  width : Width
  space : Space
  order : Order
  scope : Scope
  off : BitVec 22
  deriving DecidableEq, Repr

/-- `bitop` with the operands each sub-op reads (Table 5.2). -/
inductive BitOp where
  | popc (a : Reg)
  | clz (a : Reg)
  | ctz (a : Reg)
  | brev (a : Reg)
  | bfeI (a b c : Reg)
  | bfeN (a b c : Reg)
  | bfi (a b c : Reg)
  | lop3 (a b c : Reg) (table : BitVec 8)
  | prmt (a b c : Reg)
  | fshL (a b c : Reg)
  | fshR (a b c : Reg)
  deriving DecidableEq, Repr

inductive DivOp where
  | divI | divN | remI | remN
  deriving DecidableEq, Repr

/-- `addr` with the operands each sub-op reads (Table 5.3). -/
inductive AddrOp where
  | add64 (a b : Reg)
  | sub64 (a b : Reg)
  | lea (a b : Reg) (sh : BitVec 6)
  | lea64 (a b : Reg) (sh : BitVec 6)
  | madwI (a b c : Reg)
  | madwN (a b c : Reg)
  | shl64 (a b : Reg)
  | shr64 (a b : Reg)
  | sra64 (a b : Reg)
  deriving DecidableEq, Repr

inductive IntCmp where
  | eq | ne | ltI | leI | gtI | geI | ltN | leN | gtN | geN
  deriving DecidableEq, Repr

/-- `cmp` (Table 3.7): a comparison of registers or logic on masks. -/
inductive CmpKind where
  | cmp (op : IntCmp) (a b : Reg)
  | kand (a b : BitVec 3)
  | kor (a b : BitVec 3)
  | kxor (a b : BitVec 3)
  | knot (a : BitVec 3)
  deriving DecidableEq, Repr

inductive FCmpOp where
  | eq | ne | lt | le | gt | ge | num | nan
  deriving DecidableEq, Repr

/-- `fcmp` (Table 5.4): a comparison, or `class` with its mask. -/
inductive FCmpKind where
  | cmp (op : FCmpOp) (a b : Reg)
  | cls (a : Reg) (mask : BitVec 10)
  deriving DecidableEq, Repr

inductive MufuOp where
  | rcp | rsq | sqrt | exp2 | lg2 | sin | cos | tanh
  deriving DecidableEq, Repr

inductive HfType where
  | h16 | bf16
  deriving DecidableEq, Repr

/-- `hf2` (R120). -/
inductive HfOp where
  | add (rm : Rm) (a b : Reg)
  | mul (rm : Rm) (a b : Reg)
  | fma (rm : Rm) (a b c : Reg)
  | min (a b : Reg)
  | max (a b : Reg)
  deriving DecidableEq, Repr

inductive CvtOp where
  | f32i32 | f32n32 | i32f32 | n32f32 | f32h16 | h16f32 | f32bf16 | bf16f32
  | e4m3f32 | e5m2f32 | f32e4m3 | f32e5m2 | t8f32 | f32t8 | i8i32 | frnd
  deriving DecidableEq, Repr

inductive DotOp where
  | ii | nn | inn
  deriving DecidableEq, Repr

inductive ShflOp where
  | idx | up | down | xor
  deriving DecidableEq, Repr

/-- `vote` with its destination: a mask for all, any and uni, a v register for ballot (R79). -/
inductive VoteOp where
  | all (d : BitVec 3)
  | any (d : BitVec 3)
  | uni (d : BitVec 3)
  | ballot (d : Nat)
  deriving DecidableEq, Repr

inductive WaitCond where
  | eq | ne | ltI | geI | ltN | geN
  deriving DecidableEq, Repr

/-- Special registers (Table 2.6). -/
inductive SReg where
  | lane | grp | role | teamX | teamY | teamZ | gridX | gridY | gridZ | slot
  | tile | rotgen | cluster | clk | gtime | energy | mthr | rfq | status
  deriving DecidableEq, Repr

/-- Conditions of `ubra` and `ucall` (R144). -/
inductive UCond where
  | al | z | nz
  deriving DecidableEq, Repr

/-- The copy X word (Table 10.1); `tb` is in 16-byte units and zero when `nb` is set. -/
structure CopyX where
  rtype : ReqType
  nb : Bool
  tb : BitVec 15
  deriving DecidableEq, Repr

/-- The fields of `mma` (Table 9.5); `g` holds G − 1. -/
structure MmaX where
  mask : BitVec 4
  off : BitVec 4
  hold : Bool
  nb : BitVec 4
  cb : BitVec 3
  rpt : BitVec 3
  slot : BitVec 3
  g : BitVec 3
  g0 : BitVec 5
  deriving DecidableEq, Repr

inductive CollOp where
  | barrier | bcast | allgather | redscat | allreduce
  deriving DecidableEq, Repr

inductive CollType where
  | i32 | f32 | bf16
  deriving DecidableEq, Repr

inductive CollRed where
  | add | min | max
  deriving DecidableEq, Repr

/-! ### The parties and other names that events carry -/

/-- A party of a team (R250). -/
inductive Party where
  | group (g : Nat)
  | matrix
  | copy
  deriving DecidableEq, Repr

/-- A party of the team with a given number. -/
structure PartyRef where
  team : Nat
  party : Party
  deriving DecidableEq, Repr

/-- A caching agent of the directory protocol (R327): a cluster L2, or a die directory acting for its die. -/
inductive CacheAgent where
  | l2 (cluster : Nat)
  | dieDir (die : Nat)
  deriving DecidableEq, Repr

/-- The sender of a coherence message: a caching agent in one incarnation (R336). -/
structure Sender where
  agent : CacheAgent
  inc : BitVec 8
  deriving DecidableEq, Repr

/-- A line that an error in a cache has made uncorrectable as it leaves: its physical line, the cluster L2 that held it (none: a
memory-side cache), and its virtual address in the context whose tag it carries (R345). -/
structure EvictedLine where
  line : Nat
  cluster : Option Nat
  va : Nat
  deriving DecidableEq, Repr

/-- What a rail controller goes by: the bits read on its die since the last comparison, and the set point, as minus the exponent of 2
(R367). -/
structure RailReading where
  bits : Nat
  setPoint : Nat
  deriving DecidableEq, Repr

/-- The home that a coherence request reaches (R327): the hub directory, or the directory of a die. -/
inductive HomeDir where
  | hub
  | die (d : Nat)
  deriving DecidableEq, Repr

/-- A retired unit (Table 24.6). -/
inductive Unit24 where
  | port (p : Nat)
  | sett (p : Nat)
  | package (p : Nat)
  deriving DecidableEq, Repr

/-- The queue blocks of BAR0 (Tables 24.4 and 24.5). -/
inductive QueueBlock where
  | admin
  | host (q : Nat)
  | fault
  deriving DecidableEq, Repr

/-- The registers of a queue block with a row of their own besides the tail (Table 24.5). -/
inductive QueueReg where
  | base | size | head | vector
  deriving DecidableEq, Repr

/-- A slice control and the governor's move of it (R270, R365). -/
inductive SliceControl where
  | ratio | grant | matrix
  deriving DecidableEq, Repr

/-- An access of the host to the aperture: the thread or engine that makes it (R303), and its physical address. -/
structure HostAccess where
  thread : Nat
  pa : Nat
  deriving DecidableEq, Repr

/-- An image of a context, known by the base of its data (R22; log 55). -/
structure ImageRef where
  ctx : Nat
  base : Nat
  deriving DecidableEq, Repr

/-- AtomicOps the device completes (R380). -/
inductive HostAtomic where
  | fetchAdd (n v : Nat)
  | swap (n v : Nat)
  | cas (n cmp v : Nat)
  deriving DecidableEq, Repr

/-- Where a soft error flips a bit (R190, R225, R281). -/
inductive SoftSite where
  | weave (team offset bit : Nat)
  | weaveSector (team sector : Nat)
  | memorySector (sector : Nat)
  | corrected (die : Nat)
  deriving DecidableEq, Repr

/-- The operation of an atomic that a frame carries, its width and its operands. -/
structure FrameAtomic where
  op : AtomOp
  wide64 : Bool
  b : Nat
  c : Nat
  deriving DecidableEq, Repr

/-- A frame on a link (Table 24.1). Beside its header: the 16-byte parts of the payload that are poisoned, the string that the
source gave it, and the copy stream there whose `send` made it (none: another access). -/
structure Frame where
  /-- the header's fields (Table 24.1): what is left of the turn string, context, source, destination, kind, payload flits, address,
  sequence number, check -/
  turn : Nat
  ctx : Nat
  src : Nat
  dst : Nat
  kind : Nat
  flits : Nat
  addr : Nat
  seq : Nat
  check : Nat
  payload : List Byte
  poison : List Nat
  /-- what the frame asks of a line, where it is an atomic -/
  atomic : Option FrameAtomic
  /-- the turn string with which it left its source; the team whose copy stream sent it, and which of the stream's copies it is of -/
  path : Nat
  stream : Option Nat
  send : Nat
  deriving DecidableEq, Repr

/-- A member of a communicator (R379): package, logical cluster, logical slot. -/
structure Member where
  package : Nat
  cluster : Nat
  slot : Nat
  deriving DecidableEq, Repr

/-- What a remote participant of a collective contributes (R379): bit k of `poison` marks sector k of its data poisoned. -/
structure Contribution where
  rank : Nat
  op : CollOp
  type : CollType
  red : CollRed
  count : Nat
  data : List Byte
  poison : Nat
  /-- the participant's die is dead, or its package retired: it contributes nothing -/
  lost : Bool
  deriving DecidableEq, Repr

/-- A placement the grid dispatcher and cluster scheduler chose for one team (R361). -/
structure Place where
  cluster : Nat
  slot : Nat
  tile : Nat
  /-- the save area that the cluster scheduler keeps for the team -/
  area : Nat
  deriving DecidableEq, Repr

/-! ### The steps -/

/-- One constructor per row of the opcode table. Register numbers `d` of lane instructions name v registers
(or k registers where the entry says so); 5-bit fields name s registers. -/
inductive Instr where
  -- lane integer, K class (R107, R69)
  | add (d : Nat) (a b : Reg)
  | addK (d : Nat) (a : Reg) (lit : Word)
  | sub (d : Nat) (a b : Reg)
  | subK (d : Nat) (a : Reg) (lit : Word)
  | mul (d : Nat) (a b : Reg)
  | mulK (d : Nat) (a : Reg) (lit : Word)
  | mulhiI (d : Nat) (a b : Reg)
  | mulhiIK (d : Nat) (a : Reg) (lit : Word)
  | mulhiN (d : Nat) (a b : Reg)
  | mulhiNK (d : Nat) (a : Reg) (lit : Word)
  | minI (d : Nat) (a b : Reg)
  | minIK (d : Nat) (a : Reg) (lit : Word)
  | maxI (d : Nat) (a b : Reg)
  | maxIK (d : Nat) (a : Reg) (lit : Word)
  | minN (d : Nat) (a b : Reg)
  | minNK (d : Nat) (a : Reg) (lit : Word)
  | maxN (d : Nat) (a b : Reg)
  | maxNK (d : Nat) (a : Reg) (lit : Word)
  | and (d : Nat) (a b : Reg)
  | andK (d : Nat) (a : Reg) (lit : Word)
  | or (d : Nat) (a b : Reg)
  | orK (d : Nat) (a : Reg) (lit : Word)
  | xor (d : Nat) (a b : Reg)
  | xorK (d : Nat) (a : Reg) (lit : Word)
  | andn (d : Nat) (a b : Reg)
  | andnK (d : Nat) (a : Reg) (lit : Word)
  | shl (d : Nat) (a b : Reg)
  | shlK (d : Nat) (a : Reg) (lit : Word)
  | shr (d : Nat) (a b : Reg)
  | shrK (d : Nat) (a : Reg) (lit : Word)
  | sra (d : Nat) (a b : Reg)
  | sraK (d : Nat) (a : Reg) (lit : Word)
  | mov (d : Nat) (b : Reg)
  | movK (d : Nat) (lit : Word)
  -- lane X class
  | mad (d : Nat) (a b c : Reg) (p : Pred)
  | bitop (op : BitOp) (d : Nat) (p : Pred)
  | idiv (op : DivOp) (d : Nat) (a b : Reg) (p : Pred)
  | addr (op : AddrOp) (d : Nat) (p : Pred)
  | cmp (c : CmpKind) (d : BitVec 3) (p : Pred)
  | sel (d : Nat) (a b : Reg) (c : BitVec 3) (p : Pred)
  | fadd (rm : Rm) (d : Nat) (a b : Reg) (p : Pred)
  | fsub (rm : Rm) (d : Nat) (a b : Reg) (p : Pred)
  | fmul (rm : Rm) (d : Nat) (a b : Reg) (p : Pred)
  | ffma (rm : Rm) (d : Nat) (a b c : Reg) (p : Pred)
  | fmin (d : Nat) (a b : Reg) (p : Pred)
  | fmax (d : Nat) (a b : Reg) (p : Pred)
  | fcmp (c : FCmpKind) (d : BitVec 3) (p : Pred)
  | mufu (op : MufuOp) (d : Nat) (a : Reg) (p : Pred)
  | hf2 (op : HfOp) (ty : HfType) (d : Nat) (p : Pred)
  | cvt (op : CvtOp) (rm : Rm) (inf : Bool) (d : Nat) (a : Reg) (p : Pred)
  | dot4 (op : DotOp) (sat : Bool) (d : Nat) (a b c : Reg) (p : Pred)
  -- lane memory
  | ld (m : MemX) (d : Nat) (a b : Reg)
  | st (m : MemX) (d a b : Reg)
  | ldl (m : MemX) (d : Nat) (a b : Reg)
  | stl (m : MemX) (d a b : Reg)
  | atom (x : AtomX) (d : Nat) (a b c : Reg)
  | red (x : AtomX) (d a : Reg)
  -- push slots, banks and stage queues
  | mpush (slot : BitVec 3) (quarter : BitVec 2) (d a c : Reg) (p : Pred)
  | mpull (d : Nat) (a : BitVec 5) (off row : BitVec 4) (cb : BitVec 2) (p : Pred)
  | qpush (q : BitVec 3) (d : Reg) (p : Pred)
  | qpop (q : BitVec 3) (d : Nat) (p : Pred)
  -- transaction and named barriers, fences
  | txbInit (a b : Reg) (p : Pred)
  | txbArrive (a : Reg) (p : Pred)
  | txbExpect (a b : Reg) (p : Pred)
  | txbArrivex (a b : Reg) (p : Pred)
  | txbWait (a b : Reg) (p : Pred)
  | txbTest (d : BitVec 3) (a b : Reg) (p : Pred)
  | barArrive (b : BitVec 4) (p : Pred)
  | barWait (b : BitVec 4) (p : Pred)
  | barSync (b : BitVec 4) (p : Pred)
  | barDrop (b : BitVec 4) (p : Pred)
  | barCount (d : Nat) (b : BitVec 4) (p : Pred)
  | fenceAcq (sc : Scope) (p : Pred)
  | fenceRel (sc : Scope) (p : Pred)
  | fenceSc (sc : Scope) (p : Pred)
  | fenceLight (sc : Scope) (p : Pred)
  | fenceHeavy (sc : Scope) (p : Pred)
  -- lane control
  | bra (disp : BitVec 24) (p : Pred)
  | call (disp : BitVec 24) (p : Pred)
  | brx (a : Reg) (p : Pred)
  | ret (a : Reg) (p : Pred)
  | exit (p : Pred)
  | shfl (op : ShflOp) (d : Nat) (a b : Reg) (c : BitVec 5) (p : Pred)
  | vote (op : VoteOp) (a : BitVec 3) (c : BitVec 5) (p : Pred)
  | sreg (d : Nat) (n : SReg)
  | brk (code : BitVec 7) (p : Pred)
  | waitv (cond : WaitCond) (sc : Scope) (acq : Bool) (d : Nat) (a b c : Reg) (p : Pred)
  | nop (x : BitVec 24)
  | nopTwoWord (x : BitVec 24) (w : Word)
  | hint (x : BitVec 24)
  | hintTwoWord (x : BitVec 24) (w : Word)
  -- uniform scalar
  | unop (x : BitVec 24)
  | unopTwoWord (x : BitVec 24) (w : Word)
  | uhint (x : BitVec 24)
  | uhintTwoWord (x : BitVec 24) (w : Word)
  | uadd (d a b : BitVec 5) (imm : BitVec 9)
  | uaddK (d a : BitVec 5) (lit : Word)
  | usub (d a b : BitVec 5) (imm : BitVec 9)
  | usubK (d a : BitVec 5) (lit : Word)
  | umul (d a b : BitVec 5) (imm : BitVec 9)
  | umulK (d a : BitVec 5) (lit : Word)
  | uand (d a b : BitVec 5) (imm : BitVec 9)
  | uandK (d a : BitVec 5) (lit : Word)
  | uor (d a b : BitVec 5) (imm : BitVec 9)
  | uorK (d a : BitVec 5) (lit : Word)
  | uxor (d a b : BitVec 5) (imm : BitVec 9)
  | uxorK (d a : BitVec 5) (lit : Word)
  | ushl (d a b : BitVec 5) (imm : BitVec 9)
  | ushlK (d a : BitVec 5) (lit : Word)
  | ushr (d a b : BitVec 5) (imm : BitVec 9)
  | ushrK (d a : BitVec 5) (lit : Word)
  | usra (d a b : BitVec 5) (imm : BitVec 9)
  | usraK (d a : BitVec 5) (lit : Word)
  | umov (d b : BitVec 5) (imm : BitVec 9)
  | umovK (d : BitVec 5) (lit : Word)
  | ubra (c : UCond) (a : BitVec 5) (disp : BitVec 22)
  | ucall (c : UCond) (d a : BitVec 5) (disp : BitVec 22)
  | uret (a : BitVec 5)
  | uld (m : UMemX) (d a : BitVec 5)
  | ust (m : UMemX) (d a : BitVec 5)
  | urd (d a : BitVec 5) (v : Nat) (imm : BitVec 9)
  | usreg (d : BitVec 5) (n : SReg)
  -- team
  | fork (mdisp : BitVec 22) (cdisp : BitVec 24)
  | rdv
  | regq (d : BitVec 5) (rd : Bool) (n : BitVec 5)
  | rotreq
  | yield
  -- uniform barriers
  | ubarInit (b : BitVec 4) (count : BitVec 12)
  | ubarArrive (b : BitVec 4)
  | ubarWait (b : BitVec 4)
  | ubarSync (b : BitVec 4)
  | ubarDrop (b : BitVec 4)
  | utxbInit (a b : BitVec 5) (off : BitVec 22)
  | utxbArrive (a : BitVec 5) (off : BitVec 22)
  | utxbExpect (a b : BitVec 5) (off : BitVec 22)
  | utxbWait (a b : BitVec 5) (off : BitVec 22)
  -- weaves, handles, banks
  | wmodeComp (w : BitVec 2) (n : BitVec 3) (bin1 keep : Bool)
  | wmodeStore (w : BitVec 2)
  | wmodeSwitchPoint (p : PartyRef)
  | weaveSwitchEnd (team : Nat) (w : BitVec 2)
  | tdesc (h : BitVec 4) (a : BitVec 5) (off : BitVec 22)
  | accalloc (d : BitVec 5) (n : BitVec 5)
  | accfree (a : BitVec 5) (off : BitVec 4) (n : BitVec 5)
  | launch (d a : BitVec 5) (q : BitVec 8) (off : BitVec 22)
  | ufenceAcq (sc : Scope)
  | ufenceRel (sc : Scope)
  | ufenceSc (sc : Scope)
  | ufenceLight (sc : Scope)
  | ufenceHeavy (sc : Scope)
  | ufenceWait (d a : BitVec 5)
  | tret
  | tkill (a : BitVec 5)
  | tsusp
  -- matrix stream
  | mchainBegin
  | mchainBeginOrdered
  | mchainEnd
  | mwait
  | marrive (b : BitVec 4)
  | mend
  | mma (x : MmaX) (a : BitVec 5)
  | mmaExecution (team id : Nat)
  | mmaCompletion (team id : Nat)
  | accz (a : BitVec 5) (off : BitVec 4) (n : BitVec 5)
  | accsc (a : BitVec 5) (off : BitVec 4) (n b : BitVec 5) (imm : BitVec 22)
  | wload (h : BitVec 4) (w : BitVec 2) (g0 : BitVec 5) (c0 : BitVec 10)
  | wloadCompletion (team id : Nat)
  | deferredTrap (team id : Nat)
  | marriveArrival (team id : Nat)
  | mwaitComplete (team : Nat)
  | mendComplete (team : Nat)
  -- copy stream
  | bcopy (x : CopyX) (d a b : BitVec 5)
  | bcopyr (x : CopyX) (d a : BitVec 5) (h : BitVec 4)
  | bcopymc (x : CopyX) (d a b : BitVec 5) (len : BitVec 9)
  | gather (x : CopyX) (d a b : BitVec 5) (trap : Bool)
  | scatter (x : CopyX) (d a b : BitVec 5) (trap : Bool)
  | cpref (d b : BitVec 5)
  | copySectorWrite (team id sector : Nat)
  | copyCompletion (team id : Nat)
  | cwait
  | carrive (b : BitVec 4)
  | cend
  | carriveArrival (team id : Nat)
  | cwaitComplete (team : Nat)
  | cendComplete (team : Nat)
  | send (x : CopyX) (tracked : Bool) (d a b : BitVec 5)
  | coll (x : CopyX) (op : CollOp) (ty : CollType) (rd : CollRed) (a : BitVec 5)
  | undefinedOpcode (w : Word)
  -- resumes of waits
  | qpushResume (p : PartyRef)
  | qpopResume (p : PartyRef)
  | mpushResume (p : PartyRef)
  | accallocResume (p : PartyRef)
  | accfreeResume (p : PartyRef)
  | barWaitComplete (p : PartyRef)
  | txbWaitComplete (p : PartyRef)
  | rdvComplete (p : PartyRef)
  | ufenceWaitComplete (p : PartyRef)
  | waitvSatisfied (p : PartyRef) (lane : Nat)
  | waitvTimeout (p : PartyRef) (lane : Nat)
  | convto (p : PartyRef)
  | watchdog (team : Nat)
  | loadValueArrival (p : PartyRef)
  | flexUnitGrant (p : PartyRef)
  | stageLevelUpdate (team : Nat)
  -- faults, save, rotation, scheduling
  | faultBatchClose (device : Nat)
  | contextSave (team : Nat) (area : Nat)
  | restore (team : Nat) (tile : Nat)
  | rotationConsideration (cluster : Nat) (pairs : List (Nat × Nat))
  | dispatchExamination (cluster : Nat)
  | teamPlacement (grid : Nat) (places : List Place)
  | launchRecordTake (q : Nat)
  | gridDispatch (device : Nat)
  | gridCompletion (grid : Nat)
  -- host registers and admin commands
  | queueTailWrite (blk : QueueBlock) (tail : Word)
  | registerWrite (blk : QueueBlock) (reg : QueueReg) (val : DWord)
  | createContext (desc : Nat)
  | destroyContext (tag : Nat)
  | assignQueue (tag q : Nat)
  | invalidateTranslations (tag start pages : Nat)
  | resolveRange (batch start pages : Nat) (ok : Bool)
  | retireUnit (u : Unit24)
  | setPeerWindow (tag window package : Nat) (turn : DWord) (base : Nat)
  | registerCommunicator (tag number : Nat) (members : List Member)
  | resumeGroup (tag cluster slot : Nat) (party : Party)
  | endGrid (tag cluster slot : Nat) (status : Word)
  | adminUndefined
  -- coherence
  | readShared (home : HomeDir) (line : Nat) (a : Sender)
  | readOwn (home : HomeDir) (line : Nat) (a : Sender) (write : Bool)
  | dirtyWriteBack (home : HomeDir) (line : Nat) (a : Sender)
  | cleanEvictionNotice (home : HomeDir) (line : Nat) (a : Sender)
  | snoop (home : HomeDir) (line : Nat) (a : CacheAgent)
  | snoopAnswer (home : HomeDir) (line : Nat) (a : Sender)
  | leaseEnd (line core : Nat)
  | leaseReclaim (line core : Nat)
  | timingMessage (die : Nat) (offset : Option Int)
  | agentRejoin (a : CacheAgent)
  | pageWalk (cluster : Nat)
  -- memory dies, power, links
  | bloomFilterSwap (slice : Nat)
  | refresh (channel : Nat) (computeBound : Bool)
  | railControl (die : Nat) (x : RailReading)
  | controlRampStep (cluster slice : Nat) (c : SliceControl) (target : Nat)
  | thermalEmergency (cluster slice : Nat)
  | energyUpdate (grid : Nat)
  | dieGate (die : Nat)
  | memoryDieGate (mdie : Nat)
  | linkIdle (link : Nat)
  | linkwake (link : Nat)
  | diedead (die : Nat)
  | evictionUncorr (x : EvictedLine) (tag : Nat)
  | relocationUncorr (cluster : Nat)
  | memoryIslandFailure (mdie : Nat)
  -- fabric
  | frameReceive (f : Frame)
  | sendAck (team id frame : Nat) (ok : Bool)
  | trackedSendTimeout (team id frame : Nat)
  | collCompletion (team id : Nat) (others : List Contribution)
  | collTimeout (team id : Nat)
  -- host link and management
  | hostApertureRead (x : HostAccess) (n : Nat)
  | hostApertureWrite (x : HostAccess) (bytes : List Byte)
  | hostAtomicop (x : HostAccess) (op : HostAtomic)
  | packageReset (image : List Byte) (valid : Bool)
  | recoveryImageWrite (image : List Byte) (valid : Bool)
  | attestationRequest
  | blackBoxRead (i : Nat)
  | accscStart (team id : Nat)
  | storePerformed (p : PartyRef)
  | softError (site : SoftSite)
  | powerCapSet (cap ramp : Nat)
  | clusterReset (cluster : Nat)
  | regenerationComplete (image : ImageRef)
  | linkWakeComplete (link : Nat)
  | dieWakeComplete (die : Nat)
  | sendFrameAccepted (team id frame : Nat)
  deriving DecidableEq, Repr

end Sys2Proof
end

