-- ==== Sys2Proof/Machine/Numbers.lean ====
section
/-!
DEFINITION. Numbers to the bit (spec chapter 04): the formats, exact values, the one rounding of R93, overflow,
tininess, conversions between single values and the block integers of R102.
-/

namespace Sys2Proof.Machine

/-! ### Flags (Table 3.2) -/

abbrev Flags := BitVec 8

def flagIV : Flags := 1
def flagDZ : Flags := 2
def flagOF : Flags := 4
def flagUF : Flags := 8
def flagIX : Flags := 16
def flagSAT : Flags := 32
def flagNAR : Flags := 64
def flagWMODE : Flags := 128

/-- The flag when the condition holds. -/
def flagIf (c : Bool) (f : Flags) : Flags := if c then f else 0

/-- A result and the flags that it sets. -/
structure Res where
  bits : Nat
  flags : Flags
  deriving DecidableEq, Repr

/-! ### Formats (Tables 4.1 and 4.2) -/

/-- Which encodings are not finite numbers (R84). -/
inductive Specials where
  | ieee | nanOnly | none
  deriving DecidableEq, Repr

/-- A floating-point format: exponent and fraction widths, special values, whether it has signalling NaNs (R85). -/
structure Fmt where
  eb : Nat
  mb : Nat
  specials : Specials
  signals : Bool
  deriving DecidableEq, Repr

def fp32 : Fmt := ⟨8, 23, .ieee, true⟩
def fp16 : Fmt := ⟨5, 10, .ieee, true⟩
def bf16 : Fmt := ⟨8, 7, .ieee, true⟩
def e4m3 : Fmt := ⟨4, 3, .nanOnly, false⟩
def e5m2 : Fmt := ⟨5, 2, .ieee, false⟩
def e3m2 : Fmt := ⟨3, 2, .none, false⟩
def e2m3 : Fmt := ⟨2, 3, .none, false⟩
def e2m1 : Fmt := ⟨2, 1, .none, false⟩

def Fmt.bias (F : Fmt) : Int := 2 ^ (F.eb - 1) - 1

/-- The exponent of the last place of subnormal and smallest normal values. -/
def Fmt.qmin (F : Fmt) : Int := 1 - F.bias - F.mb

/-- The sign bit as a number. -/
def Fmt.signBit (F : Fmt) (neg : Bool) : Nat := if neg then 2 ^ (F.eb + F.mb) else 0

def Fmt.infBits (F : Fmt) (neg : Bool) : Nat := F.signBit neg + (2 ^ F.eb - 1) * 2 ^ F.mb

/-- The largest finite magnitude as an encoding (Table 4.2). -/
def Fmt.maxMag (F : Fmt) : Nat :=
  match F.specials with
  | .ieee => (2 ^ F.eb - 1) * 2 ^ F.mb - 1
  | .nanOnly => 2 ^ (F.eb + F.mb) - 2
  | .none => 2 ^ (F.eb + F.mb) - 1

/-- The canonical NaN (Table 4.2); formats without NaN never ask for it. -/
def Fmt.canon (F : Fmt) : Nat :=
  match F.specials with
  | .ieee => (2 ^ F.eb - 1) * 2 ^ F.mb + 2 ^ (F.mb - 1)
  | _ => 2 ^ (F.eb + F.mb) - 1

/-- A number read from an encoding: `fin neg m e` is ±m × 2^e. -/
inductive Num where
  | nan (signalling : Bool)
  | inf (neg : Bool)
  | fin (neg : Bool) (m : Nat) (e : Int)
  deriving DecidableEq, Repr

/-- R83 and R84. -/
def Fmt.read (F : Fmt) (x : Nat) : Num :=
  let f := x % 2 ^ F.mb
  let E := x / 2 ^ F.mb % 2 ^ F.eb
  let neg := x.testBit (F.eb + F.mb)
  if F.specials = .ieee ∧ E = 2 ^ F.eb - 1 then
    if f = 0 then .inf neg else .nan (F.signals && decide (f < 2 ^ (F.mb - 1)))
  else if F.specials = .nanOnly ∧ E = 2 ^ F.eb - 1 ∧ f = 2 ^ F.mb - 1 then .nan false
  else if E = 0 then .fin neg f F.qmin
  else .fin neg (2 ^ F.mb + f) (F.qmin + (E - 1 : Nat))

/-- `fin(x)` (R96): a subnormal becomes zero of its sign when the flush bit is set. -/
def Fmt.readFlush (F : Fmt) (flush : Bool) (x : Nat) : Num :=
  match F.read x with
  | .fin neg m e => if flush && decide (m < 2 ^ F.mb) then .fin neg 0 e else .fin neg m e
  | n => n

def Num.isNan : Num → Bool
  | .nan _ => true
  | _ => false

def Num.isSnan : Num → Bool
  | .nan s => s
  | _ => false

def Num.isZero : Num → Bool
  | .fin _ m _ => decide (m = 0)
  | _ => false

def Num.isInf : Num → Bool
  | .inf _ => true
  | _ => false

def Num.neg : Num → Num
  | .nan s => .nan s
  | .inf n => .inf (!n)
  | .fin n m e => .fin (!n) m e

/-- The signed integer that a finite value is at the exponent `q ≤ e`. -/
def scaleTo (q : Int) (neg : Bool) (m : Nat) (e : Int) : Int :=
  let v : Int := m * 2 ^ (e - q).toNat
  if neg then -v else v

/-! ### Rounding (R93) -/

/-- `m >> k` rounded by mode `rm` for a value of the given sign, and whether bits were lost. -/
def roundShift (rm : Rm) (neg : Bool) (m k : Nat) : Nat × Bool :=
  let n := m / 2 ^ k
  let r := m % 2 ^ k
  let up :=
    match rm with
    | .rne => decide (2 ^ k < 2 * r) || (decide (2 * r = 2 ^ k) && decide (n % 2 = 1))
    | .rz => false
    | .ru => !neg && decide (r ≠ 0)
    | .rd => neg && decide (r ≠ 0)
  (if up then n + 1 else n, decide (r ≠ 0))

/-- A magnitude `n × 2^q` in the format's last places, and whether it differs from the exact value. -/
structure Rounded where
  n : Nat
  q : Int
  inexact : Bool
  deriving DecidableEq, Repr

/-- Rounds ±m × 2^e to `mb + 1` significant bits, with a last place no lower than `q0`. -/
def roundAt (mb : Nat) (q0 : Int) (rm : Rm) (neg : Bool) (m : Nat) (e : Int) : Rounded :=
  let q := max ((Nat.log2 m : Int) + e - mb) q0
  if q ≤ e then ⟨m * 2 ^ (e - q).toNat, q, false⟩
  else
    let r := roundShift rm neg m (q - e).toNat
    ⟨r.1, q, r.2⟩

/-- The encoding of a rounded magnitude, its exponent unbounded above. -/
def Fmt.mag (F : Fmt) (r : Rounded) : Nat := (r.q - F.qmin).toNat * 2 ^ F.mb + r.n

/-- Tiny (R95): below the smallest normal after rounding with an unbounded exponent. -/
def Fmt.tiny (F : Fmt) (rm : Rm) (neg : Bool) (m : Nat) (e : Int) : Bool :=
  let r := roundAt F.mb ((Nat.log2 m : Int) + e - F.mb) rm neg m e
  decide (m ≠ 0) && decide ((Nat.log2 r.n : Int) + r.q < F.qmin + F.mb)

/-- The result of an overflow: by rounding mode, or saturating (Table 4.8). -/
def Fmt.overflow (F : Fmt) (rm : Rm) (sat neg : Bool) : Res :=
  if sat || F.specials ≠ .ieee then ⟨F.signBit neg + F.maxMag, flagOF ||| flagSAT ||| flagIX⟩
  else
    let toInf :=
      match rm with
      | .rne => true
      | .rz => false
      | .ru => !neg
      | .rd => neg
    ⟨if toInf then F.infBits neg else F.signBit neg + F.maxMag, flagOF ||| flagIX⟩

/-- round, `ovf` and `fout` of a finite exact value ±m × 2^e: R93 to R96. -/
def Fmt.deliver (F : Fmt) (rm : Rm) (sat flush neg : Bool) (m : Nat) (e : Int) : Res :=
  if m = 0 then ⟨F.signBit neg, 0⟩
  else
    let r := roundAt F.mb F.qmin rm neg m e
    let g := F.mag r
    if F.maxMag < g then F.overflow rm sat neg
    else if flush && decide (g ≠ 0) && decide (g < 2 ^ F.mb) then ⟨F.signBit neg, flagUF ||| flagIX⟩
    else ⟨F.signBit neg + g, flagIf r.inexact flagIX ||| flagIf (r.inexact && F.tiny rm neg m e) flagUF⟩

/-! ### Sums and products (R114, R115, R120) -/

/-- The result for a NaN operand or an invalid operation. -/
def Fmt.nanRes (F : Fmt) (iv : Bool) : Res := ⟨F.canon, flagIf iv flagIV⟩

/-- An exact sum of two finite values, delivered; an exact zero of opposite signs is −0 in `rd` only. -/
def Fmt.addFin (F : Fmt) (rm : Rm) (flush : Bool) (n1 : Bool) (m1 : Nat) (e1 : Int) (n2 : Bool) (m2 : Nat) (e2 : Int) :
    Res :=
  let q := min e1 e2
  let x := scaleTo q n1 m1 e1 + scaleTo q n2 m2 e2
  if x = 0 then ⟨F.signBit (if n1 = n2 then n1 else decide (rm = .rd)), 0⟩
  else F.deliver rm false flush (decide (x < 0)) x.natAbs q

/-- `fadd` on values already read (R114). -/
def Fmt.add (F : Fmt) (rm : Rm) (flush : Bool) (a b : Num) : Res :=
  match a, b with
  | .nan s, y => F.nanRes (s || y.isSnan)
  | x, .nan s => F.nanRes (s || x.isSnan)
  | .inf n1, .inf n2 => if n1 = n2 then ⟨F.infBits n1, 0⟩ else F.nanRes true
  | .inf n, .fin _ _ _ => ⟨F.infBits n, 0⟩
  | .fin _ _ _, .inf n => ⟨F.infBits n, 0⟩
  | .fin n1 m1 e1, .fin n2 m2 e2 => F.addFin rm flush n1 m1 e1 n2 m2 e2

/-- `fmul` on values already read (R114). -/
def Fmt.mul (F : Fmt) (rm : Rm) (flush : Bool) (a b : Num) : Res :=
  match a, b with
  | .nan s, y => F.nanRes (s || y.isSnan)
  | x, .nan s => F.nanRes (s || x.isSnan)
  | .inf n1, .inf n2 => ⟨F.infBits (n1 != n2), 0⟩
  | .inf n1, .fin n2 m _ => if m = 0 then F.nanRes true else ⟨F.infBits (n1 != n2), 0⟩
  | .fin n1 m _, .inf n2 => if m = 0 then F.nanRes true else ⟨F.infBits (n1 != n2), 0⟩
  | .fin n1 m1 e1, .fin n2 m2 e2 => F.deliver rm false flush (n1 != n2) (m1 * m2) (e1 + e2)

/-- 0 × ∞ is invalid before a NaN addend is looked at (R114). -/
def mulInvalid : Num → Num → Bool
  | .inf _, y => y.isZero
  | x, .inf _ => x.isZero
  | _, _ => false

/-- `ffma` on values already read: one rounding of a × b + c (R114). -/
def Fmt.fma (F : Fmt) (rm : Rm) (flush : Bool) (a b c : Num) : Res :=
  if mulInvalid a b then F.nanRes true
  else if a.isNan || b.isNan || c.isNan then F.nanRes (a.isSnan || b.isSnan || c.isSnan)
  else
    match a, b with
    | .fin n1 m1 e1, .fin n2 m2 e2 =>
        match c with
        | .fin n3 m3 e3 => F.addFin rm flush (n1 != n2) (m1 * m2) (e1 + e2) n3 m3 e3
        | .inf n => ⟨F.infBits n, 0⟩
        | .nan s => F.nanRes s
    | x, y =>
        let n := (match x with | .inf n => n | .fin n _ _ => n | .nan _ => false) !=
          (match y with | .inf n => n | .fin n _ _ => n | .nan _ => false)
        match c with
        | .inf n3 => if n = n3 then ⟨F.infBits n, 0⟩ else F.nanRes true
        | _ => ⟨F.infBits n, 0⟩

/-- Order of two numbers neither of which is a NaN, with +0 = −0. -/
def Num.lt : Num → Num → Bool
  | .nan _, _ => false
  | _, .nan _ => false
  | .inf n1, .inf n2 => n1 && !n2
  | .inf n, .fin _ _ _ => n
  | .fin _ _ _, .inf n => !n
  | .fin n1 m1 e1, .fin n2 m2 e2 => let q := min e1 e2; decide (scaleTo q n1 m1 e1 < scaleTo q n2 m2 e2)

def Num.eq : Num → Num → Bool
  | .nan _, _ => false
  | _, .nan _ => false
  | .inf n1, .inf n2 => decide (n1 = n2)
  | .fin n1 m1 e1, .fin n2 m2 e2 => let q := min e1 e2; decide (scaleTo q n1 m1 e1 = scaleTo q n2 m2 e2)
  | _, _ => false

def Num.signNeg : Num → Bool
  | .nan _ => false
  | .inf n => n
  | .fin n _ _ => n

/-- The bits that an operand holds after `fin`. -/
def Fmt.flushBits (F : Fmt) (flush : Bool) (x : Nat) : Nat :=
  match F.read x with
  | .fin neg m _ => if flush && decide (m < 2 ^ F.mb) then F.signBit neg else x
  | _ => x

/-- `fmin` and `fmax` (R115): −0 is ordered below +0. -/
def Fmt.minMax (F : Fmt) (flush isMax : Bool) (x y : Nat) : Res :=
  let a := F.readFlush flush x
  let b := F.readFlush flush y
  let xb := F.flushBits flush x
  let yb := F.flushBits flush y
  let less := a.lt b || (a.eq b && a.signNeg && !b.signNeg)
  let r :=
    if a.isNan && b.isNan then F.canon
    else if a.isNan then yb
    else if b.isNan then xb
    else if isMax then (if less then yb else xb)
    else (if less || (a.eq b && a.signNeg = b.signNeg) then xb else yb)
  ⟨r, flagIf (a.isSnan || b.isSnan) flagIV⟩

/-! ### Conversions between single values (R97 to R100) -/

/-- A signed or unsigned integer to FP32. -/
def intToF32 (rm : Rm) (x : Int) : Res := fp32.deliver rm true false (decide (x < 0)) x.natAbs 0

/-- A finite value rounded to an integer, and whether it changed. -/
def roundToInt (rm : Rm) (neg : Bool) (m : Nat) (e : Int) : Int × Bool :=
  let r := if 0 ≤ e then (m * 2 ^ e.toNat, false) else roundShift rm neg m (-e).toNat
  ((if neg then -(r.1 : Int) else r.1), r.2)

/-- i32.f32 and n32.f32 (R98), with the range `lo` to `hi`. -/
def f32ToInt (rm : Rm) (lo hi : Int) (x : Num) : Res :=
  match x with
  | .nan _ => ⟨0, flagIV⟩
  | .inf neg => ⟨wrapInt 32 (if neg then lo else hi), flagIV ||| flagSAT⟩
  | .fin neg m e =>
      let r := roundToInt rm neg m e
      if r.1 < lo then ⟨wrapInt 32 lo, flagIV ||| flagSAT⟩
      else if hi < r.1 then ⟨wrapInt 32 hi, flagIV ||| flagSAT⟩
      else ⟨wrapInt 32 r.1, flagIf r.2 flagIX⟩

/-- Widening to FP32 (exact). -/
def widen (x : Num) : Res :=
  match x with
  | .nan s => fp32.nanRes s
  | .inf n => ⟨fp32.infBits n, 0⟩
  | .fin n m e => fp32.deliver .rne true false n m e

/-- Narrowing from FP32 with the IEEE-overflow bit (R94). -/
def narrow (F : Fmt) (rm : Rm) (ieee flush : Bool) (x : Num) : Res :=
  match x with
  | .nan s => F.nanRes s
  | .inf n =>
      if ieee && decide (F.specials = .ieee) then ⟨F.infBits n, 0⟩ else ⟨F.signBit n + F.maxMag, flagSAT⟩
  | .fin n m e => F.deliver rm (!ieee) flush n m e

/-- frnd (R100). -/
def roundF32 (rm : Rm) (bits : Nat) (x : Num) : Res :=
  match x with
  | .nan s => fp32.nanRes s
  | .inf _ => ⟨bits, 0⟩
  | .fin n m e =>
      let r := roundToInt rm n m e
      if r.1 = 0 then ⟨fp32.signBit n, flagIf r.2 flagIX⟩
      else ⟨(fp32.deliver .rne true false n r.1.natAbs 0).bits, flagIf r.2 flagIX⟩

/-- i8.i32 (R99). -/
def clampI8 (x : Int) : Res :=
  if x < -128 then ⟨wrapInt 32 (-128), flagSAT⟩
  else if 127 < x then ⟨127, flagSAT⟩ else ⟨wrapInt 32 x, 0⟩

/-! ### T8 (R86) -/

/-- Leading zeros of a 7-bit body, 7 for zero. -/
def t8Zeros (body : Nat) : Nat := if body = 0 then 7 else 6 - Nat.log2 body

/-- The magnitude of a non-zero body times 2^15 (all T8 values are multiples of 2^−15). -/
def t8Scaled (body : Nat) : Nat :=
  let z := t8Zeros body
  let n := 6 - z
  let tail := body % 2 ^ n
  let ebits := min n 2
  let nf := n - 2
  let e := tail / 2 ^ (n - ebits)
  let f := tail % 2 ^ nf
  let base : Int := if z = 6 then -15 else if z = 5 then -14 else 4 - 4 * z
  if body = 0 then 0 else (2 ^ nf + f) * 2 ^ (base + e + 15 - nf).toNat

/-- A T8 encoding as a number; NaR is `none`. -/
def t8Read (x : Nat) : Option (Bool × Nat) :=
  if x % 256 = 128 then none else some (x.testBit 7, t8Scaled (x % 128))

/-- The largest body whose scaled value does not exceed `m × 2^e × 2^15`, by search downwards from `b`. -/
def t8Floor (m : Nat) (e : Int) : Nat → Nat
  | 0 => 0
  | b + 1 =>
      let q := min e 0
      if (t8Scaled (b + 1) : Int) * 2 ^ (-q).toNat ≤ m * 2 ^ (e - q).toNat then b + 1 else t8Floor m e b

/-- t8.f32 (R93 to R95). -/
def toT8 (rm : Rm) (x : Num) : Res :=
  match x with
  | .nan s => ⟨128, flagNAR ||| flagIf s flagIV⟩
  | .inf _ => ⟨128, flagNAR⟩
  | .fin neg m e0 =>
      let e := e0 + 15
      let q := min e 0
      let v : Int := m * 2 ^ (e - q).toNat
      let unit : Int := 2 ^ (-q).toNat
      let enc (b : Nat) : Nat := if b = 0 then 0 else b + (if neg then 128 else 0)
      if (t8Scaled 127 : Int) * unit < v then ⟨enc 127, flagOF ||| flagSAT ||| flagIX⟩
      else
        let lo := t8Floor m e 127
        let vlo := (t8Scaled lo : Int) * unit
        if vlo = v then ⟨enc lo, 0⟩
        else
          let vhi := (t8Scaled (lo + 1) : Int) * unit
          let up :=
            match rm with
            | .rne => decide (vlo + vhi < 2 * v) || (decide (vlo + vhi = 2 * v) && decide (lo % 2 = 1))
            | .rz => false
            | .ru => !neg
            | .rd => neg
          ⟨enc (if up then lo + 1 else lo), flagIX ||| flagIf (decide (v < unit)) flagUF⟩

/-- f32.t8: exact; NaR gives the canonical NaN with no flag. -/
def fromT8 (x : Nat) : Res :=
  match t8Read x with
  | none => fp32.nanRes false
  | some (neg, v) => fp32.deliver .rne true false neg v (-15)

/-! ### Format words and block integers (R92, R102, R103) -/

/-- An element format of the weaves (Table 4.6). -/
inductive Elem where
  | mxint (n : Nat) | bin1 | e4m3 | e5m2 | e3m2 | e2m3 | e2m1 | t8
  deriving DecidableEq, Repr

/-- The element format of a format word; the faults of R47 give none. -/
def Elem.ofWord (w : Nat) : Option Elem :=
  if w / 1024 ≠ 0 ∨ 2 ≤ w / 256 % 4 ∨ w / 128 % 2 = 1 then none
  else
    match w % 16 with
    | 0 => some (.mxint (w / 16 % 8 + 1))
    | 1 => some .bin1
    | 2 => some .e4m3
    | 3 => some .e5m2
    | 4 => some .e3m2
    | 5 => some .e2m3
    | 6 => some .e2m1
    | 7 => some .t8
    | _ => none

/-- Unit scale (scale mode 1). -/
def unitScale (w : Nat) : Bool := decide (w / 256 % 4 = 1)

/-- Element width in memory and in a block integer (Tables 4.5 and 4.10). -/
def Elem.bits : Elem → Nat
  | .mxint n => n
  | .bin1 => 1
  | .e4m3 | .e5m2 | .t8 => 8
  | .e3m2 | .e2m3 => 6
  | .e2m1 => 4

/-- A floating element as a number; NaR, NaN and infinities as such (R103). -/
def Elem.num (f : Elem) (x : Nat) : Num :=
  match f with
  | .e4m3 => Fmt.read Machine.e4m3 x
  | .e5m2 => Fmt.read Machine.e5m2 x
  | .e3m2 => Fmt.read Machine.e3m2 x
  | .e2m3 => Fmt.read Machine.e2m3 x
  | .e2m1 => Fmt.read Machine.e2m1 x
  | .t8 => match t8Read x with | none => .nan false | some (neg, v) => .fin neg v (-15)
  | .mxint _ | .bin1 => .nan false

/-- E(x) of R102 for a finite non-zero element. -/
def Num.topExp : Num → Option Int
  | .fin _ m e => if m = 0 then none else some ((Nat.log2 m : Int) + e)
  | _ => none

/-- The larger of two optional exponents. -/
def maxExp (a b : Option Int) : Option Int :=
  match a, b with
  | some x, some y => some (max x y)
  | some x, none => some x
  | none, y => y

/-- sign(x) × floor(|x| × 2^k). -/
def Num.scaledFloor (k : Int) : Num → Int
  | .fin neg m e =>
      let v : Nat := if 0 ≤ e + k then m * 2 ^ (e + k).toNat else m / 2 ^ (-(e + k)).toNat
      if neg then -(v : Int) else v
  | _ => 0

/-- A converted block: its integers, its shift σ, and which elements set IV. -/
structure BlockInts where
  q : List Int
  shift : Int
  iv : List Bool
  deriving DecidableEq, Repr

/-- Table 4.10 and R103. -/
def convertBlock (f : Elem) (xs : List Nat) : BlockInts :=
  match f with
  | .mxint n =>
      ⟨xs.map fun x => if n = 1 then ((x % 2 : Nat) : Int) else signedOf n x, 2 - n, xs.map fun _ => false⟩
  | .bin1 => ⟨xs.map fun x => 2 * ((x % 2 : Nat) : Int) - 1, 0, xs.map fun _ => false⟩
  | f =>
      let ns := xs.map f.num
      let w : Int := f.bits
      let iv := ns.map fun n => n.isNan || n.isInf
      match ns.foldl (fun a n => maxExp a n.topExp) none with
      | none => ⟨xs.map fun _ => 0, 0, iv⟩
      | some em => ⟨ns.map (Num.scaledFloor (w - 2 - em)), em - (w - 2), iv⟩

end Sys2Proof.Machine
end

