-- ==== Sys2Proof/Machine/Mufu.lean ====
section
/-!
DEFINITION. `mufu` (R117 to R119). Table 5.6 and the exact cases of Table 5.5 are computed. Elsewhere the result is
the free choice of `Config.mufuChoice` among the FP32 values that lie within the bound of Table 5.5 of a computed
enclosure of the exact result. Log 10.
-/

namespace Sys2Proof.Machine

/-- The exact result lies between `lo × 2^e` and `hi × 2^e`. -/
structure Enclosure where
  lo : Int
  hi : Int
  e : Int
  deriving DecidableEq, Repr

/-- Fraction bits of the fixed-point evaluation. -/
def mufuS : Nat := 400

/-- ln 2, log2 e and π, each times 2^400 and cut off. -/
def ln2S : Int := 1789879222497203190815761498240779176894896805856420935579692301363062920687047601279850318367644315849030039181347319086
def log2eS : Int := 3725399093452113361508878261685348397064333121840474113669779251110053462896811095071531244706817557295705407090210624801
def piS : Int := 8112377246730971238862271351300894519161151600179265203591191037615230905373990498745523360926816815427566779727327576236

/-- The floor of a square root, from bit `k − 1` down. -/
def isqrtFrom (n : Nat) : Nat → Nat → Nat
  | 0, r => r
  | k + 1, r => isqrtFrom n k (if (r + 2 ^ k) * (r + 2 ^ k) ≤ n then r + 2 ^ k else r)

def isqrt (n : Nat) : Nat := isqrtFrom n (Nat.log2 n / 2 + 1) 0

/-- Σ y^k / k! at scale 2^400, the terms cut off. -/
def expTerms (y : Int) : Nat → Nat → Int → Int → Int
  | 0, _, _, acc => acc
  | fuel + 1, k, t, acc =>
      let t' := t * y / (2 ^ mufuS * (k + 1))
      expTerms y fuel (k + 1) t' (acc + t')

/-- 2^f at scale 2^400 for f in [0, 1) at scale 2^400; low by less than 2^8. -/
def exp2Frac (f : Int) : Int := expTerms (f * ln2S / 2 ^ mufuS) 90 0 (2 ^ mufuS) (2 ^ mufuS)

/-- Σ (−1)^k y^(2k+1) / (2k+1)! at scale 2^400. -/
def sinTerms (y2 : Int) : Nat → Nat → Int → Int → Int
  | 0, _, _, acc => acc
  | fuel + 1, k, t, acc =>
      let t' := -(t * y2 / (2 ^ mufuS * ((2 * k + 2) * (2 * k + 3))))
      sinTerms y2 fuel (k + 1) t' (acc + t')

/-- sin(π·t) for t in [0, 1/2], both at scale 2^400. -/
def sinQuarter (t : Int) : Int :=
  let y := t * piS / 2 ^ mufuS
  sinTerms (y * y / 2 ^ mufuS) 60 0 y y

/-- sin(π·t) for t in [0, 2) at scale 2^400. -/
def sinTurn (t : Int) : Int :=
  let neg := decide (2 ^ mufuS ≤ t)
  let u := if neg then t - 2 ^ mufuS else t
  let w := if 2 ^ (mufuS - 1) < u then 2 ^ mufuS - u else u
  if neg then -(sinQuarter w) else sinQuarter w

/-- A finite value at scale 2^400, cut off towards −∞. -/
def toFixed (neg : Bool) (m : Nat) (e : Int) : Int :=
  let k := e + mufuS
  let v : Int := if neg then -(m : Int) else m
  if 0 ≤ k then v * 2 ^ k.toNat else v / 2 ^ (-k).toNat

/-- A band of 2^16 units at scale 2^400 on both sides, which covers every cut-off above. -/
def band (v : Int) (e : Int) : Enclosure := ⟨v - 65536, v + 65536, e⟩

/-- 2^x. -/
def exp2Enclosure (neg : Bool) (m : Nat) (e : Int) : Enclosure :=
  let x := toFixed neg m e
  if x < -(200 * 2 ^ mufuS) then ⟨0, 1, -190⟩
  else band (exp2Frac (x % 2 ^ mufuS)) (x / 2 ^ mufuS - mufuS)

/-- Binary digits of log2 of a mantissa in [1, 2) at scale 2^200. -/
def log2Digits : Nat → Nat → Nat → Nat
  | 0, _, acc => acc
  | fuel + 1, x, acc =>
      let y := x * x / 2 ^ 200
      if 2 ^ 201 ≤ y then log2Digits fuel (y / 2) (2 * acc + 1) else log2Digits fuel y (2 * acc)

/-- log2 x for x > 0. -/
def lg2Enclosure (m : Nat) (e : Int) : Enclosure :=
  let k := Nat.log2 m
  let d := log2Digits 90 (m * 2 ^ (200 - k)) 0
  let v := ((k : Int) + e) * 2 ^ 90 + d
  ⟨v - 1, v + 2, -90⟩

/-- tanh |x| for |x| < 9, negated for negative x. -/
def tanhEnclosure (neg : Bool) (m : Nat) (e : Int) : Enclosure :=
  let y := toFixed false m e * 2 * log2eS / 2 ^ mufuS
  let ex := exp2Frac (y % 2 ^ mufuS) * 2 ^ (y / 2 ^ mufuS).toNat
  let v := (ex - 2 ^ mufuS) * 2 ^ mufuS / (ex + 2 ^ mufuS)
  band (if neg then -v else v) (-mufuS)

/-- The exponent of one ulp of a positive result (R117): the enclosure is narrow enough to lie between two FP32 values. -/
def ulpExp (x : Enclosure) : Int := max ((Nat.log2 x.lo.natAbs : Int) + x.e - 23) (-149)

/-- What lies within `2^b` of every value of an enclosure. -/
def Enclosure.within (x : Enclosure) (b : Int) : Enclosure :=
  let q := min x.e b
  let k : Int := 2 ^ (x.e - q).toNat
  let w : Int := 2 ^ (b - q).toNat
  ⟨x.hi * k - w, x.lo * k + w, q⟩

/-- Place of an FP32 encoding in the order of the numbers, −0 just below +0. -/
def ordOf (bits : Nat) : Int := if bits.testBit 31 then -1 - (bits % 2 ^ 31 : Nat) else bits

def ofOrd (i : Int) : Nat := if i < 0 then 2 ^ 31 + (-1 - i).toNat else i.toNat

/-- The FP32 value at or above, or at or below, an exact value. -/
def toF32 (rm : Rm) (v e : Int) : Nat := (fp32.deliver rm false false (decide (v < 0)) v.natAbs e).bits

/-- The free choice of an FP32 value between two bounds; −0 counts where a zero does. -/
def chooseIn (op x : Nat) (r : Enclosure) : Nat :=
  let a := ordOf (toF32 .ru r.lo r.e)
  let a' := if a = 0 then -1 else a
  let b := ordOf (toF32 .rd r.hi r.e)
  if b < a' then toF32 .rne r.lo r.e
  else ofOrd (a' + ((Config.mufuChoice op x % ((b - a').toNat + 1) : Nat) : Int))

/-- Whether a finite value is an integer, and whether that integer is odd. -/
def intParity (m : Nat) (e : Int) : Option Bool :=
  if 0 ≤ e then some (decide (e = 0) && decide (m % 2 = 1))
  else if m % 2 ^ (-e).toNat = 0 then some (decide (m / 2 ^ (-e).toNat % 2 = 1)) else none

/-- Delivery of a chosen result through `fout` (R96). -/
def fout32 (flush : Bool) (bits : Nat) : Res :=
  let g := bits % 2 ^ 31
  if flush && decide (g ≠ 0) && decide (g < 2 ^ 23) then ⟨bits - g, flagUF ||| flagIX⟩ else ⟨bits, 0⟩

/-- An exact finite result that is an FP32 value. -/
def exact32 (neg : Bool) (m : Nat) (e : Int) : Nat := (fp32.deliver .rne false false neg m e).bits

def one32 : Nat := 0x3F800000

/-- The odd part of a mantissa is 1. -/
def isPow2 (m : Nat) : Bool := decide (m = 2 ^ Nat.log2 m)

/-- A NaN that the device produces is the canonical one (R85). -/
def canon32 (w : Nat) : Nat := if 0x7F800000 < w % 2 ^ 31 then fp32.canon else w

/-- 1/x for finite non-zero x. Where it lies beyond the largest finite value, |x| ≤ 2^−128, no bound is given: the result is a free
value of the source (log 10). -/
def mufuRcp (x : Nat) (neg : Bool) (m : Nat) (e : Int) : Nat :=
  let k := -(Nat.log2 m : Int) - e
  if 128 ≤ k ∧ (128 < k ∨ isPow2 m = true) then canon32 (Config.mufuChoice 0 x % 2 ^ 32)
  else if isPow2 m && decide (-149 ≤ k) && decide (k ≤ 127) then exact32 neg 1 k
  else
    let q : Int := ((2 ^ 160 / m : Nat) : Int)
    let r : Enclosure := ⟨q, q + 1, -e - 160⟩
    let w := r.within (ulpExp r)
    chooseIn 0 x (if neg then ⟨-w.hi, -w.lo, w.e⟩ else w)

/-- 1/√x for finite x > 0. -/
def mufuRsq (x : Nat) (m : Nat) (e : Int) : Nat :=
  let k := (Nat.log2 m : Int) + e
  if isPow2 m && decide (k % 2 = 0) then exact32 false 1 (-(k / 2))
  else
    let m' := if e % 2 = 0 then m else 2 * m
    let e' := if e % 2 = 0 then e else e - 1
    let r : Int := isqrt (2 ^ 300 / m')
    let enc : Enclosure := ⟨r, r + 2, -(e' / 2) - 150⟩
    chooseIn 1 x (enc.within (ulpExp enc))

/-- √x rounded to nearest even. -/
def mufuSqrt (m : Nat) (e : Int) : Nat :=
  let m' := if e % 2 = 0 then m else 2 * m
  let e' := if e % 2 = 0 then e else e - 1
  let n := m' * 2 ^ 80
  let r := isqrt n
  exact32 false (2 * r + (if r * r = n then 0 else 1)) (e' / 2 - 41)

/-- 2^x for finite x < 128: never above the largest finite value (R118). -/
def mufuExp2 (x : Nat) (neg : Bool) (m : Nat) (e : Int) : Nat :=
  let i := toFixed neg m e / 2 ^ mufuS
  match intParity m e with
  | some _ =>
      if -149 ≤ i ∧ i ≤ 127 then exact32 false 1 i
      else chooseIn 3 x ((exp2Enclosure neg m e).within (-149))
  | none =>
      let r := exp2Enclosure neg m e
      let w := r.within (ulpExp r)
      let y := chooseIn 3 x w
      if y = fp32.infBits false then fp32.maxMag else y

/-- log2 x for finite x > 0, x not a power of two. -/
def mufuLg2 (x : Nat) (m : Nat) (e : Int) : Nat :=
  let k := (Nat.log2 m : Int) + e
  let r := lg2Enclosure m e
  if isPow2 m then exact32 (decide (k < 0)) k.natAbs 0
  else if k = 0 ∨ k = -1 then chooseIn 4 x (r.within (-23))
  else
    let a : Enclosure := if k < 0 then ⟨-r.hi, -r.lo, r.e⟩ else r
    let w := a.within (ulpExp a)
    chooseIn 4 x (if k < 0 then ⟨-w.hi, -w.lo, w.e⟩ else w)

/-- sin(π·x) for a finite x that is no multiple of 1/2. -/
def mufuSin (x : Nat) (neg : Bool) (m : Nat) (e : Int) : Nat :=
  let v := sinTurn (toFixed false m e % 2 ^ (mufuS + 1))
  chooseIn 5 x ((band (if neg then -v else v) (-mufuS)).within (-22))

/-- cos(π·x) for a finite x that is no multiple of 1/2. -/
def mufuCos (x : Nat) (m : Nat) (e : Int) : Nat :=
  let v := sinTurn ((toFixed false m e + 2 ^ (mufuS - 1)) % 2 ^ (mufuS + 1))
  chooseIn 6 x ((band v (-mufuS)).within (-22))

/-- tanh x for 0 < |x| < 9. -/
def mufuTanh (x : Nat) (neg : Bool) (m : Nat) (e : Int) : Nat :=
  let r := tanhEnclosure neg m e
  if decide ((Nat.log2 m : Int) + e < 0) then chooseIn 7 x (r.within (-22))
  else chooseIn 7 x (r.within (ulpExp r + 1))

/-- `mufu` of one lane (R117 to R119): the FP32 source bits, and the result with its flags. -/
def mufuRes (op : MufuOp) (flush : Bool) (bits : Nat) : Res :=
  let nan : Res := fp32.nanRes true
  match fp32.readFlush flush bits with
  | .nan s => fp32.nanRes s
  | .inf neg =>
      match op with
      | .rcp => ⟨fp32.signBit neg, 0⟩
      | .rsq => if neg then nan else ⟨0, 0⟩
      | .sqrt => if neg then nan else ⟨bits, 0⟩
      | .exp2 => if neg then ⟨0, 0⟩ else ⟨bits, 0⟩
      | .lg2 => if neg then nan else ⟨bits, 0⟩
      | .sin => nan
      | .cos => nan
      | .tanh => ⟨fp32.signBit neg + one32, 0⟩
  | .fin neg m e =>
      if m = 0 then
        match op with
        | .rcp => ⟨fp32.infBits neg, flagDZ⟩
        | .rsq => ⟨fp32.infBits neg, flagDZ⟩
        | .sqrt => ⟨fp32.signBit neg, 0⟩
        | .exp2 => ⟨one32, 0⟩
        | .lg2 => ⟨fp32.infBits true, flagDZ⟩
        | .sin => ⟨fp32.signBit neg, 0⟩
        | .cos => ⟨one32, 0⟩
        | .tanh => ⟨fp32.signBit neg, 0⟩
      else
        match op with
        | .rcp => fout32 flush (mufuRcp bits neg m e)
        | .rsq => if neg then nan else fout32 flush (mufuRsq bits m e)
        | .sqrt => if neg then nan else fout32 flush (mufuSqrt m e)
        | .exp2 =>
            if !neg && decide (7 ≤ (Nat.log2 m : Int) + e) then ⟨fp32.infBits false, flagOF⟩
            else fout32 flush (mufuExp2 bits neg m e)
        | .lg2 => if neg then nan else fout32 flush (mufuLg2 bits m e)
        | .sin =>
            match intParity m e with
            | some _ => ⟨fp32.signBit neg, 0⟩
            | none =>
                match intParity (2 * m) e with
                | some _ =>
                    -- x = n + 1/2; n = ⌊x⌋
                    ⟨fp32.signBit (decide (toFixed neg m e / 2 ^ mufuS % 2 = 1)) + one32, 0⟩
                | none => fout32 flush (mufuSin bits neg m e)
        | .cos =>
            match intParity m e with
            | some odd => ⟨fp32.signBit odd + one32, 0⟩
            | none =>
                match intParity (2 * m) e with
                | some _ => ⟨0, 0⟩
                | none => fout32 flush (mufuCos bits m e)
        | .tanh =>
            -- |x| ≥ 9
            if decide ((9 : Int) * 2 ^ mufuS ≤ toFixed false m e) then ⟨fp32.signBit neg + one32, 0⟩
            else fout32 flush (mufuTanh bits neg m e)

end Sys2Proof.Machine
end

