-- ==== Sys2Proof/Machine/Flags.lean ====
section
/-!
DEFINITION. Flag computations of the lane float instructions: each function gives the result of one lane with the
%status bits that it sets (R101, R114 to R116, R120 to R122).
-/

namespace Sys2Proof.Machine

/-- A computed result as a register value and its flags. -/
def Res.word (r : Res) : Word × BitVec 8 := (BitVec.ofNat 32 r.bits, r.flags)

/-- `fadd` in a format (R114). -/
def floatAdd (F : Fmt) (rm : Rm) (flush : Bool) (a b : Nat) : Res := F.add rm flush (F.readFlush flush a) (F.readFlush flush b)

/-- `fsub` in a format: the second operand negated, NaNs apart. -/
def floatSub (F : Fmt) (rm : Rm) (flush : Bool) (a b : Nat) : Res :=
  F.add rm flush (F.readFlush flush a) (F.readFlush flush b).neg

def floatMul (F : Fmt) (rm : Rm) (flush : Bool) (a b : Nat) : Res := F.mul rm flush (F.readFlush flush a) (F.readFlush flush b)

def floatFma (F : Fmt) (rm : Rm) (flush : Bool) (a b c : Nat) : Res :=
  F.fma rm flush (F.readFlush flush a) (F.readFlush flush b) (F.readFlush flush c)

/-- Two 16-bit results in one register, the flags of both (R120). -/
def packHalves (lo hi : Res) : Word × BitVec 8 := (BitVec.ofNat 32 (lo.bits + 2 ^ 16 * hi.bits), lo.flags ||| hi.flags)

/-- The low or the high half of a register. -/
def halfOf (hi : Bool) (a : Word) : Nat := if hi then a.toNat / 2 ^ 16 else a.toNat % 2 ^ 16

/-- Table 5.4, the comparisons. -/
def floatCompare (op : FCmpOp) (flush : Bool) (a b : Word) : Bool × BitVec 8 :=
  let x := fp32.readFlush flush a.toNat
  let y := fp32.readFlush flush b.toNat
  let un := x.isNan || y.isNan
  let quietIV := flagIf (x.isSnan || y.isSnan) flagIV
  let anyIV := flagIf un flagIV
  match op with
  | .eq => (!un && x.eq y, quietIV)
  | .ne => (un || !x.eq y, quietIV)
  | .lt => (!un && x.lt y, anyIV)
  | .le => (!un && (x.lt y || x.eq y), anyIV)
  | .gt => (!un && y.lt x, anyIV)
  | .ge => (!un && (y.lt x || x.eq y), anyIV)
  | .num => (!un, quietIV)
  | .nan => (un, quietIV)

/-- The class bit of an FP32 encoding (R116). -/
def floatClass (a : Word) : Nat :=
  match fp32.read a.toNat with
  | .nan true => 0
  | .nan false => 1
  | .inf true => 2
  | .inf false => 9
  | .fin neg m _ =>
      if m = 0 then (if neg then 5 else 6)
      else if m < 2 ^ 23 then (if neg then 4 else 7)
      else (if neg then 3 else 8)

/-- `cvt` (R97, R121, R122). -/
def convert (op : CvtOp) (rm : Rm) (inf flush : Bool) (a : Word) : Word × BitVec 8 :=
  let f := fp32.readFlush flush a.toNat
  (match op with
    | .f32i32 => intToF32 rm a.toInt
    | .f32n32 => intToF32 rm a.toNat
    | .i32f32 => f32ToInt rm (-2 ^ 31) (2 ^ 31 - 1) f
    | .n32f32 => f32ToInt rm 0 (2 ^ 32 - 1) f
    | .f32h16 => widen (fp16.readFlush flush (a.toNat % 2 ^ 16))
    | .h16f32 => narrow fp16 rm inf flush f
    | .f32bf16 => widen (Machine.bf16.readFlush flush (a.toNat % 2 ^ 16))
    | .bf16f32 => narrow Machine.bf16 rm inf flush f
    | .e4m3f32 => narrow Machine.e4m3 rm inf false f
    | .e5m2f32 => narrow Machine.e5m2 rm inf false f
    | .f32e4m3 => widen (Machine.e4m3.read (a.toNat % 2 ^ 8))
    | .f32e5m2 => widen (Machine.e5m2.read (a.toNat % 2 ^ 8))
    | .t8f32 => toT8 rm f
    | .f32t8 => fromT8 (a.toNat % 2 ^ 8)
    | .i8i32 => clampI8 a.toInt
    | .frnd => roundF32 rm (fp32.flushBits flush a.toNat) f).word

end Sys2Proof.Machine
end

