-- ==== Sys2Proof/Machine/State.lean ====
section
/-!
DEFINITION. The state of the machine, as plain data; the reasons a step stops; the state after reset.
Every array is a `Map` with a stated default, so that reading and writing are total.
-/

namespace Sys2Proof.Machine

/-! ### Registers with poison (R50, R54) -/

/-- A poison tag: the index of a poison-table entry, and whether the load itself wrote it and nothing has written the
register since (the register's bit of the intact mask, R257). -/
structure Tag where
  idx : BitVec 3
  intact : Bool
  deriving DecidableEq, Repr

/-- A register value with its poison tag. -/
structure Tagged (α : Type) where
  val : α
  tag : Option Tag
  deriving DecidableEq, Repr

/-- A clear value. -/
abbrev clear {α : Type} (x : α) : Tagged α := ⟨x, none⟩

inductive LaneCond where
  | never | live | exited
  deriving DecidableEq, Repr

/-! ### Issues, waits, faults of one party -/

/-- The issue that an instruction executes in: who issues, the execution set (bit 0 for a sequencer), the address of
the first word, the length in words, and the words. -/
structure Issue where
  team : Nat
  party : Party
  lanes : BitVec 32
  pc : BitVec 56
  len : Nat
  w1 : Word
  w2 : Word
  deriving DecidableEq, Repr

/-- A lane held in `waitv` (R75, R273): when it started, the last value read, the instruction with its issue, and the
address, comparand and timeout, which it read once. -/
structure WaitvState where
  start : Nat
  last : Word
  instr : Instr
  issue : Issue
  addr : Nat
  b : Word
  timeout : Word
  deriving DecidableEq, Repr

/-- A lane that has arrived at a convergent instruction (R77, R80): when, and the instruction with its issue. -/
structure Arrival where
  since : Nat
  instr : Instr
  issue : Issue
  deriving DecidableEq, Repr

/-- One lane (Table 3.1). -/
structure Lane where
  pc : BitVec 56
  v : Map (Tagged Word)
  k : Map (Tagged Bool)
  status : BitVec 8
  cond : LaneCond
  /-- the loop-buffer window (R57) -/
  winBase : Nat
  winEnd : Nat
  /-- clk spent waiting without executing (R60) -/
  age : Nat
  /-- the lane's arrival at the convergent instruction at its PC -/
  arrived : Option Arrival
  waitv : Option WaitvState
  /-- v registers whose load has not arrived (R35), and those that the loads and atomics which have not name (R130, R266) -/
  pend : List Nat
  uses : List Nat
  /-- v registers that a `waitv` which a freeze has abandoned reads when it executes again (R76, R266) -/
  owes : List Nat
  /-- v registers of flexible units that have been reclaimed: the lane's part of the spill area (R129) -/
  spill : Map (Tagged Word)
  deriving DecidableEq, Repr

/-- A lane that no launch covers. -/
def Lane.unlaunched : Lane := ⟨0, [], [], 0, .never, 0, 0, 0, none, none, [], [], [], []⟩

/-- An instruction that waits, to execute again from its start (R136). -/
structure Wait where
  instr : Instr
  issue : Issue
  since : Nat
  deriving DecidableEq, Repr

/-- An entry of a group's poison table (Table 7.8, R258). Its intact mask is the view of the registers' tags (R257). -/
structure PoisonEntry where
  spent : Bool
  pc : BitVec 56
  w1 : Word
  w2 : Word
  lanes : BitVec 32
  /-- the failing address of each lane -/
  addrs : Map Nat
  cause : Nat
  /-- outside the table: the address whose translation failed in each lane, the cause of R340, when the load issued, and its execution
  set -/
  pages : Map Nat
  walkCause : Nat
  issued : Nat
  set : BitVec 32
  deriving DecidableEq, Repr

/-- Why a descheduled group waits for the driver (R256). -/
inductive FaultKind where
  /-- a consumer read a poisoned operand -/
  | poison
  /-- the translation of a store, atomic or `tdesc` failed -/
  | store
  /-- a mapped-region write-back is held -/
  | writeBack
  deriving DecidableEq, Repr

/-- A replayable fault: the consuming instruction and the pages that failed; `failed`: the driver has answered that a page cannot be
resolved while the team did not run. -/
structure PendingFault where
  kind : FaultKind
  instr : Instr
  issue : Issue
  pages : List Nat
  failed : Bool
  deriving DecidableEq, Repr

/-- A trap record (Table 11.2). -/
structure Record where
  pc : Nat
  w1 : Word
  w2 : Word
  code : Byte
  party : Nat
  flags : Byte
  index : Byte
  lanes : BitVec 32
  addr : Nat
  rotgen : Word
  tile : Nat
  gtime : Nat
  savedS : Map DWord
  lastIssued : Nat
  completed : Word
  lanePc : Map Nat
  deriving DecidableEq, Repr

/-- One group of a team (R50, R124 to R137, R262). -/
structure Group where
  lanes : Map Lane
  s : Map (Tagged DWord)
  role : Nat
  /-- the `regq` demand (R149) and the granted flexible units with their grant times (R129, R130) -/
  demand : Nat
  granted : BitVec 28
  grantTime : Map Nat
  /-- units that a `regq` has released and that an instruction not yet complete still uses (R266) -/
  releasing : BitVec 28
  poison : Map PoisonEntry
  replayable : Bool
  handler : Bool
  suspended : Bool
  fault : Option PendingFault
  wait : Option Wait
  /-- clk at which the group yielded (R151) -/
  yielded : Option Nat
  /-- clk spent ready without issuing (R137) -/
  arbWait : Nat
  /-- widest scope of a `fence.light` of the group (R319) -/
  light : Option Scope
  record : Option Record
  /-- s registers whose `uld` has not arrived (R35) -/
  spend : List Nat
  /-- events that heavy fences put before what the group does from now on, as its owner: for every location, and for
  those on shared pages only (R306, R319) -/
  fenced : List Nat
  fencedShared : List Nat
  deriving DecidableEq, Repr

def Group.absent : Group :=
  ⟨[], [], 0, 0, 0, [], 0, [], false, false, false, .none, .none, .none, 0, .none, .none, [], [], []⟩

inductive StreamState where
  | idle | running | ended | stopped (code : Byte)
  deriving DecidableEq, Repr

/-- A chain of the matrix stream (R215, R216). -/
inductive Chain where
  | closed | unordered | ordered
  deriving DecidableEq, Repr

/-- An error found after issue, whose stream has still to stop (R218): the failing instruction's issue, the code, and which of the later
instructions complete. -/
structure Failing where
  issue : Issue
  code : Nat
  completed : Word
  deriving DecidableEq, Repr

/-- A sequencer (R139, R140). -/
structure Stream where
  pc : BitVec 56
  s : Map (Tagged DWord)
  status : BitVec 8
  state : StreamState
  /-- role of the group that forked the stream (R44) -/
  role : Nat
  chain : Chain
  wait : Option Wait
  record : Option Record
  /-- address of the last instruction that has issued before the one tried last, and of that one (R218) -/
  lastPc : Nat
  tried : Nat
  /-- log events of the `fork` that started the stream and of its end instruction (R308) -/
  forkEv : List Nat
  endEv : List Nat
  /-- s registers whose `uld` has not arrived: the stream's scoreboard (R35, R139) -/
  spend : List Nat
  /-- the stream is to stop once what had started has completed (R218) -/
  failing : Option Failing
  deriving DecidableEq, Repr

def Stream.absent : Stream := ⟨0, [], 0, .idle, 0, .closed, .none, .none, 0, 0, [], [], [], .none⟩

/-- A page-table leaf (Table 20.5) as it translates: a translation in force. -/
structure Leaf where
  pa : Nat
  size : Nat
  location : Nat
  placement : Nat
  dieScope : Bool
  x : Bool
  w : Bool
  r : Bool
  deriving DecidableEq, Repr

/-! ### The write-set log (spec chapter 18) -/

/-- An agent of R303, with where it stands for the scope instances of R305. -/
structure Agent where
  ctx : Nat
  device : Nat
  die : Nat
  cluster : Nat
  team : Nat
  /-- 0 to 15 a group, 16 and 17 the sequencers, 18 the host, 19 a peer, 20 the command processor -/
  party : Nat
  deriving DecidableEq, Repr

/-- The order class of an event (Table 18.1). -/
inductive EvClass where
  | plain | marked | acquire | release | ar | sc
  | fenceAcq | fenceRel | fenceSc | fenceHeavy | fenceLight
  | arrive | wait | fork | rdv | streamEnd | modeSwitch | copyIssue | launch | completion
  deriving DecidableEq, Repr

/-- One event: at most one single-copy-atomic unit of one location. The orders of chapter 18 are computed from the log. -/
structure MEvent where
  id : Nat
  /-- place in the agent's program order: events of one issue share it and are unordered (R307) -/
  stamp : Nat
  agent : Agent
  cls : EvClass
  scope : Scope
  isRmw : Bool
  isEngine : Bool
  /-- bytes read -/
  rd : List Nat
  /-- bytes written, the value before and the value after -/
  wr : List (Nat × Byte × Byte)
  /-- place of a read-modify-write (R171, R317); first byte of the weave of a mode switch -/
  place : Nat
  /-- predecessors that no access makes: barriers, streams, launches, engines (R308); then those that order shared pages only -/
  extra : List Nat
  extraShared : List Nat
  /-- predecessors for the bytes that they access, and for no other location (R322) -/
  onBytes : List Nat
  /-- the location lies on a die-private page (R305) -/
  diePriv : Bool
  performed : Bool
  /-- the write that each byte read came from; a byte not listed came from the initial write -/
  rf : List (Nat × Nat)
  /-- identifier of the first event after the value came; 0 while it has not (R35, R312) -/
  arrived : Nat
  /-- place in the sc order of its instance: twice the identifier of the event before which it stands, or one more for an event that
  stands at its own; 0 while the value has not come (R313) -/
  scAt : Nat
  deriving DecidableEq, Repr

/-- Where an access lands: a scratchpad, memory under a leaf, or private memory of lane `l` of group `g`. -/
inductive Spot where
  | pad (team off : Nat)
  | mem (key : Nat) (leaf : Leaf)
  | priv (team g l off : Nat)
  deriving DecidableEq, Repr

/-- An atomic of one lane that has issued and not been performed: its issue and place in program order, the operation, whether it
returns a value, the location, its operands, and the v registers that the instruction names. -/
structure LateRmw where
  issue : Issue
  stamp : Nat
  op : AtomX
  ret : Bool
  spot : Spot
  b : Nat
  c : Nat
  uses : List Nat
  deriving DecidableEq, Repr

/-- A load or atomic whose value has not come: who issued it, the destination with its width, and the log events of a load's units
(R35). `lane` is none for a `uld`. -/
structure LateLoad where
  team : Nat
  party : Party
  lane : Option Nat
  dest : Nat
  width : Width
  units : List Nat
  rmw : Option LateRmw
  deriving DecidableEq, Repr

/-! ### The team (spec chapters 06 to 11) -/

/-- Table 8.3. The switching states hold the clk at which they end. -/
inductive WeaveMode where
  | storage
  | toCompute (ends : Nat)
  | compute
  | toStorage (ends : Nat)
  deriving DecidableEq, Repr

/-- A weave: mode, weight width 1 to 8, kind, scale store (entry (g, c) at 1024g + c, default 0x007F). -/
structure Weave where
  mode : WeaveMode
  n : Nat
  bin1 : Bool
  scales : Map (BitVec 16)
  deriving DecidableEq, Repr

def Weave.launch : Weave := ⟨.storage, 8, false, []⟩

/-- One row of a push slot (R199). -/
structure SlotRow where
  q : List Int
  shift : Int
  scale : Nat
  sum : Int
  deriving DecidableEq, Repr

def SlotRow.zero : SlotRow := ⟨List.replicate 32 0, 0, 0, 0⟩

/-- A push slot (R199). -/
structure Slot where
  rows : Map SlotRow
  filled : BitVec 4
  fw : Word
  broken : Bool
  deriving DecidableEq, Repr

def Slot.zero : Slot := ⟨[], 0, 0, false⟩

/-- How far an issued matrix instruction has come. -/
inductive EnginePhase where
  | issued | started | moved | done
  deriving DecidableEq, Repr

/-- A matrix instruction or `marrive` in the matrix engine (R196, R217, R218), with what it read at issue, and its position
(R219). -/
structure EngineOp where
  id : Nat
  instr : Instr
  issue : Issue
  /-- bank base or address read from its A register, and the value of its B register -/
  a : Nat
  b : Nat
  handle : BitVec 256
  chain : Chain
  phase : EnginePhase
  /-- rows whose elements are all written; of a `wload`, cell writes and block reads made -/
  rows : Nat
  /-- passes of an `mma` done, each of one row on one segment -/
  seg : Nat
  /-- block integers formed and not yet added; the factors of an `accsc`; the block that a `wload` has read -/
  blocks : Map Int
  /-- elements of the row in progress that are written -/
  elems : List Nat
  /-- slots that an `mma` read at issue -/
  acts : List Slot
  /-- the page translations of a `wload`, in force until it completes (R211) -/
  pages : Map Leaf
  /-- place of the issue in program order (R307) -/
  stamp : Nat
  /-- array cycle from which its turn has come (R275) -/
  ready : Nat
  deriving DecidableEq, Repr

/-- A copy in flight (R220 to R234): the values read at issue, the page translations of its probe, the sectors done,
the indices read, the out-of-range entries, and the events of its sector writes. -/
structure Copy where
  id : Nat
  instr : Instr
  issue : Issue
  d : Nat
  a : Nat
  b : Nat
  d1 : Nat
  d2 : Nat
  handle : BitVec 256
  pages : Map Leaf
  total : Nat
  done : List Nat
  idx : Map Nat
  oor : Map Bool
  started : Nat
  /-- %gtime at issue, and the number of a `coll` among its team's in its communicator -/
  issuedAt : Nat
  round : Nat
  /-- frames accepted and acknowledged of a `send`, and %gtime of each frame's acceptance -/
  accepted : List Nat
  acked : List Nat
  sentAt : Map Nat
  /-- frames whose sector writes have been performed at their destination (R376) -/
  landed : List Nat
  /-- what the engine has read once for several uses: lines of a multicast, contributions to a collective -/
  data : Map Nat
  /-- place of the issue in program order; log events of the issue, and of the sector writes so far -/
  stamp : Nat
  issueEv : List Nat
  events : List Nat
  /-- events on the buffers of a collective that lie before what follows its completion there (R322) -/
  around : List Nat
  complete : Bool
  deriving DecidableEq, Repr

/-- A party's token at a named barrier (R243); `waiting` is a wait begun with no token (saved as none). -/
inductive Token where
  | none | pending | waiting
  | released (arrivals : List Nat)
  deriving DecidableEq, Repr

/-- A named barrier (R243), with the arrival events of the running phase. -/
structure NamedBar where
  phase : BitVec 4
  expected : Nat
  pending : Nat
  arrivals : List Nat
  deriving DecidableEq, Repr

/-- A stage queue (R131): depth 0 when undeclared; each entry holds 32 lane values. -/
structure StageQueue where
  depth : Nat
  producer : Nat
  consumer : Nat
  entries : List (Map Word)
  deriving DecidableEq, Repr

/-- A map descriptor (Table 7.2), sizes and offsets in bytes. -/
structure MapDesc where
  size : Nat
  offset : Nat
  rtype : ReqType
  base : Nat
  deriving DecidableEq, Repr

/-- A role of the kernel (R125, R128, Table 23.5). -/
structure RoleDesc where
  entry : Nat
  groups : Nat
  quota : Nat
  budget : Nat
  deriving DecidableEq, Repr

/-- Where a team stands in its life (R261 to R263, R284, R293, R362): `moving` from the move of a rotation to its release, with the
team that it changes places with; `halted` for a save; `arriving` when restored, until the rest of its gang is. -/
inductive Residency where
  | absent | resident | moving (partner : Option Nat) | halted | saved (area : Nat) | arriving | ended
  deriving DecidableEq, Repr

/-- A team's place in its gang (R282, R283). -/
structure Gang where
  size : Nat
  index : Nat
  baseSlot : Nat
  deriving DecidableEq, Repr

/-- An issue in the operand collector of a quadrant (R271): its group, the broadcast PC (none for buffered lanes alone), the PCs with
the lanes that run from their buffers beside it, whether it is a uniform word, the v registers that its instructions name, and the
grants that it still needs. -/
structure Picked where
  group : Nat
  pc : Option (BitVec 56)
  bufs : List (BitVec 56 × BitVec 32)
  uniform : Bool
  regs : List Nat
  need : Nat
  deriving DecidableEq, Repr

/-- A team: identity, residency, parties and everything its core holds for it. -/
structure Team where
  ctx : Nat
  grid : Nat
  x : Nat
  y : Nat
  z : Nat
  laneCount : Nat
  privSize : Nat
  nGroups : Nat
  roles : Map RoleDesc
  cluster : Nat
  slot : Nat
  tile : Nat
  rotgen : Word
  gang : Option Gang
  residency : Residency
  residentSince : Nat
  lastRotated : Nat
  /-- gtime since which no party has issued, for the watchdog (R260) -/
  idleSince : Nat
  waitingSince : Nat
  /-- gtime of the freeze that holds the team -/
  frozenAt : Nat
  /-- the team's save area in device memory, with its spill area (R129, R262) -/
  area : Option Nat
  /-- the operand collectors by quadrant, oldest instruction first (R271) -/
  collector : Map (List Picked)
  /-- by quadrant, the clk in which it last handed grants out, and how many in that clk (R271) -/
  dealt : Map (Nat × Nat)
  /-- clk of the last pick: lane and uniform picks of quadrant q at 2q and 2q + 1, group g at 8 + g, the sequencers at 24 and 25 (R136) -/
  picks : Map Nat
  /-- array cycle up to which the matrix engine's work is done (R275) -/
  acDone : Nat
  groups : Map Group
  matrix : Stream
  copy : Stream
  pad : Map Byte
  padPoison : Map Bool
  /-- cells that a soft error has flipped and that no write has set since (log 35): bit j of offset o at 8o + j (R190) -/
  flips : Map Bool
  weaves : Map Weave
  slots : Map Slot
  banks : BitVec 16
  bankData : Map Word
  handles : Map (BitVec 256)
  engine : List EngineOp
  nextOp : Nat
  copies : List Copy
  bars : Map NamedBar
  tokens : Map Token
  txbArrivals : Map (List Nat)
  txbHistory : Map (List Nat)
  queues : Map StageQueue
  levels : Map Nat
  levelTime : Nat
  maps : List MapDesc
  filled : Map Bool
  dirty : Map Bool
  /-- private bytes of live lanes held in L1: lane 32g + l, byte o, at (32g + l) × 2^20 + o -/
  priv : Map Byte
  /-- private lines filled into L1: group g, word w, at 2^18 × g + w (R159) -/
  privFilled : Map Bool
  /-- the bytes of those lines as they were filled; a byte in `priv` has been written since -/
  privClean : Map Byte
  /-- request type of each global line held in L1 (R161) -/
  l1 : Map ReqType
  /-- the core TLB, most recently used first -/
  tlb : Map Leaf
  /-- first trap code of a stream discarded stopped -/
  discarded : Option Byte
  /-- the launch event of the team's grid in the log, which lies before every event of the grid (R323) -/
  launchEv : List Nat
  deriving DecidableEq, Repr

def Team.absent : Team where
  ctx := 0
  grid := 0
  x := 0
  y := 0
  z := 0
  laneCount := 0
  privSize := 0
  nGroups := 0
  roles := []
  cluster := 0
  slot := 0
  tile := 0
  rotgen := 0
  gang := .none
  residency := .absent
  residentSince := 0
  lastRotated := 0
  idleSince := 0
  waitingSince := 0
  frozenAt := 0
  area := .none
  collector := []
  dealt := []
  picks := []
  acDone := 0
  groups := []
  matrix := Stream.absent
  copy := Stream.absent
  pad := []
  padPoison := []
  flips := []
  weaves := []
  slots := []
  banks := 0
  bankData := []
  handles := []
  engine := []
  nextOp := 0
  copies := []
  bars := []
  tokens := []
  txbArrivals := []
  txbHistory := []
  queues := []
  levels := []
  levelTime := 0
  maps := []
  filled := []
  dirty := []
  priv := []
  privFilled := []
  privClean := []
  l1 := []
  tlb := []
  discarded := .none
  launchEv := []

/-! ### Contexts, clusters, the die and the package -/

/-- A peer window of a context (R375). -/
structure PeerWindow where
  package : Nat
  turn : DWord
  base : Nat
  deriving DecidableEq, Repr

/-- A context (Table 23.1), keyed by its tag. -/
structure Context where
  mode : Nat
  device : Nat
  rotation : Nat
  flush : Bool
  watchdog : Nat
  root : Nat
  handler : Nat
  trapBase : Nat
  routines : Nat
  quantum : Nat
  privBase : Nat
  windows : Map PeerWindow
  deriving DecidableEq, Repr

def Context.absent : Context := ⟨0, 0, 0, false, 100, 0, 0, 0, 0, 200, 0, []⟩

/-- A control of a slice: its value, the cycle from which it holds (a clk; of the matrix step an array cycle), the values before it with
theirs, the newest first, the %gtime of the last change, and the governor's target (R270, R275, R364). -/
structure Control where
  val : Nat
  since : Nat
  past : List (Nat × Nat)
  changed : Nat
  target : Nat
  deriving DecidableEq, Repr

/-- A control that has stood at a value. -/
def Control.steady (v : Nat) : Control := ⟨v, 0, [], 0, v⟩

/-- The controls of a slice (R267 to R276): clock ratio m/8, operand-collector grant step and matrix throttle step. -/
structure Slice where
  ratio : Control
  grant : Control
  matrix : Control
  deriving DecidableEq, Repr

def Slice.reset : Slice := ⟨.steady 8, .steady 0, .steady 0⟩

/-- A valid entry of a cluster's relocation table, keyed by its tile (Table 15.5): the moving bit with the clk since which it
is set, the context, the slot, and the team that stands there. -/
structure RelocEntry where
  moving : Option Nat
  ctx : Nat
  slot : Nat
  team : Nat
  deriving DecidableEq, Repr

/-- A sector or less that the relocation buffer holds for a slot that moves (R297): the team to write to, the bytes with their
offsets, whether a copy writes them poisoned and with which barrier flags, the event to be, and the copy with its piece, if any. -/
structure HeldWrite where
  team : Nat
  bytes : List (Nat × Byte)
  poison : Bool
  flags : Nat
  ev : MEvent
  copy : Option (Nat × Nat × Nat)
  deriving DecidableEq, Repr

/-- An entry of a cluster's miss table (R341): the context and page, the teams whose accesses it serves, and the one result of its walk
(none: an invalidation has dropped it). -/
structure Miss where
  ctx : Nat
  page : Nat
  teams : List Nat
  leaf : Option Leaf
  deriving DecidableEq, Repr

/-- What a cluster holds besides its teams. -/
structure Cluster where
  /-- the relocation table, and the relocation buffer, oldest first (R284, R298) -/
  reloc : Map RelocEntry
  buffer : List HeldWrite
  /-- the lines in each set of the L2, the most recently used first, keyed by 1024 × slice + set (R278) -/
  ways : Map (List Nat)
  /-- lines pinned as the write target of a copy engine: line, team and copy (R227) -/
  pins : List (Nat × Nat × Nat)
  /-- leaves cached by context, the most recently used of each set first -/
  tlb : Map Leaf
  /-- failed pages awaiting the driver, with their cause (R342) -/
  filter : Map Nat
  /-- the miss table, and the misses that wait for a free entry, in the order in which they began to: context, page, team (R341) -/
  misses : List Miss
  waiters : List (Nat × Nat × Nat)
  slices : Map Slice
  /-- an uncorrectable relocation error has stopped the cluster (R288) -/
  stopped : Bool
  /-- %gtime of the last rotation consideration and of the last dispatch examination (R290, R362) -/
  considered : Nat
  examined : Nat
  deriving DecidableEq, Repr

def Cluster.reset : Cluster := ⟨[], [], [], [], [], [], [], [], [], false, 0, 0⟩

/-- One page of a fault batch (R343): access bits are read 1, write 2, atomic 4, write-back 8. -/
structure FaultRec where
  ctx : Nat
  page : Nat
  cause : Nat
  access : Nat
  /-- the parties that wait on it -/
  parties : List Nat
  deriving DecidableEq, Repr

/-- The fault batch of a presented device: the open records, when the first was made, the sequence number, and the
records delivered and not yet resolved, with their batch (R343, R344). -/
structure Batch where
  records : List FaultRec
  opened : Nat
  seq : Nat
  delivered : List (Nat × FaultRec)
  deriving DecidableEq, Repr

def Batch.empty : Batch := ⟨[], 0, 0, []⟩

/-- A grid: its launch record (Table 23.3) and kernel descriptor (Table 23.5), and how far it has come (R355 to R357). -/
structure Grid where
  ctx : Nat
  queue : Nat
  event : Nat
  priority : Nat
  gx : Nat
  gy : Nat
  gz : Nat
  laneCount : Nat
  privSize : Nat
  args : Nat
  dataBase : Nat
  maps : List MapDesc
  nGroups : Nat
  gang : Nat
  roles : Map RoleDesc
  queues : Map StageQueue
  deps : List Nat
  /-- %gtime at which the record reached the head of its queue -/
  headSince : Nat
  dispatched : Bool
  /-- teams handed to clusters so far, and teams ended -/
  placed : Nat
  ended : Nat
  /-- the status with which the grid was ended (R255), and that of its first stream discarded stopped (R140) -/
  status : Option Word
  discarded : Option Word
  completed : Bool
  /-- %energy, and %gtime of its last update (R366) -/
  energy : Nat
  energyAt : Nat
  launchEv : List Nat
  /-- the address of the kernel descriptor -/
  kernel : Nat
  deriving DecidableEq, Repr

def Grid.absent : Grid :=
  ⟨0, 0, 0, 0, 0, 0, 0, 0, 0, 0, 0, [], 0, 1, [], [], [], 0, false, 0, 0, .none, .none, true, 0, 0, [], 0⟩

/-- A range record that the hub writes to a context's fault ring (Table 20.6). -/
structure RangeRec where
  start : Nat
  pages : Nat
  ctx : Nat
  cause : Nat
  access : Nat
  waiting : Nat
  batch : Nat
  deriving DecidableEq, Repr

/-! ### Compute dies, memory dies, links (R335, R336, R353, R354, R364 to R371) -/

/-- A compute die. The SRAM rail is counted in 5 mV steps above the compute floor (R367). -/
structure Die where
  gated : Bool
  waking : Bool
  dead : Bool
  rail : Int
  nominal : Int
  nominalUntil : Nat
  /-- the set point of the corrected-error rate is 2 to the minus this -/
  setPoint : Nat
  railAt : Nat
  corrected : Nat
  /-- errors of clean lines that only the die's count records (R345) -/
  errors : Nat
  /-- offset of the die's %gtime from the reference, and the reading it holds so as not to run backward (R335) -/
  offset : Int
  held : Nat
  drifted : Bool
  resync : Bool
  lastTiming : Nat
  /-- caching agents of a dead die that have rejoined (R371) -/
  rejoined : List CacheAgent
  deriving DecidableEq, Repr

def Die.reset : Die := ⟨false, false, false, 0, 0, 0, 36, 0, 0, 0, 0, 0, false, false, 0, []⟩

structure MemDie where
  gated : Bool
  failed : Bool
  deriving DecidableEq, Repr

def MemDie.reset : MemDie := ⟨false, false⟩

/-- A die-to-die link (R370): low power, and the times of the running wake attempt and of the first one. -/
structure Link where
  low : Bool
  waking : Option Nat
  first : Nat
  lastUse : Nat
  deriving DecidableEq, Repr

def Link.reset : Link := ⟨false, .none, 0, 0⟩

/-- The two allocation filters of a memory-side cache slice, of 8,192 bits each, and %gtime of their last swap (R353). -/
structure Bloom where
  current : BitVec 8192
  older : BitVec 8192
  swapped : Nat
  deriving DecidableEq, Repr

def Bloom.reset : Bloom := ⟨0, 0, 0⟩

/-! ### Coherence (R329 to R334) -/

inductive L2State where
  | m | e | s | i
  deriving DecidableEq, Repr

/-- The record of a word of a line held in a cluster L2 (Table 20.2). `poisoned` is what it reads as in a poisoned sector (R281), whose bit
memory keeps. -/
inductive WordRec where
  | clean | l2dirty
  | l1owned (team : Nat)
  | poisoned
  deriving DecidableEq, Repr

inductive DirState where
  | i
  | s (sharers : List CacheAgent)
  | x (holder : CacheAgent)
  deriving DecidableEq, Repr

/-- A request at a home: reading shared, or for ownership with or without a write pending. -/
structure DirReq where
  agent : CacheAgent
  own : Bool
  write : Bool
  deriving DecidableEq, Repr

/-- A lease of a privatised line (R332 to R334): the core that holds it, its end in global time, the offsets of the bytes that the core
may write, and of those that it has written and not written back; `lost`: its holder has drifted since the grant. -/
structure Lease where
  core : Nat
  ends : Nat
  mask : List Nat
  dirty : List Nat
  lost : Bool
  deriving DecidableEq, Repr

/-- A directory entry: its state, the request in progress and those that wait behind it, the agents whose snoop has not
reached them, the answers that have not reached the home (whether the agent keeps a copy), the agents whose write-back
crossed their snoop, the recent passes of X between holders, and the leases (R332). -/
structure DirEntry where
  state : DirState
  queue : List DirReq
  snoops : List CacheAgent
  answers : List (CacheAgent × Bool)
  crossed : List CacheAgent
  passes : List Nat
  leases : List Lease
  deriving DecidableEq, Repr

def DirEntry.absent : DirEntry := ⟨.i, [], [], [], [], [], []⟩

/-! ### Queues, fabric, boot (R355, R372 to R384) -/

/-- Registers of a queue block (Table 24.5). -/
structure QueueRegs where
  base : Nat
  enable : Bool
  size : Nat
  tail : Nat
  head : Nat
  vector : Nat
  deriving DecidableEq, Repr

def QueueRegs.reset : QueueRegs := ⟨0, false, 0, 0, 0, 0⟩

/-- A launch record on its way: its bytes, and the log event of the launch or of the host's tail write (R323). -/
structure LaunchRec where
  bytes : List Byte
  ev : List Nat
  deriving DecidableEq, Repr

/-- A hardware queue: the context it is assigned to, its records, the grid that stands at its head, and %gtime at which what stands first
reached the head (R355). -/
structure HostQueue where
  owner : Option Nat
  records : List LaunchRec
  head : Option Nat
  since : Nat
  deriving DecidableEq, Repr

def HostQueue.reset : HostQueue := ⟨.none, [], .none, 0⟩

/-- A record of the black box (R383). -/
structure BoxRec where
  gtime : Nat
  cls : Nat
  unit : Nat
  detail : List Byte
  deriving DecidableEq, Repr

/-- What the device last answered to its host or to the board: the bytes, and the EP bit (R387). -/
structure Reply where
  bytes : List Byte
  poisoned : Bool
  deriving DecidableEq, Repr

/-- A remote sector or read that a frame brought and whose translation failed: held until the driver resolves it (R376). -/
structure HeldFrame where
  frame : Frame
  page : Nat
  deriving DecidableEq, Repr

/-- Table 0.1. -/
inductive OrderingCode where
  | izg8cP | izg8cM | izg6cP
  deriving DecidableEq, Repr

/-- The package outside its dies. -/
structure Package where
  code : OrderingCode
  index : Nat
  /-- power cap in W and current ramp limit in A/µs (R364, R365) -/
  cap : Nat
  ramp : Nat
  /-- the temperature estimate from which a tile counts as hot: the governor's (R290, R364) -/
  hot : Nat
  /-- units in service (R374): retired local ports, Sett ports and packages -/
  retiredPorts : List Nat
  retiredSett : List Nat
  retiredPackages : List Nat
  /-- contexts whose images are being regenerated, each with the images that are complete, by the base of their data (R22) -/
  holds : List (Nat × List Nat)
  /-- frames that have left this package, newest last -/
  sent : List Frame
  heldFrames : List HeldFrame
  /-- participants of each communicator by rank, keyed by context × 2^32 + number (R379) -/
  comms : Map (List Member)
  /-- colls issued by each team in each communicator, keyed by (context × 2^32 + number) × 2^32 + team -/
  collCount : Map Nat
  /-- the firmware image, whether the ROM verified it, and its measurement (R382) -/
  image : List Byte
  verified : Bool
  measurement : Nat
  blackBox : List BoxRec
  reply : Reply
  aer : Nat
  /-- MSI-X vectors signalled and not yet taken; those that the host has masked in the table of BAR4, and those pending there (R380) -/
  msix : List Nat
  masked : List Nat
  pending : List Nat
  /-- bytes of device memory that BAR2 shows (R380) -/
  aperture : Nat
  /-- refresh allowance of each channel (R354) -/
  refresh : Map Nat
  deriving DecidableEq, Repr

def Package.reset : Package where
  code := .izg8cP
  index := 0
  cap := 1800
  ramp := 50
  hot := 0
  retiredPorts := []
  retiredSett := []
  retiredPackages := []
  holds := []
  sent := []
  heldFrames := []
  comms := []
  collCount := []
  image := []
  verified := true
  measurement := 0x38B060A751AC96384CD9327EB1B1E36A21FDB71114BE07434C0CC7BF63F6E1DA274EDEBFE76F65FBD51AD2F14898B95B
  blackBox := []
  reply := ⟨[], false⟩
  aer := 0
  msix := []
  masked := []
  pending := []
  aperture := 2 ^ 39
  refresh := []


/-- The compute dies that are there (R1, R2). -/
def OrderingCode.present : OrderingCode → BitVec 8
  | .izg8cP | .izg8cM => 0xFF
  | .izg6cP => 0x3F

def Package.present (p : Package) : BitVec 8 := p.code.present

/-! ### The agenda, and the state -/

/-- A line that leaves L1 for another: a private one, group g and word w at 2^18 × g + w, or a global one (R160, R161). -/
inductive Victim where
  | priv (line : Nat)
  | glob (line : Nat)
  deriving DecidableEq, Repr

/-- What the host does at its end of the link besides the accesses that the opcode table names (R380, R381): a store of one of its threads
to its own memory; a read of a window of BAR0 or BAR4, 8 bytes at an offset; a mask bit of the MSI-X table; the size of BAR2. -/
inductive HostAct where
  | store (thread bus : Nat) (bytes : List Byte)
  | look (bar off : Nat)
  | mask (vector : Nat) (on : Bool)
  | aperture (size : Nat)
  deriving DecidableEq, Repr

/-- What happens next. -/
inductive Act where
  /-- a party issues; `slow` marks lanes whose sources the scoreboard does not yet hold ready -/
  | issue (p : PartyRef) (slow : BitVec 32)
  /-- the quadrant arbiter picks a lane or uniform issue among the ready groups (R137) -/
  | pick (team quadrant : Nat) (uniform : Bool)
  /-- a party issues, and its loads take their values as they arrive, or an allocation in L1 evicts a line (R35, R160, R161) -/
  | issueAs (p : PartyRef) (slow : BitVec 32) (late : Bool) (victim : Option Victim)
  /-- a rotation's release of a team (R293) -/
  | release (team : Nat)
  /-- an event of the opcode table -/
  | event (i : Instr)
  /-- the host, at its end of the link -/
  | host (h : HostAct)
  deriving DecidableEq, Repr

/-- A turn: clk that pass in each listed cluster, nanoseconds that pass, and the act. Log 1, 12. -/
structure Turn where
  clks : List (Nat × Nat)
  ns : Nat
  act : Act
  deriving DecidableEq, Repr

structure State where
  agenda : List Turn
  /-- the issue that the current instruction executes in -/
  cur : Issue
  /-- the party that issues when the agenda is empty -/
  focus : PartyRef
  freeCtr : Nat
  /-- clk counted by each cluster since reset (R73) -/
  clk : Map Nat
  /-- global time in ns (R335) -/
  gtime : Nat
  teams : Map Team
  ctxs : Map Context
  clusters : Map Cluster
  /-- the latest value of each byte, in step order; host and peer memory stand above device memory -/
  mem : List Host.Cell
  /-- poison bit of each 32-byte sector of memory (R281) -/
  memPoison : Map Bool
  /-- the execution so far, newest event first (spec chapter 18) -/
  log : List MEvent
  /-- loads whose values have not come, oldest first; whether the loads of the current issue take theirs as they arrive
  (R35, R312) -/
  lates : List LateLoad
  late : Bool
  /-- the line that the current issue evicts from L1 when it allocates there (R160, R161) -/
  victim : Option Victim
  /-- contexts that have raced (R315, R316) -/
  raced : List Nat
  grids : Map Grid
  /-- fault batches by presented device, 16 × mode + device -/
  batches : Map Batch
  /-- range records on their way to the fault ring, oldest first (R343, R385) -/
  faultOut : List RangeRec
  dies : Map Die
  memDies : Map MemDie
  /-- links 0 to 7 to the compute dies, 8 to 11 to the memory dies -/
  links : Map Link
  blooms : Map Bloom
  /-- lines in the memory-side caches (R353); true: dirty -/
  msc : Map Bool
  /-- directory entries: line + 2^48 × 0 for the hub, 1 + d for die d (R327) -/
  dir : Map DirEntry
  /-- state of each line in a cluster L2, keyed by cluster × 2^48 + line; and of each of its words -/
  l2 : Map L2State
  words : Map WordRec
  /-- incarnation of each caching agent: cluster, or 16 + die (R336) -/
  incarnations : Map (BitVec 8)
  /-- queue blocks: host queue q, 256 the admin ring, 257 the fault ring -/
  blocks : Map QueueRegs
  hostQueues : Map HostQueue
  /-- launch cache: kernel descriptors most recently launched, by context (R358) -/
  launchCache : Map (List Nat)
  /-- table pointers in the walkers' caches, by die, context, level and address (R341) -/
  pointers : Map Nat
  pkg : Package
  deriving DecidableEq, Repr

/-- Why a step stops the machine. -/
inductive Fault where
  /-- A plain data race (R315, R242): the spec makes the behaviour of its context undefined without bound (R316). Raised by the next
  issue of a party, once in every context there is accesses have raced, or a store, an atomic, a copy or a collective has written a
  transaction barrier in use; while there is another context, the parties of a raced one only stand still. Safe: the model stops where
  the hardware goes on with nothing promised. -/
  | dataRace
  deriving DecidableEq, Repr

/-- Why a step is not made. -/
inductive Refusal where
  /-- Raised by no instruction that has its meaning. Safe. -/
  | notModelled (mnemonic : String)
  deriving DecidableEq, Repr

def Issue.absent : Issue := ⟨0, .group 0, 0, 0, 1, 0, 0⟩

/-- Right after reset: no context, no team, memory with nothing listed, every clock at zero. -/
def State.reset : State where
  agenda := []
  cur := Issue.absent
  focus := ⟨0, .group 0⟩
  freeCtr := 0
  clk := []
  gtime := 0
  teams := []
  ctxs := []
  clusters := []
  mem := []
  memPoison := []
  log := []
  lates := []
  late := false
  victim := none
  raced := []
  grids := []
  batches := []
  faultOut := []
  dies := []
  memDies := []
  links := []
  blooms := []
  msc := []
  dir := []
  l2 := []
  words := []
  incarnations := []
  blocks := []
  hostQueues := []
  launchCache := []
  pointers := []
  pkg := Package.reset

end Sys2Proof.Machine
end

