-- ==== Sys2Proof/Machine/Regs.lean ====
section
/-!
DEFINITION. Where every register lives: accessors of teams, parties, lanes and registers. The hard-wired registers
k0 and s0 are read and written here and nowhere else.
-/

namespace Sys2Proof

/-- The group number of a party; sequencers have none and read as group 0. -/
def Party.groupNo : Party → Nat
  | .group g => g
  | .matrix => 0
  | .copy => 0

/-- The party number of R250. -/
def Party.number : Party → Nat
  | .group g => g
  | .matrix => 16
  | .copy => 17

def Party.isGroup : Party → Bool
  | .group _ => true
  | _ => false

end Sys2Proof

namespace Sys2Proof.Machine

/-- The outcome of an instruction. -/
abbrev Out := Host.Outcome State Fault Refusal

/-! ### Teams, groups, lanes -/

def State.team (s : State) (t : Nat) : Team := Map.get Team.absent s.teams t

def State.setTeam (s : State) (t : Nat) (x : Team) : State := { s with teams := Map.put s.teams t x }

def State.mapTeam (s : State) (t : Nat) (f : Team → Team) : State := s.setTeam t (f (s.team t))

def Team.group (x : Team) (g : Nat) : Group := Map.get Group.absent x.groups g

def Team.setGroup (x : Team) (g : Nat) (y : Group) : Team := { x with groups := Map.put x.groups g y }

def Group.lane (y : Group) (l : Nat) : Lane := Map.get Lane.unlaunched y.lanes l

def Group.setLane (y : Group) (l : Nat) (x : Lane) : Group := { y with lanes := Map.put y.lanes l x }

def State.ctx (s : State) (c : Nat) : Context := Map.get Context.absent s.ctxs c

def State.cluster (s : State) (c : Nat) : Cluster := Map.get Cluster.reset s.clusters c

def State.setCluster (s : State) (c : Nat) (x : Cluster) : State := { s with clusters := Map.put s.clusters c x }

def State.die (s : State) (d : Nat) : Die := Map.get Die.reset s.dies d

def State.setDie (s : State) (d : Nat) (x : Die) : State := { s with dies := Map.put s.dies d x }

/-- %gtime as a die reads it: within its offset of the reference, and never backward (R335). -/
def Die.reading (x : Die) (ref : Nat) : Nat := max x.held ((ref : Int) + x.offset).toNat

/-- %gtime as a team reads it. -/
def State.gtimeOf (s : State) (t : Nat) : Nat := (s.die ((s.team t).cluster / 2)).reading s.gtime

/-- The stream of a sequencer. -/
def Team.stream (x : Team) : Party → Stream
  | .group _ => Stream.absent
  | .matrix => x.matrix
  | .copy => x.copy

def Team.setStream (x : Team) (p : Party) (y : Stream) : Team :=
  match p with
  | .group _ => x
  | .matrix => { x with matrix := y }
  | .copy => { x with copy := y }

/-! ### The current issue -/

/-- The team, group and stream that the current instruction belongs to. -/
def State.curTeam (s : State) : Team := s.team s.cur.team

def State.curGroup (s : State) : Group := s.curTeam.group s.cur.party.groupNo

def State.curStream (s : State) : Stream := s.curTeam.stream s.cur.party

def State.mapCurTeam (s : State) (f : Team → Team) : State := s.mapTeam s.cur.team f

def State.mapGroup (s : State) (t g : Nat) (f : Group → Group) : State :=
  s.mapTeam t fun x => x.setGroup g (f (x.group g))

def State.mapCurGroup (s : State) (f : Group → Group) : State := s.mapGroup s.cur.team s.cur.party.groupNo f

def State.mapCurStream (s : State) (f : Stream → Stream) : State :=
  s.mapCurTeam fun x => x.setStream s.cur.party (f (x.stream s.cur.party))

def State.curCtx (s : State) : Context := s.ctx s.curTeam.ctx

/-- The flush bit of the current context (R96). -/
def State.flush (s : State) : Bool := s.curCtx.flush

/-- clk counted by the current team's cluster (R73). -/
def State.now (s : State) : Nat := Map.get 0 s.clk s.curTeam.cluster

def State.clkOf (s : State) (t : Nat) : Nat := Map.get 0 s.clk (s.team t).cluster

/-! ### Lane registers (R32, R50) -/

def Lane.readV (x : Lane) (n : Nat) : Tagged Word := Map.get (clear 0) x.v n

def Lane.writeV (x : Lane) (n : Nat) (r : Tagged Word) : Lane := { x with v := Map.set (clear 0) x.v n r }

/-- k0 reads true. -/
def Lane.readK (x : Lane) (n : BitVec 3) : Tagged Bool := if n = 0 then clear true else Map.get (clear false) x.k n.toNat

/-- A write to k0 is discarded. -/
def Lane.writeK (x : Lane) (n : BitVec 3) (r : Tagged Bool) : Lane :=
  if n = 0 then x else { x with k := Map.set (clear false) x.k n.toNat r }

/-- Sets sticky bits of %status (R52). -/
def Lane.setFlags (x : Lane) (f : BitVec 8) : Lane := { x with status := x.status ||| f }

/-- Moves on by `n` words. -/
def Lane.advance (x : Lane) (n : Nat) : Lane := { x with pc := x.pc + BitVec.ofNat 56 (4 * n) }

/-! ### s registers (R33) -/

/-- s0 reads as zero. -/
def readSMap (m : Map (Tagged DWord)) (n : Nat) : Tagged DWord := if n = 0 then clear 0 else Map.get (clear 0) m n

/-- A write to s0 is discarded. -/
def writeSMap (m : Map (Tagged DWord)) (n : Nat) (r : Tagged DWord) : Map (Tagged DWord) :=
  if n = 0 then m else Map.set (clear 0) m n r

def Group.readS (y : Group) (n : Nat) : Tagged DWord := readSMap y.s n

def Group.writeS (y : Group) (n : Nat) (r : Tagged DWord) : Group := { y with s := writeSMap y.s n r }

def Stream.readS (y : Stream) (n : Nat) : Tagged DWord := readSMap y.s n

def Stream.writeS (y : Stream) (n : Nat) (r : Tagged DWord) : Stream := { y with s := writeSMap y.s n r }

/-- The s register of the party that issues. -/
def State.readS (s : State) (n : BitVec 5) : Tagged DWord :=
  if s.cur.party.isGroup then s.curGroup.readS n.toNat else s.curStream.readS n.toNat

def State.writeS (s : State) (n : BitVec 5) (r : Tagged DWord) : State :=
  if s.cur.party.isGroup then s.mapCurGroup fun y => y.writeS n.toNat r
  else s.mapCurStream fun y => y.writeS n.toNat r

/-! ### Lanes of the execution set -/

/-- Applies `f` to the lanes of a mask. -/
def mapLanes (mask : BitVec 32) (f : Nat → Lane → Lane) (m : Map Lane) : Map Lane :=
  (List.range 32).foldl
    (fun m l => if mask.getLsbD l then Map.put m l (f l (Map.get Lane.unlaunched m l)) else m) m

/-- Applies `f` to every lane of the execution set; `f` reads the group as it stood before. -/
def State.onLanes (s : State) (f : Group → Nat → Lane → Lane) : State :=
  s.mapCurGroup fun y => { y with lanes := mapLanes s.cur.lanes (f y) y.lanes }

/-- Lane numbers of a mask, in increasing order. -/
def lanesOf (mask : BitVec 32) : List Nat := (List.range 32).filter fun l => mask.getLsbD l

/-- The mask of the lanes that satisfy a test. -/
def maskOf (f : Nat → Bool) : BitVec 32 :=
  (List.range 32).foldl (fun m l => if f l then m ||| BitVec.ofNat 32 (2 ^ l) else m) 0

/-! ### Program counters -/

/-- The current instruction completes: the PCs of its issue move past it (R62). -/
def State.advance (s : State) : State :=
  if s.cur.party.isGroup then s.onLanes fun _ _ x => x.advance s.cur.len
  else s.mapCurStream fun y => { y with pc := y.pc + BitVec.ofNat 56 (4 * s.cur.len) }

/-- The PCs of the current issue become a target (R144). -/
def State.jump (s : State) (target : BitVec 56) : State :=
  if s.cur.party.isGroup then s.onLanes fun _ _ x => { x with pc := target }
  else s.mapCurStream fun y => { y with pc := target }

/-- Sticky bits of a sequencer's copy, or of every lane of the issue's execution set. -/
def State.setFlagsAll (s : State) (f : BitVec 8) : State :=
  if s.cur.party.isGroup then s.onLanes fun _ _ x => x.setFlags f
  else s.mapCurStream fun y => { y with status := y.status ||| f }

end Sys2Proof.Machine
end

