-- ==== Sys2Proof/Machine/Operands.lean ====
section
/-!
DEFINITION. Operand forms of lane and uniform instructions, with the propagation of poison (R54) and predicates (R34).
-/

namespace Sys2Proof.Machine

/-! ### Sources -/

/-- The tag that an instruction passes on: the index of the first poisoned operand, no longer intact (R54, R257). -/
def firstTag : List (Option Tag) → Option Tag
  | [] => none
  | some t :: _ => some ⟨t.idx, false⟩
  | none :: ts => firstTag ts

/-- A 32-bit source: a v register, or the low half of an s register (R32). -/
def src (y : Group) (x : Lane) : Reg → Tagged Word
  | .v n => x.readV n
  | .s n => ⟨(y.readS n).val.setWidth 32, (y.readS n).tag⟩

/-- A 64-bit source: a v pair, or a whole s register (R32). Of two poisoned registers of a pair the low one's index passes on: DESIGN
CHOICE, log 62 (R54 orders fields only). -/
def srcPair (y : Group) (x : Lane) : Reg → Tagged DWord
  | .v n => ⟨(x.readV (n + 1)).val ++ (x.readV n).val, firstTag [(x.readV n).tag, (x.readV (n + 1)).tag]⟩
  | .s n => y.readS n

/-- A 128-bit source: four v registers, the first in the low bits. -/
def srcQuad (x : Lane) : Reg → Tagged (BitVec 128)
  | .v n =>
      ⟨(x.readV (n + 3)).val ++ (x.readV (n + 2)).val ++ (x.readV (n + 1)).val ++ (x.readV n).val,
        firstTag [(x.readV n).tag, (x.readV (n + 1)).tag, (x.readV (n + 2)).tag, (x.readV (n + 3)).tag]⟩
  | .s _ => clear 0

/-- The tags of each register of a pair and of a quad (R257). -/
def pairTags (y : Group) (x : Lane) : Reg → List Tag
  | .v n => [(x.readV n).tag, (x.readV (n + 1)).tag].filterMap id
  | .s n => (y.readS n).tag.toList

def quadTags (x : Lane) : Reg → List Tag
  | .v n => [(x.readV n).tag, (x.readV (n + 1)).tag, (x.readV (n + 2)).tag, (x.readV (n + 3)).tag].filterMap id
  | .s _ => []

/-! ### Predicates -/

/-- The predicate of a lane: its truth, and its poison. -/
def predOf (x : Lane) (p : Pred) : Tagged Bool := ⟨(x.readK p.k).val != p.neg, (x.readK p.k).tag⟩

/-- A lane is active when its predicate is true or poisoned (R34, R54). -/
def activeLane (x : Lane) (p : Pred) : Bool := (predOf x p).val || (predOf x p).tag.isSome

/-- The active set of an issue. -/
def activeMask (y : Group) (exec : BitVec 32) (p : Pred) : BitVec 32 :=
  maskOf fun l => exec.getLsbD l && activeLane (y.lane l) p

/-! ### Destinations -/

/-- Writes a 32-bit result: zero with the tag when an operand is poisoned, else the value and its flags (R105). -/
def Lane.result (x : Lane) (d : Nat) (tag : Option Tag) (r : Word) (fl : BitVec 8) : Lane :=
  match tag with
  | some t => x.writeV d ⟨0, some t⟩
  | none => (x.writeV d (clear r)).setFlags fl

/-- Writes a 64-bit result to a pair, both registers with one tag (R113). -/
def Lane.resultPair (x : Lane) (d : Nat) (tag : Option Tag) (r : DWord) : Lane :=
  match tag with
  | some t => (x.writeV d ⟨0, some t⟩).writeV (d + 1) ⟨0, some t⟩
  | none => (x.writeV d (clear (r.setWidth 32))).writeV (d + 1) (clear ((r >>> 32).setWidth 32))

/-- Writes a mask result. -/
def Lane.resultK (x : Lane) (d : BitVec 3) (tag : Option Tag) (r : Bool) (fl : BitVec 8) : Lane :=
  match tag with
  | some t => x.writeK d ⟨false, some t⟩
  | none => (x.writeK d (clear r)).setFlags fl

/-! ### Lane instructions of one shape -/

/-- A lane under a predicate: an inactive lane keeps its state. -/
def whenActive (p : Pred) (x : Lane) (r : Lane) : Lane := if activeLane x p then r else x

/-- One lane of an instruction on registers only: computes, then moves past the instruction. -/
def State.laneOp (s : State) (f : Group → Lane → Lane) : State :=
  s.onLanes fun y _ x => (f y x).advance s.cur.len

/-- K class, two sources (R107). -/
def alu2 (f : Word → Word → Word) (d : Nat) (a b : Reg) (y : Group) (x : Lane) : Lane :=
  x.result d (firstTag [(src y x a).tag, (src y x b).tag]) (f (src y x a).val (src y x b).val) 0

/-- K class, one source and a literal (R107). -/
def alu2K (f : Word → Word → Word) (d : Nat) (a : Reg) (lit : Word) (y : Group) (x : Lane) : Lane :=
  x.result d (firstTag [(src y x a).tag]) (f (src y x a).val lit) 0

/-- X class, one source. -/
def xop1 (p : Pred) (f : Word → Word × BitVec 8) (d : Nat) (a : Reg) (y : Group) (x : Lane) : Lane :=
  whenActive p x <|
    x.result d (firstTag [(src y x a).tag, (predOf x p).tag]) (f (src y x a).val).1 (f (src y x a).val).2

/-- X class, two sources. -/
def xop2 (p : Pred) (f : Word → Word → Word × BitVec 8) (d : Nat) (a b : Reg) (y : Group) (x : Lane) : Lane :=
  whenActive p x <|
    x.result d (firstTag [(src y x a).tag, (src y x b).tag, (predOf x p).tag])
      (f (src y x a).val (src y x b).val).1 (f (src y x a).val (src y x b).val).2

/-- X class, three sources. -/
def xop3 (p : Pred) (f : Word → Word → Word → Word × BitVec 8) (d : Nat) (a b c : Reg) (y : Group) (x : Lane) : Lane :=
  whenActive p x <|
    x.result d (firstTag [(src y x a).tag, (src y x b).tag, (src y x c).tag, (predOf x p).tag])
      (f (src y x a).val (src y x b).val (src y x c).val).1 (f (src y x a).val (src y x b).val (src y x c).val).2

/-- X class, a mask from two sources. -/
def kop2 (p : Pred) (f : Word → Word → Bool × BitVec 8) (d : BitVec 3) (a b : Reg) (y : Group) (x : Lane) : Lane :=
  whenActive p x <|
    x.resultK d (firstTag [(src y x a).tag, (src y x b).tag, (predOf x p).tag])
      (f (src y x a).val (src y x b).val).1 (f (src y x a).val (src y x b).val).2

/-! ### Uniform scalar operands (R141) -/

/-- `b` of the one-word form: wrap(s[B] + sext(imm9, 9), 64). -/
def State.scalarB (s : State) (b : BitVec 5) (imm : BitVec 9) : Tagged DWord :=
  ⟨(s.readS b).val + imm.signExtend 64, (s.readS b).tag⟩

/-- A scalar result with the poison of a poisoned operand. -/
def State.scalarResult (s : State) (d : BitVec 5) (tag : Option Tag) (r : DWord) : State :=
  match tag with
  | some t => s.writeS d ⟨0, some t⟩
  | none => s.writeS d (clear r)

/-- The one-word form of Table 6.4. -/
def State.scalarOp (s : State) (f : DWord → DWord → DWord) (d a b : BitVec 5) (imm : BitVec 9) : State :=
  (s.scalarResult d (firstTag [(s.readS a).tag, (s.scalarB b imm).tag]) (f (s.readS a).val (s.scalarB b imm).val)).advance

/-- The literal form of Table 6.4. -/
def State.scalarOpK (s : State) (f : DWord → DWord → DWord) (d a : BitVec 5) (lit : Word) : State :=
  (s.scalarResult d (firstTag [(s.readS a).tag]) (f (s.readS a).val (lit.signExtend 64))).advance

/-- The address of a uniform access: wrap(s[A] + sext(imm22, 22), 64). -/
def State.uAddr (s : State) (a : BitVec 5) (off : BitVec 22) : Tagged DWord :=
  ⟨(s.readS a).val + off.signExtend 64, (s.readS a).tag⟩

end Sys2Proof.Machine
end

