-- ==== Sys2Proof/Machine/LaneFloat.lean ====
section
/-!
DEFINITION. Lane floating-point instructions: `fadd`, `fsub`, `fmul`, `ffma` (R114), `fmin`, `fmax` (R115), `fcmp` (R116),
`mufu` (R117 to R119), `hf2` (R120) and `cvt` (R121, R122). The flush bit is that of the team's context (R96).
-/

namespace Sys2Proof.Machine

def execFadd (rm : Rm) (d : Nat) (a b : Reg) (p : Pred) (s : State) : Out :=
  .next (s.laneOp (xop2 p (fun a b => (floatAdd fp32 rm s.flush a.toNat b.toNat).word) d a b))

def execFsub (rm : Rm) (d : Nat) (a b : Reg) (p : Pred) (s : State) : Out :=
  .next (s.laneOp (xop2 p (fun a b => (floatSub fp32 rm s.flush a.toNat b.toNat).word) d a b))

def execFmul (rm : Rm) (d : Nat) (a b : Reg) (p : Pred) (s : State) : Out :=
  .next (s.laneOp (xop2 p (fun a b => (floatMul fp32 rm s.flush a.toNat b.toNat).word) d a b))

def execFfma (rm : Rm) (d : Nat) (a b c : Reg) (p : Pred) (s : State) : Out :=
  .next (s.laneOp (xop3 p (fun a b c => (floatFma fp32 rm s.flush a.toNat b.toNat c.toNat).word) d a b c))

def execFmin (d : Nat) (a b : Reg) (p : Pred) (s : State) : Out :=
  .next (s.laneOp (xop2 p (fun a b => (fp32.minMax s.flush false a.toNat b.toNat).word) d a b))

def execFmax (d : Nat) (a b : Reg) (p : Pred) (s : State) : Out :=
  .next (s.laneOp (xop2 p (fun a b => (fp32.minMax s.flush true a.toNat b.toNat).word) d a b))

/-- The comparing sub-ops, and `class` on the encoding as it stands. -/
def execFcmp (c : FCmpKind) (d : BitVec 3) (p : Pred) (s : State) : Out :=
  .next <| s.laneOp <|
    match c with
    | .cmp op a b => kop2 p (floatCompare op s.flush) d a b
    | .cls a mask => kop2 p (fun a _ => (mask.getLsbD (floatClass a), 0)) d a a

def execMufu (op : MufuOp) (d : Nat) (a : Reg) (p : Pred) (s : State) : Out :=
  .next (s.laneOp (xop1 p (fun a => (mufuRes op s.flush a.toNat).word) d a))

/-- The format of a pair of halves. -/
def hfFmt : HfType → Fmt
  | .h16 => fp16
  | .bf16 => Machine.bf16

/-- Both halves of a two-source operation. -/
def halves2 (f : Nat → Nat → Res) (a b : Word) : Word × BitVec 8 :=
  packHalves (f (halfOf false a) (halfOf false b)) (f (halfOf true a) (halfOf true b))

def halves3 (f : Nat → Nat → Nat → Res) (a b c : Word) : Word × BitVec 8 :=
  packHalves (f (halfOf false a) (halfOf false b) (halfOf false c)) (f (halfOf true a) (halfOf true b) (halfOf true c))

def execHf2 (op : HfOp) (ty : HfType) (d : Nat) (p : Pred) (s : State) : Out :=
  let F := hfFmt ty
  .next <| s.laneOp <|
    match op with
    | .add rm a b => xop2 p (halves2 (floatAdd F rm s.flush)) d a b
    | .mul rm a b => xop2 p (halves2 (floatMul F rm s.flush)) d a b
    | .fma rm a b c => xop3 p (halves3 (floatFma F rm s.flush)) d a b c
    | .min a b => xop2 p (halves2 (F.minMax s.flush false)) d a b
    | .max a b => xop2 p (halves2 (F.minMax s.flush true)) d a b

def execCvt (op : CvtOp) (rm : Rm) (inf : Bool) (d : Nat) (a : Reg) (p : Pred) (s : State) : Out :=
  .next (s.laneOp (xop1 p (convert op rm inf s.flush) d a))

end Sys2Proof.Machine
end

