-- ==== Sys2Proof/Machine/LaneInt.lean ====
section
/-!
DEFINITION. Lane integer instructions: the K class (R107), `mov` (R69), `mad` (R108), `bitop` (R109 to R111), `idiv`
(R112), `addr` (R113), `cmp` (R71), `sel` (R70) and `dot4` (R123).
-/

namespace Sys2Proof.Machine

/-! ### Table 5.1 -/

def intMulhiI (a b : Word) : Word := BitVec.ofInt 32 (a.toInt * b.toInt / 2 ^ 32)
def intMulhiN (a b : Word) : Word := BitVec.ofNat 32 (a.toNat * b.toNat / 2 ^ 32)
def intMinI (a b : Word) : Word := if a.toInt ≤ b.toInt then a else b
def intMaxI (a b : Word) : Word := if a.toInt ≤ b.toInt then b else a
def intMinN (a b : Word) : Word := if a.toNat ≤ b.toNat then a else b
def intMaxN (a b : Word) : Word := if a.toNat ≤ b.toNat then b else a
def intAndn (a b : Word) : Word := a &&& ~~~b
/-- The count is the whole second operand, unsigned: 32 or more empties the word. -/
def intShl (a b : Word) : Word := if 32 ≤ b.toNat then 0 else a <<< b.toNat
def intShr (a b : Word) : Word := if 32 ≤ b.toNat then 0 else a >>> b.toNat
def intSra (a b : Word) : Word := a.sshiftRight (min b.toNat 32)

/-! ### K class -/

def execAdd (d : Nat) (a b : Reg) (s : State) : Out := .next (s.laneOp (alu2 (· + ·) d a b))
def execAddK (d : Nat) (a : Reg) (lit : Word) (s : State) : Out := .next (s.laneOp (alu2K (· + ·) d a lit))
def execSub (d : Nat) (a b : Reg) (s : State) : Out := .next (s.laneOp (alu2 (· - ·) d a b))
def execSubK (d : Nat) (a : Reg) (lit : Word) (s : State) : Out := .next (s.laneOp (alu2K (· - ·) d a lit))
def execMul (d : Nat) (a b : Reg) (s : State) : Out := .next (s.laneOp (alu2 (· * ·) d a b))
def execMulK (d : Nat) (a : Reg) (lit : Word) (s : State) : Out := .next (s.laneOp (alu2K (· * ·) d a lit))
def execMulhiI (d : Nat) (a b : Reg) (s : State) : Out := .next (s.laneOp (alu2 intMulhiI d a b))
def execMulhiIK (d : Nat) (a : Reg) (lit : Word) (s : State) : Out := .next (s.laneOp (alu2K intMulhiI d a lit))
def execMulhiN (d : Nat) (a b : Reg) (s : State) : Out := .next (s.laneOp (alu2 intMulhiN d a b))
def execMulhiNK (d : Nat) (a : Reg) (lit : Word) (s : State) : Out := .next (s.laneOp (alu2K intMulhiN d a lit))
def execMinI (d : Nat) (a b : Reg) (s : State) : Out := .next (s.laneOp (alu2 intMinI d a b))
def execMinIK (d : Nat) (a : Reg) (lit : Word) (s : State) : Out := .next (s.laneOp (alu2K intMinI d a lit))
def execMaxI (d : Nat) (a b : Reg) (s : State) : Out := .next (s.laneOp (alu2 intMaxI d a b))
def execMaxIK (d : Nat) (a : Reg) (lit : Word) (s : State) : Out := .next (s.laneOp (alu2K intMaxI d a lit))
def execMinN (d : Nat) (a b : Reg) (s : State) : Out := .next (s.laneOp (alu2 intMinN d a b))
def execMinNK (d : Nat) (a : Reg) (lit : Word) (s : State) : Out := .next (s.laneOp (alu2K intMinN d a lit))
def execMaxN (d : Nat) (a b : Reg) (s : State) : Out := .next (s.laneOp (alu2 intMaxN d a b))
def execMaxNK (d : Nat) (a : Reg) (lit : Word) (s : State) : Out := .next (s.laneOp (alu2K intMaxN d a lit))
def execAnd (d : Nat) (a b : Reg) (s : State) : Out := .next (s.laneOp (alu2 (· &&& ·) d a b))
def execAndK (d : Nat) (a : Reg) (lit : Word) (s : State) : Out := .next (s.laneOp (alu2K (· &&& ·) d a lit))
def execOr (d : Nat) (a b : Reg) (s : State) : Out := .next (s.laneOp (alu2 (· ||| ·) d a b))
def execOrK (d : Nat) (a : Reg) (lit : Word) (s : State) : Out := .next (s.laneOp (alu2K (· ||| ·) d a lit))
def execXor (d : Nat) (a b : Reg) (s : State) : Out := .next (s.laneOp (alu2 (· ^^^ ·) d a b))
def execXorK (d : Nat) (a : Reg) (lit : Word) (s : State) : Out := .next (s.laneOp (alu2K (· ^^^ ·) d a lit))
def execAndn (d : Nat) (a b : Reg) (s : State) : Out := .next (s.laneOp (alu2 intAndn d a b))
def execAndnK (d : Nat) (a : Reg) (lit : Word) (s : State) : Out := .next (s.laneOp (alu2K intAndn d a lit))
def execShl (d : Nat) (a b : Reg) (s : State) : Out := .next (s.laneOp (alu2 intShl d a b))
def execShlK (d : Nat) (a : Reg) (lit : Word) (s : State) : Out := .next (s.laneOp (alu2K intShl d a lit))
def execShr (d : Nat) (a b : Reg) (s : State) : Out := .next (s.laneOp (alu2 intShr d a b))
def execShrK (d : Nat) (a : Reg) (lit : Word) (s : State) : Out := .next (s.laneOp (alu2K intShr d a lit))
def execSra (d : Nat) (a b : Reg) (s : State) : Out := .next (s.laneOp (alu2 intSra d a b))
def execSraK (d : Nat) (a : Reg) (lit : Word) (s : State) : Out := .next (s.laneOp (alu2K intSra d a lit))

/-- R69: the tag of a register source is copied. -/
def execMov (d : Nat) (b : Reg) (s : State) : Out :=
  .next (s.laneOp fun y x => x.result d (firstTag [(src y x b).tag]) (src y x b).val 0)

/-- R69: a literal clears the tag. -/
def execMovK (d : Nat) (lit : Word) (s : State) : Out := .next (s.laneOp fun _ x => x.result d none lit 0)

/-! ### X class -/

/-- R108. -/
def execMad (d : Nat) (a b c : Reg) (p : Pred) (s : State) : Out :=
  .next (s.laneOp (xop3 p (fun a b c => (a * b + c, 0)) d a b c))

/-- Ones of a word. -/
def popcount (a : Word) : Nat := (List.range 32).foldl (fun n i => if a.getLsbD i then n + 1 else n) 0

/-- Zeros above the highest one; 32 for zero. -/
def leadingZeros (a : Word) : Nat := if a = 0 then 32 else 31 - Nat.log2 a.toNat

/-- Zeros below the lowest one, from bit `i` up; 32 for zero. -/
def trailingZeros (a : Word) : Nat := ((List.range 32).find? fun i => a.getLsbD i).getD 32

/-- Bits in the opposite order. -/
def bitReverse (a : Word) : Word := maskOf fun i => a.getLsbD (31 - i)

/-- The field of R110, sign- or zero-extended. -/
def bitField (sign : Bool) (a b c : Word) : Word :=
  let pos := b.toNat % 256
  let len := min (c.toNat % 256) 32
  let bit (i : Nat) : Bool := if 31 < i then sign && a.getLsbD 31 else a.getLsbD i
  maskOf fun i => if i < len then bit (pos + i) else sign && decide (0 < len) && bit (pos + len - 1)

/-- The insertion of R110. -/
def bitInsert (a b c : Word) : Word :=
  let pos := c.toNat % 256
  let len := min (c.toNat / 256 % 256) 32
  maskOf fun i => if pos ≤ i ∧ i < pos + len then a.getLsbD (i - pos) else b.getLsbD i

/-- Table 5.2, lop3: a selects the low bit of the index. -/
def lop3 (table : BitVec 8) (a b c : Word) : Word :=
  maskOf fun i =>
    table.getLsbD ((if a.getLsbD i then 1 else 0) + (if b.getLsbD i then 2 else 0) + (if c.getLsbD i then 4 else 0))

/-- One byte of `prmt`, given the bytes already formed (R111). -/
def prmtByte (a b : Word) (formed : List Nat) (f : Nat) : Nat :=
  if f < 4 then a.toNat / 2 ^ (8 * f) % 256
  else if f < 8 then b.toNat / 2 ^ (8 * (f - 4)) % 256
  else if f < 12 then (match formed[f - 8]? with | some x => if 128 ≤ x then 255 else 0 | none => 0)
  else if f = 12 then 0x00 else if f = 13 then 0xFF else if f = 14 then 0x80 else 0x7F

/-- R111. -/
def prmt (a b c : Word) : Word :=
  let bytes := (List.range 4).foldl (fun l i => l ++ [prmtByte a b l (c.toNat / 2 ^ (4 * i) % 16)]) []
  BitVec.ofNat 32 (bytes.foldr (fun x n => x + 256 * n) 0)

/-- Table 5.2, the funnel shifts. -/
def funnelL (a b c : Word) : Word := BitVec.ofNat 32 ((a.toNat * 2 ^ 32 + b.toNat) * 2 ^ min c.toNat 32 / 2 ^ 32)
def funnelR (a b c : Word) : Word := BitVec.ofNat 32 ((a.toNat * 2 ^ 32 + b.toNat) / 2 ^ min c.toNat 32)

/-- R109 to R111. -/
def execBitop (op : BitOp) (d : Nat) (p : Pred) (s : State) : Out :=
  .next <| s.laneOp <|
    match op with
    | .popc a => xop1 p (fun a => (BitVec.ofNat 32 (popcount a), 0)) d a
    | .clz a => xop1 p (fun a => (BitVec.ofNat 32 (leadingZeros a), 0)) d a
    | .ctz a => xop1 p (fun a => (BitVec.ofNat 32 (trailingZeros a), 0)) d a
    | .brev a => xop1 p (fun a => (bitReverse a, 0)) d a
    | .bfeI a b c => xop3 p (fun a b c => (bitField true a b c, 0)) d a b c
    | .bfeN a b c => xop3 p (fun a b c => (bitField false a b c, 0)) d a b c
    | .bfi a b c => xop3 p (fun a b c => (bitInsert a b c, 0)) d a b c
    | .lop3 a b c t => xop3 p (fun a b c => (lop3 t a b c, 0)) d a b c
    | .prmt a b c => xop3 p (fun a b c => (prmt a b c, 0)) d a b c
    | .fshL a b c => xop3 p (fun a b c => (funnelL a b c, 0)) d a b c
    | .fshR a b c => xop3 p (fun a b c => (funnelR a b c, 0)) d a b c

/-- R112: quotient and remainder, truncated toward zero, with fixed results for a zero divisor and for overflow. -/
def idiv (op : DivOp) (a b : Word) : Word :=
  match op with
  | .divI => if b = 0 then 0xFFFFFFFF else BitVec.ofInt 32 (a.toInt.tdiv b.toInt)
  | .divN => if b = 0 then 0xFFFFFFFF else BitVec.ofNat 32 (a.toNat / b.toNat)
  | .remI => if b = 0 then a else BitVec.ofInt 32 (a.toInt.tmod b.toInt)
  | .remN => if b = 0 then a else BitVec.ofNat 32 (a.toNat % b.toNat)

def execIdiv (op : DivOp) (d : Nat) (a b : Reg) (p : Pred) (s : State) : Out :=
  .next (s.laneOp (xop2 p (fun a b => (idiv op a b, 0)) d a b))

def shl64 (a : DWord) (b : Nat) : DWord := if 64 ≤ b then 0 else a <<< b
def shr64 (a : DWord) (b : Nat) : DWord := if 64 ≤ b then 0 else a >>> b
def sra64 (a : DWord) (b : Nat) : DWord := a.sshiftRight (min b 64)

/-- A 64-bit result from a tagged pair and a tagged word. -/
def pairWord (p : Pred) (f : DWord → Word → DWord) (d : Nat) (a b : Reg) (y : Group) (x : Lane) : Lane :=
  whenActive p x <|
    x.resultPair d (firstTag [(srcPair y x a).tag, (src y x b).tag, (predOf x p).tag])
      (f (srcPair y x a).val (src y x b).val)

/-- A 64-bit result from two tagged pairs. -/
def pairPair (p : Pred) (f : DWord → DWord → DWord) (d : Nat) (a b : Reg) (y : Group) (x : Lane) : Lane :=
  whenActive p x <|
    x.resultPair d (firstTag [(srcPair y x a).tag, (srcPair y x b).tag, (predOf x p).tag])
      (f (srcPair y x a).val (srcPair y x b).val)

/-- The widening multiply-add. -/
def wideMad (p : Pred) (f : Word → Word → DWord → DWord) (d : Nat) (a b c : Reg) (y : Group) (x : Lane) : Lane :=
  whenActive p x <|
    x.resultPair d (firstTag [(src y x a).tag, (src y x b).tag, (srcPair y x c).tag, (predOf x p).tag])
      (f (src y x a).val (src y x b).val (srcPair y x c).val)

/-- R113, Table 5.3. -/
def execAddr (op : AddrOp) (d : Nat) (p : Pred) (s : State) : Out :=
  .next <| s.laneOp <|
    match op with
    | .add64 a b => pairPair p (· + ·) d a b
    | .sub64 a b => pairPair p (· - ·) d a b
    | .lea a b sh => xop2 p (fun a b => (if 32 ≤ sh.toNat then a else a + (b <<< sh.toNat), 0)) d a b
    | .lea64 a b sh => pairWord p (fun a b => a + shl64 (b.setWidth 64) sh.toNat) d a b
    | .madwI a b c => wideMad p (fun a b c => a.signExtend 64 * b.signExtend 64 + c) d a b c
    | .madwN a b c => wideMad p (fun a b c => a.setWidth 64 * b.setWidth 64 + c) d a b c
    | .shl64 a b => pairWord p (fun a b => shl64 a b.toNat) d a b
    | .shr64 a b => pairWord p (fun a b => shr64 a b.toNat) d a b
    | .sra64 a b => pairWord p (fun a b => sra64 a b.toNat) d a b

/-- Table 3.7. -/
def intCompare : IntCmp → Word → Word → Bool
  | .eq, a, b => decide (a = b)
  | .ne, a, b => decide (a ≠ b)
  | .ltI, a, b => decide (a.toInt < b.toInt)
  | .leI, a, b => decide (a.toInt ≤ b.toInt)
  | .gtI, a, b => decide (b.toInt < a.toInt)
  | .geI, a, b => decide (b.toInt ≤ a.toInt)
  | .ltN, a, b => decide (a.toNat < b.toNat)
  | .leN, a, b => decide (a.toNat ≤ b.toNat)
  | .gtN, a, b => decide (b.toNat < a.toNat)
  | .geN, a, b => decide (b.toNat ≤ a.toNat)

/-- Mask logic of two k registers. -/
def maskLogic (p : Pred) (f : Bool → Bool → Bool) (d a b : BitVec 3) (_ : Group) (x : Lane) : Lane :=
  whenActive p x <|
    x.resultK d (firstTag [(x.readK a).tag, (x.readK b).tag, (predOf x p).tag]) (f (x.readK a).val (x.readK b).val) 0

/-- R71. -/
def execCmp (c : CmpKind) (d : BitVec 3) (p : Pred) (s : State) : Out :=
  .next <| s.laneOp <|
    match c with
    | .cmp op a b => kop2 p (fun a b => (intCompare op a b, 0)) d a b
    | .kand a b => maskLogic p (· && ·) d a b
    | .kor a b => maskLogic p (· || ·) d a b
    | .kxor a b => maskLogic p (· != ·) d a b
    | .knot a => maskLogic p (fun a _ => !a) d a a

/-- R70: the result carries the selector's tag when the selector is poisoned, else that of the chosen source; a
poisoned predicate poisons a clear result (R54). -/
def execSel (d : Nat) (a b : Reg) (c : BitVec 3) (p : Pred) (s : State) : Out :=
  .next <| s.laneOp fun y x =>
    let r := if (x.readK c).val then src y x a else src y x b
    whenActive p x <| x.result d (firstTag [(x.readK c).tag, r.tag, (predOf x p).tag]) r.val 0

/-! ### dot4 (R123) -/

/-- Byte `i` of a word, signed or unsigned. -/
def byteOf (sign : Bool) (a : Word) (i : Nat) : Int :=
  if sign then signedOf 8 (a.toNat / 2 ^ (8 * i)) else ((a.toNat / 2 ^ (8 * i) % 256 : Nat) : Int)

/-- The exact sum of R123. -/
def dotSum (op : DotOp) (a b c : Word) : Int :=
  let sa := decide (op ≠ .nn)
  let sb := decide (op = .ii)
  (if op = .nn then (c.toNat : Int) else c.toInt) +
    ((List.range 4).map fun i => byteOf sa a i * byteOf sb b i).foldl (· + ·) 0

def dot4 (op : DotOp) (sat : Bool) (a b c : Word) : Word × BitVec 8 :=
  let t := dotSum op a b c
  let lo : Int := if op = .nn then 0 else -2 ^ 31
  let hi : Int := if op = .nn then 2 ^ 32 - 1 else 2 ^ 31 - 1
  if !sat then (BitVec.ofInt 32 t, 0)
  else if t < lo then (BitVec.ofInt 32 lo, 32)
  else if hi < t then (BitVec.ofInt 32 hi, 32) else (BitVec.ofInt 32 t, 0)

def execDot4 (op : DotOp) (sat : Bool) (d : Nat) (a b c : Reg) (p : Pred) (s : State) : Out :=
  .next (s.laneOp (xop3 p (dot4 op sat) d a b c))

end Sys2Proof.Machine
end

