-- ==== Sys2Proof/Machine/Translate.lean ====
section
/-!
DEFINITION. Bytes of memory, physical places, page-table walks, TLBs and the fault filter (R339 to R342, R351).
Device memory is keyed by physical address. Host memory, peer memory and scratchpads have key ranges of their own.
-/

namespace Sys2Proof.Machine

/-! ### Bytes of memory -/

/-- What a byte that nothing has written reads as: zero (log 3). -/
def memDefault : Byte := 0

def readMem (m : List Host.Cell) (k : Nat) : Byte := Map.get memDefault m k

/-- A write keeps the canonical form: the default is not listed. -/
def writeMem (m : List Host.Cell) (k : Nat) (b : Byte) : List Host.Cell := Map.set memDefault m k b

/-- Keys strictly rise and no entry is the default. -/
def Memory.wf (m : List Host.Cell) : Bool := Map.wf memDefault m

/-- Bytes from a key on, lowest first. -/
def readBytes (m : List Host.Cell) (k n : Nat) : List Byte := (List.range n).map fun i => readMem m (k + i)

def writeBytes (m : List Host.Cell) : Nat → List Byte → List Host.Cell
  | _, [] => m
  | k, b :: bs => writeBytes (writeMem m k b) (k + 1) bs

/-- Host memory at a bus address. -/
def hostKey (pa : Nat) : Nat := 2 ^ 60 + pa

/-- Memory of a context's copy on a peer package at its virtual address there (R375). -/
def peerKey (tag package va : Nat) : Nat := 2 ^ 79 + (tag % 2 ^ 12 * 2 ^ 9 + package % 2 ^ 9) * 2 ^ 57 + va

/-- A scratchpad byte, for the write-set log. -/
def padKey (team off : Nat) : Nat := 2 ^ 80 + team * 2 ^ 20 + off

/-! ### Page tables -/

inductive Access where
  | read | write | atomic | fetch
  deriving DecidableEq, Repr

/-- Causes of R340. -/
def causeNotPresent : Nat := 0
def causePermission : Nat := 1
def causeMalformed : Nat := 2
def causeTag : Nat := 3

/-- An 8-byte entry of a page table. -/
def tableEntry (m : List Host.Cell) (table i : Nat) : Nat := leValue (readBytes m (table + 8 * i) 8)

/-- A table pointer: the next table, or the cause of failure (R339). -/
def tablePointer (e : Nat) : Except Nat Nat :=
  if e % 2 = 0 then .error causeNotPresent
  else if e / 2 % 2 ^ 15 ≠ 0 ∨ e / 2 ^ 52 ≠ 0 then .error causeMalformed
  else .ok (e / 2 ^ 16 % 2 ^ 36 * 2 ^ 16)

/-- The stacks of a presented device hold a physical address (R350, R351). -/
def inStacks (mode device pa : Nat) : Bool :=
  if 2 ^ 39 ≤ pa then false
  else if mode = 0 then true
  else if mode = 1 then decide (pa / 2 ^ 38 % 2 = device)
  else decide (pa / 2 ^ 36 % 8 = device)

/-- Bytes of a page (Table 20.5). -/
def pageBytes (size : Nat) : Nat := if size = 1 then 2 ^ 24 else if size = 2 then 2 ^ 30 else 2 ^ 18

def leafOf (e : Nat) : Leaf where
  pa := e / 2 ^ 18 % 2 ^ 34 * 2 ^ 18
  size := e / 2 ^ 9 % 4
  location := e / 2 ^ 7 % 4
  placement := e / 2 ^ 5 % 4
  dieScope := e.testBit 4
  x := e.testBit 3
  w := e.testBit 2
  r := e.testBit 1

/-- The malformed leaves of R340. -/
def leafMalformed (mode device e : Nat) : Bool :=
  let f := leafOf e
  decide (e / 2 ^ 11 % 2 ^ 7 ≠ 0) || decide (f.size = 3) || decide (f.location = 3) || decide (f.placement = 3) ||
    decide (f.pa % pageBytes f.size ≠ 0) || (decide (f.placement = 2) && decide (f.location ≠ 1)) ||
    (decide (f.location = 0) && !inStacks mode device f.pa)

def Leaf.permits (f : Leaf) : Access → Bool
  | .read => f.r
  | .write => f.w
  | .atomic => f.w
  | .fetch => f.x

/-- The table pointers of levels 0 and 1 for an address. -/
def pointer0 (m : List Host.Cell) (c : Context) (va : Nat) : Except Nat Nat := tablePointer (tableEntry m c.root (va / 2 ^ 44 % 2 ^ 12))
def pointer1 (m : List Host.Cell) (t1 va : Nat) : Except Nat Nat := tablePointer (tableEntry m t1 (va / 2 ^ 31 % 2 ^ 13))

/-- The leaf that a table of level 2 holds for an address, or the cause of failure. -/
def leafIn (m : List Host.Cell) (tag : Nat) (c : Context) (t2 va : Nat) : Except Nat Leaf :=
  let e := tableEntry m t2 (va / 2 ^ 18 % 2 ^ 13)
  if e % 2 = 0 then .error causeNotPresent
  else if leafMalformed c.mode c.device e then .error causeMalformed
  else if e / 2 ^ 52 ≠ tag then .error causeTag
  else .ok (leafOf e)

/-- The rest of a walk from a table of level 1. -/
def walkFrom (m : List Host.Cell) (tag : Nat) (c : Context) (t1 va : Nat) : Except Nat Leaf :=
  match pointer1 m t1 va with
  | .error e => .error e
  | .ok t2 => leafIn m tag c t2 va

/-- The walk to a leaf, whatever the access: the leaf, or the cause of failure. -/
def walkLeaf (m : List Host.Cell) (tag : Nat) (c : Context) (va : Nat) : Except Nat Leaf :=
  match pointer0 m c va with
  | .error e => .error e
  | .ok t1 => walkFrom m tag c t1 va

/-- A walk: the leaf, or the first cause that applies, in the order not present, malformed, tag, permission (R340). -/
def walk (m : List Host.Cell) (tag : Nat) (c : Context) (va : Nat) (acc : Access) : Except Nat Leaf :=
  match walkLeaf m tag c va with
  | .error e => .error e
  | .ok f => if f.permits acc then .ok f else .error causePermission

/-! ### TLBs -/

/-- A 256 KiB page. -/
def pageOf (va : Nat) : Nat := va / 2 ^ 18

/-- The key under which a TLB holds a leaf of a size that serves a page. -/
def tlbKey (size page : Nat) : Nat := size * 2 ^ 40 + page / (pageBytes size / 2 ^ 18) * (pageBytes size / 2 ^ 18)

/-- A listed entry of a map. -/
def lookup? {α : Type} : Map α → Nat → Option α
  | [], _ => none
  | (j, v) :: m, k => if j = k then some v else lookup? m k

/-- The entry with which a TLB serves a page, whatever its size (R339, R341). -/
def tlbEntry (m : Map Leaf) (base page : Nat) : Option (Nat × Leaf) :=
  match lookup? m (base + tlbKey 0 page) with
  | some f => some (base + tlbKey 0 page, f)
  | none =>
    match lookup? m (base + tlbKey 1 page) with
    | some f => some (base + tlbKey 1 page, f)
    | none => (lookup? m (base + tlbKey 2 page)).map fun f => (base + tlbKey 2 page, f)

def tlbLookup (m : Map Leaf) (base page : Nat) : Option Leaf := (tlbEntry m base page).map fun e => e.2

/-- A core TLB after a use of an entry: the most recently used first, 64 at most, fully associative (R342). -/
def coreTlbUse (m : Map Leaf) (k : Nat) (f : Leaf) : Map Leaf := ((k, f) :: m.filter fun e => decide (e.1 ≠ k)).take 64

/-- The set of an entry of the cluster TLB: VA[28:18] (R342). -/
def tlbSet (k : Nat) : Nat := k % 2 ^ 11

/-- A cluster TLB after a use of an entry: 8 ways a set, the least recently used goes. -/
def clusterTlbUse (m : Map Leaf) (k : Nat) (f : Leaf) : Map Leaf :=
  let m1 := (k, f) :: m.filter fun e => decide (e.1 ≠ k)
  (m1.filter fun e => decide (tlbSet e.1 = tlbSet k)).take 8 ++ m1.filter fun e => decide (tlbSet e.1 ≠ tlbSet k)

/-- Entries of a cluster TLB and of the fault filter are told apart by context. -/
def ctxBase (tag : Nat) : Nat := tag * 2 ^ 44

/-! ### The pointer cache of a die's walker (R341, R342) -/

/-- The key of a table pointer of level 0 or 1 that serves an address of a context. -/
def pointerKey (d tag level va : Nat) : Nat := ((d * 2 ^ 12 + tag) * 2 + level) * 2 ^ 25 + va / (if level = 0 then 2 ^ 44 else 2 ^ 31)

/-- A table pointer that the walker of a die still holds. How long it keeps one is not stated. Log 43. -/
def State.pointer (s : State) (d tag level va : Nat) : Option Nat :=
  match lookup? s.pointers (pointerKey d tag level va) with
  | some p => if Config.pointerHeld (2 * s.freeCtr + level) then some p else none
  | none => none

/-- A die's walk: from the lowest table to which its walker holds a pointer. -/
def State.dieWalk (s : State) (d tag va : Nat) : Except Nat Leaf :=
  let c := s.ctx tag
  match s.pointer d tag 1 va with
  | some t2 => leafIn s.mem tag c t2 va
  | none =>
    match s.pointer d tag 0 va with
    | some t1 => walkFrom s.mem tag c t1 va
    | none => walkLeaf s.mem tag c va

/-- The table of level 1 in which a die's walk looks. -/
def State.walkTable (s : State) (d tag va : Nat) : Except Nat Nat :=
  match s.pointer d tag 0 va with
  | some t1 => .ok t1
  | none => pointer0 s.mem (s.ctx tag) va

/-- The walker of a die keeps the table pointers of a walk. -/
def State.keepPointers (s : State) (d tag va : Nat) : State :=
  match s.pointer d tag 1 va with
  | some _ => s
  | none =>
    match s.walkTable d tag va with
    | .error _ => s
    | .ok t1 =>
      let ps := Map.put s.pointers (pointerKey d tag 0 va) t1
      match pointer1 s.mem t1 va with
      | .error _ => { s with pointers := ps }
      | .ok t2 => { s with pointers := Map.put ps (pointerKey d tag 1 va) t2 }

/-- Pointers of a context that serve a page of a range leave every walker. -/
def State.dropPointers (s : State) (tag start pages : Nat) : State :=
  let span (level : Nat) : Nat := if level = 0 then 2 ^ 26 else 2 ^ 13
  let out (k : Nat) : Bool :=
    let level := k / 2 ^ 25 % 2
    let first := k % 2 ^ 25 * span level
    decide (k / 2 ^ 26 % 2 ^ 12 = tag) && decide (first < start + pages) && decide (start < first + span level)
  { s with pointers := s.pointers.filter fun e => !out e.1 }

/-- What a translation finds: a leaf, a failure with its cause, or a full miss table (R341). -/
inductive Found where
  | leaf (f : Leaf)
  | fail (cause : Nat)
  | full
  deriving DecidableEq, Repr

/-- Entries of a cluster's miss table (R341). -/
def missTableSize : Nat := 2048

/-- The entry of a miss table for a page of a context. -/
def Cluster.missOf (x : Cluster) (tag page : Nat) : Option Miss := x.misses.find? fun m => m.ctx = tag && m.page = page

/-- Translates an address for a team: core TLB, cluster TLB, fault filter, then the walk, one for all misses to a page (R341, R342). -/
def State.find (s : State) (t : Nat) (va : Nat) (acc : Access) : Found :=
  let x := s.team t
  let c := s.cluster x.cluster
  let page := pageOf va
  let use (f : Leaf) : Found := if f.permits acc then .leaf f else .fail causePermission
  match tlbLookup x.tlb 0 page with
  | some f => use f
  | none =>
    match tlbLookup c.tlb (ctxBase x.ctx) page with
    | some f => use f
    | none =>
      match lookup? c.filter (ctxBase x.ctx + page) with
      | some cause => .fail cause
      | none =>
        let made := c.missOf x.ctx page
        match made.bind fun m => m.leaf with
        | some f => use f
        | none =>
          if missTableSize ≤ c.misses.length && made.isNone then .full
          else
            match s.dieWalk (x.cluster / 2) x.ctx va with
            | .ok f => use f
            | .error e => .fail e

/-- The key of the byte at a virtual address that a leaf maps; a peer's through the context's window (R375). -/
def State.physKey (s : State) (tag : Nat) (f : Leaf) (va : Nat) : Nat :=
  let pa := f.pa + va % pageBytes f.size
  if f.location = 0 then pa
  else if f.location = 1 then hostKey pa
  else
    match lookup? (s.ctx tag).windows (pa / 2 ^ 46) with
    | some w => peerKey tag w.package (w.base + pa % 2 ^ 46)
    | none => peerKey tag 511 pa

/-- A turn string that is malformed, or that crosses a port out of service (R373, R374). -/
def Package.routeBad (p : Package) (turn : Nat) : Bool :=
  let h := bitsOf turn 63 60
  decide (6 < h) || decide (bitsOf turn 55 54 ≠ 0) || decide (turn % 2 ^ 54 / 2 ^ (9 * h) ≠ 0) ||
    p.retiredPorts.contains (bitsOf turn 59 56) || (List.range h).any fun i => p.retiredSett.contains (turn / 2 ^ (9 * i) % 512)

/-- A peer page that no route in service reaches: no window set, a bad turn string, or a retired package (R374). -/
def State.peerRouteBad (s : State) (tag : Nat) (f : Leaf) : Bool :=
  decide (f.location = 2) &&
  match lookup? (s.ctx tag).windows (f.pa / 2 ^ 46) with
  | some w => s.pkg.routeBad w.turn.toNat || s.pkg.retiredPackages.contains w.package
  | none => true

/-- A page in the core TLB. -/
def State.keepCore (s : State) (t k : Nat) (f : Leaf) : State := s.mapTeam t fun x => { x with tlb := coreTlbUse x.tlb k f }

/-- A page in the cluster TLB. -/
def State.keepCluster (s : State) (c k : Nat) (f : Leaf) : State := s.setCluster c { s.cluster c with tlb := clusterTlbUse (s.cluster c).tlb k f }

/-- A miss makes an entry. -/
def Cluster.addMiss (x : Cluster) (tag page t : Nat) (leaf : Option Leaf) : Cluster := { x with misses := x.misses ++ [⟨tag, page, [t], leaf⟩] }

/-- A miss of a team that finds the table full waits for an entry, behind those that began to wait before it (R341). -/
def State.waitMiss (s : State) (t va : Nat) : State :=
  let x := s.team t
  let c := s.cluster x.cluster
  let w := (x.ctx, pageOf va, t)
  if c.waiters.contains w then s else s.setCluster x.cluster { c with waiters := c.waiters ++ [w] }

/-- The misses among some addresses of teams that find the table full wait. -/
def State.waitMisses (s : State) (acc : Access) (vas : List (Nat × Nat)) : State :=
  vas.foldl (fun s v => if s.find v.1 v.2 acc = .full then s.waitMiss v.1 v.2 else s) s

/-- An access uses its TLB entries. A miss enters the cluster's miss table, where `PAGE_WALK` serves it; misses to one
page share an entry (R341). -/
def State.noteMiss (s : State) (t : Nat) (va : Nat) : State :=
  let x := s.team t
  let c := s.cluster x.cluster
  let page := pageOf va
  match tlbEntry x.tlb 0 page with
  | some e => s.keepCore t e.1 e.2
  | none =>
    match tlbEntry c.tlb (ctxBase x.ctx) page with
    | some e => (s.keepCluster x.cluster e.1 e.2).keepCore t (e.1 - ctxBase x.ctx) e.2
    | none =>
      if (lookup? c.filter (ctxBase x.ctx + page)).isSome then s
      else if (c.missOf x.ctx page).isSome then
        s.setCluster x.cluster
          { c with misses := c.misses.map fun m => if m.ctx = x.ctx && m.page = page && !m.teams.contains t then { m with teams := m.teams ++ [t] } else m }
      else s.setCluster x.cluster (c.addMiss x.ctx page t (s.dieWalk (x.cluster / 2) x.ctx va).toOption)

/-- A page whose walk failed enters the cluster's fault filter (R342). -/
def State.noteFail (s : State) (t va cause : Nat) : State :=
  let x := s.team t
  let c := s.cluster x.cluster
  let page := pageOf va
  if (tlbLookup x.tlb 0 page).isSome || (tlbLookup c.tlb (ctxBase x.ctx) page).isSome then s
  else s.setCluster x.cluster { c with filter := Map.put c.filter (ctxBase x.ctx + page) cause }

/-- The device's own access to a context's memory (R385), with no TLB. -/
def State.devKey (s : State) (tag va : Nat) (acc : Access) : Except Nat Nat :=
  match walk s.mem tag (s.ctx tag) va acc with
  | .ok f => .ok (s.physKey tag f va)
  | .error e => .error e

end Sys2Proof.Machine
end

