-- ==== Sys2Proof/Machine/WriteSets.lean ====
section
/-!
DEFINITION. Write sets (spec chapter 18): scope instances, program order, synchronisation, causal order, location order,
and the write that a read returns. The log holds events in step order, newest first, each with the writes that it read;
the orders are computed from it. An event may stand in the log before its value has come (R35): a later write may then be
what it returns, if the execution stays consistent (R311, R325). An atomic may join it late (R312). Log 8.
-/

namespace Sys2Proof.Machine

/-! ### Agents and scope instances (R303, R305) -/

/-- The first physical cluster of a context's presented device (R346, R350). -/
def Context.firstCluster (c : Context) : Nat :=
  if c.mode = 0 then 0 else if c.mode = 1 then 8 * c.device else 2 * c.device

/-- The logical cluster of a team (R346). -/
def State.logicalCluster (s : State) (t : Nat) : Nat := (s.team t).cluster - (s.ctx (s.team t).ctx).firstCluster

/-- A party of a team as an agent. -/
def State.agentOf (s : State) (t : Nat) (party : Nat) : Agent :=
  let x := s.team t
  ⟨x.ctx, (s.ctx x.ctx).device, x.cluster / 2, x.cluster, t, party⟩

/-- The agent that issues. -/
def State.curAgent (s : State) : Agent := s.agentOf s.cur.team s.cur.party.number

/-- A thread or engine of the host, as an agent of every context. Its context number is no tag. -/
def hostAgent (thread : Nat) : Agent := ⟨4096, 0, 0, 0, thread, 18⟩

/-- The command processor acting for a context. -/
def hubAgent (ctx : Nat) : Agent := ⟨ctx, 0, 0, 0, 0, 20⟩

/-- Two agents lie in one instance of a scope, for a location on a shared or a die-private page. -/
def sameInst (sc : Scope) (diePriv : Bool) (a b : Agent) : Bool :=
  (decide (a.ctx = b.ctx) || decide (a.party = 18) || decide (b.party = 18)) &&
  match sc with
  | .fab => true
  | .wide => decide (a.party < 18) && decide (b.party < 18) && (!diePriv || decide (a.die = b.die))
  | .cluster => decide (a.party < 18) && decide (b.party < 18) && decide (a.cluster = b.cluster)
  | .team => decide (a.party < 18) && decide (b.party < 18) && decide (a.team = b.team)

/-- One agent: of a peer package, one copy stream there. -/
def sameAgent (a b : Agent) : Bool :=
  decide (a.ctx = b.ctx) && decide (a.device = b.device) && decide (a.team = b.team) && decide (a.party = b.party)

/-- A pair of events is covering (R306). -/
def covering (diePriv : Bool) (e f : MEvent) : Bool :=
  sameInst e.scope diePriv e.agent f.agent && sameInst f.scope diePriv e.agent f.agent

/-! ### Sets of events -/

def unionIds (a b : List Nat) : List Nat := a ++ b.filter fun i => !a.contains i

/-- The event with an identifier. -/
def eventOf (log : List MEvent) (i : Nat) : Option MEvent := log.find? fun e => e.id = i

def MEvent.bytes (e : MEvent) : List Nat := unionIds e.rd (e.wr.map fun w => w.1)

def MEvent.covers (e : MEvent) (k : Nat) : Bool := e.wr.any fun w => w.1 = k

def overlap (a b : List Nat) : Bool := a.any fun k => b.contains k

/-! ### Order classes (R307, R308) -/

def EvClass.isFence : EvClass → Bool
  | .fenceAcq | .fenceRel | .fenceSc | .fenceHeavy | .fenceLight => true
  | _ => false

/-- Case 2 of R307: what follows the event is ordered after it. -/
def MEvent.acquires (e : MEvent) : Bool :=
  match e.cls with
  | .acquire | .ar | .sc | .fenceAcq | .fenceSc | .fenceHeavy | .wait | .rdv | .launch => true
  | _ => false

/-- Case 3 of R307: what precedes the event is ordered before it. -/
def MEvent.releases (e : MEvent) : Bool :=
  match e.cls with
  | .release | .ar | .sc | .fenceRel | .fenceSc | .fenceHeavy | .arrive | .fork | .streamEnd | .copyIssue
  | .completion => true
  | _ => false

/-- A release whose write, or whose later marked write, an acquire may read (R308). -/
def MEvent.isRelease (e : MEvent) : Bool :=
  match e.cls with
  | .release | .ar | .sc | .fenceRel | .fenceSc | .fenceHeavy | .completion => true
  | _ => false

def EvClass.releaseFence : EvClass → Bool
  | .fenceRel | .fenceSc | .fenceHeavy => true
  | _ => false

def EvClass.acquireFence : EvClass → Bool
  | .fenceAcq | .fenceSc | .fenceHeavy => true
  | _ => false

/-- Marked or stronger, or a read-modify-write of any order (R308, R309). -/
def MEvent.strong (e : MEvent) : Bool := decide (e.cls ≠ .plain) || e.isRmw

/-- A load that acquires. -/
def MEvent.isAcquireRead (e : MEvent) : Bool :=
  match e.cls with
  | .acquire | .ar | .sc => true
  | _ => false

/-- The bytes of the weave that a mode switch concerns; its event's place is the key of the weave's first byte (R321). -/
def MEvent.switches (e f : MEvent) : Bool :=
  decide (e.cls = .modeSwitch) && f.bytes.any fun k => decide (e.place ≤ k) && decide (k < e.place + 0x20000)

/-! ### Causal order (R307 to R309) -/

/-- An event of a copy: it follows the copy's issue, and is unordered with what comes after (R307). -/
def MEvent.ofCopy (e : MEvent) : Bool := e.isEngine && decide (e.agent.party = 17)

/-- Whether program order from `e` to `f` of one agent enters causal order (R307). Events stand where their instruction issued; what
follows a copy's is ordered by waits for it only (R320), and the command processor's by the edges that R323 names. -/
def poEdge (e f : MEvent) : Bool :=
  sameAgent e.agent f.agent && decide (e.stamp < f.stamp) && !e.ofCopy && decide (e.agent.party ≠ 20) &&
    (overlap e.bytes f.bytes || e.switches f || f.switches e || e.acquires || f.releases || (decide (e.cls ≠ .plain) && decide (f.cls ≠ .plain)))

/-- `e` comes before `f` in the program order of their agent. A copy's event comes before what follows a wait for it. -/
def poBefore (log : List MEvent) (e f : MEvent) : Bool :=
  sameAgent e.agent f.agent && decide (e.agent.party ≠ 20) &&
    if e.ofCopy then log.any fun g => sameAgent g.agent f.agent && g.extra.contains e.id && decide (g.stamp ≤ f.stamp) && decide (g.id ≠ e.id)
    else decide (e.stamp < f.stamp)

/-- The write that a byte of a read came from; 0 is the initial write. -/
def MEvent.source (f : MEvent) (k : Nat) : Nat := Map.get 0 f.rf k

/-- The writes that a read returned, but for initial ones. -/
def MEvent.sources (f : MEvent) : List Nat := f.rf.foldl (fun acc r => if r.2 = 0 then acc else unionIds acc [r.2]) []

/-- Releases that an acquire which reads this event's own write synchronises with (R308): itself, and release fences before
it where it is marked or atomic. -/
def ownHeads (log : List MEvent) (w : MEvent) : List Nat :=
  if w.wr.isEmpty then []
  else
    (if w.isRelease then [w.id] else []) ++
      if w.strong then log.filterMap fun e => if e.cls.releaseFence && poBefore log e w then some e.id else none else []

/-- Read-modify-writes of the place of `w` on its bytes, up to `w` itself (R317). -/
def placeChain (log : List MEvent) (w : MEvent) : List MEvent :=
  log.filter fun m => m.isRmw && decide (m.place = w.place) && decide (m.id ≤ w.id) && overlap m.bytes w.bytes

/-- Releases that an acquire which reads the write of `w` synchronises with: its own, and, for a read-modify-write, those
of the read-modify-writes before it at its place and of the writes that they read (R308). -/
def heads (log : List MEvent) (w : MEvent) : List Nat :=
  if !w.isRmw then ownHeads log w
  else
    (placeChain log w).foldl
      (fun acc m =>
        m.sources.foldl (fun acc u => match eventOf log u with | some e => unionIds acc (ownHeads log e) | none => acc)
          (unionIds acc (ownHeads log m))) []

/-- The reads by which an event acquires: its own, or, for a fence, the marked and atomic loads before it (R308). -/
def acquiredBy (log : List MEvent) (f : MEvent) : List MEvent :=
  if f.isAcquireRead then [f]
  else if f.cls.acquireFence then log.filter fun l => !l.rd.isEmpty && l.strong && poBefore log l f
  else []

/-- Synchronises-with edges of release and acquire into an event, for one class of locations: the pair covers the location
that was read, and the one that is ordered (R308, R309). -/
def syncPreds (log : List MEvent) (die : Bool) (f : MEvent) : List Nat :=
  (acquiredBy log f).flatMap fun l =>
    l.sources.flatMap fun u =>
      match eventOf log u with
      | none => []
      | some w =>
        (heads log w).filter fun r =>
          match eventOf log r with
          | some e => covering l.diePriv e f && covering die e f
          | none => false

/-- Read-from edges that enter causal order, for one class of locations (R309). -/
def readPreds (log : List MEvent) (die : Bool) (f : MEvent) : List Nat :=
  f.sources.filter fun u =>
    match eventOf log u with
    | some w => w.strong && f.strong && !sameAgent w.agent f.agent && covering f.diePriv w f && covering die w f
    | none => false

/-- The events with an edge of causal order to an event, for one class of locations. -/
def causalPreds (log : List MEvent) (die : Bool) (f : MEvent) : List Nat :=
  unionIds (f.extra ++ if die then [] else f.extraShared)
    ((log.filterMap fun e => if poEdge e f then some e.id else none) ++ syncPreds log die f ++ readPreds log die f)

/-- Events that an event puts before what follows it, on some bytes that they access (R322). -/
def bound (log : List MEvent) (ks : List Nat) (f : MEvent) : List Nat :=
  f.onBytes.filter fun i => match eventOf log i with | some e => overlap e.bytes ks | none => false

/-- The events with an edge of the causal order of some bytes to an event. -/
def bytePreds (log : List MEvent) (die : Bool) (ks : List Nat) (f : MEvent) : List Nat := unionIds (causalPreds log die f) (bound log ks f)

/-- What stands before an event: its predecessors, closed under those of each. -/
def closeOver (log : List MEvent) (preds : MEvent → List Nat) : Nat → List Nat → List Nat → List Nat
  | 0, acc, _ => acc
  | _ + 1, acc, [] => acc
  | n + 1, acc, i :: is =>
      match eventOf log i with
      | none => closeOver log preds n acc is
      | some e =>
        let new := (preds e).filter fun j => !acc.contains j
        closeOver log preds n (unionIds acc new) (unionIds is new)

def before (log : List MEvent) (preds : MEvent → List Nat) (f : MEvent) : List Nat :=
  closeOver log preds (log.length + f.extra.length + f.extraShared.length + f.onBytes.length + 1) (preds f) (preds f)

/-- Events before an event in causal order. -/
def causalBefore (log : List MEvent) (die : Bool) (f : MEvent) : List Nat := before log (causalPreds log die) f

/-- Events before an access in the causal order of its bytes. -/
def byteBefore (log : List MEvent) (f : MEvent) : List Nat := before log (bytePreds log f.diePriv f.bytes) f

/-! ### Location order (R310) -/

/-- A read-modify-write at the home, of its place or of a die's exclusive copy of a die-private line. -/
def homePlace (e : MEvent) : Bool := decide (e.place = 4) || decide (16 ≤ e.place ∧ e.place % 16 = 5)

/-- Read-modify-write `e` is performed before a later one: at its place; in an L1 of the cluster, from which the cluster's place recalls
the line (R280); or at the home and in the exclusive copy of one die, the two places of its wide instance (R317). -/
def placeBefore (e f : MEvent) : Bool :=
  e.isRmw && f.isRmw && decide (e.id < f.id) &&
    (decide (e.place = f.place) ||
      (decide (e.place % 16 = 2) && decide (f.place % 16 = 3) && decide (e.agent.cluster = f.agent.cluster)) ||
      (homePlace e && homePlace f && decide (e.agent.die = f.agent.die) && decide (e.agent.party < 18) && decide (f.agent.party < 18)))

/-- The events with an edge of the location order of some bytes to an event: its causal predecessors, the writes that it
read of those bytes where either is marked or stronger, and the read-modify-writes before it at its place. -/
def locPreds (log : List MEvent) (die : Bool) (ks : List Nat) (f : MEvent) : List Nat :=
  let reads := f.rf.filterMap fun r =>
    if ks.contains r.1 && decide (r.2 ≠ 0) then
      match eventOf log r.2 with
      | some w => if w.strong || f.strong then some w.id else none
      | none => none
    else none
  let place :=
    if f.isRmw && overlap f.bytes ks then
      log.filterMap fun e => if placeBefore e f && overlap e.bytes f.bytes && overlap e.bytes ks then some e.id else none
    else []
  unionIds (bytePreds log die ks f) (reads ++ place)

def locBefore (log : List MEvent) (die : Bool) (ks : List Nat) (f : MEvent) : List Nat := before log (locPreds log die ks) f

/-- Write `w` lies before write `e` in the location order of some bytes; the initial write lies before every other. -/
def writeBefore (log : List MEvent) (die : Bool) (ks : List Nat) (w : Nat) (e : MEvent) : Bool :=
  decide (e.id ≠ w) && (decide (w = 0) || (locBefore log die ks e).contains w)

/-! ### Adding an event -/

/-- What is to become an event. -/
structure EvSpec where
  agent : Agent
  cls : EvClass
  scope : Scope
  isRmw : Bool := false
  isEngine : Bool := false
  rd : List Nat := []
  wr : List (Nat × Byte × Byte) := []
  place : Nat := 0
  extra : List Nat := []
  extraShared : List Nat := []
  onBytes : List Nat := []
  diePriv : Bool := false
  deriving DecidableEq, Repr

/-- The next identifier. -/
def nextId (log : List MEvent) : Nat :=
  match log with
  | [] => 1
  | e :: _ => e.id + 1

/-- The event of a specification that reads from the writes `rf`; `late`: its value has not come. -/
def EvSpec.event (p : EvSpec) (log : List MEvent) (stamp : Nat) (rf : List (Nat × Nat)) (late : Bool) : MEvent :=
  let id := nextId log
  ⟨id, stamp, p.agent, p.cls, p.scope, p.isRmw, p.isEngine, p.rd, p.wr, p.place, p.extra, p.extraShared, p.onBytes, p.diePriv, false, rf,
    if late then 0 else id + 1, if late then 0 else 2 * id + 1⟩

def addEvent (log : List MEvent) (stamp : Nat) (p : EvSpec) (rf : List (Nat × Nat)) : List MEvent := p.event log stamp rf false :: log

/-! ### The write set of a read (R312 to R314, R317) -/

/-- Before a read in location order, some other write to the byte lies after write `w`: `w` is pruned (R312). -/
def pruned (log : List MEvent) (f : MEvent) (bs : List Nat) (k w : Nat) : Bool :=
  log.any fun (e : MEvent) => decide (e.id ≠ f.id) && bs.contains e.id && e.covers k && writeBefore log f.diePriv f.rd w e

/-- Two sc events that have come stand in the sc order of one instance, `e` first (R313). -/
def scBefore (e f : MEvent) : Bool :=
  decide (e.cls = .sc) && decide (f.cls = .sc) && decide (e.scAt ≠ 0) && decide (f.scAt ≠ 0) && decide (e.scAt < f.scAt) && decide (e.scope = f.scope) &&
    decide (e.diePriv = f.diePriv) && sameInst f.scope f.diePriv e.agent f.agent

/-- An sc load does not return what an earlier sc store of its instance supersedes (R313). -/
def scPruned (log : List MEvent) (f : MEvent) (k w : Nat) : Bool :=
  log.any fun (e : MEvent) => scBefore e f && e.covers k && writeBefore log f.diePriv f.rd w e

/-- The newest read-modify-write performed before `f` that covers a byte (R280, R317). -/
def placePred (log : List MEvent) (f : MEvent) (k : Nat) : Option MEvent := log.find? fun (e : MEvent) => placeBefore e f && e.covers k

/-- A read-modify-write returns what its predecessor at its place wrote, or a write after that (R317). -/
def placeAllows (log : List MEvent) (f : MEvent) (k w : Nat) : Bool :=
  match placePred log f k with
  | none => true
  | some p =>
    decide (w = p.id) ||
      match eventOf log w with
      | some e => writeBefore log f.diePriv f.rd p.id e
      | none => false

/-- What `f` may see of a write of an engine to global memory: beyond its cluster it is visible only once a release at a wider scope, or
the completion of its grid, lies after it (R320). -/
def carried (log : List MEvent) (f e : MEvent) (k : Nat) : Bool :=
  !e.isEngine || decide (18 ≤ e.agent.party) || decide (2 ^ 80 ≤ k) || (decide (f.agent.party < 18) && decide (f.agent.cluster = e.agent.cluster)) ||
    log.any fun g => g.isRelease && (decide (g.scope = .wide) || decide (g.scope = .fab)) && (causalBefore log false g).contains e.id

/-- A read may return write `w` for byte `k`, `bs` lying before the read in location order (R312, R313, R317, R320). -/
def returns (log : List MEvent) (f : MEvent) (bs : List Nat) (k w : Nat) : Bool :=
  (if w = 0 then true
   else
    match eventOf log w with
    | some e => decide (e.id ≠ f.id) && e.covers k && !(locBefore log f.diePriv f.rd e).contains f.id && carried log f e k
    | none => false) &&
    !pruned log f bs k w && !scPruned log f k w && placeAllows log f k w

/-- The agent has already returned older writes as often as the bound of some write lets it (R314): it returns none again. -/
def stale (log : List MEvent) (f : MEvent) (k w : Nat) : Bool :=
  f.strong &&
    log.any fun (e : MEvent) =>
      e.strong && e.covers k && covering f.diePriv e f && writeBefore log f.diePriv f.rd w e &&
        (let older := log.countP fun l =>
          l.strong && sameAgent l.agent f.agent && l.rd.contains k && decide (e.id < l.id) && decide (l.arrived ≠ 0) &&
            writeBefore log f.diePriv f.rd (l.source k) e
         decide (older ≠ 0) && decide (Config.staleBound e.id ≤ older))

/-- A byte that a write covers; the initial write covers every byte. -/
def coversByte (log : List MEvent) (w k : Nat) : Bool :=
  decide (w = 0) ||
    match eventOf log w with
    | some e => e.covers k
    | none => false

/-- Write `c` for byte `k` fits the writes already taken for other bytes of the unit: the unit is read whole, so of two writes
to both bytes only one is seen, and of two writes to one byte the later (R166). -/
def untorn (log : List MEvent) (f : MEvent) (got : List (Nat × Nat)) (k c : Nat) : Bool :=
  let isBefore (u w : Nat) : Bool :=
    match eventOf log w with
    | some e => writeBefore log f.diePriv f.rd u e
    | none => false
  got.all fun g =>
    decide (g.2 = c) ||
      (!(coversByte log g.2 k && coversByte log c g.1) && !(coversByte log g.2 k && isBefore c g.2) &&
        !(coversByte log c g.1 && isBefore g.2 c) &&
        !(log.any fun (e : MEvent) => e.covers g.1 && decide (e.id ≠ g.2) && isBefore g.2 e.id && isBefore e.id c) &&
        !(log.any fun (e : MEvent) => e.covers k && decide (e.id ≠ c) && isBefore c e.id && isBefore e.id g.2))

/-- Another lane of the same issue has read the byte, and from another write (R166). -/
def unlikeLane (log : List MEvent) (f : MEvent) (k w : Nat) : Bool :=
  !f.isRmw && !f.isEngine &&
    log.any fun (e : MEvent) =>
      decide (e.id ≠ f.id) && decide (e.stamp = f.stamp) && sameAgent e.agent f.agent && !e.isRmw && !e.isEngine && decide (e.arrived ≠ 0) &&
        e.rd.contains k && decide (e.source k ≠ w)

/-- The writes that a read may return for a byte, newest first, the initial one last. -/
def writeSet (log : List MEvent) (f : MEvent) (bs : List Nat) (got : List (Nat × Nat)) (k : Nat) : List Nat :=
  ((log.filterMap fun (e : MEvent) => if e.covers k then some e.id else none) ++ [0]).filter fun w =>
    returns log f bs k w && !stale log f k w && untorn log f got k w && !unlikeLane log f k w

/-- The members of a write set, from a free choice on (R312). Log 8. -/
def fromChoice (stamp k : Nat) (ws : List Nat) : List Nat :=
  if ws.length ≤ 1 then ws
  else
    let n := Config.readChoice (stamp * 2 ^ 96 + k) % ws.length
    ws.drop n ++ ws.take n

/-- The newest logged write of a byte that does not come after a read. -/
def newestWrite (log : List MEvent) (f : MEvent) (k : Nat) : Nat :=
  match log.find? fun (e : MEvent) => e.covers k && decide (e.id ≠ f.id) && !(locBefore log f.diePriv f.rd e).contains f.id with
  | some e => e.id
  | none => 0

/-- The value of a byte before the first logged write to it. -/
def initialByte (log : List MEvent) (m : Byte) (k : Nat) : Byte :=
  log.foldl (fun acc e => match e.wr.find? fun w => w.1 = k with | some w => w.2.1 | none => acc) m

/-- The value that a write gives a byte; `m` is what stands there now. -/
def valueOf (log : List MEvent) (m : Byte) (k w : Nat) : Byte :=
  if w = 0 then initialByte log m k
  else
    match eventOf log w with
    | some e => match e.wr.find? fun x => x.1 = k with | some x => x.2.2 | none => m
    | none => m

/-- The writes of a unit, byte by byte: the first of those in the order of choice with which `ok` admits the unit as a whole. -/
def chooseAll (log : List MEvent) (f : MEvent) (ok : List (Nat × Nat) → Bool) : List (Nat × Nat) → List Nat → Option (List (Nat × Nat))
  | got, [] => if ok got then some got else none
  | got, k :: ks =>
      let bs := locBefore log f.diePriv f.rd { f with rf := got }
      (fromChoice f.stamp k (writeSet log f bs got k)).findSome? fun w => chooseAll log f ok (got ++ [(k, w)]) ks

/-- The newest write of each byte. -/
def newestAll (log : List MEvent) (f : MEvent) : List (Nat × Nat) := f.rd.map fun k => (k, newestWrite log f k)

/-- The log holds a write to a byte that an event reads. -/
def written (log : List MEvent) (f : MEvent) : Bool := log.any fun (e : MEvent) => f.rd.any fun k => e.covers k

/-! ### Consistency (R311, R325) -/

/-- Whether a load comes before a store of its agent that is marked or stronger, or whose address or data may depend on the
load: one that was performed before the load's value came does not (R325). -/
def feeds (log : List MEvent) (l w : MEvent) : Bool :=
  !l.rd.isEmpty && !w.wr.isEmpty && poBefore log l w && (w.strong || (decide (l.arrived ≠ 0) && decide (l.arrived ≤ w.id)))

/-- The edges of R325 into an event. -/
def flowPreds (log : List MEvent) (f : MEvent) : List Nat :=
  unionIds f.sources (log.filterMap fun e => if feeds log e f then some e.id else none)

/-- Causal order, location orders and the relation of R325 are acyclic, the sc orders agree with causal order, and every value that has
come is one that its read may return (R311 to R313, R317, R325). -/
def consistent (log : List MEvent) : Bool :=
  log.all fun f =>
    let bs := locBefore log f.diePriv f.rd f
    let cs := byteBefore log f
    !(causalBefore log false f).contains f.id && !(causalBefore log true f).contains f.id &&
      !(locBefore log f.diePriv f.bytes f).contains f.id && !(before log (flowPreds log) f).contains f.id &&
      (log.all fun e => !(scBefore f e && cs.contains e.id)) &&
      (decide (f.arrived = 0) || f.rd.all fun k => returns log f bs k (f.source k))

/-- Every value has come, and what the agent of an event issued later has not been performed before it: the event comes last in every
order, so that any write of its set leaves the execution consistent. -/
def settled (log : List MEvent) (f : MEvent) : Bool :=
  log.all fun e => decide (e.arrived ≠ 0) && !(sameAgent e.agent f.agent && decide (f.stamp < e.stamp))

/-- The writes that a read of one single-copy-atomic unit returns as it is performed: none listed where the log holds no write to it. -/
def readUnit (log : List MEvent) (stamp : Nat) (p : EvSpec) : List (Nat × Nat) :=
  let f := p.event log stamp [] false
  if written log f then
    (chooseAll log f (fun got => settled log f || consistent ({ f with rf := got } :: log)) [] f.rd).getD (newestAll log f)
  else []

/-- The log with the value of a late read come from the writes `rf`; of an sc load, with its place in the sc order. -/
def withSources (log : List MEvent) (i : Nat) (rf : List (Nat × Nat)) (place : Nat) : List MEvent :=
  log.map fun e => if e.id = i then { e with rf := rf, arrived := nextId log, scAt := place } else e

/-- The places in the sc order that a late load may take as its value comes: the last, or one before an sc event that came while it
was late. -/
def scPlaces (log : List MEvent) (f : MEvent) : List Nat :=
  2 * nextId log :: if f.cls = .sc then log.filterMap fun e => if e.cls = .sc ∧ f.id < e.id then some (2 * e.id) else none else []

/-- The writes that a late read returns as its value comes, and its place in the sc order: any that leave the execution consistent. -/
def readLate (log : List MEvent) (f : MEvent) : List (Nat × Nat) × Nat :=
  let at' (n : Nat) : Option (List (Nat × Nat) × Nat) :=
    (chooseAll log { f with scAt := n } (fun got => consistent (withSources log f.id got n)) [] f.rd).map fun rf => (rf, n)
  if written log f then ((scPlaces log f).findSome? at').getD (newestAll log f, 2 * nextId log) else ([], 2 * nextId log)

/-! ### Plain data races (R315) -/

/-- The place of an access to private memory, whose values R160 gives: it takes part in no race. -/
def privPlace : Nat := 2 ^ 60

/-- Some event before `f` waits for its value: whether `f` races is not yet decided. -/
def undecided (log : List MEvent) (f : MEvent) : Bool :=
  (byteBefore log f).any fun i => match eventOf log i with | some e => decide (e.arrived = 0) | none => false

/-- A plain access races with an earlier plain access of another agent to an overlapping byte, one of them a write, that does
not lie before it in causal order. -/
def racesWith (log : List MEvent) (f : MEvent) : Bool :=
  !f.strong && !f.isEngine && decide (f.place ≠ privPlace) &&
    (log.any fun (e : MEvent) =>
      !e.strong && !e.isEngine && decide (e.place ≠ privPlace) && decide (e.id < f.id) && decide (e.agent.ctx = f.agent.ctx) &&
        !sameAgent e.agent f.agent && overlap e.bytes f.bytes &&
        (!e.wr.isEmpty || !f.wr.isEmpty) && !(byteBefore log f).contains e.id) &&
    !undecided log f

/-- A new event's race. -/
def races (log : List MEvent) (stamp : Nat) (p : EvSpec) : Bool := racesWith log (p.event log stamp [] false)

/-- Contexts of which some access races, once a value has come that decides it. -/
def racingContexts (log : List MEvent) : List Nat :=
  log.foldl (fun acc f => if racesWith log f then unionIds acc [f.agent.ctx] else acc) []

end Sys2Proof.Machine
end

