-- ==== Sys2Proof/Machine/Directory.lean ====
section
/-!
DEFINITION. The state that the directories keep (R327, R329), how a home serves a request (Table 20.1), how a line leaves an agent
(R330), and what accesses and orderings do to lines and leases (R328, R329, R332 to R334).
-/

namespace Sys2Proof.Machine

/-! ### Homes and agents -/

/-- The key of a directory entry. -/
def dirKey (home : HomeDir) (line : Nat) : Nat :=
  match home with
  | .hub => line
  | .die d => line + 2 ^ 48 * (1 + d)

def State.dirEntry (s : State) (home : HomeDir) (line : Nat) : DirEntry := Map.get DirEntry.absent s.dir (dirKey home line)

def State.setEntry (s : State) (home : HomeDir) (line : Nat) (e : DirEntry) : State :=
  { s with dir := Map.set DirEntry.absent s.dir (dirKey home line) e }

/-- The compute die of a caching agent. -/
def agentDie : CacheAgent → Nat
  | .l2 c => c / 2
  | .dieDir d => d

/-- The agents that a directory tracks (R327). -/
def tracks (home : HomeDir) (a : CacheAgent) : Bool :=
  match home, a with
  | .hub, .l2 c => decide (c < 16)
  | .hub, .dieDir d => decide (d < 8)
  | .die d, .l2 c => decide (c / 2 = d)
  | .die _, .dieDir _ => false

/-- An agent whose messages are served: of a die of the part (R2) that is neither gated nor dead (R348, R371). -/
def State.speaks (s : State) (home : HomeDir) (a : CacheAgent) : Bool :=
  tracks home a && s.pkg.present.getLsbD (agentDie a) && !(s.die (agentDie a)).dead && !(s.die (agentDie a)).gated

def l2Key (c line : Nat) : Nat := c * 2 ^ 48 + line

/-- The state of a line at an agent; a die directory holds what its own entry says. -/
def State.holds (s : State) (a : CacheAgent) (line : Nat) : L2State :=
  match a with
  | .l2 c => Map.get .i s.l2 (l2Key c line)
  | .dieDir d =>
      match (s.dirEntry (.die d) line).state with
      | .i => .i
      | .s _ => .s
      | .x _ => .e

/-! ### Serving requests (Table 20.1) -/

def DirState.without (e : DirState) (a : CacheAgent) : DirState :=
  match e with
  | .i => .i
  | .x h => if h = a then .i else .x h
  | .s as => let bs := as.filter fun b => decide (b ≠ a); if bs.isEmpty then .i else .s bs

def addAgent (as : List CacheAgent) (a : CacheAgent) : List CacheAgent := if as.contains a then as else as ++ [a]

/-- The agents that a request snoops. -/
def snoopSet (e : DirState) (r : DirReq) : List CacheAgent :=
  match e with
  | .i => []
  | .s as => if r.own then as.filter fun b => decide (b ≠ r.agent) else []
  | .x h => if h = r.agent then [] else [h]

/-- The entry after a request that needs no snoop any more. -/
def dirAfter (e : DirState) (r : DirReq) : DirState :=
  if r.own then .x r.agent
  else
    match e with
    | .s as => .s (addAgent as r.agent)
    | _ => .x r.agent

/-- The state that a request is granted; `held` is what the agent has of the line. DESIGN CHOICE, log 70: Table 20.1 gives a read shared
from the agent that the entry names as the holder of X no row; it snoops no one, and the agent keeps E or M. -/
def grantOf (e : DirState) (r : DirReq) (held : L2State) : L2State :=
  if r.own then (if r.write then .m else .e)
  else match e with
    | .s _ => .s
    | .x h => if h = r.agent ∧ held = .m then .m else .e
    | .i => .e

/-- The entry once an agent has answered a request's snoop, keeping a copy or not. -/
def answeredState (e : DirState) (own : Bool) (a : CacheAgent) (keeps : Bool) : DirState :=
  if own then e.without a
  else if keeps then .s [a]
  else .s []

/-- The passes of X between holders within the last microsecond, one more when a holder gives X up to another. -/
def passesAfter (e : DirState) (own : Bool) (a : CacheAgent) (now : Nat) (old : List Nat) : List Nat :=
  let recent := old.filter fun t => decide (now < t + 1000)
  if own && decide (e = .x a) then now :: recent else recent

/-! ### The memory-side caches (R351, R353) -/

/-- The stack of a physical address under the interleave of a mode. -/
def stackOf (mode pa : Nat) : Nat :=
  let g := pa / 2 ^ 12
  if mode = 0 then g % 8 else if mode = 1 then 4 * (pa / 2 ^ 38 % 2) + g % 4 else pa / 2 ^ 36 % 8

/-- The home slice of a line, numbered through the package: memory die k div 2, slice 2 (k mod 2) + PA[7]. -/
def homeSlice (mode line : Nat) : Nat := 2 * stackOf mode (128 * line) + line % 2

/-- The presentation mode under which a line is interleaved: that of a context whose presented device has the stacks that hold the line
(R350, R351). -/
def State.interleave (s : State) (line : Nat) : Nat :=
  match s.ctxs.find? fun c => inStacks c.2.mode c.2.device (128 * line) with
  | some c => c.2.mode
  | none => match s.ctxs with | c :: _ => c.2.mode | [] => 0

/-- The home slice of a line (R351). -/
def State.sliceOf (s : State) (line : Nat) : Nat := homeSlice (s.interleave line) line

/-- A byte of device memory lies in a stack of a memory die whose island has failed: nothing reaches it (R384). -/
def State.unreachable (s : State) (key : Nat) : Bool :=
  decide (key < 2 ^ 39) && (Map.get MemDie.reset s.memDies (stackOf (s.interleave (key / 128)) key / 2)).failed

/-- Lines that a slice of 16 MiB holds (Table 0.3). -/
def mscLines : Nat := 2 ^ 17

/-- A line enters the memory-side cache of its home, whose arrays run from then on; where the slice is full, another leaves it. Log 30. -/
def State.mscPut (s : State) (line : Nat) (dirty : Bool) : State :=
  let k := s.sliceOf line
  let others := s.msc.filter fun e => decide (s.sliceOf e.1 = k) && decide (e.1 ≠ line)
  let m := if others.length < mscLines then s.msc else match others with | e :: _ => Map.erase s.msc e.1 | [] => s.msc
  let d := Map.get MemDie.reset s.memDies (k / 4)
  { s with
    msc := Map.put m line (dirty || Map.get false s.msc line)
    memDies := if d.gated then Map.put s.memDies (k / 4) { d with gated := false } else s.memDies }

/-- The bits of a line in an allocation filter. -/
def bloomBits (line : Nat) : BitVec 8192 := BitVec.ofNat 8192 (2 ^ (Config.bloomHash 0 line % 8192) ||| 2 ^ (Config.bloomHash 1 line % 8192))

/-- A filter holds a line, or seems to. -/
def bloomHolds (f : BitVec 8192) (line : Nat) : Bool := decide (f &&& bloomBits line = bloomBits line)

/-- A read misses in the memory-side cache and allocates: either filter holds the line (R353). -/
def State.secondMiss (s : State) (line : Nat) : Bool :=
  let b := Map.get Bloom.reset s.blooms (s.sliceOf line)
  (lookup? s.msc line).isNone && (bloomHolds b.current line || bloomHolds b.older line)

/-- The filters after a read: a first miss sets the line's bits in the current one. -/
def State.bloomsAfter (s : State) (line : Nat) : Map Bloom :=
  let k := s.sliceOf line
  let b := Map.get Bloom.reset s.blooms k
  if (lookup? s.msc line).isSome || s.secondMiss line then s.blooms else Map.put s.blooms k { b with current := b.current ||| bloomBits line }

/-- A read at the home: on a miss the line allocates when either filter holds it, else it enters the current one (R353). -/
def State.homeRead (s : State) (line : Nat) : State :=
  { s with
    msc := if s.secondMiss line then (s.mscPut line false).msc else s.msc
    memDies := if s.secondMiss line then (s.mscPut line false).memDies else s.memDies
    blooms := s.bloomsAfter line }

/-! ### Links (R370) -/

def State.link (s : State) (l : Nat) : Link := Map.get Link.reset s.links l

def State.setLink (s : State) (l : Nat) (x : Link) : State := { s with links := Map.put s.links l x }

/-- A message for a die whose link is in low power starts its wake and waits for it. -/
def State.wakeLink (s : State) (l : Nat) : State :=
  let x := s.link l
  if x.low && x.waking.isNone then s.setLink l { x with waking := some s.gtime, first := s.gtime } else s

/-- The link of the memory die on which the home slice of a line is (R351). -/
def State.homeLink (s : State) (line : Nat) : Nat := 8 + s.sliceOf line / 4

/-- The links that a request crosses: its own die's and the home slice's; none where the die's directory has a holder to ask. Log 30. -/
def State.linksOf (s : State) (home : HomeDir) (a : CacheAgent) (line : Nat) : List Nat :=
  match home, (s.dirEntry home line).state with
  | .die _, .x _ => []
  | _, _ => [agentDie a, s.homeLink line]

def State.linksUp (s : State) (ls : List Nat) : Bool := ls.all fun l => !(s.link l).low

def State.wakeLinks (s : State) (ls : List Nat) : State := ls.foldl (fun s l => s.wakeLink l) s

def State.useLinks (s : State) (ls : List Nat) : State := ls.foldl (fun s l => s.setLink l { s.link l with lastUse := s.gtime }) s

/-! ### The state of a line at an agent -/

/-- A line in a state at an agent. -/
def State.putL2 (s : State) (a : CacheAgent) (line : Nat) (x : L2State) : State :=
  match a with
  | .l2 c => { s with l2 := Map.set .i s.l2 (l2Key c line) x }
  | .dieDir d => if x = .i then s.setEntry (.die d) line { s.dirEntry (.die d) line with state := .i } else s

/-- A cluster L2 has words of a line that its home has not: written there, or owned by an L1. -/
def State.wordsDirty (s : State) (c line : Nat) : Bool := s.words.any fun e => decide (e.1 / 32 = l2Key c line) && decide (e.2 ≠ .clean)

/-- Words of a line that a cluster L2 wrote are merged at the home slice, which holds them from then on (R347). -/
def State.mergeWords (s : State) (c line : Nat) : State :=
  let s1 := if s.wordsDirty c line then s.mscPut line true else s
  { s1 with words := s1.words.filter fun e => decide (e.1 / 32 ≠ l2Key c line) }

/-- A line is shared with others, or leaves its agent: no word of it is dirty or owned by an L1 any more. -/
def State.setL2 (s : State) (a : CacheAgent) (line : Nat) (x : L2State) : State :=
  match a with
  | .l2 c => (s.mergeWords c line).putL2 a line x
  | .dieDir _ => s.putL2 a line x

/-- What an agent holds of a line is newer than its home: in a die directory, what the holder that it names holds. -/
def State.holdsDirty (s : State) (a : CacheAgent) (line : Nat) : Bool :=
  match a with
  | .l2 _ => decide (s.holds a line = .m)
  | .dieDir d => match (s.dirEntry (.die d) line).state with | .x h => decide (s.holds h line = .m) | _ => false

/-! ### Privatised lines (R332) -/

/-- Offsets in a line of the bytes that a team's core has written. -/
def State.writtenBy (s : State) (t line : Nat) : List Nat :=
  (List.range 128).filter fun o => s.log.any fun e => decide (e.agent.team = t) && decide (e.agent.party < 18) && e.covers (128 * line + o)

/-- Cores of resident teams with written bytes, and their masks. -/
def State.masks (s : State) (line : Nat) : List (Nat × List Nat) :=
  (s.teams.filter fun e => decide (e.2.residency = .resident)).filterMap fun e => match s.writtenBy e.1 line with | [] => none | m => some (e.1, m)

def disjointMasks : List (Nat × List Nat) → Bool
  | [] => true
  | a :: as => (as.all fun b => !overlap a.2 b.2) && disjointMasks as

/-- Length of a lease and the guard band in ns. -/
def leaseTime : Nat := 8000
def guardBand : Nat := 4000

/-- A contended line whose masks are disjoint is granted to its cores as leases. -/
def State.leasesFor (s : State) (line : Nat) (passes : List Nat) : List Lease :=
  let ms := s.masks line
  if 8 ≤ passes.length ∧ disjointMasks ms = true then ms.map fun m => ⟨m.1, s.gtime + leaseTime, m.2, [], false⟩ else []

/-- The die of a lease's holder. -/
def State.leaseDie (s : State) (l : Lease) : Die := s.die ((s.team l.core).cluster / 2)

/-- The holder of a lease has drifted since the grant, or its clock has stopped with its die: its lease is waited for (R334). -/
def State.leaseLost (s : State) (l : Lease) : Bool := l.lost || (s.leaseDie l).drifted || (s.leaseDie l).dead

/-- A sound lease that has ended by its holder's own %gtime: it has been written back and keeps no one out (R333). -/
def State.leaseOver (s : State) (l : Lease) : Bool := !s.leaseLost l && decide (l.ends ≤ (s.leaseDie l).reading s.gtime)

/-- Sound holders write their dirty masked bytes back by the time their leases end (R333). -/
def State.endLeases (s : State) : State :=
  let clean (l : Lease) : Lease := if s.leaseOver l then { l with dirty := [] } else l
  { s with dir := s.dir.map fun e => (e.1, { e.2 with leases := e.2.leases.map clean }) }

/-- The leases that run, or that are lost. -/
def State.leasesOn (s : State) (line : Nat) : List Lease := (s.dirEntry .hub line).leases.filter fun l => !s.leaseOver l

/-- The offsets in its line of the bytes that `n` bytes at a key take. -/
def lineOffsets (key n : Nat) : List Nat := ((List.range n).map fun i => key % 128 + i).filter fun o => decide (o < 128)

/-- An access by a core, or by none, truly overlaps a lease: it touches a byte of another core's mask, or of one whose lease its holder
treats as lost (R332, R334). -/
def State.meetsLease (s : State) (core : Option Nat) (offsets : List Nat) (l : Lease) : Bool :=
  overlap l.mask offsets && (decide (core ≠ some l.core) || s.leaseLost l)

/-- An access waits: the leases that it recalls include one whose holder has drifted (R334). -/
def State.leaseWaits (s : State) (core : Option Nat) (key n : Nat) : Bool :=
  let ls := s.leasesOn (key / 128)
  ls.any (s.meetsLease core (lineOffsets key n)) && ls.any s.leaseLost

/-- An access of a core, or of none, to memory under a leaf waits: on a lease, or for a stack that nothing reaches (R384). -/
def State.leaseHeld (s : State) (core : Option Nat) (key n : Nat) (f : Leaf) : Bool :=
  decide (f.location = 0) && ((!f.dieScope && s.leaseWaits core key n) || s.unreachable key)

/-- A release at wide or fab scope of a core writes its dirty masked bytes back; its leases go on (R333). -/
def State.mergeLeases (s : State) (core : Nat) : State :=
  let clean (l : Lease) : Lease := if l.core = core then { l with dirty := [] } else l
  { s with dir := s.dir.map fun e => (e.1, { e.2 with leases := e.2.leases.map clean }) }

/-- A core that its team leaves, or on which it ends, gives its leases up and writes its dirty masked bytes back; those that it has
lost wait for their reclaim. -/
def State.quitLeases (s : State) (core : Nat) : State :=
  { s with dir := s.dir.filterMap fun e =>
      let x := { e.2 with leases := e.2.leases.filter fun l => decide (l.core ≠ core) || s.leaseLost l }
      if x = DirEntry.absent then none else some (e.1, x) }

/-! ### The request in progress -/

/-- Grants the request at the front. -/
def State.grantFirst (s : State) (home : HomeDir) (line : Nat) (r : DirReq) (rest : List DirReq) : State :=
  let e := s.dirEntry home line
  let ls := if home = .hub then s.leasesFor line e.passes else []
  let s1 := match e.state with | .x _ => s | _ => s.homeRead line
  (s1.setEntry home line { e with
    state := dirAfter e.state r, queue := rest, passes := if ls.isEmpty then e.passes else [], leases := ls }).putL2
    r.agent line (grantOf e.state r (s.holds r.agent line))

/-- Serves requests in arrival order, as far as snoops and leases allow: one is in progress at a time. While a line is privatised, a
request for the whole line waits: an access that truly overlaps a lease recalls them all, every other is made at the home (R332). -/
def State.serve (s : State) (home : HomeDir) (line : Nat) : Nat → State
  | 0 => s
  | fuel + 1 =>
      let e := s.dirEntry home line
      match e.queue with
      | [] => s
      | r :: rest =>
        if (decide (home = .hub) && !(s.leasesOn line).isEmpty) || !e.snoops.isEmpty || !e.answers.isEmpty then s
        else
          let s1 := s.setEntry home line { e with leases := [] }
          match snoopSet e.state r with
          | [] => (s1.grantFirst home line r rest).serve home line fuel
          | as => s1.setEntry home line { e with leases := [], snoops := as }

/-- Serves what the entry's queue allows. -/
def State.serveLine (s : State) (home : HomeDir) (line : Nat) : State :=
  s.serve home line (s.dirEntry home line).queue.length

def State.request (s : State) (home : HomeDir) (line : Nat) (r : DirReq) : State :=
  let e := s.dirEntry home line
  (s.setEntry home line { e with queue := e.queue ++ [r] }).serveLine home line

/-- The leases of a shared line after an access: one that truly overlaps recalls them all, but for those that are lost, which their
reclaim ends, and the requests that waited for them are served; a store of a holder to its own bytes leaves them dirty (R332, R333). -/
def State.useLeases (s : State) (core : Option Nat) (key n : Nat) (store : Bool) : State :=
  let e := s.dirEntry .hub (key / 128)
  let os := lineOffsets key n
  let wrote (l : Lease) : Lease :=
    if core = some l.core ∧ s.leaseOver l = false then { l with dirty := l.dirty ++ os.filter fun o => l.mask.contains o && !l.dirty.contains o } else l
  if e.leases.isEmpty then s
  else if (s.leasesOn (key / 128)).any (s.meetsLease core os) then
    (s.setEntry .hub (key / 128) { e with leases := e.leases.filter s.leaseLost }).serveLine .hub (key / 128)
  else if store then s.setEntry .hub (key / 128) { e with leases := e.leases.map wrote }
  else s

/-- The request in progress is for ownership. -/
def DirEntry.owning (e : DirEntry) : Bool := match e.queue with | r :: _ => r.own | [] => false

/-- The home has an agent's answer to the snoop of the request in progress. -/
def State.takeAnswer (s : State) (home : HomeDir) (line : Nat) (a : CacheAgent) (keeps : Bool) : State :=
  let e := s.dirEntry home line
  (s.setEntry home line { e with
    state := answeredState e.state e.owning a keeps
    passes := passesAfter e.state e.owning a s.gtime e.passes
    answers := e.answers.filter fun x => decide (x.1 ≠ a) }).serveLine home line

/-- The set of a cluster L2 that may hold a line: 1024 × slice + set (R278). -/
def l2Set (line : Nat) : Nat := 1024 * (line % 24) + line / 24 % 1024

/-- The lines that hold the ways of a line's set, the most recently used first. -/
def Cluster.waysOf (x : Cluster) (line : Nat) : List Nat := Map.get [] x.ways (l2Set line)

def Cluster.setWays (x : Cluster) (line : Nat) (ls : List Nat) : Cluster := { x with ways := Map.set [] x.ways (l2Set line) ls }

/-- A line gives up its way in a cluster L2, unless the agent has asked for it again. -/
def State.freeWay (s : State) (home : HomeDir) (line : Nat) (a : CacheAgent) : State :=
  match a with
  | .l2 c =>
      if (s.dirEntry home line).queue.any fun r => decide (r.agent = a) then s
      else
        let x := s.cluster c
        s.setCluster c (x.setWays line ((x.waysOf line).filter fun k => decide (k ≠ line)))
  | .dieDir _ => s

/-- The holder's dirty line reaches its home: merged, and where it crosses the holder's snoop, taken as its answer (R330). -/
def State.dirtyLeaves (s : State) (home : HomeDir) (line : Nat) (a : CacheAgent) : State :=
  let e := s.dirEntry home line
  let s1 := ((s.setL2 a line .i).freeWay home line a).mscPut line true
  if e.snoops.contains a then
    (s1.setEntry home line { e with snoops := e.snoops.filter (fun b => decide (b ≠ a)), crossed := addAgent e.crossed a }).takeAnswer home line a false
  else s1.setEntry home line { e with state := .i }

/-- A clean line leaves an agent. -/
def State.cleanLeaves (s : State) (home : HomeDir) (line : Nat) (a : CacheAgent) : State :=
  let e := s.dirEntry home line
  ((s.setL2 a line .i).freeWay home line a).setEntry home line { e with state := e.state.without a }

/-! ### The ways of a set (R278) -/

/-- The ways of a set. -/
def l2Ways : Nat := 16

/-- A line leaves a cluster L2 for another: a dirty one goes back to the home that names the L2, a clean one goes without notice
(R329). -/
def State.evictL2 (s : State) (c line : Nat) : State :=
  let x := s.cluster c
  let gone (s : State) : State := (s.setL2 (.l2 c) line .i).setCluster c (x.setWays line ((x.waysOf line).filter fun k => decide (k ≠ line)))
  if s.holds (.l2 c) line ≠ .m then gone s
  else if (s.dirEntry .hub line).state = .x (.l2 c) then s.dirtyLeaves .hub line (.l2 c)
  else if (s.dirEntry (.die (c / 2)) line).state = .x (.l2 c) then s.dirtyLeaves (.die (c / 2)) line (.l2 c)
  else gone s

/-- A cluster L2 has a request for a line under way. -/
def State.asking (s : State) (c line : Nat) : Bool :=
  [HomeDir.hub, .die (c / 2)].any fun h => (s.dirEntry h line).queue.any fun r => decide (r.agent = .l2 c)

/-- A line is pinned as the write target of a copy in flight (R227). -/
def State.pinned (s : State) (c line : Nat) : Bool :=
  (s.cluster c).pins.any fun p => decide (p.1 = line) && (s.team p.2.1).copies.any fun k => decide (k.id = p.2.2) && !k.complete

/-- The way of a full set that a new line takes: the least recently used of the lines that are there, and not pinned. -/
def State.wayVictim (s : State) (c line : Nat) : Option Nat :=
  (((s.cluster c).waysOf line).filter fun k => decide (s.holds (.l2 c) k ≠ .i) && !s.asking c k && !s.pinned c k).getLast?

/-- A set has a way for a line: its own, a free one, or one that can be vacated. -/
def State.hasWay (s : State) (c line : Nat) : Bool :=
  let ls := (s.cluster c).waysOf line
  ls.contains line || decide (ls.length < l2Ways) || (s.wayVictim c line).isSome

/-- A line that a cluster L2 asks for takes a way of its set, and is its most recently used. -/
def State.takeWay (s : State) (c line : Nat) : State :=
  let ls := (s.cluster c).waysOf line
  let s1 :=
    if ls.contains line || decide (ls.length < l2Ways) then s
    else match s.wayVictim c line with
      | some v => s.evictL2 c v
      | none => s
  let x := s1.cluster c
  s1.setCluster c (x.setWays line (line :: (x.waysOf line).filter fun k => decide (k ≠ line)))

/-- A line becomes the first victim of its set (R163). -/
def State.lastWay (s : State) (c line : Nat) : State :=
  let x := s.cluster c
  if (x.waysOf line).contains line then s.setCluster c (x.setWays line ((x.waysOf line).filter (fun k => decide (k ≠ line)) ++ [line])) else s

/-- The directory of a line: that of the die for a die-private page (R327). -/
def homeOf (f : Leaf) (c : Nat) : HomeDir := if f.dieScope then .die (c / 2) else .hub

/-- An access at a cluster L2 uses its line: one that is not there is asked for, for ownership where `own` says so, and filled as
its home serves it (R329, R347). Where a link on the way is in low power the request starts its wake, and is made by a later access or
event (R370). -/
def State.reachLine (s : State) (c line : Nat) (f : Leaf) (own : Bool) : State :=
  let h := s.holds (.l2 c) line
  let wants := if own then decide (h = .i) || decide (h = .s) else decide (h = .i)
  let ls := s.linksOf (homeOf f c) (.l2 c) line
  if (wants && s.hasWay c line) = true then
    if s.asking c line then s.takeWay c line
    else if s.linksUp ls then ((s.useLinks ls).takeWay c line).request (homeOf f c) line ⟨.l2 c, own, own⟩
    else s.wakeLinks ls
  else if ((s.cluster c).waysOf line).contains line then s.takeWay c line
  else s

/-! ### What accesses and orderings do to lines (R328, R329) -/

/-- A store at a cluster L2 that holds its line in E makes it M, and tells no one (R329). -/
def State.dirtied (s : State) (c line : Nat) : State :=
  if s.holds (.l2 c) line = .e then { s with l2 := Map.set .i s.l2 (l2Key c line) .m } else s

/-- What an access of `n` bytes at a key of device memory does to its line and its leases: a core's, or the L2's for an engine. -/
def State.useLine (s : State) (core : Option Nat) (c key n : Nat) (f : Leaf) (store : Bool) : State :=
  let s1 := if store then s.dirtied c (key / 128) else s
  if f.dieScope then s1 else s1.useLeases core key n store

/-- The lines that the directory of a die names. -/
def State.dieLines (s : State) (d : Nat) : List Nat := (s.dir.filter fun e => decide (e.1 / 2 ^ 48 = 1 + d)).map fun e => e.1 % 2 ^ 48

/-- A release at fab scope: the die's dirty copies of die-private lines are merged at their homes (R328). -/
def State.mergeDie (s : State) (d : Nat) : State :=
  (s.dieLines d).foldl
    (fun s line =>
      match (s.dirEntry (.die d) line).state with
      | .x a => if s.holds a line = .m then s.dirtyLeaves (.die d) line a else s
      | _ => s) s

/-- An acquire at fab scope: the die's clean copies of die-private lines are dropped (R328). -/
def State.dropDie (s : State) (d : Nat) : State :=
  (s.dieLines d).foldl
    (fun s line =>
      match (s.dirEntry (.die d) line).state with
      | .x a => if s.holds a line = .m then s else s.cleanLeaves (.die d) line a
      | .s as => as.foldl (fun s a => s.cleanLeaves (.die d) line a) s
      | .i => s) s

end Sys2Proof.Machine
end

