-- ==== Sys2Proof/WellFormed.lean ====
section
/-!
DEFINITION. Which instruction terms an encoding carries: the field limits of R32, Tables 2.2 to 2.12 and the
combinations that the instruction entries forbid. A word that breaks one of these raises ILLEGAL at decode (R45, step 4).
-/

namespace Sys2Proof

/-- A register field in range (R32). -/
def Reg.ok : Reg → Bool
  | .v n => decide (n < 224)
  | .s n => decide (n < 32)

/-- A field that takes a 64-bit operand: an even v register or an s register (R32). -/
def Reg.pairOk : Reg → Bool
  | .v n => decide (n < 224) && decide (n % 2 = 0)
  | .s n => decide (n < 32)

/-- A field that takes a 128-bit operand: a v register that is a multiple of 4 (R32). -/
def Reg.quadOk : Reg → Bool
  | .v n => decide (n < 224) && decide (n % 4 = 0)
  | .s _ => false

/-- A v destination. -/
def vOk (d : Nat) : Bool := decide (d < 224)

/-- A 64-bit v destination. -/
def vPairOk (d : Nat) : Bool := decide (d < 224) && decide (d % 2 = 0)

/-- A v destination of a load of the given width (R163). -/
def vWidthOk (w : Width) (d : Nat) : Bool :=
  match w with
  | .b64 => vPairOk d
  | .b128 => decide (d < 224) && decide (d % 4 = 0)
  | _ => vOk d

/-- A data source of a store of the given width (R163). -/
def Reg.widthOk (w : Width) (r : Reg) : Bool :=
  match w with
  | .b64 => r.pairOk
  | .b128 => r.quadOk
  | _ => r.ok

def BitOp.ok : BitOp → Bool
  | .popc a | .clz a | .ctz a | .brev a => a.ok
  | .bfeI a b c | .bfeN a b c | .bfi a b c | .prmt a b c | .fshL a b c | .fshR a b c => a.ok && b.ok && c.ok
  | .lop3 a b c _ => a.ok && b.ok && c.ok

/-- Operand widths of `addr` (Table 5.3), the destination among them. -/
def AddrOp.ok (d : Nat) : AddrOp → Bool
  | .add64 a b | .sub64 a b => vPairOk d && a.pairOk && b.pairOk
  | .lea a b _ => vOk d && a.ok && b.ok
  | .lea64 a b _ => vPairOk d && a.pairOk && b.ok
  | .madwI a b c | .madwN a b c => vPairOk d && a.ok && b.ok && c.pairOk
  | .shl64 a b | .shr64 a b | .sra64 a b => vPairOk d && a.pairOk && b.ok

def CmpKind.ok : CmpKind → Bool
  | .cmp _ a b => a.ok && b.ok
  | _ => true

def FCmpKind.ok : FCmpKind → Bool
  | .cmp _ a b => a.ok && b.ok
  | .cls a _ => a.ok

def HfOp.ok : HfOp → Bool
  | .add _ a b | .mul _ a b | .min a b | .max a b => a.ok && b.ok
  | .fma _ a b c => a.ok && b.ok && c.ok

def VoteOp.ok : VoteOp → Bool
  | .ballot d => vOk d
  | _ => true

/-- 64-bit special registers (Table 2.6). -/
def SReg.is64 : SReg → Bool
  | .clk | .gtime | .energy => true
  | _ => false

/-- The combinations of space, width, order and scope that R154 and R164 forbid. -/
def memComboOk (sp : Space) (w : Width) (o : Order) (sc : Scope) : Bool :=
  (sp ≠ .loc || sc = .team || sc = .cluster) &&
  (sp ≠ .priv || (o = .plain && sc = .team)) &&
  (o ≠ .plain || sc = .team) &&
  (w ≠ .b128 || o = .plain || o = .mk)

def MemX.loadOk (m : MemX) (d : Nat) (a b : Reg) : Bool :=
  memComboOk m.space m.width m.order m.scope && vWidthOk m.width d && a.pairOk && b.ok

def MemX.storeOk (m : MemX) (d a b : Reg) : Bool :=
  memComboOk m.space m.width m.order m.scope && m.width ≠ .i8 && m.width ≠ .i16 &&
    d.widthOk m.width && a.pairOk && b.ok

/-- An operand of an atomic: a pair when the 64-bit bit is set (R168). -/
def Reg.atomOk (wide64 : Bool) (r : Reg) : Bool := if wide64 then r.pairOk else r.ok

/-- `fadd` is 32-bit only (Table 2.4); `prog` needs wide or fab scope (R170). -/
def AtomX.ok (x : AtomX) : Bool :=
  (x.op ≠ .fadd || !x.wide64) && (x.op ≠ .prog || x.scope = .wide || x.scope = .fab)

/-- Whether an atomic reads its C field (R168). -/
def AtomOp.usesC : AtomOp → Bool
  | .cas | .prog => true
  | _ => false

def UMemX.ok (m : UMemX) : Bool :=
  memComboOk m.space m.width m.order m.scope && m.width ≠ .b128 && m.space ≠ .priv

def CopyX.ok (x : CopyX) : Bool := !x.nb || x.tb = 0

/-- The field limits of `mma` (R212). -/
def MmaX.ok (x : MmaX) : Bool :=
  x.mask ≠ 0 && decide (x.g0.toNat + x.g.toNat + 1 ≤ 32) && x.rpt ≠ 4 && x.rpt ≠ 5 && x.rpt ≠ 6 &&
    decide (x.nb.toNat ≤ 8)

/-- Bank counts of `accalloc`, `accfree`, `accz` and `accsc` (R205, R214). -/
def countOk (n : BitVec 5) : Bool := decide (1 ≤ n.toNat) && decide (n.toNat ≤ 16)

/-- The type and reduction fields that `barrier`, `bcast` and `allgather` must leave 0 (R378). -/
def collOk (op : CollOp) (ty : CollType) (rd : CollRed) : Bool :=
  match op with
  | .barrier => ty = .i32 && rd = .add
  | .bcast | .allgather => rd = .add
  | _ => true

/-- Lane ops 0x3A–0x3E and the uniform ops marked ILL in Table 2.10. -/
def illOp (w : Nat) : Bool :=
  let op := w / 2 ^ 24 % 64
  if w / 2 ^ 31 % 2 = 0 then decide (0x3A ≤ op) && decide (op ≤ 0x3E)
  else (decide (0x1C ≤ op) && decide (op ≤ 0x1F)) || op = 0x27 || (decide (0x29 ≤ op) && decide (op ≤ 0x2F)) ||
    (decide (0x3B ≤ op) && decide (op ≤ 0x3E))

/-- The terms that some words encode. The events of the opcode table have no word, and are not among them. -/
def Instr.wellFormed : Instr → Bool
  | .add d a b | .sub d a b | .mul d a b | .mulhiI d a b | .mulhiN d a b | .minI d a b | .maxI d a b
  | .minN d a b | .maxN d a b | .and d a b | .or d a b | .xor d a b | .andn d a b | .shl d a b | .shr d a b
  | .sra d a b => vOk d && a.ok && b.ok
  | .addK d a _ | .subK d a _ | .mulK d a _ | .mulhiIK d a _ | .mulhiNK d a _ | .minIK d a _ | .maxIK d a _
  | .minNK d a _ | .maxNK d a _ | .andK d a _ | .orK d a _ | .xorK d a _ | .andnK d a _ | .shlK d a _
  | .shrK d a _ | .sraK d a _ => vOk d && a.ok
  | .mov d b => vOk d && b.ok
  | .movK d _ => vOk d
  | .mad d a b c _ => vOk d && a.ok && b.ok && c.ok
  | .bitop op d _ => vOk d && op.ok
  | .idiv _ d a b _ => vOk d && a.ok && b.ok
  | .addr op d _ => op.ok d
  | .cmp c _ _ => c.ok
  | .sel d a b _ _ => vOk d && a.ok && b.ok
  | .fadd _ d a b _ | .fsub _ d a b _ | .fmul _ d a b _ => vOk d && a.ok && b.ok
  | .ffma _ d a b c _ => vOk d && a.ok && b.ok && c.ok
  | .fmin d a b _ | .fmax d a b _ => vOk d && a.ok && b.ok
  | .fcmp c _ _ => c.ok
  | .mufu _ d a _ => vOk d && a.ok
  | .hf2 op _ d _ => vOk d && op.ok
  | .cvt op rm inf d a _ => vOk d && a.ok && (op ≠ .i8i32 || (rm = .rne && !inf))
  | .dot4 _ _ d a b c _ => vOk d && a.ok && b.ok && c.ok
  | .ld m d a b | .ldl m d a b => m.loadOk d a b
  | .st m d a b | .stl m d a b => m.storeOk d a b
  | .atom x d a b c =>
      x.ok && (if x.wide64 then vPairOk d else vOk d) && a.pairOk && b.atomOk x.wide64 &&
        (if x.op.usesC then c.atomOk x.wide64 else c = .v 0)
  | .red x d a => x.ok && x.op ≠ .exch && x.op ≠ .cas && x.op ≠ .prog && d.atomOk x.wide64 && a.pairOk
  | .mpush _ _ d a c _ => d.ok && a.ok && c.ok
  | .mpull d _ _ _ _ _ => vOk d
  | .qpush _ d _ => d.ok
  | .qpop _ d _ => vOk d
  | .txbInit a b _ | .txbExpect a b _ | .txbArrivex a b _ | .txbWait a b _ | .txbTest _ a b _ => a.pairOk && b.ok
  | .txbArrive a _ => a.pairOk
  | .barArrive _ _ | .barWait _ _ | .barSync _ _ | .barDrop _ _ => true
  | .barCount d _ _ => vOk d
  | .fenceAcq _ _ | .fenceRel _ _ | .fenceSc _ _ | .fenceLight _ _ | .fenceHeavy _ _ => true
  | .bra _ _ | .call _ _ | .exit _ => true
  | .brx a _ | .ret a _ => a.pairOk
  | .shfl _ d a b _ _ => vOk d && a.ok && b.ok
  | .vote op _ _ _ => op.ok
  | .sreg d n => if n.is64 then vPairOk d else vOk d
  | .brk _ _ => true
  | .waitv _ _ _ d a b c _ => vOk d && a.pairOk && b.ok && c.ok
  | .nop _ | .nopTwoWord _ _ | .hint _ | .hintTwoWord _ _ => true
  | .unop _ | .unopTwoWord _ _ | .uhint _ | .uhintTwoWord _ _ => true
  | .uadd _ _ _ _ | .usub _ _ _ _ | .umul _ _ _ _ | .uand _ _ _ _ | .uor _ _ _ _ | .uxor _ _ _ _
  | .ushl _ _ _ _ | .ushr _ _ _ _ | .usra _ _ _ _ | .umov _ _ _ => true
  | .uaddK _ _ _ | .usubK _ _ _ | .umulK _ _ _ | .uandK _ _ _ | .uorK _ _ _ | .uxorK _ _ _ | .ushlK _ _ _
  | .ushrK _ _ _ | .usraK _ _ _ | .umovK _ _ => true
  | .ubra c a _ => c ≠ .al || a = 0
  | .ucall c _ a _ => c ≠ .al || a = 0
  | .uret _ => true
  | .uld m _ _ => m.ok
  | .ust m _ _ => m.ok && m.width ≠ .i8 && m.width ≠ .i16
  | .urd _ _ v _ => vOk v
  | .usreg _ n => n ≠ .lane
  | .fork _ _ | .rdv | .rotreq | .yield => true
  | .regq _ rd n => !rd || n = 0
  | .ubarInit _ c => c ≠ 0
  | .ubarArrive _ | .ubarWait _ | .ubarSync _ | .ubarDrop _ => true
  | .utxbInit _ _ _ | .utxbArrive _ _ | .utxbExpect _ _ _ | .utxbWait _ _ _ => true
  | .wmodeComp _ n bin1 _ => !bin1 || n = 0
  | .wmodeStore _ => true
  | .tdesc _ _ _ => true
  | .accalloc _ n => countOk n
  | .accfree _ _ n => countOk n
  | .launch _ _ _ _ => true
  | .ufenceAcq _ | .ufenceRel _ | .ufenceSc _ | .ufenceLight _ | .ufenceHeavy _ | .ufenceWait _ _ => true
  | .tret | .tkill _ | .tsusp => true
  | .mchainBegin | .mchainBeginOrdered | .mchainEnd | .mwait | .marrive _ | .mend => true
  | .mma x _ => x.ok
  | .accz _ _ n => countOk n
  | .accsc _ _ n _ _ => countOk n
  | .wload _ _ _ _ => true
  | .bcopy x _ _ _ => x.ok
  | .bcopyr x _ _ _ => x.ok
  | .bcopymc x d _ _ _ => x.ok && decide (1 ≤ d.toNat) && decide (d.toNat ≤ 29)
  | .gather x d _ _ _ | .scatter x d _ _ _ => x.ok && decide (1 ≤ d.toNat) && decide (d.toNat ≤ 29)
  | .cpref _ _ => true
  | .cwait | .carrive _ | .cend => true
  | .send x _ d _ _ => x.ok && decide (1 ≤ d.toNat) && decide (d.toNat ≤ 30)
  | .coll x op ty rd _ => x.ok && collOk op ty rd
  | .undefinedOpcode w => illOp w.toNat
  -- the events of the table: no word encodes them
  | .wmodeSwitchPoint _ | .weaveSwitchEnd _ _ | .mmaExecution _ _ | .mmaCompletion _ _ | .wloadCompletion _ _
  | .deferredTrap _ _ | .marriveArrival _ _ | .mwaitComplete _ | .mendComplete _ | .copySectorWrite _ _ _
  | .copyCompletion _ _ | .carriveArrival _ _ | .cwaitComplete _ | .cendComplete _ | .qpushResume _ | .qpopResume _
  | .mpushResume _ | .accallocResume _ | .accfreeResume _ | .barWaitComplete _ | .txbWaitComplete _
  | .rdvComplete _ | .ufenceWaitComplete _ | .waitvSatisfied _ _ | .waitvTimeout _ _ | .convto _ | .watchdog _
  | .loadValueArrival _ | .flexUnitGrant _ | .stageLevelUpdate _ | .faultBatchClose _ | .contextSave _ _
  | .restore _ _ | .rotationConsideration _ _ | .dispatchExamination _ | .teamPlacement _ _ | .launchRecordTake _
  | .gridDispatch _ | .gridCompletion _ | .queueTailWrite _ _ | .registerWrite _ _ _ | .createContext _
  | .destroyContext _ | .assignQueue _ _ | .invalidateTranslations _ _ _ | .resolveRange _ _ _ _ | .retireUnit _
  | .setPeerWindow _ _ _ _ _ | .registerCommunicator _ _ _ | .resumeGroup _ _ _ _ | .endGrid _ _ _ _
  | .adminUndefined | .readShared _ _ _ | .readOwn _ _ _ _ | .dirtyWriteBack _ _ _ | .cleanEvictionNotice _ _ _
  | .snoop _ _ _ | .snoopAnswer _ _ _ | .leaseEnd _ _ | .leaseReclaim _ _ | .timingMessage _ _ | .agentRejoin _
  | .pageWalk _ | .bloomFilterSwap _ | .refresh _ _ | .railControl _ _ | .controlRampStep _ _ _ _
  | .thermalEmergency _ _ | .energyUpdate _ | .dieGate _ | .memoryDieGate _ | .linkIdle _ | .linkwake _
  | .diedead _ | .evictionUncorr _ _ | .relocationUncorr _ | .memoryIslandFailure _ | .frameReceive _
  | .sendAck _ _ _ _ | .trackedSendTimeout _ _ _ | .collCompletion _ _ _ | .collTimeout _ _
  | .hostApertureRead _ _ | .hostApertureWrite _ _ | .hostAtomicop _ _ | .packageReset _ _
  | .recoveryImageWrite _ _ | .attestationRequest | .blackBoxRead _ | .accscStart _ _ | .storePerformed _
  | .softError _ | .powerCapSet _ _ | .clusterReset _ | .regenerationComplete _ | .linkWakeComplete _
  | .dieWakeComplete _ | .sendFrameAccepted _ _ _ => false

end Sys2Proof
end

