-- ==== Sys2Proof/Decode.lean ====
section
/-!
DEFINITION. The decoder of R26 to R47 (total, rejecting by name) and the encoder, both written from the encoding tables.
-/

namespace Sys2Proof

/-- Why a word is not an instruction. Each of these raises ILLEGAL (R45, steps 3 and 4). -/
inductive DecodeError where
  /-- the L bit does not fit the op's class (Tables 2.8 and 2.11) -/
  | wordClass
  /-- an unused or reserved field is not zero -/
  | unusedField
  /-- a sub-op at or above its count (Table 2.12) -/
  | subOp
  /-- a register field outside the range its use allows (R32) -/
  | regField
  /-- a field value marked ILLEGAL, or a combination its entry forbids -/
  | fieldValue
  deriving DecidableEq, Repr

abbrev Dec := Except DecodeError Instr

/-- Goes on when the check holds. -/
def need (c : Bool) (e : DecodeError) (k : Dec) : Dec := if c then k else .error e

/-- Goes on with the value of a field, when the field has a meaning. -/
def pick {α : Type} (o : Option α) (e : DecodeError) (k : α → Dec) : Dec :=
  match o with
  | some x => k x
  | none => .error e

/-! ### Field codes -/

def Reg.code : Reg → Nat
  | .v n => n
  | .s n => 224 + n

def Reg.ofCode (n : Nat) : Reg := if n < 224 then .v n else .s (n - 224)

def boolCode (b : Bool) : Nat := if b then 1 else 0

/-- Table 4.7. -/
def Rm.code : Rm → Nat
  | .rne => 0
  | .rz => 1
  | .ru => 2
  | .rd => 3

def Rm.ofCode : Nat → Option Rm
  | 0 => some .rne
  | 1 => some .rz
  | 2 => some .ru
  | 3 => some .rd
  | _ => none

/-- Table 2.2. -/
def Width.code : Width → Nat
  | .b8 => 0
  | .b16 => 1
  | .b32 => 2
  | .b64 => 3
  | .b128 => 4
  | .i8 => 5
  | .i16 => 6

def Width.ofCode : Nat → Option Width
  | 0 => some .b8
  | 1 => some .b16
  | 2 => some .b32
  | 3 => some .b64
  | 4 => some .b128
  | 5 => some .i8
  | 6 => some .i16
  | _ => none

/-- Table 2.2. -/
def Space.code : Space → Nat
  | .gen => 0
  | .glob => 1
  | .loc => 2
  | .priv => 3

def Space.ofCode : Nat → Option Space
  | 0 => some .gen
  | 1 => some .glob
  | 2 => some .loc
  | 3 => some .priv
  | _ => none

/-- Table 2.2. -/
def ReqType.code : ReqType → Nat
  | .own => 0
  | .wt => 1
  | .selfinv => 2
  | .unc => 3

def ReqType.ofCode : Nat → Option ReqType
  | 0 => some .own
  | 1 => some .wt
  | 2 => some .selfinv
  | 3 => some .unc
  | _ => none

/-- Table 2.2. -/
def Order.code : Order → Nat
  | .plain => 0
  | .mk => 1
  | .ar => 2
  | .sc => 3

def Order.ofCode : Nat → Option Order
  | 0 => some .plain
  | 1 => some .mk
  | 2 => some .ar
  | 3 => some .sc
  | _ => none

/-- Table 2.2. -/
def Scope.code : Scope → Nat
  | .team => 0
  | .cluster => 1
  | .wide => 2
  | .fab => 3

def Scope.ofCode : Nat → Option Scope
  | 0 => some .team
  | 1 => some .cluster
  | 2 => some .wide
  | 3 => some .fab
  | _ => none

/-- Table 2.3. -/
def AtomOp.code : AtomOp → Nat
  | .add => 0
  | .and => 1
  | .or => 2
  | .xor => 3
  | .minI => 4
  | .maxI => 5
  | .minN => 6
  | .maxN => 7
  | .exch => 8
  | .cas => 9
  | .inc => 10
  | .dec => 11
  | .fadd => 12
  | .prog => 13

def AtomOp.ofCode : Nat → Option AtomOp
  | 0 => some .add
  | 1 => some .and
  | 2 => some .or
  | 3 => some .xor
  | 4 => some .minI
  | 5 => some .maxI
  | 6 => some .minN
  | 7 => some .maxN
  | 8 => some .exch
  | 9 => some .cas
  | 10 => some .inc
  | 11 => some .dec
  | 12 => some .fadd
  | 13 => some .prog
  | _ => none

/-- Table 2.12. -/
def DivOp.code : DivOp → Nat
  | .divI => 0
  | .divN => 1
  | .remI => 2
  | .remN => 3

def DivOp.ofCode : Nat → Option DivOp
  | 0 => some .divI
  | 1 => some .divN
  | 2 => some .remI
  | 3 => some .remN
  | _ => none

/-- Table 3.7. -/
def IntCmp.code : IntCmp → Nat
  | .eq => 0
  | .ne => 1
  | .ltI => 2
  | .leI => 3
  | .gtI => 4
  | .geI => 5
  | .ltN => 6
  | .leN => 7
  | .gtN => 8
  | .geN => 9

def IntCmp.ofCode : Nat → Option IntCmp
  | 0 => some .eq
  | 1 => some .ne
  | 2 => some .ltI
  | 3 => some .leI
  | 4 => some .gtI
  | 5 => some .geI
  | 6 => some .ltN
  | 7 => some .leN
  | 8 => some .gtN
  | 9 => some .geN
  | _ => none

/-- Table 5.4. -/
def FCmpOp.code : FCmpOp → Nat
  | .eq => 0
  | .ne => 1
  | .lt => 2
  | .le => 3
  | .gt => 4
  | .ge => 5
  | .num => 6
  | .nan => 7

def FCmpOp.ofCode : Nat → Option FCmpOp
  | 0 => some .eq
  | 1 => some .ne
  | 2 => some .lt
  | 3 => some .le
  | 4 => some .gt
  | 5 => some .ge
  | 6 => some .num
  | 7 => some .nan
  | _ => none

/-- Table 5.5. -/
def MufuOp.code : MufuOp → Nat
  | .rcp => 0
  | .rsq => 1
  | .sqrt => 2
  | .exp2 => 3
  | .lg2 => 4
  | .sin => 5
  | .cos => 6
  | .tanh => 7

def MufuOp.ofCode : Nat → Option MufuOp
  | 0 => some .rcp
  | 1 => some .rsq
  | 2 => some .sqrt
  | 3 => some .exp2
  | 4 => some .lg2
  | 5 => some .sin
  | 6 => some .cos
  | 7 => some .tanh
  | _ => none

/-- R120. -/
def HfType.code : HfType → Nat
  | .h16 => 0
  | .bf16 => 1

def HfType.ofCode : Nat → Option HfType
  | 0 => some .h16
  | 1 => some .bf16
  | _ => none

/-- Table 2.12. -/
def CvtOp.code : CvtOp → Nat
  | .f32i32 => 0
  | .f32n32 => 1
  | .i32f32 => 2
  | .n32f32 => 3
  | .f32h16 => 4
  | .h16f32 => 5
  | .f32bf16 => 6
  | .bf16f32 => 7
  | .e4m3f32 => 8
  | .e5m2f32 => 9
  | .f32e4m3 => 10
  | .f32e5m2 => 11
  | .t8f32 => 12
  | .f32t8 => 13
  | .i8i32 => 14
  | .frnd => 15

def CvtOp.ofCode : Nat → Option CvtOp
  | 0 => some .f32i32
  | 1 => some .f32n32
  | 2 => some .i32f32
  | 3 => some .n32f32
  | 4 => some .f32h16
  | 5 => some .h16f32
  | 6 => some .f32bf16
  | 7 => some .bf16f32
  | 8 => some .e4m3f32
  | 9 => some .e5m2f32
  | 10 => some .f32e4m3
  | 11 => some .f32e5m2
  | 12 => some .t8f32
  | 13 => some .f32t8
  | 14 => some .i8i32
  | 15 => some .frnd
  | _ => none

/-- Table 2.12. -/
def DotOp.code : DotOp → Nat
  | .ii => 0
  | .nn => 1
  | .inn => 2

def DotOp.ofCode : Nat → Option DotOp
  | 0 => some .ii
  | 1 => some .nn
  | 2 => some .inn
  | _ => none

/-- Table 2.12. -/
def ShflOp.code : ShflOp → Nat
  | .idx => 0
  | .up => 1
  | .down => 2
  | .xor => 3

def ShflOp.ofCode : Nat → Option ShflOp
  | 0 => some .idx
  | 1 => some .up
  | 2 => some .down
  | 3 => some .xor
  | _ => none

/-- Table 3.9. -/
def WaitCond.code : WaitCond → Nat
  | .eq => 0
  | .ne => 1
  | .ltI => 2
  | .geI => 3
  | .ltN => 4
  | .geN => 5

def WaitCond.ofCode : Nat → Option WaitCond
  | 0 => some .eq
  | 1 => some .ne
  | 2 => some .ltI
  | 3 => some .geI
  | 4 => some .ltN
  | 5 => some .geN
  | _ => none

/-- Table 2.6. -/
def SReg.code : SReg → Nat
  | .lane => 0
  | .grp => 1
  | .role => 2
  | .teamX => 3
  | .teamY => 4
  | .teamZ => 5
  | .gridX => 6
  | .gridY => 7
  | .gridZ => 8
  | .slot => 9
  | .tile => 10
  | .rotgen => 11
  | .cluster => 12
  | .clk => 13
  | .gtime => 14
  | .energy => 15
  | .mthr => 16
  | .rfq => 17
  | .status => 18

def SReg.ofCode : Nat → Option SReg
  | 0 => some .lane
  | 1 => some .grp
  | 2 => some .role
  | 3 => some .teamX
  | 4 => some .teamY
  | 5 => some .teamZ
  | 6 => some .gridX
  | 7 => some .gridY
  | 8 => some .gridZ
  | 9 => some .slot
  | 10 => some .tile
  | 11 => some .rotgen
  | 12 => some .cluster
  | 13 => some .clk
  | 14 => some .gtime
  | 15 => some .energy
  | 16 => some .mthr
  | 17 => some .rfq
  | 18 => some .status
  | _ => none

/-- R144. -/
def UCond.code : UCond → Nat
  | .al => 0
  | .z => 1
  | .nz => 2

def UCond.ofCode : Nat → Option UCond
  | 0 => some .al
  | 1 => some .z
  | 2 => some .nz
  | _ => none

/-- R378. -/
def CollOp.code : CollOp → Nat
  | .barrier => 0
  | .bcast => 1
  | .allgather => 2
  | .redscat => 3
  | .allreduce => 4

def CollOp.ofCode : Nat → Option CollOp
  | 0 => some .barrier
  | 1 => some .bcast
  | 2 => some .allgather
  | 3 => some .redscat
  | 4 => some .allreduce
  | _ => none

/-- R378. -/
def CollType.code : CollType → Nat
  | .i32 => 0
  | .f32 => 1
  | .bf16 => 2

def CollType.ofCode : Nat → Option CollType
  | 0 => some .i32
  | 1 => some .f32
  | 2 => some .bf16
  | _ => none

/-- R378. -/
def CollRed.code : CollRed → Nat
  | .add => 0
  | .min => 1
  | .max => 2

def CollRed.ofCode : Nat → Option CollRed
  | 0 => some .add
  | 1 => some .min
  | 2 => some .max
  | _ => none

/-! ### Words (Tables 2.1, 2.2, 2.4 and 2.5) -/

/-- An encoded instruction: its first word and, where it has one, its second. -/
structure Code where
  w1 : Nat
  w2 : Option Nat
  deriving DecidableEq, Repr

def laneW1 (l op d a b : Nat) : Nat := l * 1073741824 + op * 16777216 + d * 65536 + a * 256 + b

def Pred.code (p : Pred) : Nat := boolCode p.neg * 8 + p.k.toNat

def Pred.ofCode (n : Nat) : Pred := { neg := n / 8 % 2 = 1, k := BitVec.ofNat 3 n }

def laneX (p : Pred) (sub c m : Nat) : Nat := p.code * 268435456 + sub * 4194304 + c * 16384 + m

def MemX.code (m : MemX) : Nat :=
  m.pred.code * 268435456 + m.width.code * 33554432 + m.space.code * 8388608 + m.rtype.code * 2097152 +
    m.order.code * 524288 + m.scope.code * 131072 + m.scale.toNat * 32768 + boolCode m.sx * 16384 + m.off.toNat

def AtomX.code (x : AtomX) (c : Nat) : Nat :=
  x.pred.code * 268435456 + x.op.code * 16777216 + boolCode x.wide64 * 8388608 + x.order.code * 524288 +
    x.scope.code * 131072 + c * 512 + x.off.toNat

def uniW1 (l op d a b imm : Nat) : Nat :=
  2147483648 + l * 1073741824 + op * 16777216 + d * 524288 + a * 16384 + b * 512 + imm

def uniX (sub imm : Nat) : Nat := sub * 4194304 + imm

def CopyX.code (x : CopyX) : Nat := x.rtype.code * 65536 + boolCode x.nb * 32768 + x.tb.toNat

/-- A K-class lane word in its one-word form (R107). -/
def kOne (op : Nat) (d : Nat) (a b : Reg) : Option Instr :=
  match op with
  | 1 => some (.add d a b)
  | 2 => some (.sub d a b)
  | 3 => some (.mul d a b)
  | 4 => some (.mulhiI d a b)
  | 5 => some (.mulhiN d a b)
  | 7 => some (.minI d a b)
  | 8 => some (.maxI d a b)
  | 9 => some (.minN d a b)
  | 10 => some (.maxN d a b)
  | 11 => some (.and d a b)
  | 12 => some (.or d a b)
  | 13 => some (.xor d a b)
  | 14 => some (.andn d a b)
  | 15 => some (.shl d a b)
  | 16 => some (.shr d a b)
  | 17 => some (.sra d a b)
  | _ => none

/-- A K-class lane word in its literal form (R107). -/
def kLit (op : Nat) (d : Nat) (a : Reg) (lit : Word) : Option Instr :=
  match op with
  | 1 => some (.addK d a lit)
  | 2 => some (.subK d a lit)
  | 3 => some (.mulK d a lit)
  | 4 => some (.mulhiIK d a lit)
  | 5 => some (.mulhiNK d a lit)
  | 7 => some (.minIK d a lit)
  | 8 => some (.maxIK d a lit)
  | 9 => some (.minNK d a lit)
  | 10 => some (.maxNK d a lit)
  | 11 => some (.andK d a lit)
  | 12 => some (.orK d a lit)
  | 13 => some (.xorK d a lit)
  | 14 => some (.andnK d a lit)
  | 15 => some (.shlK d a lit)
  | 16 => some (.shrK d a lit)
  | 17 => some (.sraK d a lit)
  | _ => none

/-- A K-class uniform word in its one-word form (R141). -/
def uOne (op : Nat) (d a b : BitVec 5) (imm : BitVec 9) : Option Instr :=
  match op with
  | 1 => some (.uadd d a b imm)
  | 2 => some (.usub d a b imm)
  | 3 => some (.umul d a b imm)
  | 4 => some (.uand d a b imm)
  | 5 => some (.uor d a b imm)
  | 6 => some (.uxor d a b imm)
  | 7 => some (.ushl d a b imm)
  | 8 => some (.ushr d a b imm)
  | 9 => some (.usra d a b imm)
  | _ => none

/-- A K-class uniform word in its literal form (R141). -/
def uLit (op : Nat) (d a : BitVec 5) (lit : Word) : Option Instr :=
  match op with
  | 1 => some (.uaddK d a lit)
  | 2 => some (.usubK d a lit)
  | 3 => some (.umulK d a lit)
  | 4 => some (.uandK d a lit)
  | 5 => some (.uorK d a lit)
  | 6 => some (.uxorK d a lit)
  | 7 => some (.ushlK d a lit)
  | 8 => some (.ushrK d a lit)
  | 9 => some (.usraK d a lit)
  | _ => none

/-! ### The lane X class (Table 2.9) -/

/-- `bitop` (R109). -/
def decodeBitop (sub d a b c m : Nat) (p : Pred) : Dec :=
  let ra := Reg.ofCode a; let rb := Reg.ofCode b; let rc := Reg.ofCode c
  let one (i : BitOp) : Dec := need (b = 0 && c = 0 && m = 0) .unusedField (.ok (.bitop i d p))
  let three (i : BitOp) : Dec := need (m = 0) .unusedField (.ok (.bitop i d p))
  need (vOk d) .regField <|
  match sub with
  | 0 => one (.popc ra)
  | 1 => one (.clz ra)
  | 2 => one (.ctz ra)
  | 3 => one (.brev ra)
  | 4 => three (.bfeI ra rb rc)
  | 5 => three (.bfeN ra rb rc)
  | 6 => three (.bfi ra rb rc)
  | 7 => need (m < 256) .unusedField (.ok (.bitop (.lop3 ra rb rc (BitVec.ofNat 8 m)) d p))
  | 8 => three (.prmt ra rb rc)
  | 9 => three (.fshL ra rb rc)
  | 10 => three (.fshR ra rb rc)
  | _ => .error .subOp

/-- `addr` (R113). -/
def decodeAddr (sub d a b c m : Nat) (p : Pred) : Dec :=
  let ra := Reg.ofCode a; let rb := Reg.ofCode b; let rc := Reg.ofCode c
  let fin (i : AddrOp) (u : Bool) : Dec :=
    need u .unusedField (need (i.ok d) .regField (.ok (.addr i d p)))
  match sub with
  | 0 => fin (.add64 ra rb) (c = 0 && m = 0)
  | 1 => fin (.sub64 ra rb) (c = 0 && m = 0)
  | 2 => fin (.lea ra rb (BitVec.ofNat 6 m)) (c = 0 && m < 64)
  | 3 => fin (.lea64 ra rb (BitVec.ofNat 6 m)) (c = 0 && m < 64)
  | 4 => fin (.madwI ra rb rc) (m = 0)
  | 5 => fin (.madwN ra rb rc) (m = 0)
  | 6 => fin (.shl64 ra rb) (c = 0 && m = 0)
  | 7 => fin (.shr64 ra rb) (c = 0 && m = 0)
  | 8 => fin (.sra64 ra rb) (c = 0 && m = 0)
  | _ => .error .subOp

/-- `cmp` (R71). -/
def decodeCmp (sub d a b c m : Nat) (p : Pred) : Dec :=
  need (d < 8) .regField <| need (c = 0 && m = 0) .unusedField <|
  let kd := BitVec.ofNat 3 d
  let logic (i : CmpKind) : Dec := need (a < 8 && b < 8) .regField (.ok (.cmp i kd p))
  let ka := BitVec.ofNat 3 a; let kb := BitVec.ofNat 3 b
  match sub with
  | 10 => logic (.kand ka kb)
  | 11 => logic (.kor ka kb)
  | 12 => logic (.kxor ka kb)
  | 13 => need (a < 8) .regField (need (b = 0) .unusedField (.ok (.cmp (.knot ka) kd p)))
  | n => pick (IntCmp.ofCode n) .subOp fun o => .ok (.cmp (.cmp o (Reg.ofCode a) (Reg.ofCode b)) kd p)

/-- `fcmp` (R116). -/
def decodeFcmp (sub d a b c m : Nat) (p : Pred) : Dec :=
  need (d < 8) .regField <| need (c = 0) .unusedField <|
  let kd := BitVec.ofNat 3 d
  match sub with
  | 8 => need (b = 0 && m < 1024) .unusedField (.ok (.fcmp (.cls (Reg.ofCode a) (BitVec.ofNat 10 m)) kd p))
  | n => need (m = 0) .unusedField <|
      pick (FCmpOp.ofCode n) .subOp fun o => .ok (.fcmp (.cmp o (Reg.ofCode a) (Reg.ofCode b)) kd p)

/-- `hf2` (R120). -/
def decodeHf2 (sub d a b c m : Nat) (p : Pred) : Dec :=
  let ra := Reg.ofCode a; let rb := Reg.ofCode b; let rc := Reg.ofCode c
  need (vOk d) .regField <| need (m < 8) .unusedField <|
  pick (HfType.ofCode (m % 2)) .fieldValue fun ty => pick (Rm.ofCode (m / 2)) .fieldValue fun rm =>
  match sub with
  | 0 => need (c = 0) .unusedField (.ok (.hf2 (.add rm ra rb) ty d p))
  | 1 => need (c = 0) .unusedField (.ok (.hf2 (.mul rm ra rb) ty d p))
  | 2 => .ok (.hf2 (.fma rm ra rb rc) ty d p)
  | 3 => need (c = 0 && rm = .rne) .unusedField (.ok (.hf2 (.min ra rb) ty d p))
  | 4 => need (c = 0 && rm = .rne) .unusedField (.ok (.hf2 (.max ra rb) ty d p))
  | _ => .error .subOp

/-- `txb` (R240). -/
def decodeTxb (sub d a b c m : Nat) (p : Pred) : Dec :=
  let ra := Reg.ofCode a; let rb := Reg.ofCode b
  need (c = 0 && m = 0) .unusedField <| need ra.pairOk .regField <|
  match sub with
  | 0 => need (d = 0) .unusedField (.ok (.txbInit ra rb p))
  | 1 => need (d = 0 && b = 0) .unusedField (.ok (.txbArrive ra p))
  | 2 => need (d = 0) .unusedField (.ok (.txbExpect ra rb p))
  | 3 => need (d = 0) .unusedField (.ok (.txbArrivex ra rb p))
  | 4 => need (d = 0) .unusedField (.ok (.txbWait ra rb p))
  | 5 => need (d < 8) .regField (.ok (.txbTest (BitVec.ofNat 3 d) ra rb p))
  | _ => .error .subOp

/-- `bar` (R244). -/
def decodeBar (sub d a b c m : Nat) (p : Pred) : Dec :=
  let bn := BitVec.ofNat 4 m
  need (a = 0 && b = 0 && c = 0 && m < 16) .unusedField <|
  match sub with
  | 0 => need (d = 0) .unusedField (.ok (.barArrive bn p))
  | 1 => need (d = 0) .unusedField (.ok (.barWait bn p))
  | 2 => need (d = 0) .unusedField (.ok (.barSync bn p))
  | 3 => need (d = 0) .unusedField (.ok (.barDrop bn p))
  | 4 => need (vOk d) .regField (.ok (.barCount d bn p))
  | _ => .error .subOp

/-- `fence` (R172). -/
def decodeFence (sub d a b c m : Nat) (p : Pred) : Dec :=
  need (d = 0 && a = 0 && b = 0 && c = 0 && m < 4) .unusedField <|
  pick (Scope.ofCode m) .fieldValue fun sc =>
  match sub with
  | 0 => .ok (.fenceAcq sc p)
  | 1 => .ok (.fenceRel sc p)
  | 2 => .ok (.fenceSc sc p)
  | 3 => .ok (.fenceLight sc p)
  | 4 => .ok (.fenceHeavy sc p)
  | _ => .error .subOp

/-- `vote` (R79). -/
def decodeVote (sub d a b c m : Nat) (p : Pred) : Dec :=
  need (b = 0 && m = 0) .unusedField <| need (a < 8 && 224 ≤ c) .regField <|
  let ka := BitVec.ofNat 3 a; let sc := BitVec.ofNat 5 (c - 224); let kd := BitVec.ofNat 3 d
  match sub with
  | 0 => need (d < 8) .regField (.ok (.vote (.all kd) ka sc p))
  | 1 => need (d < 8) .regField (.ok (.vote (.any kd) ka sc p))
  | 2 => need (d < 8) .regField (.ok (.vote (.uni kd) ka sc p))
  | 3 => need (vOk d) .regField (.ok (.vote (.ballot d) ka sc p))
  | _ => .error .subOp

/-- Three-source float and integer ops of one shape: `f` builds the instruction from its rounding mode. -/
def decodeRm (d c m : Nat) (usesC : Bool) (f : Rm → Instr) : Dec :=
  need (vOk d) .regField <| need ((usesC || c = 0) && m < 4) .unusedField <| pick (Rm.ofCode m) .fieldValue fun r => .ok (f r)

/-- The lane X class: op, D, A, B of the first word and the X word's fields. -/
def decodeLaneX (op d a b : Nat) (p : Pred) (sub c m : Nat) : Dec :=
  let ra := Reg.ofCode a; let rb := Reg.ofCode b; let rc := Reg.ofCode c
  let noSub (k : Dec) : Dec := need (sub = 0) .subOp k
  match op with
  | 0x06 => noSub <| need (vOk d) .regField <| need (m = 0) .unusedField (.ok (.mad d ra rb rc p))
  | 0x12 => decodeBitop sub d a b c m p
  | 0x13 => need (vOk d) .regField <| need (c = 0 && m = 0) .unusedField <|
      pick (DivOp.ofCode sub) .subOp fun o => .ok (.idiv o d ra rb p)
  | 0x14 => decodeAddr sub d a b c m p
  | 0x15 => decodeCmp sub d a b c m p
  | 0x16 => noSub <| need (vOk d && c < 8) .regField <| need (m = 0) .unusedField
      (.ok (.sel d ra rb (BitVec.ofNat 3 c) p))
  | 0x18 => noSub <| decodeRm d c m false fun r => .fadd r d ra rb p
  | 0x19 => noSub <| decodeRm d c m false fun r => .fsub r d ra rb p
  | 0x1A => noSub <| decodeRm d c m false fun r => .fmul r d ra rb p
  | 0x1B => noSub <| decodeRm d c m true fun r => .ffma r d ra rb rc p
  | 0x1C => noSub <| need (vOk d) .regField <| need (c = 0 && m = 0) .unusedField (.ok (.fmin d ra rb p))
  | 0x1D => noSub <| need (vOk d) .regField <| need (c = 0 && m = 0) .unusedField (.ok (.fmax d ra rb p))
  | 0x1E => decodeFcmp sub d a b c m p
  | 0x1F => need (vOk d) .regField <| need (b = 0 && c = 0 && m = 0) .unusedField <|
      pick (MufuOp.ofCode sub) .subOp fun o => .ok (.mufu o d ra p)
  | 0x20 => decodeHf2 sub d a b c m p
  | 0x21 => need (vOk d) .regField <| need (b = 0 && c = 0 && m < 8) .unusedField <|
      pick (CvtOp.ofCode sub) .subOp fun o => pick (Rm.ofCode (m % 4)) .fieldValue fun r =>
        need (o ≠ .i8i32 || m = 0) .fieldValue (.ok (.cvt o r (m / 4 = 1) d ra p))
  | 0x22 => need (vOk d) .regField <| need (m < 2) .unusedField <|
      pick (DotOp.ofCode sub) .subOp fun o => .ok (.dot4 o (m = 1) d ra rb rc p)
  | 0x29 => noSub <| need (b = 0 && m < 32) .unusedField
      (.ok (.mpush (BitVec.ofNat 3 m) (BitVec.ofNat 2 (m / 8)) (Reg.ofCode d) ra rc p))
  | 0x2A => noSub <| need (vOk d && 224 ≤ a) .regField <| need (b = 0 && c = 0 && m < 1024) .unusedField
      (.ok (.mpull d (BitVec.ofNat 5 (a - 224)) (BitVec.ofNat 4 m) (BitVec.ofNat 4 (m / 16)) (BitVec.ofNat 2 (m / 256)) p))
  | 0x2B => noSub <| need (a = 0 && b = 0 && c = 0 && m < 8) .unusedField
      (.ok (.qpush (BitVec.ofNat 3 m) (Reg.ofCode d) p))
  | 0x2C => noSub <| need (vOk d) .regField <| need (a = 0 && b = 0 && c = 0 && m < 8) .unusedField
      (.ok (.qpop (BitVec.ofNat 3 m) d p))
  | 0x2D => decodeTxb sub d a b c m p
  | 0x2E => decodeBar sub d a b c m p
  | 0x2F => decodeFence sub d a b c m p
  | 0x31 => noSub <| need (d = 0 && b = 0 && c = 0 && m = 0) .unusedField <| need ra.pairOk .regField (.ok (.brx ra p))
  | 0x33 => noSub <| need (d = 0 && b = 0 && c = 0 && m = 0) .unusedField <| need ra.pairOk .regField (.ok (.ret ra p))
  | 0x34 => noSub <| need (d = 0 && a = 0 && b = 0 && c = 0 && m = 0) .unusedField (.ok (.exit p))
  | 0x35 => need (vOk d && 224 ≤ c) .regField <| need (m = 0) .unusedField <|
      pick (ShflOp.ofCode sub) .subOp fun o => .ok (.shfl o d ra rb (BitVec.ofNat 5 (c - 224)) p)
  | 0x36 => decodeVote sub d a b c m p
  | 0x38 => noSub <| need (d = 0 && a = 0 && b < 128 && c = 0 && m = 0) .unusedField
      (.ok (.brk (BitVec.ofNat 7 b) p))
  | 0x39 => noSub <| need (vOk d && ra.pairOk) .regField <| need (m < 64) .unusedField <|
      pick (WaitCond.ofCode (m % 8)) .fieldValue fun w => pick (Scope.ofCode (m / 8 % 4)) .fieldValue fun sc =>
        .ok (.waitv w sc (m / 32 = 1) d ra rb rc p)
  | _ => .error .wordClass

/-- `bra` and `call`: the displacement takes bits [23:0] of the first word (Table 3.6). -/
def decodeBranch (isCall : Bool) (disp : Nat) (p : Pred) (sub c m : Nat) : Dec :=
  need (sub = 0 && c = 0 && m = 0) .unusedField
    (.ok (if isCall then .call (BitVec.ofNat 24 disp) p else .bra (BitVec.ofNat 24 disp) p))

/-- The memory X word (Table 2.2). -/
def decodeMemX (w : Nat) (k : MemX → Dec) : Dec :=
  pick (Width.ofCode (w / 33554432 % 8)) .fieldValue fun width =>
  pick (Space.ofCode (w / 8388608 % 4)) .fieldValue fun space =>
  pick (ReqType.ofCode (w / 2097152 % 4)) .fieldValue fun rtype =>
  pick (Order.ofCode (w / 524288 % 4)) .fieldValue fun order =>
  pick (Scope.ofCode (w / 131072 % 4)) .fieldValue fun scope =>
  k { pred := Pred.ofCode (w / 268435456 % 16), width, space, rtype, order, scope,
      scale := BitVec.ofNat 2 (w / 32768 % 4), sx := w / 16384 % 2 = 1, off := BitVec.ofNat 14 w }

/-- The atomic X word (Table 2.4). -/
def decodeAtomX (w : Nat) (k : AtomX → Nat → Dec) : Dec :=
  need (w / 2097152 % 4 = 0) .unusedField <|
  pick (AtomOp.ofCode (w / 16777216 % 16)) .fieldValue fun op =>
  pick (Order.ofCode (w / 524288 % 4)) .fieldValue fun order =>
  pick (Scope.ofCode (w / 131072 % 4)) .fieldValue fun scope =>
  k { pred := Pred.ofCode (w / 268435456 % 16), op, wide64 := w / 8388608 % 2 = 1, order, scope,
      off := BitVec.ofNat 9 w } (w / 512 % 256)

/-- A load or store word (R163). -/
def decodeMem (op d a b w2 : Nat) : Dec :=
  decodeMemX w2 fun m =>
    let ra := Reg.ofCode a; let rb := Reg.ofCode b; let rd := Reg.ofCode d
    match op with
    | 0x23 => need (m.loadOk d ra rb) .fieldValue (.ok (.ld m d ra rb))
    | 0x24 => need (m.storeOk rd ra rb) .fieldValue (.ok (.st m rd ra rb))
    | 0x27 => need (m.loadOk d ra rb) .fieldValue (.ok (.ldl m d ra rb))
    | _ => need (m.storeOk rd ra rb) .fieldValue (.ok (.stl m rd ra rb))

/-- `atom` (R168). -/
def decodeAtom (d a b w2 : Nat) : Dec :=
  decodeAtomX w2 fun x c =>
    let i := Instr.atom x d (Reg.ofCode a) (Reg.ofCode b) (Reg.ofCode c)
    need i.wellFormed .fieldValue (.ok i)

/-- `red` (R168). -/
def decodeRed (d a b w2 : Nat) : Dec :=
  decodeAtomX w2 fun x c =>
    let i := Instr.red x (Reg.ofCode d) (Reg.ofCode a)
    need (b = 0 && c = 0) .unusedField (need i.wellFormed .fieldValue (.ok i))

/-- A lane-set word whose op is not marked ILL (R37 to R39). `w2` is the word that follows. -/
def decodeLane (w1 w2 : Nat) : Dec :=
  let l := w1 / 1073741824 % 2
  let op := w1 / 16777216 % 64
  let d := w1 / 65536 % 256
  let a := w1 / 256 % 256
  let b := w1 % 256
  let p := Pred.ofCode (w2 / 268435456 % 16)
  let sub := w2 / 4194304 % 64
  let c := w2 / 16384 % 256
  let m := w2 % 16384
  let x24 := BitVec.ofNat 24 w1
  match op with
  | 0x00 => .ok (if l = 0 then .nop x24 else .nopTwoWord x24 (BitVec.ofNat 32 w2))
  | 0x3F => .ok (if l = 0 then .hint x24 else .hintTwoWord x24 (BitVec.ofNat 32 w2))
  | 0x17 => need (vOk d) .regField <| need (a = 0) .unusedField <|
      if l = 0 then .ok (.mov d (Reg.ofCode b)) else need (b = 0) .wordClass (.ok (.movK d (BitVec.ofNat 32 w2)))
  | 0x37 => need (l = 0) .wordClass <| need (b = 0) .unusedField <| pick (SReg.ofCode a) .fieldValue fun n =>
      need (if n.is64 then vPairOk d else vOk d) .regField (.ok (.sreg d n))
  | 0x23 => need (l = 1) .wordClass (decodeMem op d a b w2)
  | 0x24 => need (l = 1) .wordClass (decodeMem op d a b w2)
  | 0x27 => need (l = 1) .wordClass (decodeMem op d a b w2)
  | 0x28 => need (l = 1) .wordClass (decodeMem op d a b w2)
  | 0x25 => need (l = 1) .wordClass (decodeAtom d a b w2)
  | 0x26 => need (l = 1) .wordClass (decodeRed d a b w2)
  | 0x30 => need (l = 1) .wordClass (decodeBranch false (w1 % 16777216) p sub c m)
  | 0x32 => need (l = 1) .wordClass (decodeBranch true (w1 % 16777216) p sub c m)
  | _ =>
    if l = 0 then
      match kOne op d (Reg.ofCode a) (Reg.ofCode b) with
      | some i => need (vOk d) .regField (.ok i)
      | none => .error .wordClass
    else
      match kLit op d (Reg.ofCode a) (BitVec.ofNat 32 w2) with
      | some i => need (b = 0) .wordClass (need (vOk d) .regField (.ok i))
      | none => decodeLaneX op d a b p sub c m

/-! ### The uniform set (Table 2.11) -/

/-- `uld` and `ust` (R145). -/
def decodeUMem (isLoad : Bool) (d a b imm sub i22 : Nat) : Dec :=
  need (b = 0) .unusedField <|
  pick (ReqType.ofCode sub) .subOp fun rtype =>
  pick (Width.ofCode (imm % 8)) .fieldValue fun width =>
  pick (Space.ofCode (imm / 8 % 4)) .fieldValue fun space =>
  pick (Order.ofCode (imm / 32 % 4)) .fieldValue fun order =>
  pick (Scope.ofCode (imm / 128 % 4)) .fieldValue fun scope =>
  let m : UMemX := { rtype, width, space, order, scope, off := BitVec.ofNat 22 i22 }
  let i := if isLoad then Instr.uld m (BitVec.ofNat 5 d) (BitVec.ofNat 5 a)
    else Instr.ust m (BitVec.ofNat 5 d) (BitVec.ofNat 5 a)
  need i.wellFormed .fieldValue (.ok i)

/-- `team` (Table 6.6); `fork` reuses every field below the op (R41). -/
def decodeTeam (w1 d a b imm sub i22 : Nat) : Dec :=
  match sub with
  | 0 => .ok (.fork (BitVec.ofNat 22 i22) (BitVec.ofNat 24 w1))
  | 1 => need (d = 0 && a = 0 && b = 0 && imm = 0 && i22 = 0) .unusedField (.ok .rdv)
  | 2 => need (a = 0 && b = 0 && imm < 32 && i22 < 2 && (i22 = 0 || imm = 0)) .unusedField
      (.ok (.regq (BitVec.ofNat 5 d) (i22 = 1) (BitVec.ofNat 5 imm)))
  | 3 => need (d = 0 && a = 0 && b = 0 && imm = 0 && i22 = 0) .unusedField (.ok .rotreq)
  | 4 => need (d = 0 && a = 0 && b = 0 && imm = 0 && i22 = 0) .unusedField (.ok .yield)
  | _ => .error .subOp

/-- `ubar` (R245). -/
def decodeUbar (d a b imm sub i22 : Nat) : Dec :=
  let bn := BitVec.ofNat 4 imm
  need (d = 0 && a = 0 && b = 0 && imm < 16) .unusedField <|
  match sub with
  | 0 => need (i22 < 4096) .unusedField (need (i22 ≠ 0) .fieldValue (.ok (.ubarInit bn (BitVec.ofNat 12 i22))))
  | 1 => need (i22 = 0) .unusedField (.ok (.ubarArrive bn))
  | 2 => need (i22 = 0) .unusedField (.ok (.ubarWait bn))
  | 3 => need (i22 = 0) .unusedField (.ok (.ubarSync bn))
  | 4 => need (i22 = 0) .unusedField (.ok (.ubarDrop bn))
  | _ => .error .subOp

/-- `utxb` (R241). -/
def decodeUtxb (d a b imm sub i22 : Nat) : Dec :=
  let sa := BitVec.ofNat 5 a; let sb := BitVec.ofNat 5 b; let off := BitVec.ofNat 22 i22
  need (d = 0 && imm = 0) .unusedField <|
  match sub with
  | 0 => .ok (.utxbInit sa sb off)
  | 1 => need (b = 0) .unusedField (.ok (.utxbArrive sa off))
  | 2 => .ok (.utxbExpect sa sb off)
  | 3 => .ok (.utxbWait sa sb off)
  | _ => .error .subOp

/-- `trap` (Table 11.3). -/
def decodeTrap (d a b imm sub i22 : Nat) : Dec :=
  need (d = 0 && b = 0 && imm = 0 && i22 = 0) .unusedField <|
  match sub with
  | 0 => need (a = 0) .unusedField (.ok .tret)
  | 1 => .ok (.tkill (BitVec.ofNat 5 a))
  | 2 => need (a = 0) .unusedField (.ok .tsusp)
  | _ => .error .subOp

/-- `mchain` (R215). -/
def decodeMchain (d a b imm sub i22 : Nat) : Dec :=
  need (d = 0 && a = 0 && b = 0 && imm = 0 && i22 = 0) .unusedField <|
  match sub with
  | 0 => .ok .mchainBegin
  | 1 => .ok .mchainBeginOrdered
  | 2 => .ok .mchainEnd
  | _ => .error .subOp

/-- `mma` (Table 9.5). -/
def decodeMma (d a b imm i22 : Nat) : Dec :=
  need (d = 0 && b = 0 && imm < 256) .unusedField <|
  let x : MmaX :=
    { mask := BitVec.ofNat 4 (imm / 16), off := BitVec.ofNat 4 imm, hold := i22 / 2097152 % 2 = 1,
      nb := BitVec.ofNat 4 (i22 / 131072), cb := BitVec.ofNat 3 (i22 / 16384), rpt := BitVec.ofNat 3 (i22 / 2048),
      slot := BitVec.ofNat 3 (i22 / 256), g := BitVec.ofNat 3 (i22 / 32), g0 := BitVec.ofNat 5 i22 }
  need x.ok .fieldValue (.ok (.mma x (BitVec.ofNat 5 a)))

/-- The copy X word (Table 10.1); `k` also receives bits [21:18]. -/
def decodeCopyX (i22 : Nat) (k : CopyX → Nat → Dec) : Dec :=
  pick (ReqType.ofCode (i22 / 65536 % 4)) .fieldValue fun rtype =>
  let x : CopyX := { rtype, nb := i22 / 32768 % 2 = 1, tb := BitVec.ofNat 15 i22 }
  need x.ok .unusedField (k x (i22 / 262144 % 16))

/-- The copy instructions (Table 10.2), `send` (R376) and `coll` (R378). -/
def decodeCopy (op d a b imm i22 : Nat) : Dec :=
  decodeCopyX i22 fun x hi =>
  let sd := BitVec.ofNat 5 d; let sa := BitVec.ofNat 5 a; let sb := BitVec.ofNat 5 b
  let three : Bool := 1 ≤ d && d ≤ 29
  match op with
  | 0x30 => need (hi = 0 && imm = 0) .unusedField (.ok (.bcopy x sd sa sb))
  | 0x31 => need (hi = 0) .unusedField (need three .regField (.ok (.bcopymc x sd sa sb (BitVec.ofNat 9 imm))))
  | 0x32 => need (hi = 0 && imm < 2) .unusedField (need three .regField (.ok (.gather x sd sa sb (imm = 1))))
  | 0x33 => need (hi = 0 && imm < 2) .unusedField (need three .regField (.ok (.scatter x sd sa sb (imm = 1))))
  | 0x37 => need (hi = 0 && d = 0 && b = 0 && imm < 256) .unusedField <|
      pick (CollOp.ofCode (imm % 8)) .fieldValue fun o => pick (CollType.ofCode (imm / 8 % 8)) .fieldValue fun t =>
      pick (CollRed.ofCode (imm / 64 % 4)) .fieldValue fun r =>
        need (collOk o t r) .fieldValue (.ok (.coll x o t r sa))
  | 0x38 => need (hi < 2 && imm = 0) .unusedField <| need (1 ≤ d && d ≤ 30) .regField
      (.ok (.send x (hi = 1) sd sa sb))
  | _ => need (hi = 0 && b = 0 && imm < 16) .unusedField (.ok (.bcopyr x sd sa (BitVec.ofNat 4 imm)))

/-- The uniform X class: every op that takes the X word of Table 2.5. -/
def decodeUniX (w1 op d a b imm sub i22 : Nat) : Dec :=
  let sd := BitVec.ofNat 5 d; let sa := BitVec.ofNat 5 a; let off := BitVec.ofNat 22 i22
  let noSub (k : Dec) : Dec := need (sub = 0) .subOp k
  match op with
  | 0x0B => noSub <| need (d = 0 && b = 0 && imm < 4) .unusedField <| pick (UCond.ofCode imm) .fieldValue fun c =>
      need (c ≠ .al || a = 0) .unusedField (.ok (.ubra c sa off))
  | 0x0C => noSub <| need (b = 0 && imm < 4) .unusedField <| pick (UCond.ofCode imm) .fieldValue fun c =>
      need (c ≠ .al || a = 0) .unusedField (.ok (.ucall c sd sa off))
  | 0x0E => decodeUMem true d a b imm sub i22
  | 0x0F => decodeUMem false d a b imm sub i22
  | 0x10 => noSub <| need (b = 0 && i22 < 256) .unusedField <| need (vOk i22) .regField
      (.ok (.urd sd sa i22 (BitVec.ofNat 9 imm)))
  | 0x12 => decodeTeam w1 d a b imm sub i22
  | 0x13 => decodeUbar d a b imm sub i22
  | 0x14 => decodeUtxb d a b imm sub i22
  | 0x16 => noSub <| need (d = 0 && b = 0 && imm < 16) .unusedField (.ok (.tdesc (BitVec.ofNat 4 imm) sa off))
  | 0x19 => noSub <| need (b = 0 && imm < 256) .unusedField (.ok (.launch sd sa (BitVec.ofNat 8 imm) off))
  | 0x1B => decodeTrap d a b imm sub i22
  | 0x20 => decodeMchain d a b imm sub i22
  | 0x23 => noSub <| decodeMma d a b imm i22
  | 0x24 => noSub <| need (d = 0 && b = 0 && i22 = 0) .unusedField <|
      need (countOk (BitVec.ofNat 5 (imm / 16))) .fieldValue (.ok (.accz sa (BitVec.ofNat 4 imm) (BitVec.ofNat 5 (imm / 16))))
  | 0x25 => noSub <| need (d = 0) .unusedField <| need (countOk (BitVec.ofNat 5 (imm / 16))) .fieldValue
      (.ok (.accsc sa (BitVec.ofNat 4 imm) (BitVec.ofNat 5 (imm / 16)) (BitVec.ofNat 5 b) off))
  | 0x26 => noSub <| need (d = 0 && a = 0 && b = 0 && imm < 64 && i22 < 32768) .unusedField
      (.ok (.wload (BitVec.ofNat 4 imm) (BitVec.ofNat 2 (imm / 16)) (BitVec.ofNat 5 i22) (BitVec.ofNat 10 (i22 / 32))))
  | 0x34 => noSub <| need (a = 0 && imm = 0 && i22 = 0) .unusedField (.ok (.cpref sd (BitVec.ofNat 5 b)))
  | 0x30 => noSub <| decodeCopy op d a b imm i22
  | 0x31 => noSub <| decodeCopy op d a b imm i22
  | 0x32 => noSub <| decodeCopy op d a b imm i22
  | 0x33 => noSub <| decodeCopy op d a b imm i22
  | 0x37 => noSub <| decodeCopy op d a b imm i22
  | 0x38 => noSub <| decodeCopy op d a b imm i22
  | 0x3A => noSub <| decodeCopy op d a b imm i22
  | _ => .error .wordClass

/-- `wmode` (Table 8.4). -/
def decodeWmode (d a b imm : Nat) : Dec :=
  need (d = 0 && a = 0 && b = 0 && imm < 256) .unusedField <|
  if imm / 4 % 2 = 0 then need (imm / 8 = 0) .fieldValue (.ok (.wmodeStore (BitVec.ofNat 2 imm)))
  else need (imm / 64 % 2 = 0 || imm / 8 % 8 = 0) .fieldValue
    (.ok (.wmodeComp (BitVec.ofNat 2 imm) (BitVec.ofNat 3 (imm / 8)) (imm / 64 % 2 = 1) (imm / 128 = 1)))

/-- `ufence` (R360). -/
def decodeUfence (d a b imm : Nat) : Dec :=
  need (b = 0 && imm < 32) .unusedField <|
  pick (Scope.ofCode (imm / 8)) .fieldValue fun sc =>
  let plain (i : Instr) : Dec := need (d = 0 && a = 0) .unusedField (.ok i)
  match imm % 8 with
  | 0 => plain (.ufenceAcq sc)
  | 1 => plain (.ufenceRel sc)
  | 2 => plain (.ufenceSc sc)
  | 3 => plain (.ufenceLight sc)
  | 4 => plain (.ufenceHeavy sc)
  | 5 => need (sc = .fab) .fieldValue (.ok (.ufenceWait (BitVec.ofNat 5 d) (BitVec.ofNat 5 a)))
  | _ => .error .fieldValue

/-- The uniform single class. -/
def decodeUniSingle (op d a b imm : Nat) : Dec :=
  let sd := BitVec.ofNat 5 d; let sa := BitVec.ofNat 5 a
  let bn := BitVec.ofNat 4 imm
  match op with
  | 0x0D => need (d = 0 && b = 0 && imm = 0) .unusedField (.ok (.uret sa))
  | 0x11 => need (a = 0 && b = 0) .unusedField <| pick (SReg.ofCode imm) .fieldValue fun n =>
      need (n ≠ .lane) .fieldValue (.ok (.usreg sd n))
  | 0x15 => decodeWmode d a b imm
  | 0x17 => need (a = 0 && b = 0 && imm < 32) .unusedField <| need (countOk (BitVec.ofNat 5 imm)) .fieldValue
      (.ok (.accalloc sd (BitVec.ofNat 5 imm)))
  | 0x18 => need (d = 0 && b = 0) .unusedField <| need (countOk (BitVec.ofNat 5 (imm / 16))) .fieldValue
      (.ok (.accfree sa (BitVec.ofNat 4 imm) (BitVec.ofNat 5 (imm / 16))))
  | 0x1A => decodeUfence d a b imm
  | 0x21 => need (d = 0 && a = 0 && b = 0 && imm = 0) .unusedField (.ok .mwait)
  | 0x22 => need (d = 0 && a = 0 && b = 0 && imm < 16) .unusedField (.ok (.marrive bn))
  | 0x28 => need (d = 0 && a = 0 && b = 0 && imm = 0) .unusedField (.ok .mend)
  | 0x35 => need (d = 0 && a = 0 && b = 0 && imm = 0) .unusedField (.ok .cwait)
  | 0x36 => need (d = 0 && a = 0 && b = 0 && imm < 16) .unusedField (.ok (.carrive bn))
  | 0x39 => need (d = 0 && a = 0 && b = 0 && imm = 0) .unusedField (.ok .cend)
  | _ => .error .wordClass

/-- A uniform-set word whose op is not marked ILL (R40 and R41). -/
def decodeUni (w1 w2 : Nat) : Dec :=
  let l := w1 / 1073741824 % 2
  let op := w1 / 16777216 % 64
  let d := w1 / 524288 % 32
  let a := w1 / 16384 % 32
  let b := w1 / 512 % 32
  let imm := w1 % 512
  let x24 := BitVec.ofNat 24 w1
  let sd := BitVec.ofNat 5 d; let sa := BitVec.ofNat 5 a; let sb := BitVec.ofNat 5 b
  let lit := BitVec.ofNat 32 w2
  match op with
  | 0x00 => .ok (if l = 0 then .unop x24 else .unopTwoWord x24 lit)
  | 0x3F => .ok (if l = 0 then .uhint x24 else .uhintTwoWord x24 lit)
  | 0x0A => need (a = 0) .unusedField <|
      if l = 0 then .ok (.umov sd sb (BitVec.ofNat 9 imm)) else need (b = 0 && imm = 0) .wordClass (.ok (.umovK sd lit))
  | _ =>
    if l = 0 then
      match uOne op sd sa sb (BitVec.ofNat 9 imm) with
      | some i => .ok i
      | none => decodeUniSingle op d a b imm
    else
      match uLit op sd sa lit with
      | some i => need (b = 0 && imm = 0) .wordClass (.ok i)
      | none => need (w2 / 268435456 = 0) .unusedField (decodeUniX w1 op d a b imm (w2 / 4194304 % 64) (w2 % 4194304))

/-- Whether a first word announces a second one (R27). -/
def hasSecond (w1 : Nat) : Bool := w1 / 1073741824 % 2 = 1

/-- The instruction of two fetched words; `w2` counts only where the first word's L bit is 1. -/
def decode (w1 w2 : Nat) : Dec :=
  if illOp w1 then .ok (.undefinedOpcode (BitVec.ofNat 32 w1))
  else if w1 / 2147483648 % 2 = 0 then decodeLane w1 w2 else decodeUni w1 w2

/-- The instruction whose bits, in the opcode table's numbering, are `w`: words stored little-endian one after another. -/
def decodeTableWord (_nbits w : Nat) : Option Instr :=
  match decode (w % 4294967296) (w / 4294967296 % 4294967296) with
  | .ok i => some i
  | .error _ => none

/-! ### The encoder -/

/-- A one-word lane form. -/
def Code.lane (op d a b : Nat) : Code := { w1 := laneW1 0 op d a b, w2 := none }

/-- A lane K form. -/
def Code.laneK (op d a : Nat) (lit : Word) : Code := { w1 := laneW1 1 op d a 0, w2 := some lit.toNat }

/-- A lane X form. -/
def Code.laneX (op d a b : Nat) (p : Pred) (sub c m : Nat) : Code :=
  { w1 := laneW1 1 op d a b, w2 := some (Sys2Proof.laneX p sub c m) }

/-- A one-word uniform form. -/
def Code.uni (op d a b imm : Nat) : Code := { w1 := uniW1 0 op d a b imm, w2 := none }

/-- A uniform K form. -/
def Code.uniK (op d a : Nat) (lit : Word) : Code := { w1 := uniW1 1 op d a 0 0, w2 := some lit.toNat }

/-- A uniform X form. -/
def Code.uniX (op d a b imm sub i22 : Nat) : Code :=
  { w1 := uniW1 1 op d a b imm, w2 := some (Sys2Proof.uniX sub i22) }

/-- `bitop` in words (Table 5.2). -/
def encodeBitop (op : BitOp) (d : Nat) (p : Pred) : Code :=
  match op with
  | .popc a => .laneX 0x12 d a.code 0 p 0 0 0
  | .clz a => .laneX 0x12 d a.code 0 p 1 0 0
  | .ctz a => .laneX 0x12 d a.code 0 p 2 0 0
  | .brev a => .laneX 0x12 d a.code 0 p 3 0 0
  | .bfeI a b c => .laneX 0x12 d a.code b.code p 4 c.code 0
  | .bfeN a b c => .laneX 0x12 d a.code b.code p 5 c.code 0
  | .bfi a b c => .laneX 0x12 d a.code b.code p 6 c.code 0
  | .lop3 a b c t => .laneX 0x12 d a.code b.code p 7 c.code t.toNat
  | .prmt a b c => .laneX 0x12 d a.code b.code p 8 c.code 0
  | .fshL a b c => .laneX 0x12 d a.code b.code p 9 c.code 0
  | .fshR a b c => .laneX 0x12 d a.code b.code p 10 c.code 0

/-- `addr` in words (Table 5.3). -/
def encodeAddr (op : AddrOp) (d : Nat) (p : Pred) : Code :=
  match op with
  | .add64 a b => .laneX 0x14 d a.code b.code p 0 0 0
  | .sub64 a b => .laneX 0x14 d a.code b.code p 1 0 0
  | .lea a b s => .laneX 0x14 d a.code b.code p 2 0 s.toNat
  | .lea64 a b s => .laneX 0x14 d a.code b.code p 3 0 s.toNat
  | .madwI a b c => .laneX 0x14 d a.code b.code p 4 c.code 0
  | .madwN a b c => .laneX 0x14 d a.code b.code p 5 c.code 0
  | .shl64 a b => .laneX 0x14 d a.code b.code p 6 0 0
  | .shr64 a b => .laneX 0x14 d a.code b.code p 7 0 0
  | .sra64 a b => .laneX 0x14 d a.code b.code p 8 0 0

/-- `hf2` in words (R120). -/
def encodeHf2 (op : HfOp) (ty : HfType) (d : Nat) (p : Pred) : Code :=
  match op with
  | .add rm a b => .laneX 0x20 d a.code b.code p 0 0 (rm.code * 2 + ty.code)
  | .mul rm a b => .laneX 0x20 d a.code b.code p 1 0 (rm.code * 2 + ty.code)
  | .fma rm a b c => .laneX 0x20 d a.code b.code p 2 c.code (rm.code * 2 + ty.code)
  | .min a b => .laneX 0x20 d a.code b.code p 3 0 ty.code
  | .max a b => .laneX 0x20 d a.code b.code p 4 0 ty.code

/-- The second word of `mma` (Table 9.5). -/
def MmaX.code (x : MmaX) : Nat :=
  boolCode x.hold * 2097152 + x.nb.toNat * 131072 + x.cb.toNat * 16384 + x.rpt.toNat * 2048 + x.slot.toNat * 256 +
    x.g.toNat * 32 + x.g0.toNat

/-- The first word's imm9 of `uld` and `ust` (R145). -/
def UMemX.imm (m : UMemX) : Nat := m.width.code + m.space.code * 8 + m.order.code * 32 + m.scope.code * 128

/-- The words of an instruction; none for an event, which has no word. -/
def encode : Instr → Option Code
  | .add d a b => some (.lane 1 d a.code b.code)
  | .addK d a lit => some (.laneK 1 d a.code lit)
  | .sub d a b => some (.lane 2 d a.code b.code)
  | .subK d a lit => some (.laneK 2 d a.code lit)
  | .mul d a b => some (.lane 3 d a.code b.code)
  | .mulK d a lit => some (.laneK 3 d a.code lit)
  | .mulhiI d a b => some (.lane 4 d a.code b.code)
  | .mulhiIK d a lit => some (.laneK 4 d a.code lit)
  | .mulhiN d a b => some (.lane 5 d a.code b.code)
  | .mulhiNK d a lit => some (.laneK 5 d a.code lit)
  | .minI d a b => some (.lane 7 d a.code b.code)
  | .minIK d a lit => some (.laneK 7 d a.code lit)
  | .maxI d a b => some (.lane 8 d a.code b.code)
  | .maxIK d a lit => some (.laneK 8 d a.code lit)
  | .minN d a b => some (.lane 9 d a.code b.code)
  | .minNK d a lit => some (.laneK 9 d a.code lit)
  | .maxN d a b => some (.lane 10 d a.code b.code)
  | .maxNK d a lit => some (.laneK 10 d a.code lit)
  | .and d a b => some (.lane 11 d a.code b.code)
  | .andK d a lit => some (.laneK 11 d a.code lit)
  | .or d a b => some (.lane 12 d a.code b.code)
  | .orK d a lit => some (.laneK 12 d a.code lit)
  | .xor d a b => some (.lane 13 d a.code b.code)
  | .xorK d a lit => some (.laneK 13 d a.code lit)
  | .andn d a b => some (.lane 14 d a.code b.code)
  | .andnK d a lit => some (.laneK 14 d a.code lit)
  | .shl d a b => some (.lane 15 d a.code b.code)
  | .shlK d a lit => some (.laneK 15 d a.code lit)
  | .shr d a b => some (.lane 16 d a.code b.code)
  | .shrK d a lit => some (.laneK 16 d a.code lit)
  | .sra d a b => some (.lane 17 d a.code b.code)
  | .sraK d a lit => some (.laneK 17 d a.code lit)
  | .mov d b => some (.lane 0x17 d 0 b.code)
  | .movK d lit => some (.laneK 0x17 d 0 lit)
  | .mad d a b c p => some (.laneX 0x06 d a.code b.code p 0 c.code 0)
  | .bitop op d p => some (encodeBitop op d p)
  | .idiv op d a b p => some (.laneX 0x13 d a.code b.code p op.code 0 0)
  | .addr op d p => some (encodeAddr op d p)
  | .cmp (.cmp o a b) d p => some (.laneX 0x15 d.toNat a.code b.code p o.code 0 0)
  | .cmp (.kand a b) d p => some (.laneX 0x15 d.toNat a.toNat b.toNat p 10 0 0)
  | .cmp (.kor a b) d p => some (.laneX 0x15 d.toNat a.toNat b.toNat p 11 0 0)
  | .cmp (.kxor a b) d p => some (.laneX 0x15 d.toNat a.toNat b.toNat p 12 0 0)
  | .cmp (.knot a) d p => some (.laneX 0x15 d.toNat a.toNat 0 p 13 0 0)
  | .sel d a b c p => some (.laneX 0x16 d a.code b.code p 0 c.toNat 0)
  | .fadd rm d a b p => some (.laneX 0x18 d a.code b.code p 0 0 rm.code)
  | .fsub rm d a b p => some (.laneX 0x19 d a.code b.code p 0 0 rm.code)
  | .fmul rm d a b p => some (.laneX 0x1A d a.code b.code p 0 0 rm.code)
  | .ffma rm d a b c p => some (.laneX 0x1B d a.code b.code p 0 c.code rm.code)
  | .fmin d a b p => some (.laneX 0x1C d a.code b.code p 0 0 0)
  | .fmax d a b p => some (.laneX 0x1D d a.code b.code p 0 0 0)
  | .fcmp (.cmp o a b) d p => some (.laneX 0x1E d.toNat a.code b.code p o.code 0 0)
  | .fcmp (.cls a m) d p => some (.laneX 0x1E d.toNat a.code 0 p 8 0 m.toNat)
  | .mufu op d a p => some (.laneX 0x1F d a.code 0 p op.code 0 0)
  | .hf2 op ty d p => some (encodeHf2 op ty d p)
  | .cvt op rm inf d a p => some (.laneX 0x21 d a.code 0 p op.code 0 (boolCode inf * 4 + rm.code))
  | .dot4 op sat d a b c p => some (.laneX 0x22 d a.code b.code p op.code c.code (boolCode sat))
  | .ld m d a b => some { w1 := laneW1 1 0x23 d a.code b.code, w2 := some m.code }
  | .st m d a b => some { w1 := laneW1 1 0x24 d.code a.code b.code, w2 := some m.code }
  | .ldl m d a b => some { w1 := laneW1 1 0x27 d a.code b.code, w2 := some m.code }
  | .stl m d a b => some { w1 := laneW1 1 0x28 d.code a.code b.code, w2 := some m.code }
  | .atom x d a b c => some { w1 := laneW1 1 0x25 d a.code b.code, w2 := some (x.code c.code) }
  | .red x d a => some { w1 := laneW1 1 0x26 d.code a.code 0, w2 := some (x.code 0) }
  | .mpush s q d a c p => some (.laneX 0x29 d.code a.code 0 p 0 c.code (q.toNat * 8 + s.toNat))
  | .mpull d a off row cb p =>
      some (.laneX 0x2A d (224 + a.toNat) 0 p 0 0 (cb.toNat * 256 + row.toNat * 16 + off.toNat))
  | .qpush q d p => some (.laneX 0x2B d.code 0 0 p 0 0 q.toNat)
  | .qpop q d p => some (.laneX 0x2C d 0 0 p 0 0 q.toNat)
  | .txbInit a b p => some (.laneX 0x2D 0 a.code b.code p 0 0 0)
  | .txbArrive a p => some (.laneX 0x2D 0 a.code 0 p 1 0 0)
  | .txbExpect a b p => some (.laneX 0x2D 0 a.code b.code p 2 0 0)
  | .txbArrivex a b p => some (.laneX 0x2D 0 a.code b.code p 3 0 0)
  | .txbWait a b p => some (.laneX 0x2D 0 a.code b.code p 4 0 0)
  | .txbTest d a b p => some (.laneX 0x2D d.toNat a.code b.code p 5 0 0)
  | .barArrive b p => some (.laneX 0x2E 0 0 0 p 0 0 b.toNat)
  | .barWait b p => some (.laneX 0x2E 0 0 0 p 1 0 b.toNat)
  | .barSync b p => some (.laneX 0x2E 0 0 0 p 2 0 b.toNat)
  | .barDrop b p => some (.laneX 0x2E 0 0 0 p 3 0 b.toNat)
  | .barCount d b p => some (.laneX 0x2E d 0 0 p 4 0 b.toNat)
  | .fenceAcq sc p => some (.laneX 0x2F 0 0 0 p 0 0 sc.code)
  | .fenceRel sc p => some (.laneX 0x2F 0 0 0 p 1 0 sc.code)
  | .fenceSc sc p => some (.laneX 0x2F 0 0 0 p 2 0 sc.code)
  | .fenceLight sc p => some (.laneX 0x2F 0 0 0 p 3 0 sc.code)
  | .fenceHeavy sc p => some (.laneX 0x2F 0 0 0 p 4 0 sc.code)
  | .bra disp p => some { w1 := 1073741824 + 0x30 * 16777216 + disp.toNat, w2 := some (laneX p 0 0 0) }
  | .call disp p => some { w1 := 1073741824 + 0x32 * 16777216 + disp.toNat, w2 := some (laneX p 0 0 0) }
  | .brx a p => some (.laneX 0x31 0 a.code 0 p 0 0 0)
  | .ret a p => some (.laneX 0x33 0 a.code 0 p 0 0 0)
  | .exit p => some (.laneX 0x34 0 0 0 p 0 0 0)
  | .shfl op d a b c p => some (.laneX 0x35 d a.code b.code p op.code (224 + c.toNat) 0)
  | .vote (.all d) a c p => some (.laneX 0x36 d.toNat a.toNat 0 p 0 (224 + c.toNat) 0)
  | .vote (.any d) a c p => some (.laneX 0x36 d.toNat a.toNat 0 p 1 (224 + c.toNat) 0)
  | .vote (.uni d) a c p => some (.laneX 0x36 d.toNat a.toNat 0 p 2 (224 + c.toNat) 0)
  | .vote (.ballot d) a c p => some (.laneX 0x36 d a.toNat 0 p 3 (224 + c.toNat) 0)
  | .sreg d n => some (.lane 0x37 d n.code 0)
  | .brk c p => some (.laneX 0x38 0 0 c.toNat p 0 0 0)
  | .waitv w sc acq d a b c p =>
      some (.laneX 0x39 d a.code b.code p 0 c.code (boolCode acq * 32 + sc.code * 8 + w.code))
  | .nop x => some { w1 := x.toNat, w2 := none }
  | .nopTwoWord x w => some { w1 := 1073741824 + x.toNat, w2 := some w.toNat }
  | .hint x => some { w1 := 0x3F * 16777216 + x.toNat, w2 := none }
  | .hintTwoWord x w => some { w1 := 1073741824 + 0x3F * 16777216 + x.toNat, w2 := some w.toNat }
  | .unop x => some { w1 := 2147483648 + x.toNat, w2 := none }
  | .unopTwoWord x w => some { w1 := 3221225472 + x.toNat, w2 := some w.toNat }
  | .uhint x => some { w1 := 2147483648 + 0x3F * 16777216 + x.toNat, w2 := none }
  | .uhintTwoWord x w => some { w1 := 3221225472 + 0x3F * 16777216 + x.toNat, w2 := some w.toNat }
  | .uadd d a b imm => some (.uni 1 d.toNat a.toNat b.toNat imm.toNat)
  | .uaddK d a lit => some (.uniK 1 d.toNat a.toNat lit)
  | .usub d a b imm => some (.uni 2 d.toNat a.toNat b.toNat imm.toNat)
  | .usubK d a lit => some (.uniK 2 d.toNat a.toNat lit)
  | .umul d a b imm => some (.uni 3 d.toNat a.toNat b.toNat imm.toNat)
  | .umulK d a lit => some (.uniK 3 d.toNat a.toNat lit)
  | .uand d a b imm => some (.uni 4 d.toNat a.toNat b.toNat imm.toNat)
  | .uandK d a lit => some (.uniK 4 d.toNat a.toNat lit)
  | .uor d a b imm => some (.uni 5 d.toNat a.toNat b.toNat imm.toNat)
  | .uorK d a lit => some (.uniK 5 d.toNat a.toNat lit)
  | .uxor d a b imm => some (.uni 6 d.toNat a.toNat b.toNat imm.toNat)
  | .uxorK d a lit => some (.uniK 6 d.toNat a.toNat lit)
  | .ushl d a b imm => some (.uni 7 d.toNat a.toNat b.toNat imm.toNat)
  | .ushlK d a lit => some (.uniK 7 d.toNat a.toNat lit)
  | .ushr d a b imm => some (.uni 8 d.toNat a.toNat b.toNat imm.toNat)
  | .ushrK d a lit => some (.uniK 8 d.toNat a.toNat lit)
  | .usra d a b imm => some (.uni 9 d.toNat a.toNat b.toNat imm.toNat)
  | .usraK d a lit => some (.uniK 9 d.toNat a.toNat lit)
  | .umov d b imm => some (.uni 0x0A d.toNat 0 b.toNat imm.toNat)
  | .umovK d lit => some (.uniK 0x0A d.toNat 0 lit)
  | .ubra c a disp => some (.uniX 0x0B 0 a.toNat 0 c.code 0 disp.toNat)
  | .ucall c d a disp => some (.uniX 0x0C d.toNat a.toNat 0 c.code 0 disp.toNat)
  | .uret a => some (.uni 0x0D 0 a.toNat 0 0)
  | .uld m d a => some (.uniX 0x0E d.toNat a.toNat 0 m.imm m.rtype.code m.off.toNat)
  | .ust m d a => some (.uniX 0x0F d.toNat a.toNat 0 m.imm m.rtype.code m.off.toNat)
  | .urd d a v imm => some (.uniX 0x10 d.toNat a.toNat 0 imm.toNat 0 v)
  | .usreg d n => some (.uni 0x11 d.toNat 0 0 n.code)
  | .fork m c => some { w1 := 3221225472 + 0x12 * 16777216 + c.toNat, w2 := some (uniX 0 m.toNat) }
  | .rdv => some (.uniX 0x12 0 0 0 0 1 0)
  | .regq d rd n => some (.uniX 0x12 d.toNat 0 0 n.toNat 2 (boolCode rd))
  | .rotreq => some (.uniX 0x12 0 0 0 0 3 0)
  | .yield => some (.uniX 0x12 0 0 0 0 4 0)
  | .ubarInit b c => some (.uniX 0x13 0 0 0 b.toNat 0 c.toNat)
  | .ubarArrive b => some (.uniX 0x13 0 0 0 b.toNat 1 0)
  | .ubarWait b => some (.uniX 0x13 0 0 0 b.toNat 2 0)
  | .ubarSync b => some (.uniX 0x13 0 0 0 b.toNat 3 0)
  | .ubarDrop b => some (.uniX 0x13 0 0 0 b.toNat 4 0)
  | .utxbInit a b off => some (.uniX 0x14 0 a.toNat b.toNat 0 0 off.toNat)
  | .utxbArrive a off => some (.uniX 0x14 0 a.toNat 0 0 1 off.toNat)
  | .utxbExpect a b off => some (.uniX 0x14 0 a.toNat b.toNat 0 2 off.toNat)
  | .utxbWait a b off => some (.uniX 0x14 0 a.toNat b.toNat 0 3 off.toNat)
  | .wmodeComp w n bin1 keep =>
      some (.uni 0x15 0 0 0 (boolCode keep * 128 + boolCode bin1 * 64 + n.toNat * 8 + 4 + w.toNat))
  | .wmodeStore w => some (.uni 0x15 0 0 0 w.toNat)
  | .tdesc h a off => some (.uniX 0x16 0 a.toNat 0 h.toNat 0 off.toNat)
  | .accalloc d n => some (.uni 0x17 d.toNat 0 0 n.toNat)
  | .accfree a off n => some (.uni 0x18 0 a.toNat 0 (n.toNat * 16 + off.toNat))
  | .launch d a q off => some (.uniX 0x19 d.toNat a.toNat 0 q.toNat 0 off.toNat)
  | .ufenceAcq sc => some (.uni 0x1A 0 0 0 (sc.code * 8))
  | .ufenceRel sc => some (.uni 0x1A 0 0 0 (sc.code * 8 + 1))
  | .ufenceSc sc => some (.uni 0x1A 0 0 0 (sc.code * 8 + 2))
  | .ufenceLight sc => some (.uni 0x1A 0 0 0 (sc.code * 8 + 3))
  | .ufenceHeavy sc => some (.uni 0x1A 0 0 0 (sc.code * 8 + 4))
  | .ufenceWait d a => some (.uni 0x1A d.toNat a.toNat 0 29)
  | .tret => some (.uniX 0x1B 0 0 0 0 0 0)
  | .tkill a => some (.uniX 0x1B 0 a.toNat 0 0 1 0)
  | .tsusp => some (.uniX 0x1B 0 0 0 0 2 0)
  | .mchainBegin => some (.uniX 0x20 0 0 0 0 0 0)
  | .mchainBeginOrdered => some (.uniX 0x20 0 0 0 0 1 0)
  | .mchainEnd => some (.uniX 0x20 0 0 0 0 2 0)
  | .mwait => some (.uni 0x21 0 0 0 0)
  | .marrive b => some (.uni 0x22 0 0 0 b.toNat)
  | .mend => some (.uni 0x28 0 0 0 0)
  | .mma x a => some (.uniX 0x23 0 a.toNat 0 (x.mask.toNat * 16 + x.off.toNat) 0 x.code)
  | .accz a off n => some (.uniX 0x24 0 a.toNat 0 (n.toNat * 16 + off.toNat) 0 0)
  | .accsc a off n b imm => some (.uniX 0x25 0 a.toNat b.toNat (n.toNat * 16 + off.toNat) 0 imm.toNat)
  | .wload h w g0 c0 => some (.uniX 0x26 0 0 0 (w.toNat * 16 + h.toNat) 0 (c0.toNat * 32 + g0.toNat))
  | .bcopy x d a b => some (.uniX 0x30 d.toNat a.toNat b.toNat 0 0 x.code)
  | .bcopyr x d a h => some (.uniX 0x3A d.toNat a.toNat 0 h.toNat 0 x.code)
  | .bcopymc x d a b len => some (.uniX 0x31 d.toNat a.toNat b.toNat len.toNat 0 x.code)
  | .gather x d a b t => some (.uniX 0x32 d.toNat a.toNat b.toNat (boolCode t) 0 x.code)
  | .scatter x d a b t => some (.uniX 0x33 d.toNat a.toNat b.toNat (boolCode t) 0 x.code)
  | .cpref d b => some (.uniX 0x34 d.toNat 0 b.toNat 0 0 0)
  | .cwait => some (.uni 0x35 0 0 0 0)
  | .carrive b => some (.uni 0x36 0 0 0 b.toNat)
  | .cend => some (.uni 0x39 0 0 0 0)
  | .send x t d a b => some (.uniX 0x38 d.toNat a.toNat b.toNat 0 0 (boolCode t * 262144 + x.code))
  | .coll x op ty rd a => some (.uniX 0x37 0 a.toNat 0 (rd.code * 64 + ty.code * 8 + op.code) 0 x.code)
  | .undefinedOpcode w => some { w1 := w.toNat, w2 := none }
  | _ => none

end Sys2Proof
end

