-- ==== Sys2Proof/Machine/Ops.lean ====
section
/-!
DEFINITION. Named operations on the machine that several families share: taking a trap and returning from one (spec
chapter 11), ending a grid, waiting, faults of translation, and the special registers.
-/

namespace Sys2Proof.Machine

/-! ### Trap codes (Table 11.1) -/

def trapILLEGAL : Nat := 0x01
def trapSTREAM : Nat := 0x02
def trapPRIV : Nat := 0x03
def trapMISALIGN : Nat := 0x04
def trapPOISON : Nat := 0x05
def trapACCESS : Nat := 0x06
def trapFORMAT : Nat := 0x07
def trapBAROVF : Nat := 0x08
def trapWMODE : Nat := 0x09
def trapQUEUE : Nat := 0x0A
def trapCONVTO : Nat := 0x0B
def trapACCERR : Nat := 0x0C
def trapUNCORR : Nat := 0x0D
def trapBOUNDS : Nat := 0x0E
def trapROUTE : Nat := 0x0F
def trapWATCHDOG : Nat := 0x10
def trapPOISONOVF : Nat := 0x11

/-- Record flags (Table 11.2). -/
def recReplayable : Byte := 1
def recStore : Byte := 2
def recDerived : Byte := 4
def recDouble : Byte := 8
def recAtRdv : Byte := 16
def recDeferred : Byte := 32

/-- What a failing check reports. -/
structure TrapInfo where
  code : Nat
  /-- the lanes that failed the deciding check (R82) -/
  lanes : BitVec 32 := 0
  /-- the failing address of the lowest of them -/
  addr : Nat := 0
  index : Nat := 0xFF
  flags : Byte := 0
  /-- the resume address is past the instruction (`brk`) -/
  past : Bool := false
  lastIssued : Nat := 0
  completed : Word := 0
  /-- pc and words of a stream's trap that an `rdv` raises (R253) -/
  origin : Option (Nat × Word × Word) := none
  deriving DecidableEq, Repr

/-! ### The trap record (R250) -/

/-- Table 11.2 in memory order. -/
def recordBytes (r : Record) : List Byte :=
  leBytes 8 r.pc ++ leBytes 4 r.w1.toNat ++ leBytes 4 r.w2.toNat ++ [r.code, BitVec.ofNat 8 r.party, r.flags, r.index] ++
    leBytes 4 r.lanes.toNat ++ leBytes 8 r.addr ++ leBytes 4 r.rotgen.toNat ++ leBytes 4 r.tile ++ leBytes 8 r.gtime ++
    (List.range 4).flatMap (fun i => leBytes 8 (Map.get 0 r.savedS (28 + i)).toNat) ++
    leBytes 8 r.lastIssued ++ leBytes 4 r.completed.toNat ++ List.replicate 36 0 ++
    (List.range 32).flatMap (fun l => leBytes 8 (Map.get 0 r.lanePc l))

/-- Where the record of a party stands (R250). -/
def State.recordAddr (s : State) (t p : Nat) : Nat :=
  (s.ctx (s.team t).ctx).trapBase + ((s.logicalCluster t * 192 + (s.team t).slot) * 18 + p) * 384

/-- s28 to s31 of a group. -/
def Group.handlerRegs (y : Group) : Map DWord :=
  [(28, (y.readS 28).val), (29, (y.readS 29).val), (30, (y.readS 30).val), (31, (y.readS 31).val)]

/-- The PCs of the live lanes; the lanes of the trapping issue resume at `resume`. -/
def Group.lanePcs (y : Group) (exec : BitVec 32) (resume : Nat) : Map Nat :=
  (List.range 32).filterMap fun l =>
    if (y.lane l).cond = .live then some (l, if exec.getLsbD l then resume else (y.lane l).pc.toNat) else none

/-- The record of a trap raised by the current issue; a uniform instruction fails for its whole execution set (log 22). -/
def State.recordOf (s : State) (i : TrapInfo) : Record :=
  let x := s.curTeam
  { pc := match i.origin with | some o => o.1 | none => s.cur.pc.toNat
    w1 := match i.origin with | some o => o.2.1 | none => s.cur.w1
    w2 := match i.origin with | some o => o.2.2 | none => if s.cur.len = 2 then s.cur.w2 else 0
    code := BitVec.ofNat 8 i.code
    party := s.cur.party.number
    flags := i.flags
    index := BitVec.ofNat 8 i.index
    lanes := if !s.cur.party.isGroup then 0 else if s.cur.w1.getLsbD 31 then s.cur.lanes else i.lanes
    addr := i.addr
    rotgen := x.rotgen
    tile := x.tile
    gtime := s.gtimeOf s.cur.team
    savedS := if s.cur.party.isGroup then s.curGroup.handlerRegs else []
    lastIssued := i.lastIssued
    completed := i.completed
    lanePc :=
      if s.cur.party.isGroup then
        s.curGroup.lanePcs s.cur.lanes (s.cur.pc.toNat + if i.past then 4 * s.cur.len else 0)
      else [] }

/-! ### The device's own accesses (R385) -/

/-- A write by the device supersedes, for every reader, what the log holds of those bytes. -/
def forgetBytes (log : List MEvent) (ks : List Nat) : List MEvent :=
  log.map fun e => { e with wr := e.wr.filter fun w => !ks.contains w.1 }

/-- Writes bytes of one page. A poisoned sector keeps its bit, though the write may cover it: DESIGN CHOICE, log 66 (R225 and R281 speak of
stores and copies, R387 of the host). -/
def State.putBytes (s : State) (k : Nat) (bs : List Byte) : State :=
  { s with mem := writeBytes s.mem k bs, log := forgetBytes s.log ((List.range bs.length).map fun i => k + i) }

/-- The device writes bytes at a virtual address of a context; the cause where a page fails. -/
def State.devWrite (s : State) (tag va : Nat) (bs : List Byte) : Except Nat State :=
  let room := 2 ^ 18 - va % 2 ^ 18
  match s.devKey tag va .write with
  | .error e => .error e
  | .ok k =>
    let s1 := s.putBytes k (bs.take room)
    if bs.length ≤ room then .ok s1
    else
      match s.devKey tag (va + room) .write with
      | .error e => .error e
      | .ok k2 => .ok (s1.putBytes k2 (bs.drop room))

/-- The device reads bytes at a virtual address of a context. -/
def State.devRead (s : State) (tag va n : Nat) : Except Nat (List Byte) :=
  let room := 2 ^ 18 - va % 2 ^ 18
  match s.devKey tag va .read with
  | .error e => .error e
  | .ok k =>
    if n ≤ room then .ok (readBytes s.mem k n)
    else
      match s.devKey tag (va + room) .read with
      | .error e => .error e
      | .ok k2 => .ok (readBytes s.mem k room ++ readBytes s.mem k2 (n - room))

/-! ### Records of the hub (Table 20.6, R381, R383) -/

/-- Queue blocks: host queue q, 256 the admin ring, 257 the fault ring. -/
def State.block (s : State) (b : Nat) : QueueRegs := Map.get QueueRegs.reset s.blocks b

def State.setBlock (s : State) (b : Nat) (x : QueueRegs) : State := { s with blocks := Map.put s.blocks b x }

/-- Records of the black box (Table 24.7). -/
def boxLINKWAKE : Nat := 0x21
def boxDIEDEAD : Nat := 0x22
def boxFRAMEDROP : Nat := 0x31
def boxROUTELOST : Nat := 0x32
def boxBOOTFAIL : Nat := 0x41

/-- A record enters the black box, which keeps the newest 256. -/
def State.logBox (s : State) (cls unit : Nat) (detail : List Byte) : State :=
  let bs := s.pkg.blackBox ++ [⟨s.gtime, cls, unit, detail⟩]
  { s with pkg := { s.pkg with blackBox := bs.drop (bs.length - 256) } }

/-- Table 20.6 in memory order. -/
def rangeBytes (r : RangeRec) : List Byte :=
  leBytes 8 r.start ++ leBytes 4 r.pages ++ leBytes 2 r.ctx ++ [BitVec.ofNat 8 r.cause, BitVec.ofNat 8 r.access] ++
    leBytes 4 r.waiting ++ leBytes 4 r.batch ++ List.replicate 8 0

/-- A ring lies in device memory, or in host memory at its bus address (Table 24.5). -/
def ringKey (a : Nat) : Nat := if a < 2 ^ 39 then a else hostKey a

def faultRing : Nat := 257

/-- An MSI-X vector is signalled, or becomes pending where the host has masked it (R380). -/
def Package.signal (p : Package) (v : Nat) : Package :=
  if p.masked.contains v then { p with pending := unionIds p.pending [v] } else { p with msix := p.msix ++ [v] }

/-- The MSI-X vector of a queue block is signalled. -/
def State.signal (s : State) (b : Nat) : State := { s with pkg := s.pkg.signal (s.block b).vector }

/-- One range record is written to the fault ring and the tail advances; one of cause UNCORR goes to the black box too. -/
def State.ringWrite (s : State) (r : RangeRec) : State :=
  let b := s.block faultRing
  let s1 := (s.putBytes (ringKey (b.base + 32 * b.tail)) (rangeBytes r)).setBlock faultRing { b with tail := (b.tail + 1) % 2 ^ b.size }
  let s2 := s1.signal faultRing
  if r.cause = trapUNCORR then s2.logBox trapUNCORR r.ctx (rangeBytes r) else s2

/-- Records wait in order until the fault ring is enabled. -/
def State.drainRing (s : State) : State :=
  if (s.block faultRing).enable then s.faultOut.foldl (fun s r => s.ringWrite r) { s with faultOut := [] } else s

def State.deliver (s : State) (r : RangeRec) : State := ({ s with faultOut := s.faultOut ++ [r] }).drainRing

/-- A failed access of the device itself sends a range record of the page, with no waiting parties (R385). -/
def State.devFault (s : State) (tag va cause access : Nat) : State :=
  s.deliver ⟨va / 2 ^ 18 * 2 ^ 18, 1, tag, cause, access, 0, 0⟩

/-- An uncorrectable error returns the rail at once to its nominal value for 10 ms (R367). -/
def State.nominalRail (s : State) (d : Nat) : State :=
  let x := s.die d
  s.setDie d { x with rail := x.nominal, nominalUntil := s.gtime + 10000000 }

/-! ### Ending groups, teams and grids (R140, R255, R263) -/

def State.grid (s : State) (n : Nat) : Grid := Map.get Grid.absent s.grids n

def State.setGrid (s : State) (n : Nat) (x : Grid) : State := { s with grids := Map.put s.grids n x }

/-- A group has ended when no lane of it is live (R66, R126). -/
def Group.ended (y : Group) : Bool := (List.range 32).all fun l => decide ((y.lane l).cond ≠ .live)

/-- Groups of a team, by number. -/
def Team.groupList (x : Team) : List Nat := List.range x.nGroups

def Team.allEnded (x : Team) : Bool := x.groupList.all fun g => (x.group g).ended

/-- The tiles of the cluster's teams that satisfy a test are free, and nothing is held for their slots any more (R284). -/
def Cluster.freeTiles (c : Cluster) (f : Nat → Bool) : Cluster :=
  { c with reloc := c.reloc.filter fun e => !f e.2.team, buffer := c.buffer.filter fun h => !f h.team }

def State.freeTiles (s : State) (f : Nat → Bool) : State := { s with clusters := s.clusters.map fun c => (c.1, c.2.freeTiles f) }

/-- Every team of a grid stops and is discarded without save (R255). -/
def endTeams (grid : Nat) (m : Map Team) : Map Team :=
  m.map fun e =>
    if e.2.grid = grid && decide (e.2.residency ≠ .ended) then (e.1, { e.2 with residency := .ended, copies := [], engine := [], dirty := [] }) else e

/-- Ends a grid with a status: the first status stays. What has issued and not been performed goes with its teams; its completion event
signals at its completion (R255, R357). -/
def State.endGrid (s : State) (n : Nat) (status : Word) : State :=
  let x := s.grid n
  { s.freeTiles fun t => decide ((s.team t).grid = n) with
    lates := s.lates.filter fun l => decide ((s.team l.team).grid ≠ n)
    teams := endTeams n s.teams
    grids := Map.put s.grids n { x with status := some (x.status.getD status), ended := x.gx * x.gy * x.gz, placed := x.gx * x.gy * x.gz } }

/-- 0xFFFF_FF00 and the like, with a code in the low byte (Table 23.4). -/
def statusOf (base code : Nat) : Word := BitVec.ofNat 32 (base + code)

/-- The code of a stopped stream. -/
def Stream.code (y : Stream) : Option Byte :=
  match y.state with
  | .stopped c => some c
  | _ => none

/-- A team of a gang: those of its grid and cluster with its base slot (R282). -/
def Team.sameGang (x y : Team) : Bool :=
  decide (x.grid = y.grid) && decide (x.cluster = y.cluster) && x.gang.isSome && decide (x.gang.map Gang.baseSlot = y.gang.map Gang.baseSlot)

/-- A team that has ended frees its tile, in a gang with the last member to end (R283). -/
def State.leaveTile (s : State) (t : Nat) : State :=
  let x := s.team t
  if x.gang.isNone then s.freeTiles fun u => decide (u = t)
  else if s.teams.any fun e => x.sameGang e.2 && decide (e.2.residency ≠ .ended) && decide (e.2.residency ≠ .absent) then s
  else s.freeTiles fun u => x.sameGang (s.team u)

/-- A team ends when every group has ended and neither stream is running; a stopped stream is discarded and gives the
grid its first discarded status (R140). Where both are stopped, the matrix stream's code is the one (log 49). -/
def State.checkTeamEnd (s : State) (t : Nat) : State :=
  let x := s.team t
  if x.residency = .resident ∧ x.allEnded = true ∧ x.matrix.state ≠ .running ∧ x.copy.state ≠ .running then
    let code := match x.matrix.code with | some c => some c | none => x.copy.code
    let y := s.grid x.grid
    let disc := match y.discarded with | some d => some d | none => code.map fun c => statusOf 0xFFFFF900 c.toNat
    ((s.setTeam t { x with residency := .ended, discarded := code }).leaveTile t).setGrid x.grid { y with ended := y.ended + 1, discarded := disc }
  else s

/-! ### Taking a trap (R249 to R253, R264) -/

/-- The group's part of a handler entry: steps 2 to 5 of R251. -/
def Group.enterHandler (y : Group) (handler recAddr code : Nat) (r : Record) : Group :=
  let z := (y.writeS 28 (clear (BitVec.ofNat 64 recAddr))).writeS 29 (clear (BitVec.ofNat 64 code))
  { z with
    handler := true
    wait := none
    fault := none
    replayable := false
    record := some r
    lanes := mapLanes (maskOf fun l => decide ((y.lane l).cond = .live))
      (fun _ x => { x with pc := BitVec.ofNat 56 handler, winBase := 0, winEnd := 0, waitv := none, arrived := none }) y.lanes }

/-- A party that leaves its wait at a named barrier holds no token of the wait's (R247). -/
def Team.leaveBars (x : Team) (p : Nat) : Team :=
  { x with tokens := x.tokens.filter fun e => !(decide (e.1 / 16 = p) && decide (e.2 = .waiting)) }

/-- The record cannot be written, as one of its pages fails: the grid ends at once (R385). -/
def State.recordLost (s : State) (t : Nat) (addr cause code : Nat) : State :=
  let page := match s.devKey (s.team t).ctx addr .write with | .ok _ => addr + (2 ^ 18 - addr % 2 ^ 18) | .error _ => addr
  (s.devFault (s.team t).ctx page cause 2).endGrid (s.team t).grid (statusOf 0xFFFFFA00 code)

/-- Writes a party's record to the trap area, or tells the cause of failure (R250, R385). -/
def State.writeRecord (s : State) (t p : Nat) (r : Record) : Except Nat State :=
  s.devWrite (s.team t).ctx (s.recordAddr t p) (recordBytes r)

/-- A handler trap of the current group: handler entry (R251), no handler (R264), double trap (R252), or a record that
cannot be written (R385). -/
def State.groupTrap (s : State) (i : TrapInfo) : State :=
  let t := s.cur.team
  let g := s.cur.party.groupNo
  let addr := s.recordAddr t g
  if s.curGroup.handler then
    let r := s.recordOf { i with flags := i.flags ||| recDouble }
    match s.writeRecord t g r with
    | .error e => s.recordLost t addr e i.code
    | .ok s1 => s1.endGrid s.curTeam.grid (statusOf 0xFFFFFF00 i.code)
  else
    let r := s.recordOf i
    match s.writeRecord t g r with
    | .error e => s.recordLost t addr e i.code
    | .ok s1 =>
      if s.curCtx.handler = 0 then s1.endGrid s.curTeam.grid (statusOf 0 i.code)
      else (s1.mapTeam t fun x => x.leaveBars g).mapGroup t g fun y => y.enterHandler s.curCtx.handler addr i.code r

/-- A trap in a sequencer: the record is written and the stream stops (R253). -/
def State.streamTrap (s : State) (i : TrapInfo) : State :=
  let t := s.cur.team
  let p := s.cur.party.number
  let r := s.recordOf i
  match s.writeRecord t p r with
  | .error e => s.recordLost t (s.recordAddr t p) e i.code
  | .ok s1 =>
    (s1.mapTeam t fun x =>
      (x.leaveBars p).setStream s.cur.party { x.stream s.cur.party with state := .stopped (BitVec.ofNat 8 i.code), wait := none, record := some r }).checkTeamEnd t

/-- Takes a trap of the current issue (R249). -/
def State.trap (s : State) (i : TrapInfo) : State := if s.cur.party.isGroup then s.groupTrap i else s.streamTrap i

/-- A trap with the lanes that failed and the failing address of the lowest of them. -/
def State.trapAt (s : State) (code : Nat) (lanes : BitVec 32) (addr : Nat) : State :=
  s.trap { code := code, lanes := lanes, addr := addr }

/-- The matrix stream is inside a chain (R215). -/
def State.chained (s : State) : Bool := decide (s.cur.party = .matrix) && decide (s.curStream.chain ≠ .closed)

/-- An instruction that no chain may hold raises STREAM there (R215). -/
def State.outsideChain (s : State) (o : Out) : Out := if s.chained then .next (s.trap { code := trapSTREAM }) else o

/-! ### Return from the handler (R254) -/

/-- s28 to s31 and the lane PCs come from the record; handler mode ends. -/
def Group.returnFrom (y : Group) (bs : List Byte) : Group :=
  let word (o : Nat) : DWord := BitVec.ofNat 64 (leValue ((bs.drop o).take 8))
  let z := (((y.writeS 28 (clear (word 0x30))).writeS 29 (clear (word 0x38))).writeS 30 (clear (word 0x40))).writeS 31
    (clear (word 0x48))
  { z with
    handler := false
    suspended := false
    wait := none
    lanes := mapLanes (maskOf fun l => decide ((y.lane l).cond = .live))
      (fun l x => { x with pc := (word (0x80 + 8 * l)).setWidth 56, waitv := none, arrived := none }) y.lanes }

/-! ### Waiting (R136) -/

/-- The current instruction waits; its PCs do not move. -/
def State.hold (s : State) (i : Instr) : State :=
  let w : Wait := ⟨i, s.cur, s.now⟩
  if s.cur.party.isGroup then s.mapCurGroup fun y => { y with wait := some w }
  else s.mapCurStream fun y => { y with wait := some w }

/-- The event that ends a wait, where the table has one. -/
def resumeEvent (p : PartyRef) : Instr → Option Instr
  | .qpush _ _ _ => some (.qpushResume p)
  | .qpop _ _ _ => some (.qpopResume p)
  | .mpush _ _ _ _ _ _ => some (.mpushResume p)
  | .accalloc _ _ => some (.accallocResume p)
  | .accfree _ _ _ => some (.accfreeResume p)
  | .barWait _ _ => some (.barWaitComplete p)
  | .ubarWait _ => some (.barWaitComplete p)
  | .txbWait _ _ _ => some (.txbWaitComplete p)
  | .utxbWait _ _ _ => some (.txbWaitComplete p)
  | .rdv => some (.rdvComplete p)
  | .ufenceWait _ _ => some (.ufenceWaitComplete p)
  | .wmodeComp _ _ _ _ => some (.wmodeSwitchPoint p)
  | .wmodeStore _ => some (.wmodeSwitchPoint p)
  | .weaveSwitchEnd t w => some (.weaveSwitchEnd t w)
  | .mwait => some (.mwaitComplete p.team)
  | .mend => some (.mendComplete p.team)
  | .cwait => some (.cwaitComplete p.team)
  | .cend => some (.cendComplete p.team)
  | _ => none

/-- A wait that an event of the table or the driver ends; any other is over when its instruction can issue again. -/
def waitsOn (p : PartyRef) (i : Instr) : Bool := (resumeEvent p i).isSome || decide (i = .tsusp)

/-- A sequencer's instruction that waits after its issue: for an event, or, of `mchain.end`, for its chain (R216). -/
def waitsIssued (w : Wait) : Bool := waitsOn ⟨w.issue.team, w.issue.party⟩ w.instr || decide (w.instr = .mchainEnd)

/-- The stream's last instruction that has issued (R218): one that is held waits at its issue, one that waits has issued. -/
def Stream.lastIssued (y : Stream) : Nat :=
  match y.wait with
  | some w => if waitsIssued w then y.tried else y.lastPc
  | none => y.tried

/-- The party whose wait an event of the table ends by executing its instruction again. -/
def resumes : Instr → Option PartyRef
  | .qpushResume p | .qpopResume p | .mpushResume p | .accallocResume p | .accfreeResume p | .barWaitComplete p | .txbWaitComplete p
  | .rdvComplete p | .ufenceWaitComplete p => some p
  | .mwaitComplete t | .mendComplete t => some ⟨t, .matrix⟩
  | .cwaitComplete t | .cendComplete t => some ⟨t, .copy⟩
  | _ => none

/-- The wait of a party. -/
def State.waitOf (s : State) (p : PartyRef) : Option Wait :=
  match p.party with
  | .group g => ((s.team p.team).group g).wait
  | .matrix => (s.team p.team).matrix.wait
  | .copy => (s.team p.team).copy.wait

def State.clearWait (s : State) (p : PartyRef) : State :=
  match p.party with
  | .group g => s.mapGroup p.team g fun y => { y with wait := none }
  | .matrix => s.mapTeam p.team fun x => { x with matrix := { x.matrix with wait := none } }
  | .copy => s.mapTeam p.team fun x => { x with copy := { x.copy with wait := none } }

/-- The machine with a waiting instruction's issue current again, and the wait over. -/
def State.resumeAs (s : State) (p : PartyRef) (w : Wait) : State := { s.clearWait p with cur := w.issue }

/-- An event of a party of a team that runs: one of a team that is halted, moving or saved does not happen (R261, R293). -/
def State.whileRuns (s : State) (t : Nat) (o : Out) : Out := if (s.team t).residency = .resident then o else .next s

/-! ### Faults of translation (R174, R256, R343) -/

/-- The key of a presented device. -/
def Context.deviceKey (c : Context) : Nat := 16 * c.mode + c.device

/-- A page enters the fault batch, or one more party waits on it (R343). -/
def State.noteFault (s : State) (tag va cause access party : Nat) : State :=
  let dk := (s.ctx tag).deviceKey
  let b := Map.get Batch.empty s.batches dk
  let page := pageOf va
  let same (r : FaultRec) : Bool := r.ctx = tag && r.page = page
  let bump (r : FaultRec) : FaultRec := if same r then { r with parties := unionIds r.parties [party], access := r.access ||| access } else r
  let b' :=
    if b.records.any same then { b with records := b.records.map bump }
    else if b.delivered.any (fun d => same d.2) then { b with delivered := b.delivered.map fun d => (d.1, bump d.2) }
    else { b with records := b.records ++ [⟨tag, page, cause, access, [party]⟩], opened := if b.records.isEmpty then s.gtime else b.opened }
  { s with batches := Map.put s.batches dk b' }

/-- A party of a team as one that waits on a page; 31: the team as it ends or is saved. -/
def waitingParty (t p : Nat) : Nat := 32 * t + p

/-- The failures of the issuing party enter the fault batch and the cluster's fault filter. -/
def State.noteFaults (s : State) (access : Nat) (fails : List (Nat × Nat)) : State :=
  fails.foldl
    (fun s f => (s.noteFault s.curTeam.ctx f.1 f.2 access (waitingParty s.cur.team s.cur.party.number)).noteFail s.cur.team f.1 f.2) s

/-- The driver has still to answer for a page. -/
def State.awaited (s : State) (tag page : Nat) : Bool :=
  let b := Map.get Batch.empty s.batches (s.ctx tag).deviceKey
  let same (r : FaultRec) : Bool := decide (r.ctx = tag) && decide (r.page = page)
  b.records.any same || b.delivered.any fun d => same d.2

/-- A replayable fault: the record is written, and the group is descheduled (R256). -/
def State.deschedule (s : State) (kind : FaultKind) (i : Instr) (info : TrapInfo) (pages : List Nat) : State :=
  let t := s.cur.team
  let g := s.cur.party.groupNo
  let r := s.recordOf info
  match s.writeRecord t g r with
  | .error e => s.recordLost t (s.recordAddr t g) e info.code
  | .ok s1 =>
    s1.mapGroup t g fun y =>
      { y with replayable := true, fault := some ⟨kind, i, s.cur, pages, false⟩, record := some r, wait := none }

/-- A fault raised in handler mode ends the grid (R252); in a sequencer it is a stream trap with `code` (R145, R253). -/
def State.storeFault (s : State) (i : Instr) (streamCode : Nat) (lanes : BitVec 32) (addr : Nat) (fails : List (Nat × Nat))
    (access : Nat) : State :=
  if !s.cur.party.isGroup then s.streamTrap { code := streamCode, addr := addr }
  else if s.curGroup.handler then s.groupTrap { code := trapPOISON, lanes := lanes, addr := addr, flags := recStore }
  else
    (s.noteFaults access fails).deschedule .store i { code := trapPOISON, lanes := lanes, addr := addr, flags := recReplayable ||| recStore } (fails.map fun f => pageOf f.1)

/-- An entry is in use while some register of the group carries its index (R175); the registers of a released unit read as zero. -/
def Group.carries (y : Group) (e : Nat) : Bool :=
  let at' (t : Option Tag) : Bool := match t with | some t => t.idx.toNat = e | none => false
  (y.s.any fun r => at' r.2.tag) || y.lanes.any fun l =>
    (l.2.v.any fun r => !y.releasing.getLsbD (r.1 / 8) && at' r.2.tag) || (l.2.spill.any fun r => at' r.2.tag) || l.2.k.any fun r => at' r.2.tag

/-- The table without the entries that no register carries (R175). -/
def Group.prune (y : Group) : Group := { y with poison := y.poison.filter fun e => y.carries e.1 }

/-- The first free entry of the table. -/
def Group.freeEntry (y : Group) : Option Nat := (List.range 8).find? fun e => (lookup? y.poison e).isNone

/-- Whether a tag names a spent entry. -/
def Group.spent (y : Group) (t : Tag) : Bool :=
  match lookup? y.poison t.idx.toNat with
  | some e => e.spent
  | none => true

/-- A consumer read poison (R256, R257): derived when every poisoned operand carries a spent entry, else replayable. A page
that the driver has answered for since the load enters the batch anew. -/
def State.poisonTrap (s : State) (i : Instr) (lanes : BitVec 32) (tags : List Tag) : State :=
  if !s.cur.party.isGroup then s.streamTrap { code := trapPOISON }
  else
    let y := s.curGroup
    let idx := match tags with | t :: _ => t.idx.toNat | [] => 0xFF
    let derived := tags.all fun t => y.spent t
    if s.curGroup.handler || derived then
      s.groupTrap { code := trapPOISON, lanes := lanes, index := idx, flags := if derived then recDerived else 0 }
    else
      let es := tags.filterMap fun t => lookup? y.poison t.idx.toNat
      let pages := es.flatMap fun e => e.pages.map fun a => pageOf a.2
      let s1 := es.foldl
        (fun (s : State) e =>
          e.pages.foldl
            (fun s a =>
              if s.awaited s.curTeam.ctx (pageOf a.2) then s
              else s.noteFault s.curTeam.ctx a.2 e.walkCause 1 (waitingParty s.cur.team s.cur.party.number)) s) s
      s1.deschedule .poison i { code := trapPOISON, lanes := lanes, index := idx, flags := recReplayable } pages

/-! ### Special registers (Table 3.8, R44) -/

/-- The slice of a tile (R267). -/
def State.slice (s : State) (c tile : Nat) : Slice := Map.get Slice.reset (s.cluster c).slices (tile / 32)

/-- The value of a control in a cycle. -/
def Control.now (x : Control) (cycle : Nat) : Nat :=
  if x.since ≤ cycle then x.val
  else match x.past.find? fun p => decide (p.1 ≤ cycle) with
    | some p => p.2
    | none => x.val

/-- A control takes a value from a cycle on. -/
def Control.set (x : Control) (v cycle gtime : Nat) : Control :=
  { x with val := v, since := cycle, past := (x.since, x.val) :: x.past, changed := gtime }

/-- Clk `n` is an issue cycle at ratio m/8 (R268). -/
def isIssueCycle (m n : Nat) : Bool := decide (n * m / 8 < (n + 1) * m / 8)

/-- The first issue cycle after clk `n`. -/
def nextIssueCycle (m n : Nat) : Nat := if isIssueCycle m (n + 1) then n + 1 else if isIssueCycle m (n + 2) then n + 2 else n + 3

/-- The matrix throttle step in an array cycle: a change takes effect at the next multiple of 8 ac (R275). -/
def Slice.stepAt (x : Slice) (ac : Nat) : Nat := x.matrix.now ac

/-- A new matrix throttle step. -/
def Slice.setStep (x : Slice) (step clk gtime : Nat) : Slice := { x with matrix := x.matrix.set step (8 * (clk / 2 / 8 + 1)) gtime }

/-- A new ratio and a new grant step, from the next issue-cycle boundary on (R270). -/
def Slice.setRatio (x : Slice) (v clk gtime : Nat) : Slice := { x with ratio := x.ratio.set v (nextIssueCycle (x.ratio.now clk) clk) gtime }
def Slice.setGrant (x : Slice) (v clk gtime : Nat) : Slice := { x with grant := x.grant.set v (nextIssueCycle (x.ratio.now clk) clk) gtime }

/-- A slice goes to its lowest setting. -/
def Slice.lowest (x : Slice) (clk gtime : Nat) : Slice := ((x.setStep 7 clk gtime).setGrant 4 clk gtime).setRatio 4 clk gtime

/-- Roles of a sequencer are those of the forking group (R44). -/
def State.curRole (s : State) : Nat := if s.cur.party.isGroup then s.curGroup.role else s.curStream.role

/-- The value of a special register other than %lane and %status. -/
def State.special (s : State) (n : SReg) : Nat :=
  let x := s.curTeam
  let g := s.grid x.grid
  match n with
  | .lane => 0
  | .grp => s.cur.party.number
  | .role => s.curRole
  | .teamX => x.x
  | .teamY => x.y
  | .teamZ => x.z
  | .gridX => g.gx
  | .gridY => g.gy
  | .gridZ => g.gz
  | .slot => x.slot
  | .tile => x.tile
  | .rotgen => x.rotgen.toNat
  | .cluster => s.logicalCluster s.cur.team
  | .clk => s.now
  | .gtime => s.gtimeOf s.cur.team
  | .energy => g.energy
  | .mthr => (s.slice x.cluster x.tile).stepAt (s.clkOf s.cur.team / 2)
  | .rfq => (s.slice x.cluster x.tile).grant.now s.now
  | .status => 0

end Sys2Proof.Machine
end

