-- ==== Sys2Proof/Machine/Access.lean ====
section
/-!
DEFINITION. Reaching memory (spec chapter 07): windows and spaces (R152, R153), mapped regions (R157, R158), private
frames (R159), the translation of an access, poisoned sectors (R225, R281), and the reads and writes of one access as
events of the write-set log.
-/

namespace Sys2Proof.Machine

/-! ### Windows (R152, R153) -/

/-- What an address reaches. -/
inductive Reached where
  | pad (team off : Nat)
  | priv (off : Nat)
  | glob (va : Nat)
  deriving DecidableEq, Repr

def padSize : Nat := 0x80000

/-- The team at the valid entry of a cluster's relocation table with a context and a slot (R284). -/
def State.routed (s : State) (c ctx slot : Nat) : Option Nat :=
  match (s.cluster c).reloc.find? fun e => decide (e.2.ctx = ctx) && decide (e.2.slot = slot) with
  | some e => some e.2.team
  | none => none

/-- The team that a logical slot names for a team: itself, or a member of its gang, by the relocation table (R152, R284, R285). -/
def State.member (s : State) (t slot : Nat) : Option Nat :=
  let x := s.team t
  if slot = x.slot then some t
  else
    match x.gang with
    | none => none
    | some g => if g.baseSlot ≤ slot ∧ slot < g.baseSlot + g.size then s.routed x.cluster x.ctx slot else none

/-- The moving bit of a team's entry is set: accesses to its slot are held (R285, R297). -/
def State.moving (s : State) (t : Nat) : Bool :=
  (s.cluster (s.team t).cluster).reloc.any fun e => decide (e.2.team = t) && e.2.moving.isSome

/-- Sectors that a cluster's relocation buffer holds (R298). -/
def relocationPlaces : Nat := 1024

/-- Room for more held writes to a team's slot. -/
def State.bufferRoom (s : State) (t n : Nat) : Bool := decide ((s.cluster (s.team t).cluster).buffer.length + n ≤ relocationPlaces)

/-- Table 7.1. -/
def State.decodeGeneric (s : State) (t a : Nat) : Option Reached :=
  let o := a % 2 ^ 48
  if 2 ^ 56 ≤ a then none
  else if a / 2 ^ 48 = 0xFF then (if o < padSize then some (.pad t o) else none)
  else if a / 2 ^ 48 = 0xFE then
    if o % 2 ^ 20 < padSize then (s.member t (o / 2 ^ 20)).map fun m => .pad m (o % 2 ^ 20) else none
  else if a / 2 ^ 48 = 0xFD then (if o < (s.team t).privSize then some (.priv o) else none)
  else some (.glob a)

/-- The space field (R153). -/
def State.decodeSpace (s : State) (t : Nat) (sp : Space) (a : Nat) : Option Reached :=
  match sp with
  | .gen => s.decodeGeneric t a
  | .glob =>
      match s.decodeGeneric t a with
      | some (.glob va) => some (.glob va)
      | _ => none
  | .loc =>
      if 2 ^ 28 ≤ a ∨ a.testBit 19 = true then none
      else if a / 2 ^ 20 = 0xFF then some (.pad t (a % 2 ^ 19))
      else if a / 2 ^ 20 < 192 then (s.member t (a / 2 ^ 20)).map fun m => .pad m (a % 2 ^ 19)
      else none
  | .priv => if a < (s.team t).privSize then some (.priv a) else none

/-! ### Weaves (R176, R179) -/

def weaveOf (off : Nat) : Nat := off / 0x20000

def Team.weave (x : Team) (w : Nat) : Weave := Map.get Weave.launch x.weaves w

def State.padWeave (s : State) (t off : Nat) : Weave := (s.team t).weave (weaveOf off)

def WeaveMode.switching : WeaveMode → Bool
  | .toCompute _ => true
  | .toStorage _ => true
  | _ => false

/-- The reached bytes lie in a weave in compute mode. -/
def State.inCompute (s : State) : Reached → Bool
  | .pad t o => decide ((s.padWeave t o).mode = .compute)
  | _ => false

/-- The reached bytes lie in a weave that is switching: the access is held (R179). -/
def State.inSwitch (s : State) : Reached → Bool
  | .pad t o => (s.padWeave t o).mode.switching
  | _ => false

/-! ### Private frames (R159) -/

/-- Virtual address of byte `o` of lane `l` of group `g`. -/
def State.privVa (s : State) (t g l o : Nat) : Nat :=
  let x := s.team t
  (s.ctx x.ctx).privBase + (s.logicalCluster t * 192 + x.slot) * 2 ^ 29 + g * 32 * x.privSize + o / 4 * 128 + l * 4 + o % 4

def privKey (g l o : Nat) : Nat := (32 * g + l) * 2 ^ 20 + o

def privLine (g o : Nat) : Nat := g * 2 ^ 18 + o / 4

/-- The private line of a byte by its key. -/
def privLineOf (k : Nat) : Nat := privLine (k / 2 ^ 20 / 32) (k % 2 ^ 20)

/-- The private lines that an access of `n` bytes touches, each as the offset of its word (R159). -/
def privWords (o n : Nat) : List Nat := (List.range ((o + n - 1) / 4 - o / 4 + 1)).map fun i => 4 * (o / 4 + i)

/-! ### Mapped regions (R156, R157) -/

/-- The map descriptor over a scratchpad offset. -/
def Team.mapAt (x : Team) (off : Nat) : Option MapDesc :=
  x.maps.find? fun d => decide (d.offset ≤ off) && decide (off < d.offset + d.size)

def Team.lineFilled (x : Team) (off : Nat) : Bool := Map.get false x.filled (off / 128)

/-- The global address of a mapped line. -/
def mapVa (d : MapDesc) (off : Nat) : Nat := d.base + (off / 128 * 128 - d.offset)

/-! ### Translation of one access -/

/-- Causes of a poison-table entry beyond those of R340 (Table 7.8). Log 21. -/
def causeMapped : Nat := 4
def causePrivate : Nat := 5

inductive Trans where
  | ok (p : Spot)
  /-- the page that failed, the cause that the poison table records, and the cause of R340 -/
  | fail (va cause walkCause : Nat)
  /-- a switching weave, a moving slot, a full miss table, or the lease of a holder that has drifted -/
  | hold
  deriving DecidableEq, Repr

/-- The private lines that an access still has to fill, as word offsets. -/
def State.privUnfilled (s : State) (t g o n : Nat) : List Nat :=
  (privWords o n).filter fun w => !Map.get false (s.team t).privFilled (privLine g w)

/-- The addresses, each with its team, whose translation an access asks for. -/
def State.asks (s : State) (t g l n : Nat) (r : Reached) : List (Nat × Nat) :=
  match r with
  | .pad m o => match (s.team m).mapAt o with | some d => if (s.team m).lineFilled o then [] else [(m, mapVa d o)] | none => []
  | .glob va => [(t, va)]
  | .priv o => (s.privUnfilled t g o n).map fun w => (t, s.privVa t g l w)

/-- The first of some private lines whose page fails. -/
def State.privFails (s : State) (t g l : Nat) (acc : Access) : List Nat → Option Trans
  | [] => none
  | w :: ws =>
      match s.find t (s.privVa t g l w) acc with
      | .leaf _ => s.privFails t g l acc ws
      | .fail e => some (.fail (s.privVa t g l w) causePrivate e)
      | .full => some .hold

/-- The destination package fails to translate an access to a peer page (R375); whether it does is not for this package to say. -/
def State.peerFails (s : State) (f : Leaf) (va : Nat) : Option Nat :=
  if f.location = 2 then (let e := Config.peerFault (s.freeCtr * 2 ^ 38 + pageOf va); if e < 4 then some e else none) else none

/-- Translates what `n` bytes of one lane (or the group as a whole) reach. -/
def State.translate (s : State) (t g l n : Nat) (r : Reached) (acc : Access) : Trans :=
  match r with
  | .pad m o =>
      let x := s.team m
      if (s.padWeave m o).mode.switching || (decide (m ≠ t) && decide (acc ≠ .write) && s.moving m) then .hold
      else if (s.padWeave m o).mode = .compute then .ok (.pad m o)
      else
        match x.mapAt o with
        | none => .ok (.pad m o)
        | some d =>
          if x.lineFilled o then .ok (.pad m o)
          else
            match s.find m (mapVa d o) .read with
            | .leaf f =>
                if s.leaseHeld (some m) (s.physKey x.ctx f (mapVa d o)) 128 f then .hold
                else match s.peerFails f (mapVa d o) with | some e => .fail (mapVa d o) causeMapped e | none => .ok (.pad m o)
            | .fail e => .fail (mapVa d o) causeMapped e
            | .full => .hold
  | .glob va =>
      match s.find t va acc with
      | .leaf f =>
          let key := s.physKey (s.team t).ctx f va
          if s.leaseHeld (some t) key n f then .hold
          else
            match s.peerFails f va with
            | some e => .fail va e e
            | none => .ok (.mem key f)
      | .fail e => .fail va e e
      | .full => .hold
  | .priv o => (s.privFails t g l acc (s.privUnfilled t g o n)).getD (.ok (.priv t g l o))

/-! ### Private lines in L1 (R159, R160) -/

/-- The key of a private byte for the log: that of its frame byte, or one of its own where the page is not there. -/
def State.privByteKey (s : State) (t g l o : Nat) : Nat :=
  match s.devKey (s.team t).ctx (s.privVa t g l o) .read with
  | .ok k => k
  | .error _ => 2 ^ 62 + t * 2 ^ 29 + privKey g l o

/-- The bytes of a private line that L1 holds: lane, offset, value. -/
def Team.privHeld (x : Team) (line : Nat) : List (Nat × Nat × Byte) :=
  let g := line / 2 ^ 18
  let o := 4 * (line % 2 ^ 18)
  x.priv.filterMap fun e =>
    let lane := e.1 / 2 ^ 20
    if lane / 32 = g ∧ e.1 % 2 ^ 20 / 4 = o / 4 then some (lane % 32, e.1 % 2 ^ 20, e.2) else none

/-- The write-back of a private line cannot be made: it fails, at the frame address with the cause of R340, or its walk waits for a place
in the miss table. -/
def State.evictFails (s : State) (t line : Nat) : Option Trans :=
  match (s.team t).privHeld line with
  | [] => none
  | b :: _ =>
    let va := s.privVa t (line / 2 ^ 18) b.1 b.2.1
    match s.find t va .write with
    | .fail e => some (.fail va causePrivate e)
    | .full => some .hold
    | .leaf _ => none

/-- A private line leaves L1, and its bytes go back to the frame, where they clear the poison of sectors that they fill. -/
def State.evictPriv (s : State) (t line : Nat) : State :=
  let g := line / 2 ^ 18
  let held := (s.team t).privHeld line
  let keys := held.map fun b => s.privByteKey t g b.1 b.2.1
  let s1 := held.foldl
    (fun (s : State) b =>
      ({ s with mem := writeMem s.mem (s.privByteKey t g b.1 b.2.1) b.2.2 }).mapTeam t fun x =>
        { x with priv := Map.erase x.priv (privKey g b.1 b.2.1) }) s
  let whole := s1.memPoison.filter fun e => !((List.range 32).all fun i => keys.contains (32 * e.1 + i))
  { s1 with memPoison := whole }.mapTeam t fun x =>
    { x with privFilled := Map.erase x.privFilled line, privClean := x.privClean.filter fun e => decide (privLineOf e.1 ≠ line) }

/-- The private line that the current issue would evict, if the team's L1 holds it. -/
def State.victimLine (s : State) : Option Nat :=
  match s.victim with
  | some (.priv line) => if Map.get false s.curTeam.privFilled line then some line else none
  | _ => none

/-- A private line is filled into L1: its bytes are read from the frame (R159). -/
def State.fillPriv (s : State) (t g w : Nat) : State :=
  let k := s.privByteKey t g 0 w
  let bytes := (List.range 32).flatMap fun l => (List.range 4).map fun i => (privKey g l (w + i), readMem s.mem (k + 4 * l + i))
  s.mapTeam t fun x =>
    { x with
      privFilled := Map.set false x.privFilled (privLine g w) true
      privClean := bytes.foldl (fun m b => Map.set 0 m b.1 b.2) x.privClean }

/-- Where a spot's page is: 0 device or local, 1 host, 2 peer. -/
def Spot.location : Spot → Nat
  | .mem _ f => f.location
  | _ => 0

/-- The map descriptor of the unfilled line under a scratchpad byte in storage mode, which a first access fills. -/
def State.toFill (s : State) (m o : Nat) : Option MapDesc :=
  match (s.team m).mapAt o with
  | some d => if (s.team m).lineFilled o || decide ((s.padWeave m o).mode ≠ .storage) then none else some d
  | none => none

/-- What turns an access to a peer page away: ACCESS for an order below fab scope (R375), ROUTE for its turn string (R374). A fill
is a plain load of its page (R157). -/
def State.peerCode (s : State) (p : Spot) (ordered : Bool) (sc : Scope) : Option Nat :=
  match p with
  | .pad m o =>
      match s.toFill m o with
      | none => none
      | some d => match s.find m (mapVa d o) .read with | .leaf f => if s.peerRouteBad (s.team m).ctx f then some trapROUTE else none | _ => none
  | .mem _ f =>
      if f.location ≠ 2 then none
      else if ordered && decide (sc ≠ .fab) then some trapACCESS
      else if s.peerRouteBad s.curTeam.ctx f then some trapROUTE
      else none
  | _ => none

/-! ### Bytes by key -/

/-- The key of byte `i` of a spot. -/
def State.spotKey (s : State) (p : Spot) (i : Nat) : Nat :=
  match p with
  | .pad t o => padKey t (o + i)
  | .mem k _ => k + i
  | .priv t g l o => s.privByteKey t g l (o + i)

def Spot.diePriv : Spot → Bool
  | .mem _ f => f.dieScope
  | _ => false

/-- The value of a key's byte as it stands: of a scratchpad, or of memory. -/
def State.byteOfKey (s : State) (k : Nat) : Byte :=
  if 2 ^ 80 ≤ k then Map.get 0 (s.team ((k - 2 ^ 80) / 2 ^ 20)).pad ((k - 2 ^ 80) % 2 ^ 20) else readMem s.mem k

/-- The newest value of a byte. -/
def State.newest (s : State) (p : Spot) (i : Nat) : Byte :=
  match p with
  | .pad m o => Map.get 0 (s.team m).pad (o + i)
  | .mem k _ => readMem s.mem (k + i)
  | .priv t g l o =>
      match lookup? (s.team t).priv (privKey g l (o + i)) with
      | some b => b
      | none =>
        if Map.get false (s.team t).privFilled (privLine g (o + i)) then Map.get 0 (s.team t).privClean (privKey g l (o + i))
        else readMem s.mem (s.privByteKey t g l (o + i))

/-- Stores a byte; a mapped line marks it dirty (R158). -/
def State.storeByte (s : State) (p : Spot) (i : Nat) (b : Byte) : State :=
  match p with
  | .pad m o =>
      s.mapTeam m fun x =>
        { x with
          pad := Map.set 0 x.pad (o + i) b
          flips := x.flips.filter fun e => decide (e.1 / 8 ≠ o + i)
          dirty := if (x.mapAt (o + i)).isSome then Map.set false x.dirty (o + i) true else x.dirty }
  | .mem k _ => { s with mem := writeMem s.mem (k + i) b }
  | .priv t g l o => s.mapTeam t fun x => { x with priv := Map.put x.priv (privKey g l (o + i)) b }

def State.storeBytes (s : State) (p : Spot) : Nat → List Byte → State
  | _, [] => s
  | i, b :: bs => (s.storeByte p i b).storeBytes p (i + 1) bs

/-! ### Poisoned sectors (R225, R281) -/

/-- The poison bit of the sector of a key. -/
def State.keyPoisoned (s : State) (k : Nat) : Bool :=
  if 2 ^ 80 ≤ k then Map.get false (s.team ((k - 2 ^ 80) / 2 ^ 20)).padPoison ((k - 2 ^ 80) % 2 ^ 20 / 32) else Map.get false s.memPoison (k / 32)

/-- Sets or clears the poison bit of the sector of a key. -/
def State.setPoison (s : State) (k : Nat) (b : Bool) : State :=
  if 2 ^ 80 ≤ k then
    s.mapTeam ((k - 2 ^ 80) / 2 ^ 20) fun x => { x with padPoison := Map.set false x.padPoison ((k - 2 ^ 80) % 2 ^ 20 / 32) b }
  else { s with memPoison := Map.set false s.memPoison (k / 32) b }

/-- Byte `i` of a spot lies in a poisoned sector, or is to be filled from one (R157); compute mode consults no poison bit
(R155), and a private byte that L1 holds is a good one. -/
def State.poisonedAt (s : State) (p : Spot) (i : Nat) : Bool :=
  match p with
  | .pad m o =>
      let x := s.team m
      decide ((s.padWeave m (o + i)).mode ≠ .compute) &&
        (s.keyPoisoned (padKey m (o + i)) ||
          match x.mapAt (o + i) with
          | none => false
          | some d =>
            !x.lineFilled (o + i) &&
              match s.find m (mapVa d (o + i)) .read with
              | .leaf f => s.keyPoisoned (s.physKey x.ctx f (mapVa d (o + i)) + (o + i) % 128)
              | _ => false)
  | .mem k _ => s.keyPoisoned (k + i)
  | .priv t g l o => (lookup? (s.team t).priv (privKey g l (o + i))).isNone && s.keyPoisoned (s.privByteKey t g l (o + i))

/-- A byte of the access lies in a poisoned sector. -/
def State.sectorPoisoned (s : State) (p : Spot) (n : Nat) : Bool := (List.range n).any fun i => s.poisonedAt p i

/-- The poison of sectors of which all bytes have been written goes (R225, R281). -/
def State.mendSectors (s : State) (keys : List Nat) : State :=
  keys.foldl
    (fun (s : State) k =>
      if s.keyPoisoned k && (List.range 32).all (fun i => keys.contains (k / 32 * 32 + i)) then s.setPoison k false else s) s

/-! ### Events of an access -/

/-- The order class of a load and of a store (Table 18.1). -/
def Order.loadClass : Order → EvClass
  | .plain => .plain
  | .mk => .marked
  | .ar => .acquire
  | .sc => .sc

def Order.storeClass : Order → EvClass
  | .plain => .plain
  | .mk => .marked
  | .ar => .release
  | .sc => .sc

/-- Scratchpad accesses are capped at cluster scope, private ones act at team scope (R154); a plain access to a peer page
acts at fab scope (R375). -/
def capScope (p : Spot) (sc : Scope) : Scope :=
  match p, sc with
  | .pad _ _, .wide => .cluster
  | .pad _ _, .fab => .cluster
  | .mem _ f, sc => if f.location = 2 then .fab else sc
  | .priv _ _ _ _, _ => .team
  | _, sc => sc

/-- The order of the scopes. -/
def Scope.rank : Scope → Nat
  | .team => 0
  | .cluster => 1
  | .wide => 2
  | .fab => 3

/-- The scope at which an ordered access to some locations acts: the widest of those at which it reaches one that is not private (R154). -/
def actsAt (ps : List Spot) (sc : Scope) : Scope :=
  ps.foldl (fun a p => match p with | .priv _ _ _ _ => a | p => if Scope.rank a < Scope.rank (capScope p sc) then capScope p sc else a) .team

/-- Who accesses, in which order class and scope, from which place in program order, and after which other events. -/
structure AccessKind where
  agent : Agent
  cls : EvClass
  scope : Scope
  engine : Bool
  extra : List Nat
  extraShared : List Nat
  onBytes : List Nat
  stamp : Nat
  deriving DecidableEq, Repr

/-- Events that lie before every event of the party: its grid's launch, a stream's `fork`, and what heavy fences put before an
owner (R308, R319, R323). -/
def State.partyExtra (s : State) (t : Nat) (p : Party) : List Nat :=
  let x := s.team t
  x.launchEv ++ if p.isGroup then (x.group p.groupNo).fenced else (x.stream p).forkEv

def State.partyShared (s : State) (t : Nat) (p : Party) : List Nat := if p.isGroup then ((s.team t).group p.groupNo).fencedShared else []

def State.kindOf (s : State) (t : Nat) (p : Party) (cls : EvClass) (sc : Scope) : AccessKind :=
  ⟨s.agentOf t p.number, cls, sc, false, s.partyExtra t p, s.partyShared t p, [], s.freeCtr⟩

def State.kind (s : State) (cls : EvClass) (sc : Scope) : AccessKind := s.kindOf s.cur.team s.cur.party cls sc

/-- A party's event that touches no byte, at a place of program order; `engine`: an engine makes it, after the party has gone on. -/
def State.partyEventAt (s : State) (t : Nat) (p : Party) (cls : EvClass) (sc : Scope) (extra : List Nat) (stamp : Nat) (engine : Bool) : State :=
  { s with
    log := addEvent s.log stamp
      { agent := s.agentOf t p.number, cls := cls, scope := sc, isEngine := engine, extra := s.partyExtra t p ++ extra,
        extraShared := s.partyShared t p } [] }

def State.partyEvent (s : State) (t : Nat) (p : Party) (cls : EvClass) (sc : Scope) (extra : List Nat) : State :=
  s.partyEventAt t p cls sc extra s.freeCtr false

def State.bareEvent (s : State) (cls : EvClass) (sc : Scope) (extra : List Nat) : State := s.partyEvent s.cur.team s.cur.party cls sc extra

/-- What the engine has done for the matrix stream before a place in its program order: the accesses of its instructions, and the
arrivals of `marrive` (R217, R320). -/
def State.engineEvents (s : State) (t stamp : Nat) : List Nat :=
  s.log.filterMap fun e => if e.isEngine && sameAgent e.agent (s.agentOf t 16) && decide (e.stamp < stamp) then some e.id else none

/-- The identifier of the newest event. -/
def State.lastEvent (s : State) : List Nat :=
  match s.log with
  | e :: _ => [e.id]
  | [] => []

/-- The newest event puts others before what follows it, on the bytes that they access (R322). -/
def State.bindBytes (s : State) (ids : List Nat) : State :=
  match s.log with
  | e :: es => if ids.isEmpty then s else { s with log := { e with onBytes := unionIds e.onBytes ids } :: es }
  | [] => s

/-- The specification of the event of one unit of a spot. Private accesses are plain, with a place of their own (R154, R160). -/
def AccessKind.spec (k : AccessKind) (p : Spot) (rmw : Bool) (place : Nat) (rd : List Nat) (wr : List (Nat × Byte × Byte)) : EvSpec where
  agent := k.agent
  cls := match p with | .priv _ _ _ _ => .plain | _ => k.cls
  scope := capScope p k.scope
  isRmw := match p with | .priv _ _ _ _ => false | _ => rmw
  isEngine := k.engine
  rd := rd
  wr := wr
  place := match p with | .priv _ _ _ _ => privPlace | _ => place
  extra := k.extra
  extraShared := k.extraShared
  onBytes := k.onBytes
  diePriv := p.diePriv

/-- An event joins the log, `late` where its value has not come; a plain data race marks its context (R315, R316). -/
def State.logEvent (s : State) (k : AccessKind) (spec : EvSpec) (rf : List (Nat × Nat)) (late : Bool) : State :=
  { s with
    log := spec.event s.log k.stamp rf late :: s.log
    raced := if races s.log k.stamp spec then unionIds s.raced [k.agent.ctx] else s.raced }

/-- The writes that a read of one unit returns; a private byte's own newest one. -/
def State.readSources (s : State) (k : AccessKind) (p : Spot) (spec : EvSpec) : List (Nat × Nat) :=
  match p with
  | .priv _ _ _ _ =>
      spec.rd.filterMap fun b =>
        match s.log.find? fun e => decide (e.place = privPlace) && e.covers b with
        | some e => some (b, e.id)
        | none => none
  | _ => readUnit s.log k.stamp spec

/-- Reads one unit of at most 8 bytes. -/
def State.readUnitAt (s : State) (k : AccessKind) (p : Spot) (i0 n : Nat) : State × List Byte :=
  let spec := k.spec p false 0 ((List.range n).map fun i => s.spotKey p (i0 + i)) []
  let rf := s.readSources k p spec
  (s.logEvent k spec rf false,
    (List.range n).map fun i =>
      match p with
      | .priv _ _ _ _ => s.newest p (i0 + i)
      | _ => let b := s.spotKey p (i0 + i); valueOf s.log (s.newest p (i0 + i)) b (Map.get 0 rf b))

/-- What a read gave: the bytes, and whether it met a weave in compute mode. -/
structure ReadOut where
  bytes : List Byte
  wmode : Bool
  deriving DecidableEq, Repr

/-- The spot lies in a weave in compute mode. -/
def State.spotComputes (s : State) (p : Spot) : Bool :=
  match p with
  | .pad m o => decide ((s.padWeave m o).mode = .compute)
  | _ => false

/-- Reads `n` bytes of a spot as single-copy-atomic units of at most 8 (R166); compute-mode bytes read as zero (R155). -/
def State.readAt (s : State) (k : AccessKind) (p : Spot) (n : Nat) : State × ReadOut :=
  if s.spotComputes p then (s, ⟨List.replicate n 0, true⟩)
  else if n ≤ 8 then
    let r := s.readUnitAt k p 0 n
    (r.1, ⟨r.2, false⟩)
  else
    let r1 := s.readUnitAt k p 0 8
    let r2 := r1.1.readUnitAt k p 8 (n - 8)
    (r2.1, ⟨r1.2 ++ r2.2, false⟩)

/-- A load of 4 bytes for a value that satisfies a test, and whether it has one: the satisfying load is an acquire where `acq` asks for
it, and any other is marked (R75, R360). -/
def State.awaitValue (s : State) (sc : Scope) (acq : Bool) (p : Spot) (sat : List Byte → Bool) : State × ReadOut × Bool :=
  let q := s.readAt (s.kind .acquire sc) p 4
  if acq && sat q.2.bytes then (q.1, q.2, true)
  else
    let r := s.readAt (s.kind .marked sc) p 4
    (r.1, r.2, !acq && sat r.2.bytes)

/-- Writes the bytes of one unit that are not in `skip`, as one event (R167). -/
def State.writeUnitAt (s : State) (k : AccessKind) (p : Spot) (i0 : Nat) (bs : List Byte) (skip : List Nat) : State :=
  let kept := (List.range bs.length).filter fun i => !skip.contains (s.spotKey p (i0 + i))
  let wr := kept.map fun i => (s.spotKey p (i0 + i), s.newest p (i0 + i), bs.getD i 0)
  if kept.isEmpty then s
  else (kept.foldl (fun s i => s.storeByte p (i0 + i) (bs.getD i 0)) s).logEvent k (k.spec p false 0 [] wr) [] false

/-- Writes bytes to a spot as units of at most 8. -/
def State.writeAt (s : State) (k : AccessKind) (p : Spot) (bs : List Byte) (skip : List Nat) : State :=
  if bs.length ≤ 8 then s.writeUnitAt k p 0 bs skip
  else (s.writeUnitAt k p 0 (bs.take 8) skip).writeUnitAt k p 8 (bs.drop 8) skip

/-! ### Writes held for a slot that moves (R297, R298) -/

/-- A write of bytes at offsets of a scratchpad enters the relocation buffer of its cluster; without bytes, a sector read of a copy. -/
def State.holdWrite (s : State) (k : AccessKind) (m : Nat) (bs : List (Nat × Byte)) (poison : Bool) (flags : Nat) (copy : Option (Nat × Nat × Nat)) :
    State :=
  let c := (s.team m).cluster
  let ev := (k.spec (.pad m 0) false 0 [] []).event s.log k.stamp [] false
  s.setCluster c { s.cluster c with buffer := (s.cluster c).buffer ++ [⟨m, bs, poison, flags, ev, copy⟩] }

/-- The access that a held write is. -/
def HeldWrite.kind (h : HeldWrite) : AccessKind :=
  ⟨h.ev.agent, h.ev.cls, h.ev.scope, h.ev.isEngine, h.ev.extra, h.ev.extraShared, h.ev.onBytes, h.ev.stamp⟩

/-- A held write of the agent stands in a relocation buffer: its releases wait (R279). -/
def State.heldOf (s : State) (a : Agent) : Bool := s.clusters.any fun c => c.2.buffer.any fun h => h.copy.isNone && sameAgent h.ev.agent a

/-! ### L1, and the words of the cluster L2 (R161, R279, R280, R331) -/

/-- A global access leaves its line in L1 as its type says; the type never changes a value. `alloc`: the instruction allocates
lines in L1. -/
def Team.touchL1 (x : Team) (key : Nat) (rt : ReqType) (store alloc : Bool) : Team :=
  if !alloc then x
  else
    match rt with
    | .own => { x with l1 := Map.put x.l1 (key / 128) .own }
    | .unc => x
    | rt => if store || decide (lookup? x.l1 (key / 128) = some .own) then x else { x with l1 := Map.put x.l1 (key / 128) rt }

/-- The record of a word of a line in a cluster L2 (Table 20.2). -/
def wordKey (c key : Nat) : Nat := (c * 2 ^ 48 + key / 128) * 32 + key / 4 % 32

/-- The words of a cluster L2 that `n` bytes at a key touch, and those of its line. -/
def wordsAt (c key n : Nat) : List Nat := (List.range ((key + n - 1) / 4 - key / 4 + 1)).map fun i => wordKey c (key / 4 * 4 + 4 * i)

def lineWords (c key : Nat) : List Nat := (List.range 32).map fun i => wordKey c (key / 128 * 128 + 4 * i)

/-- The record of a word at a key of device memory in a cluster L2, as it reads (Table 20.2). -/
def State.wordRecord (s : State) (c key : Nat) : WordRec :=
  if s.keyPoisoned key then .poisoned else Map.get .clean s.words (wordKey c key)

/-- A word that the L1 of another core than a team's owns. -/
def ownedElsewhere (m : Map WordRec) (t k : Nat) : Bool := match Map.get .clean m k with | .l1owned u => decide (u ≠ t) | _ => false

/-- Words that L1s own are recalled: their data stands in the L2. -/
def recallWords (m : Map WordRec) (ks : List Nat) : Map WordRec :=
  ks.foldl (fun m k => match Map.get .clean m k with | .l1owned _ => Map.put m k .l2dirty | _ => m) m

/-- The words of the cluster L2 after an access of `n` bytes by a core (R331): an `own` load gives it every word of the line that
no other core owns; an `own` store takes its words, where L1 holds the line; every other access is made at the L2, and a word
that another core owns is recalled first. -/
def wordsAfter (m : Map WordRec) (c t key n : Nat) (rt : ReqType) (store inL1 : Bool) : Map WordRec :=
  let mine := wordsAt c key n
  match rt, inL1 with
  | .own, true =>
      if store then mine.foldl (fun m k => Map.put m k (.l1owned t)) m
      else (lineWords c key).foldl (fun m k => if ownedElsewhere m t k then m else Map.put m k (.l1owned t)) m
  | _, _ =>
      if store then mine.foldl (fun m k => Map.put m k .l2dirty) m
      else mine.foldl (fun m k => if ownedElsewhere m t k then Map.put m k .l2dirty else m) m

/-- A store at a scope wider than the cluster asks for ownership of its line; one at cluster scope or below writes a shared page's words
without it (R347). -/
def ownsAt (f : Leaf) (sc : Scope) : Bool := f.dieScope || decide (1 < Scope.rank sc)

/-- A load or store of a core at a scope touches its L1 and the words of its cluster L2; one that its own line in L1 serves does not reach
the L2's ways. A peer's line is cached nowhere here (R375). `last`: its L2 line becomes the first victim of its set (R163). -/
def State.touch (s : State) (t : Nat) (p : Spot) (n : Nat) (rt : ReqType) (sc : Scope) (store alloc last : Bool) : State :=
  match p with
  | .mem k f =>
      let s1 := if f.location = 2 then s else s.mapTeam t fun x => x.touchL1 k rt store alloc
      let inL1 := decide (lookup? (s1.team t).l1 (k / 128) = some .own)
      let c := (s.team t).cluster
      if f.location = 0 then
        let had := decide (lookup? (s.team t).l1 (k / 128) = some .own)
        let s2 := (if had then s1 else s1.reachLine c (k / 128) f (store && ownsAt f sc)).useLine (some t) c k n f store
        let s3 := { s2 with words := wordsAfter s2.words c t k n rt store inL1 }
        if last then s3.lastWay c (k / 128) else s3
      else s1
  | _ => s

/-- What a copy engine, a frame or `prog` writes enters the memory-side cache on its first touch (R353). -/
def State.touchMsc (s : State) (p : Spot) : State :=
  match p with
  | .mem k f => if f.location = 0 then s.mscPut (k / 128) true else s
  | _ => s

/-- An access that is performed at the home, for the host or a peer, recalls leases as any other (R332). -/
def State.touchHome (s : State) (p : Spot) (n : Nat) : State :=
  match p with
  | .mem k f => if f.location = 0 && !f.dieScope then s.useLeases none k n true else s
  | _ => s

/-- An access that the L2 performs for an engine, with no L1 (R161, R224): owned words are recalled. -/
def State.touchL2 (s : State) (c : Nat) (p : Spot) (n : Nat) (store : Bool) : State :=
  match p with
  | .mem k f =>
      if f.location ≠ 0 then s
      else
        let s1 := (s.reachLine c (k / 128) f (store && f.dieScope)).useLine none c k n f store
        let m := recallWords s1.words (wordsAt c k n)
        { s1 with words := if store then (wordsAt c k n).foldl (fun m k => Map.put m k .l2dirty) m else m }
  | _ => s

/-- Where an atomic on device memory is performed: in the core's L1, at the cluster L2, or at the home (Table 7.6). -/
inductive AtomPlace where
  | l1 | l2 | home
  deriving DecidableEq, Repr

/-- An atomic: in L1 it takes the line, at the L2 or the home every ownership of the line is first recalled; what the L2 performs is
dirty there (R171, R280, R347). -/
def State.touchAtomic (s : State) (t : Nat) (p : Spot) (n : Nat) (sc : Scope) (at' : AtomPlace) : State :=
  match p with
  | .mem k f =>
      if f.location ≠ 0 then s
      else
        let c := (s.team t).cluster
        let line := k / 128
        match at' with
        | .l1 =>
            let s1 := (s.reachLine c line f (ownsAt f sc)).useLine (some t) c k n f true
            { s1.mapTeam t (fun x => x.touchL1 k .own true true) with
              words := (lineWords c k).foldl (fun m k => Map.put m k (.l1owned t)) (recallWords s1.words (lineWords c k)) }
        | .l2 =>
            let s1 := (s.reachLine c line f f.dieScope).useLine (some t) c k n f true
            { s1 with words := (wordsAt c k n).foldl (fun m k => Map.put m k .l2dirty) (recallWords s1.words (lineWords c k)) }
        | .home =>
            let s1 := (s.mergeWords c line).mscPut line true
            if f.dieScope then s1 else s1.useLeases (some t) k n true
  | _ => s

/-- An acquire of covering scope drops the shared copies; a release drops those of the default type (Table 7.3). L1 is the team's
own: team scope covers it without a drop. An acquire at fab scope drops the die's clean die-private lines too (R328). -/
def State.dropL1 (s : State) (t : Nat) (acquire : Bool) (sc : Scope) : State :=
  if sc = .team then s
  else
    let s1 := s.mapTeam t fun x => { x with l1 := x.l1.filter fun e => decide (e.2 = .own) || (!acquire && decide (e.2 = .wt)) }
    if acquire && decide (sc = .fab) then s1.dropDie ((s.team t).cluster / 2) else s1

/-- A global line leaves a core's L1 for another: what it owned stands in the L2 (R161). -/
def State.evictL1 (s : State) (t line : Nat) : State :=
  let c := (s.team t).cluster
  { s.mapTeam t (fun x => { x with l1 := Map.erase x.l1 line }) with
    words := s.words.map fun e => if e.1 / 32 = l2Key c line ∧ e.2 = .l1owned t then (e.1, .l2dirty) else e }

/-- Stores of the given agents leave their buffers (R279). -/
def performAll (log : List MEvent) (as : List Agent) : List MEvent :=
  log.map fun e => if as.any (sameAgent e.agent) then { e with performed := true } else e

/-- Words that the L1 of a team owns stand in the L2. -/
def flushOwned (m : Map WordRec) (t : Nat) : Map WordRec := m.map fun e => if e.2 = .l1owned t then (e.1, .l2dirty) else e

/-- Words that a cluster L2 wrote in lines that it does not hold in X are merged at their homes, where a test admits the line (R347). -/
def State.mergeShared (s : State) (c : Nat) (f : Nat → Bool) : State :=
  let lines := ((s.words.filter fun e => decide (e.2 = .l2dirty) && decide (e.1 / 32 / 2 ^ 48 = c)).map fun e => e.1 / 32 % 2 ^ 48).eraseDups
  (lines.filter fun l => f l && decide (s.holds (.l2 c) l ≠ .m) && decide (s.holds (.l2 c) l ≠ .e)).foldl
    (fun (s : State) l =>
      let s1 := s.mscPut l true
      { s1 with words := s1.words.filter fun e => !(decide (e.1 / 32 = l2Key c l) && decide (e.2 = .l2dirty)) }) s

/-- A release performs the party's earlier stores; at cluster scope or wider, the core's owned lines stand in the L2 (R279). At wide
scope or wider its dirty masked bytes (R333) and the words that the L2 wrote in shared lines go back (R347), and at fab scope the die's
dirty die-private lines (R328). -/
def State.performOwn (s : State) (sc : Scope) : State :=
  let c := (s.team s.cur.team).cluster
  let s1 := if sc = .team then s else { s with words := flushOwned s.words s.cur.team }
  let s2 := if sc = .wide ∨ sc = .fab then (s1.mergeLeases s.cur.team).mergeShared c fun _ => true else s1
  let s3 := if sc = .fab then s2.mergeDie (c / 2) else s2
  { s3 with log := performAll s3.log [s.curAgent] }

/-- What a release does beside its event: stores performed, shared copies of the default type dropped. -/
def State.releaseEffects (s : State) (sc : Scope) : State := (s.performOwn sc).dropL1 s.cur.team false sc

/-! ### Fills (R157, R159) -/

/-- Fills a mapped line with a plain load of its 128 bytes at team scope, poisoned sectors with their poison. The line is written in storage
mode, check bits and all (R180). -/
def State.fillFrom (s : State) (k : AccessKind) (m : Nat) (d : MapDesc) (off : Nat) (f : Leaf) : State :=
  let key := s.physKey (s.team m).ctx f (mapVa d off)
  let base := off / 128 * 128
  let s1 := (List.range 16).foldl
    (fun (s : State) i =>
      let r := s.readUnitAt { k with cls := .plain, scope := .team, engine := false } (.mem key f) (8 * i) 8
      (List.range 8).foldl (fun s j => s.mapTeam m fun x => { x with pad := Map.set 0 x.pad (base + 8 * i + j) (r.2.getD j 0) }) r.1) s
  let s2 := (List.range 4).foldl (fun (s : State) i => s.setPoison (padKey m (base + 32 * i)) (s.keyPoisoned (key + 32 * i))) s1
  ((s2.mapTeam m fun x =>
      { x with
        filled := Map.set false x.filled (off / 128) true
        flips := x.flips.filter fun e => decide (e.1 / 8 / 128 ≠ off / 128) }).touch m (.mem key f) 128 d.rtype .team false true false).noteMiss m
    (mapVa d off)

/-- Fills the line with the translation that stands. -/
def State.fillLine (s : State) (k : AccessKind) (m o : Nat) : State :=
  match s.toFill m o with
  | none => s
  | some d => match s.find m (mapVa d o) .read with | .leaf f => s.fillFrom k m d o f | _ => s

/-- Fills what an access needs, evicts what its allocation in L1 takes the place of, and enters its misses: called once its
translation has succeeded. `alloc`: a global access allocates in L1. -/
def State.prepare (s : State) (k : AccessKind) (t g l n : Nat) (r : Reached) (alloc : Bool) : State :=
  let evicted (s : State) : State :=
    match s.victim with
    | some (.glob line) => s.evictL1 t line
    | _ => match s.victimLine with | some line => s.evictPriv t line | none => s
  match r with
  | .pad m o => s.fillLine k m o
  | .glob va => (if alloc then evicted s else s).noteMiss t va
  | .priv o =>
      match s.privUnfilled t g o n with
      | [] => s
      | ws =>
        ws.foldl
          (fun (s : State) w => (s.fillPriv t g w).noteMiss t (s.privVa t g l w))
          (evicted s)

/-! ### Write-back of mapped regions (R158) -/

/-- The dirty bytes of a team's mapped regions: offset, global address, request type. -/
def Team.dirtyBytes (x : Team) : List (Nat × Nat × ReqType) :=
  x.dirty.filterMap fun e => (x.mapAt e.1).map fun d => (e.1, d.base + (e.1 - d.offset), d.rtype)

/-- A write-back waits for a place in the miss table (R341). -/
def State.backWaits (s : State) (t : Nat) : Bool := (s.team t).dirtyBytes.any fun b => decide (s.find t b.2.1 .write = .full)

/-- Dirty bytes whose page fails: address and cause. -/
def State.heldWriteBacks (s : State) (t : Nat) : List (Nat × Nat) :=
  (s.team t).dirtyBytes.filterMap fun b => match s.find t b.2.1 .write with | .fail e => some (b.2.1, e) | _ => none

/-- Where the other dirty bytes go: offset, key, leaf, request type. -/
def State.backSpots (s : State) (t : Nat) : List (Nat × Nat × Leaf × ReqType) :=
  (s.team t).dirtyBytes.filterMap fun b =>
    match s.find t b.2.1 .write with | .leaf f => some (b.1, s.physKey (s.team t).ctx f b.2.1, f, b.2.2) | _ => none

/-- Writes back every dirty byte as a plain global store at team scope, poisoned where its sector is (R225), and clears
the masks. -/
def State.writeBack (s : State) (t : Nat) (k : AccessKind) : State :=
  let spots := s.backSpots t
  let s1 := spots.foldl
    (fun (s : State) b =>
      let s1 := (s.writeUnitAt k (.mem b.2.1 b.2.2.1) 0 [Map.get 0 (s.team t).pad b.1] []).touch t (.mem b.2.1 b.2.2.1) 1 b.2.2.2 .team true true false
      if Map.get false (s.team t).padPoison (b.1 / 32) then s1.setPoison b.2.1 true else s1) s
  let good := spots.filter fun b => !Map.get false (s.team t).padPoison (b.1 / 32)
  (s1.mendSectors (good.map fun b => b.2.1)).mapTeam t fun x => { x with dirty := [] }

/-- The write-back that comes before a release of the issuing party: its events stand before the release in program order. -/
def State.writeBackFirst (s : State) : State :=
  { s.writeBack s.cur.team (s.kind .plain .team) with freeCtr := s.freeCtr + 1 }

/-- A write-back at the end of a team, or at save: it follows every other event of the team (R303). -/
def State.lastBack (s : State) (t : Nat) : AccessKind :=
  let own := s.log.filterMap fun e => if decide (e.agent.party < 18) && decide (e.agent.team = t) then some e.id else none
  ⟨s.agentOf t 0, .plain, .team, false, (s.team t).launchEv ++ own, [], [], s.freeCtr⟩

/-- The pages of held write-backs enter the fault batch, each once. -/
def State.noteHeld (s : State) (t : Nat) (fails : List (Nat × Nat)) : State :=
  fails.foldl (fun s f => if s.awaited (s.team t).ctx (pageOf f.1) then s else s.noteFault (s.team t).ctx f.1 f.2 8 (waitingParty t 31)) s

/-- The team ends where nothing of it runs any more, and writes its mapped regions back (R140, R158); bytes whose page fails, or that wait
for the miss table, stay dirty, for the completion of its grid. -/
def State.teamEnds (s : State) (t : Nat) : State :=
  let s1 := s.checkTeamEnd t
  if (s1.team t).residency ≠ .ended then s1
  else
    let s2 := s1.quitLeases t
    if s2.backWaits t then s2
    else
      match s2.heldWriteBacks t with
      | [] => s2.writeBack t (s2.lastBack t)
      | fails => s2.noteHeld t fails

/-- The fault of a held write-back: replayable in a group, else POISON with the store flag (R158, R256). -/
def State.backFault (s : State) (i : Instr) (fails : List (Nat × Nat)) : State :=
  let addr := (fails.headD (0, 0)).1
  if s.cur.party.isGroup && !s.curGroup.handler then
    (s.noteFaults 8 fails).deschedule .writeBack i { code := trapPOISON, flags := recReplayable ||| recStore, addr := addr } (fails.map fun f => pageOf f.1)
  else s.trap { code := trapPOISON, addr := addr, flags := recStore }

/-- A release waits for the party's writes that a relocation buffer holds. At cluster scope or wider it first writes the team's
mapped regions back; a held write-back is a fault (R158, R256, R279). -/
def State.withRelease (s : State) (i : Instr) (releasing : Bool) (sc : Scope) (k : State → State) : State :=
  if !releasing then k s
  else if s.heldOf s.curAgent then s.hold i
  else if sc = .team then k s
  else if s.backWaits s.cur.team then (s.waitMisses .write (s.curTeam.dirtyBytes.map fun b => (s.cur.team, b.2.1))).hold i
  else
    match s.heldWriteBacks s.cur.team with
    | [] => k s.writeBackFirst
    | fails => s.backFault i fails

end Sys2Proof.Machine
end

