-- ==== Sys2Proof/Machine/Control.lean ====
section
/-!
DEFINITION. Lane control: `bra`, `call`, `brx`, `ret` (R64, R65), `exit` (R66, R67), `brk` (R68), `sreg` (R72, R73), `shfl`,
`vote` and their timeout (R77 to R80), no-operations and hints (R38, R46), and words of an undefined op (R37, R45).
-/

namespace Sys2Proof.Machine

/-! ### Branches -/

/-- A displacement in words from the current instruction. -/
def State.relative (s : State) {n : Nat} (disp : BitVec n) : DWord := s.cur.pc.setWidth 64 + (disp.signExtend 64) * 4

/-- The branch family: poison, alignment and window checks in order, then every lane of the issue moves (R65). `tags` gives the poison
of each register of the target. -/
def State.branchOp (s : State) (i : Instr) (p : Pred) (link : Bool) (target : Group → Lane → Tagged DWord) (tags : Group → Lane → List Tag) : Out :=
  let y := s.curGroup
  let lanes := lanesOf s.cur.lanes
  let act := activeMask y s.cur.lanes p
  let predBad := lanes.filter fun l => (predOf (y.lane l) p).tag.isSome
  let regBad := (lanesOf act).filter fun l => !(tags y (y.lane l)).isEmpty
  let regTags := regBad.flatMap fun l => tags y (y.lane l)
  let t (l : Nat) : Nat := (target y (y.lane l)).val.toNat
  let misaligned := (lanesOf act).filter fun l => decide (t l % 4 ≠ 0)
  let outside := (lanesOf act).filter fun l => decide (2 ^ 56 ≤ t l)
  let report (code : Nat) (ls : List Nat) : Out := .next (s.trapAt code (maskOf fun l => ls.contains l) (t (ls.headD 0)))
  if !predBad.isEmpty then
    .next (s.poisonTrap i (maskOf fun l => predBad.contains l) ((predBad.filterMap fun l => (predOf (y.lane l) p).tag) ++ regTags))
  else if !regBad.isEmpty then
    .next (s.poisonTrap i (maskOf fun l => regBad.contains l) regTags)
  else if !misaligned.isEmpty then report trapMISALIGN misaligned
  else if !outside.isEmpty then report trapACCESS outside
  else
    let ret := s.cur.pc.setWidth 64 + BitVec.ofNat 64 (4 * s.cur.len)
    .next <| s.onLanes fun y _ x =>
      if activeLane x p then
        let z := if link then (x.writeV 0 (clear (ret.setWidth 32))).writeV 1 (clear ((ret >>> 32).setWidth 32)) else x
        { z with pc := (target y x).val.setWidth 56 }
      else x.advance s.cur.len

def execBra (disp : BitVec 24) (p : Pred) (s : State) : Out :=
  s.branchOp (.bra disp p) p false (fun _ _ => clear (s.relative disp)) fun _ _ => []

def execCall (disp : BitVec 24) (p : Pred) (s : State) : Out :=
  s.branchOp (.call disp p) p true (fun _ _ => clear (s.relative disp)) fun _ _ => []

def execBrx (a : Reg) (p : Pred) (s : State) : Out := s.branchOp (.brx a p) p false (fun y x => srcPair y x a) fun y x => pairTags y x a

/-- `ret` has the effect of `brx`. -/
def execRet (a : Reg) (p : Pred) (s : State) : Out := s.branchOp (.ret a p) p false (fun y x => srcPair y x a) fun y x => pairTags y x a

/-! ### exit -/

/-- A lane ends: its loop buffer is emptied and it waits for nothing (R57, R66). -/
def Lane.exitNow (x : Lane) : Lane :=
  { x with cond := .exited, winBase := 0, winEnd := 0, age := 0, arrived := none, waitv := none, pend := [], uses := [], owes := [] }

/-- A private byte held in L1, by its key there, is that of a lane of a mask. -/
def privOf (g : Nat) (mask : BitVec 32) (k : Nat) : Bool := decide (k / 2 ^ 20 / 32 = g) && mask.getLsbD (k / 2 ^ 20 % 32)

/-- Private bytes of exited lanes are discarded (R160). -/
def Team.dropPrivate (x : Team) (g : Nat) (mask : BitVec 32) : Team := { x with priv := x.priv.filter fun e => !privOf g mask e.1 }

/-- Writes of the private path that are discarded reach no other reader. -/
def forgetPriv (log : List MEvent) (ks : List Nat) : List MEvent :=
  log.map fun e => if e.place = privPlace then { e with wr := e.wr.filter fun w => !ks.contains w.1 } else e

def State.dropPrivate (s : State) (t g : Nat) (mask : BitVec 32) : State :=
  let dead := (s.team t).priv.filter fun e => privOf g mask e.1
  { s with log := forgetPriv s.log (dead.map fun (e : Nat × Byte) => s.privByteKey t g (e.1 / 2 ^ 20 % 32) (e.1 % 2 ^ 20)) }.mapTeam t fun x => x.dropPrivate g mask

/-- A group that ends holds no token, no flexible unit and no instance (R126, R248, R319). -/
def Team.dropGroup (x : Team) (g : Nat) : Team :=
  let y := x.group g
  if y.ended then
    { x.setGroup g { y with granted := 0, grantTime := [], releasing := 0, light := none, wait := none, demand := 0 } with
      tokens := x.tokens.filter fun e => decide (e.1 / 16 ≠ g) }
  else x

/-- R66 and R67. -/
def execExit (p : Pred) (s : State) : Out :=
  let g := s.cur.party.groupNo
  let act := activeMask s.curGroup s.cur.lanes p
  let s1 := s.onLanes fun _ _ x => if activeLane x p then x.exitNow else x.advance s.cur.len
  .next (((s1.dropPrivate s.cur.team g act).mapCurTeam fun x => x.dropGroup g).teamEnds s.cur.team)

/-! ### brk -/

/-- R68: the resume address is past the instruction; an empty active set has no effect. -/
def execBrk (code : BitVec 7) (p : Pred) (s : State) : Out :=
  let act := activeMask s.curGroup s.cur.lanes p
  if act = 0 then .next s.advance else .next (s.trap { code := 0x80 + code.toNat, lanes := act, past := true })

/-! ### sreg -/

/-- The value that one lane reads (R53, Table 3.8). -/
def State.sregValue (s : State) (n : SReg) (l : Nat) (x : Lane) : DWord :=
  match n with
  | .lane => BitVec.ofNat 64 l
  | .status => x.status.setWidth 64
  | n => BitVec.ofNat 64 (s.special n)

def execSreg (d : Nat) (n : SReg) (s : State) : Out :=
  .next <| s.onLanes fun _ l x =>
    let v := s.sregValue n l x
    let z := if n.is64 then x.resultPair d none v else x.result d none (v.setWidth 32) 0
    ({ z with status := if n = SReg.status then 0 else z.status }).advance s.cur.len

/-! ### Convergent instructions (R77) -/

/-- The participant set: the low half of s[C], or all lanes for zero. -/
def participants (y : Group) (c : BitVec 5) : BitVec 32 :=
  let m : BitVec 32 := (y.readS c.toNat).val.setWidth 32
  if m = 0 then BitVec.allOnes 32 else m

/-- Live lanes of a mask. -/
def Group.liveMask (y : Group) : BitVec 32 := maskOf fun l => decide ((y.lane l).cond = .live)

/-- Live participants that have not arrived. -/
def missing (y : Group) (pset exec : BitVec 32) : BitVec 32 := pset &&& y.liveMask &&& ~~~exec

/-- 2^20 clk. -/
def convLimit : Nat := 1048576

/-- The lane stands at a convergent instruction at which it arrived 2^20 clk ago (R80). -/
def Lane.late (x : Lane) (now : Nat) : Bool :=
  decide (x.cond = .live) && match x.arrived with | some a => decide (convLimit ≤ now - a.since) | none => false

/-- The instruction executes when every live participant has arrived; until then lanes outside the set pass, and
arrived participants wait with the time of their arrival (R77). From 2^20 clk after the first arrival it raises CONVTO; the record lists
the live participants that have not arrived (R80). A lane whose predicate is false arrives and waits like any other: DEDUCED, log 60
(R34 beside R77 and R79). -/
def State.convergent (s : State) (i : Instr) (c : BitVec 5) (f : Group → BitVec 32 → Nat → Lane → Lane) : State :=
  let pset := participants s.curGroup c
  let exec := s.cur.lanes
  if (lanesOf (pset &&& exec)).any fun l => (s.curGroup.lane l).late s.now then
    s.trap { code := trapCONVTO, lanes := missing s.curGroup pset exec }
  else if missing s.curGroup pset exec ≠ 0 ∧ pset &&& exec ≠ 0 then
    s.onLanes fun _ l x =>
      if pset.getLsbD l then
        { x with arrived := match x.arrived with | some a => some a | none => some ⟨s.now, i, s.cur⟩ }
      else x.advance s.cur.len
  else
    s.onLanes fun y l x =>
      { (if pset.getLsbD l then f y pset l x else x).advance s.cur.len with arrived := none }

/-- The source lane of `shfl` (R78). -/
def shflLane (op : ShflOp) (l : Nat) (b : Word) : Nat :=
  match op with
  | .idx => b.toNat % 32
  | .up => if b.toNat ≤ l then l - b.toNat else l
  | .down => if b.toNat ≤ 31 - l then l + b.toNat else l
  | .xor => l ^^^ (b.toNat % 32)

def execShfl (op : ShflOp) (d : Nat) (a b : Reg) (c : BitVec 5) (p : Pred) (s : State) : Out :=
  .next <| s.convergent (.shfl op d a b c p) c fun y pset l x =>
    let bv := src y x b
    let j := shflLane op l bv.val
    let valid := pset.getLsbD j && decide ((y.lane j).cond = .live)
    let av : Tagged Word := if valid then src y (y.lane j) a else clear 0
    whenActive p x <| x.result d (firstTag [av.tag, bv.tag, (y.readS c.toNat).tag, (predOf x p).tag]) av.val 0

/-- c(j) of R79, over the participants. -/
def voteBits (y : Group) (pset : BitVec 32) (a : BitVec 3) : BitVec 32 :=
  maskOf fun j => pset.getLsbD j && decide ((y.lane j).cond = .live) && ((y.lane j).readK a).val

/-- The poison that any arrived participant's mask brings (R79). -/
def voteTag (y : Group) (pset : BitVec 32) (a : BitVec 3) : Option Tag :=
  firstTag ((lanesOf (pset &&& y.liveMask)).map fun j => ((y.lane j).readK a).tag)

def execVote (op : VoteOp) (a : BitVec 3) (c : BitVec 5) (p : Pred) (s : State) : Out :=
  .next <| s.convergent (.vote op a c p) c fun y pset _ x =>
    let bits := voteBits y pset a
    let tag := firstTag [voteTag y pset a, (y.readS c.toNat).tag, (predOf x p).tag]
    whenActive p x <|
      match op with
      | .all d => x.resultK d tag (decide (bits = pset)) 0
      | .any d => x.resultK d tag (decide (bits ≠ 0)) 0
      | .uni d => x.resultK d tag (decide (bits = pset) || decide (bits = 0)) 0
      | .ballot d => x.result d tag bits 0

/-- The participant register of a convergent instruction. -/
def convC : Instr → Option (BitVec 5)
  | .shfl _ _ _ _ c _ => some c
  | .vote _ _ c _ => some c
  | _ => none

/-- The arrivals of a group's lanes that are 2^20 clk old. -/
def State.lateArrivals (s : State) (t g : Nat) : List Arrival :=
  (List.range 32).filterMap fun l => if (((s.team t).group g).lane l).late (s.clkOf t) then (((s.team t).group g).lane l).arrived else none

/-- CONVTO at the convergent instruction whose first arrival is 2^20 clk old; the record lists the live participants
that have not arrived (R80). Where several are, it is that of the lowest-numbered late lane: log 50. -/
def execConvto (p : PartyRef) (s : State) : Out :=
  let y := (s.team p.team).group p.party.groupNo
  match s.lateArrivals p.team p.party.groupNo with
  | [] => .next s
  | a :: _ =>
    match convC a.instr with
    | none => .next s
    | some c =>
      let here := maskOf fun l => decide ((y.lane l).cond = .live) && decide ((y.lane l).pc = a.issue.pc)
      .next (({ s with cur := { a.issue with lanes := here } }).trap
        { code := trapCONVTO, lanes := missing y (participants y c) here })

/-! ### No-operations and undefined ops -/

def execNop (_ : BitVec 24) (s : State) : Out := .next s.advance
def execNopTwoWord (_ : BitVec 24) (_ : Word) (s : State) : Out := .next s.advance
def execHint (_ : BitVec 24) (s : State) : Out := .next s.advance
def execHintTwoWord (_ : BitVec 24) (_ : Word) (s : State) : Out := .next s.advance
def execUnop (_ : BitVec 24) (s : State) : Out := .next s.advance
def execUnopTwoWord (_ : BitVec 24) (_ : Word) (s : State) : Out := .next s.advance
/-- A hint changes no state (R46), but inside a matrix chain, which admits none, it raises STREAM (R215; log 51). -/
def execUhint (_ : BitVec 24) (s : State) : Out := s.outsideChain (.next s.advance)
def execUhintTwoWord (_ : BitVec 24) (_ : Word) (s : State) : Out := s.outsideChain (.next s.advance)

/-- R37, R40, R45 step 1. -/
def execUndefinedOpcode (_ : Word) (s : State) : Out := .next (s.trap { code := trapILLEGAL, lanes := s.cur.lanes })

end Sys2Proof.Machine
end

