-- ==== Sys2Proof/Machine/RegUse.lean ====
section
/-!
DEFINITION. The v and s registers that an instruction names, with both of a pair and all four of a quad: for the quota
check (R128), flexible units (R129) and the scoreboard (R35).
-/

namespace Sys2Proof.Machine

/-- A register of one, two or four v registers; an s register is one. -/
def spanReg (n : Nat) : Reg → List Reg
  | .v r => (List.range n).map fun i => .v (r + i)
  | .s r => [.s r]

def spanV (n d : Nat) : List Reg := spanReg n (.v d)

/-- A 5-bit field. -/
def sReg (a : BitVec 5) : Reg := .s a.toNat

/-- Registers of a memory width. -/
def widthRegs (w : Width) : Nat :=
  match w with
  | .b64 => 2
  | .b128 => 4
  | _ => 1

def BitOp.regs : BitOp → List Reg
  | .popc a => [a]
  | .clz a => [a]
  | .ctz a => [a]
  | .brev a => [a]
  | .bfeI a b c => [a, b, c]
  | .bfeN a b c => [a, b, c]
  | .bfi a b c => [a, b, c]
  | .lop3 a b c _ => [a, b, c]
  | .prmt a b c => [a, b, c]
  | .fshL a b c => [a, b, c]
  | .fshR a b c => [a, b, c]

def AddrOp.regs (d : Nat) : AddrOp → List Reg
  | .add64 a b => spanV 2 d ++ spanReg 2 a ++ spanReg 2 b
  | .sub64 a b => spanV 2 d ++ spanReg 2 a ++ spanReg 2 b
  | .lea a b _ => [.v d, a, b]
  | .lea64 a b _ => spanV 2 d ++ spanReg 2 a ++ [b]
  | .madwI a b c => spanV 2 d ++ [a, b] ++ spanReg 2 c
  | .madwN a b c => spanV 2 d ++ [a, b] ++ spanReg 2 c
  | .shl64 a b => spanV 2 d ++ spanReg 2 a ++ [b]
  | .shr64 a b => spanV 2 d ++ spanReg 2 a ++ [b]
  | .sra64 a b => spanV 2 d ++ spanReg 2 a ++ [b]

def HfOp.regs : HfOp → List Reg
  | .add _ a b => [a, b]
  | .mul _ a b => [a, b]
  | .fma _ a b c => [a, b, c]
  | .min a b => [a, b]
  | .max a b => [a, b]

def CmpKind.regs : CmpKind → List Reg
  | .cmp _ a b => [a, b]
  | _ => []

def FCmpKind.regs : FCmpKind → List Reg
  | .cmp _ a b => [a, b]
  | .cls a _ => [a]

/-- A special register fills one or two v registers. -/
def sregRegs (d : Nat) (n : SReg) : List Reg := spanV (if SReg.is64 n then 2 else 1) d

/-- The registers that an instruction of a stream names. -/
def regsOf : Instr → List Reg
  | .add d a b | .sub d a b | .mul d a b | .mulhiI d a b | .mulhiN d a b | .minI d a b | .maxI d a b | .minN d a b
  | .maxN d a b | .and d a b | .or d a b | .xor d a b | .andn d a b | .shl d a b | .shr d a b | .sra d a b => [.v d, a, b]
  | .addK d a _ | .subK d a _ | .mulK d a _ | .mulhiIK d a _ | .mulhiNK d a _ | .minIK d a _ | .maxIK d a _ | .minNK d a _
  | .maxNK d a _ | .andK d a _ | .orK d a _ | .xorK d a _ | .andnK d a _ | .shlK d a _ | .shrK d a _ | .sraK d a _ => [.v d, a]
  | .mov d b => [.v d, b]
  | .movK d _ => [.v d]
  | .mad d a b c _ => [.v d, a, b, c]
  | .bitop op d _ => .v d :: BitOp.regs op
  | .idiv _ d a b _ => [.v d, a, b]
  | .addr op d _ => AddrOp.regs d op
  | .cmp c _ _ => CmpKind.regs c
  | .sel d a b _ _ => [.v d, a, b]
  | .fadd _ d a b _ | .fsub _ d a b _ | .fmul _ d a b _ => [.v d, a, b]
  | .ffma _ d a b c _ => [.v d, a, b, c]
  | .fmin d a b _ | .fmax d a b _ => [.v d, a, b]
  | .fcmp c _ _ => FCmpKind.regs c
  | .mufu _ d a _ => [.v d, a]
  | .hf2 op _ d _ => .v d :: HfOp.regs op
  | .cvt _ _ _ d a _ => [.v d, a]
  | .dot4 _ _ d a b c _ => [.v d, a, b, c]
  | .ld m d a b | .ldl m d a b => spanV (widthRegs m.width) d ++ spanReg 2 a ++ [b]
  | .st m d a b | .stl m d a b => spanReg (widthRegs m.width) d ++ spanReg 2 a ++ [b]
  | .atom x d a b c =>
      let k := if x.wide64 then 2 else 1
      spanV k d ++ spanReg 2 a ++ spanReg k b ++ if AtomOp.usesC x.op then spanReg k c else []
  | .red x d a => spanReg (if x.wide64 then 2 else 1) d ++ spanReg 2 a
  | .mpush _ _ d a c _ => [d, a, c]
  | .mpull d a _ _ _ _ => [.v d, sReg a]
  | .qpush _ d _ => [d]
  | .qpop _ d _ => [.v d]
  | .txbInit a b _ | .txbExpect a b _ | .txbArrivex a b _ | .txbWait a b _ | .txbTest _ a b _ => spanReg 2 a ++ [b]
  | .txbArrive a _ => spanReg 2 a
  | .barCount d _ _ => [.v d]
  | .call _ _ => spanV 2 0
  | .brx a _ | .ret a _ => spanReg 2 a
  | .shfl _ d a b c _ => [.v d, a, b, sReg c]
  | .vote op _ c _ => sReg c :: match op with | .ballot d => [.v d] | _ => []
  | .sreg d n => sregRegs d n
  | .waitv _ _ _ d a b c _ => [.v d] ++ spanReg 2 a ++ [b, c]
  | .uadd d a b _ | .usub d a b _ | .umul d a b _ | .uand d a b _ | .uor d a b _ | .uxor d a b _ | .ushl d a b _
  | .ushr d a b _ | .usra d a b _ => [sReg d, sReg a, sReg b]
  | .uaddK d a _ | .usubK d a _ | .umulK d a _ | .uandK d a _ | .uorK d a _ | .uxorK d a _ | .ushlK d a _ | .ushrK d a _
  | .usraK d a _ => [sReg d, sReg a]
  | .umov d b _ => [sReg d, sReg b]
  | .umovK d _ => [sReg d]
  | .ubra _ a _ => [sReg a]
  | .ucall _ d a _ => [sReg d, sReg a]
  | .uret a => [sReg a]
  | .uld _ d a | .ust _ d a => [sReg d, sReg a]
  | .urd d a v _ => [sReg d, sReg a, .v v]
  | .usreg d _ => [sReg d]
  | .fork _ _ => (List.range 32).map Reg.s
  | .regq d _ _ => [sReg d]
  | .utxbInit a b _ | .utxbExpect a b _ | .utxbWait a b _ => [sReg a, sReg b]
  | .utxbArrive a _ => [sReg a]
  | .tdesc _ a _ => [sReg a]
  | .accalloc d _ => [sReg d]
  | .accfree a _ _ => [sReg a]
  | .launch d a _ _ => [sReg d, sReg a]
  | .ufenceWait d a => [sReg d, sReg a]
  | .tret => [.s 28, .s 29, .s 30, .s 31]
  | .tkill a => [sReg a]
  | _ => []

/-- v registers among them. -/
def vRegsOf (i : Instr) : List Nat := (regsOf i).filterMap fun r => match r with | .v n => some n | .s _ => none

/-- How many of the v registers that an instruction names, the first ones, it writes. -/
def destCount : Instr → Nat
  | .st _ _ _ _ | .stl _ _ _ _ | .red _ _ _ | .mpush _ _ _ _ _ _ | .qpush _ _ _ | .txbInit _ _ _ | .txbExpect _ _ _
  | .txbArrivex _ _ _ | .txbWait _ _ _ | .txbTest _ _ _ _ | .txbArrive _ _ | .cmp _ _ _ | .fcmp _ _ _ | .brx _ _ | .ret _ _
  | .urd _ _ _ _ => 0
  | .ld m _ _ _ | .ldl m _ _ _ => widthRegs m.width
  | .atom x _ _ _ _ => if x.wide64 then 2 else 1
  | .addr op _ _ => match op with | .lea _ _ _ => 1 | _ => 2
  | .call _ _ => 2
  | .sreg _ n => if SReg.is64 n then 2 else 1
  | _ => 1

/-- v registers that an instruction reads: each needs one bank read grant (R271). -/
def vReadsOf (i : Instr) : List Nat := ((vRegsOf i).drop (destCount i)).eraseDups

/-- s registers among them. -/
def sRegsOf (i : Instr) : List Nat := (regsOf i).filterMap fun r => match r with | .s n => some n | .v _ => none

/-! ### Quotas and flexible units (R128, R129) -/

def Team.role (x : Team) (r : Nat) : RoleDesc := Map.get ⟨0, 0, 0, 0⟩ x.roles r

def Team.quota (x : Team) (g : Nat) : Nat := (x.role (x.group g).role).quota

def Team.budget (x : Team) (g : Nat) : Nat := (x.role (x.group g).role).budget

/-- The instruction names a v register beyond the role's quota and budget. -/
def Team.beyondQuota (x : Team) (g : Nat) (i : Instr) : Bool := (vRegsOf i).any fun n => decide (8 * (x.quota g + x.budget g) ≤ n)

/-- A unit is backed: below the quota, or granted. -/
def Team.backed (x : Team) (g u : Nat) : Bool := decide (u < x.quota g) || (x.group g).granted.getLsbD u

/-- A unit on its way back is there for the `waitv` that a freeze has abandoned and that still needs it (R266, R301). -/
def Group.owed (y : Group) (i : Instr) (u : Nat) : Bool :=
  (match i with | .waitv _ _ _ _ _ _ _ _ => true | _ => false) && y.releasing.getLsbD u && y.lanes.any fun l => l.2.owes.any fun n => decide (n / 8 = u)

/-- Ungranted flexible units that an instruction names. -/
def Team.unbacked (x : Team) (g : Nat) (i : Instr) : List Nat :=
  ((vRegsOf i).map (· / 8)).filter fun u => !x.backed g u && !(x.group g).owed i u

end Sys2Proof.Machine
end

