-- ==== Sys2Proof/Machine/Rmw.lean ====
section
/-!
DEFINITION. Read-modify-writes (R168 to R171, R317): the routines of `prog` (R337, R338), the operations, the places at which they
are performed, and one lane's operation.
-/

namespace Sys2Proof.Machine

/-! ### Routines (R337, R338) -/

/-- Registers of an osier core; x0 reads zero. -/
def rvRead (m : Map Nat) (r : Nat) : Nat := if r = 0 then 0 else Map.get 0 m r

def rvWrite (m : Map Nat) (r x : Nat) : Map Nat := if r = 0 then m else Map.set 0 m r (x % 2 ^ 32)

/-- The operation of OP and OP-IMM with a funct3, where `alt` is SUB or SRA. -/
def rvAlu (f3 : Nat) (alt : Bool) (a b : Nat) : Nat :=
  match f3 with
  | 0 => if alt then a + 2 ^ 32 - b else a + b
  | 1 => a * 2 ^ (b % 32)
  | 2 => if signedOf 32 a < signedOf 32 b then 1 else 0
  | 3 => if a < b then 1 else 0
  | 4 => a ^^^ b
  | 5 => if alt then wrapInt 32 (signedOf 32 a / 2 ^ (b % 32)) else a / 2 ^ (b % 32)
  | 6 => a ||| b
  | _ => a &&& b

/-- Words that a routine table may hold (R337): LUI, OP-IMM and OP with the defined function fields. -/
def rvLegal (w : Nat) : Bool :=
  let op := w % 128
  let f3 := w / 2 ^ 12 % 8
  let f7 := w / 2 ^ 25
  if op = 0x37 then true
  else if op = 0x13 then
    if f3 = 1 then f7 = 0 else if f3 = 5 then f7 = 0 || f7 = 0x20 else true
  else if op = 0x33 then f7 = 0 || (f7 = 0x20 && (f3 = 0 || f3 = 5))
  else false

/-- One word of a routine. -/
def rvStep (m : Map Nat) (w : Nat) : Map Nat :=
  let op := w % 128
  let rd := w / 2 ^ 7 % 32
  let f3 := w / 2 ^ 12 % 8
  let a := rvRead m (w / 2 ^ 15 % 32)
  let f7 := w / 2 ^ 25
  if op = 0x37 then rvWrite m rd (w / 2 ^ 12 * 2 ^ 12)
  else if op = 0x13 then rvWrite m rd (rvAlu f3 (decide (f3 = 5) && decide (f7 = 0x20)) a (wrapInt 32 (signedOf 12 (w / 2 ^ 20))))
  else if op = 0x33 then rvWrite m rd (rvAlu f3 (decide (f7 = 0x20)) a (rvRead m (w / 2 ^ 20 % 32)))
  else m

/-- Runs the sixteen words: the new value and the returned value (Table 20.3). -/
def runRoutine (words : List Nat) (wide64 : Bool) (old b arg : Nat) : Nat × Nat :=
  let m0 := rvWrite (rvWrite (rvWrite (rvWrite (rvWrite [] 10 old) 11 (old / 2 ^ 32)) 12 b) 13 (b / 2 ^ 32)) 14 arg
  let m := words.foldl rvStep m0
  let pair (lo hi : Nat) : Nat := if wide64 then rvRead m lo + 2 ^ 32 * rvRead m hi else rvRead m lo
  (pair 10 11, pair 12 13)

/-- The words of routine `n` of a context (R337), in device memory. -/
def State.routine (s : State) (tag n : Nat) : List Nat :=
  (List.range 16).map fun i => leValue (readBytes s.mem ((s.ctx tag).routines + 64 * n + 4 * i) 4)

/-! ### Operations (R169) -/

/-- The new value of an operation other than `prog`, on `n`-bit values. -/
def atomNew (op : AtomOp) (n : Nat) (flush : Bool) (old b c : Nat) : Nat :=
  match op with
  | .add => (old + b) % 2 ^ n
  | .and => old &&& b
  | .or => old ||| b
  | .xor => old ^^^ b
  | .minI => if signedOf n old ≤ signedOf n b then old else b
  | .maxI => if signedOf n old ≤ signedOf n b then b else old
  | .minN => min old b
  | .maxN => max old b
  | .exch => b
  | .cas => if old = c then b else old
  | .inc => if b ≤ old then 0 else old + 1
  | .dec => if old = 0 ∨ b < old then b else old - 1
  | .fadd => (floatAdd fp32 .rne flush old b).bits
  | .prog => old

/-- The new value and the returned value of an operation of a context. -/
def State.atomResultIn (s : State) (tag : Nat) (op : AtomOp) (wide64 : Bool) (old b c : Nat) : Nat × Nat :=
  match op with
  | .prog => runRoutine (s.routine tag (c % 64)) wide64 old b (c / 64 % 2 ^ 26)
  | op => (atomNew op (if wide64 then 64 else 32) (s.ctx tag).flush old b c, old)

def State.atomResult (s : State) (op : AtomOp) (wide64 : Bool) (old b c : Nat) : Nat × Nat := s.atomResultIn s.curTeam.ctx op wide64 old b c

/-! ### Placement (R171) -/

/-- The place of a read-modify-write, as a number (Table 7.6). Each scope instance has one (R317): the home, which hands exclusive ownership
out, is that of every wide or fab one, but for a die's copy of a NEAR die-private line. DEDUCED, log 72. -/
def State.placeOf (s : State) (p : Spot) (op : AtomOp) (sc : Scope) : Nat :=
  let x := s.curTeam
  match p with
  | .pad _ _ => 1
  | .priv _ _ _ _ => 0
  | .mem _ f =>
      if f.location = 2 then 7
      else if f.placement = 2 then 6
      else if op = .prog then 4
      else
        match sc with
        | .team => 2 + 16 * s.cur.team
        | .cluster => 3 + 16 * x.cluster
        | .wide => if f.placement = 0 ∧ f.dieScope = true then 5 + 16 * (x.cluster / 2 + 1) else 4
        | .fab => 4

/-- Where the operation is performed on device memory (Table 7.6). -/
def atomPlace (f : Leaf) (op : AtomOp) (sc : Scope) : AtomPlace :=
  if op = .prog then .home
  else
    match sc with
    | .team => .l1
    | .cluster => .l2
    | _ => if f.placement = 0 then .l1 else .home

/-- The order class of a read-modify-write. -/
def Order.rmwClass : Order → EvClass
  | .plain => .plain
  | .mk => .marked
  | .ar => .ar
  | .sc => .sc

/-- One read-modify-write of `n` bytes, its read and its write one event (R317). -/
def State.rmwAt (s : State) (k : AccessKind) (p : Spot) (n place : Nat) (f : Nat → Nat × Nat) : State × Nat :=
  let keys := (List.range n).map (s.spotKey p)
  let spec := k.spec p true place keys (keys.map fun k => (k, 0, 0))
  let rf := s.readSources k p spec
  let bytes := (List.range n).map fun i =>
    match p with
    | .priv _ _ _ _ => s.newest p i
    | _ => valueOf s.log (s.newest p i) (s.spotKey p i) (Map.get 0 rf (s.spotKey p i))
  let r := f (leValue bytes)
  let bs := leBytes n r.1
  let wr := (List.range n).map fun i => (s.spotKey p i, s.newest p i, bs.getD i 0)
  ((s.storeBytes p 0 bs).logEvent k { spec with wr := wr } rf false, r.2)

/-! ### What a lane's access writes -/

/-- Writes words to consecutive v registers with one tag. -/
def Lane.writeWords (x : Lane) (d : Nat) (tag : Option Tag) : List Word → Lane
  | [] => x
  | w :: ws => (x.writeV d ⟨w, tag⟩).writeWords (d + 1) tag ws

/-- Marks the destination of a load or atomic pending until its value arrives (R35), and what the instruction names in use (R130). -/
def Lane.markPending (x : Lane) (d n : Nat) (uses : List Nat) : Lane :=
  { x with pend := x.pend ++ (List.range n).map (d + ·), uses := unionIds x.uses uses }

/-- One lane's operation, of the current issue at a place in program order; `d` receives the returned value, and `uses` are the v
registers that the instruction names. -/
def State.atomLane (s : State) (x : AtomX) (stamp : Nat) (uses : List Nat) (d : Option Nat) (b c l : Nat) (p : Spot) : State :=
  let n := if x.wide64 then 8 else 4
  let k : AccessKind := { s.kind (Order.rmwClass x.order) x.scope with stamp := stamp }
  let r := s.rmwAt k p n (s.placeOf p x.op x.scope) fun old => s.atomResult x.op x.wide64 old b c
  let s0 := if x.op = .prog then r.1.touchMsc p else r.1
  let s1 := match p with | .mem _ f => s0.touchAtomic s.cur.team p n x.scope (atomPlace f x.op x.scope) | _ => s0
  match d with
  | none => s1
  | some d =>
      s1.mapCurGroup fun y =>
        y.setLane l
          (((y.lane l).writeWords d none
            (if x.wide64 then [BitVec.ofNat 32 r.2, BitVec.ofNat 32 (r.2 / 2 ^ 32)] else [BitVec.ofNat 32 r.2])).markPending d (if x.wide64 then 2 else 1) uses)

end Sys2Proof.Machine
end

