-- ==== Sys2Proof/Machine/Memory.lean ====
section
/-!
DEFINITION. `ld`, `ldl`, `st`, `stl` (R163 to R167, R174, R175), `uld` and `ust` (R145), and the fences (R172, R173,
R319, R360).
-/

namespace Sys2Proof.Machine

/-! ### The lanes of an access -/

/-- Bytes of a width (Table 2.2). -/
def Width.bytes : Width → Nat
  | .b8 | .i8 => 1
  | .b16 | .i16 => 2
  | .b32 => 4
  | .b64 => 8
  | .b128 => 16

/-- a(l) of R165. -/
def laneAddr (m : MemX) (base : DWord) (idx : Word) : Nat :=
  (base + ((if m.sx then idx.signExtend 64 else idx.setWidth 64) <<< m.scale.toNat) + m.off.signExtend 64).toNat

/-- One lane's access: its address and what it reaches (none: outside every window). -/
structure LaneAcc where
  lane : Nat
  addr : Nat
  reach : Option Reached
  deriving DecidableEq, Repr

/-- The accesses of the lanes of a mask. -/
def laneAccs (mask : BitVec 32) (f : Nat → Nat) (dec : Nat → Option Reached) : List LaneAcc :=
  (lanesOf mask).map fun l => ⟨l, f l, dec (f l)⟩

def accMask (xs : List LaneAcc) : BitVec 32 := maskOf fun l => xs.any fun x => x.lane = l

/-- The accesses that fail a check, and the trap that they give. -/
def failing (xs : List LaneAcc) (bad : LaneAcc → Bool) (code : Nat) : Option TrapInfo :=
  match xs.filter bad with
  | [] => none
  | x :: _ => some { code := code, lanes := accMask (xs.filter bad), addr := x.addr }

/-- The first check that fails, in order (R82). -/
def firstFailing : List (Option TrapInfo) → Option TrapInfo
  | [] => none
  | some t :: _ => some t
  | none :: ts => firstFailing ts

/-- The window and alignment checks. -/
def windowChecks (xs : List LaneAcc) (n : Nat) : List (Option TrapInfo) :=
  [failing xs (fun x => x.reach.isNone) trapACCESS, failing xs (fun x => decide (x.addr % n ≠ 0)) trapMISALIGN]

/-- Any access meets a weave that is switching (R179). -/
def anySwitching (s : State) (xs : List LaneAcc) : Bool :=
  xs.any fun x => match x.reach with | some r => s.inSwitch r | none => false

/-- The compute-mode check of stores and atomics. -/
def computeCheck (s : State) (xs : List LaneAcc) : Option TrapInfo :=
  failing xs (fun x => match x.reach with | some r => s.inCompute r | none => false) trapWMODE

/-- A lane's translated access. -/
structure LaneSpot where
  lane : Nat
  addr : Nat
  reach : Reached
  spot : Spot
  deriving DecidableEq, Repr

/-- The translations of the accesses of a group: those that succeed, those that fail, and whether any must be held. -/
structure Translated where
  ok : List LaneSpot
  fails : List (Nat × Nat × Nat × Nat × Nat)
  held : Bool
  deriving DecidableEq, Repr

/-- An access of the issuing team: where it is to allocate a line in L1, and the private line that makes way for it cannot be
written back, it fails (R159). -/
def State.translateOne (s : State) (g l n : Nat) (r : Reached) (acc : Access) (alloc : Bool) : Trans :=
  let t := s.cur.team
  let takes : Bool := match r with | .pad _ _ => false | .glob _ => alloc | .priv o => !(s.privUnfilled t g o n).isEmpty
  match (if takes then s.victimLine.bind (s.evictFails t) else none) with
  | some e => e
  | none => s.translate t g l n r acc

/-- `fails` holds lane, address, failing page, poison-table cause, walk cause; `alloc`: a global access allocates in L1. -/
def State.translateAll (s : State) (acc : Access) (n : Nat) (alloc : Bool) (xs : List LaneAcc) : Translated :=
  let g := s.cur.party.groupNo
  xs.foldl
    (fun a x =>
      match x.reach with
      | none => a
      | some r =>
        match s.translateOne g x.lane n r acc alloc with
        | .ok p => { a with ok := a.ok ++ [⟨x.lane, x.addr, r, p⟩] }
        | .fail va c w => { a with fails := a.fails ++ [(x.lane, x.addr, va, c, w)] }
        | .hold => { a with held := true }) ⟨[], [], false⟩

/-- An instruction some of whose accesses must be held waits; misses that find the table full wait for an entry (R341). -/
def State.holdAccess (s : State) (i : Instr) (acc : Access) (n : Nat) (xs : List LaneAcc) : State :=
  (s.waitMisses acc (xs.flatMap fun x => match x.reach with | some r => s.asks s.cur.team s.cur.party.groupNo x.lane n r | none => [])).hold i

def spotMask (xs : List LaneSpot) : BitVec 32 := maskOf fun l => xs.any fun x => x.lane = l

/-- A check of translated accesses, as a trap for the lanes that fail it. -/
def spotTrap (code : Nat) (bad : List LaneSpot) : Option TrapInfo :=
  match bad with
  | [] => none
  | x :: xs => some { code := code, lanes := spotMask (x :: xs), addr := x.addr }

/-- UNCORR where an access reads a poisoned sector (R225, R281). -/
def State.uncorrCheck (s : State) (xs : List LaneSpot) (n : Nat) : Option TrapInfo :=
  spotTrap trapUNCORR (xs.filter fun x => s.sectorPoisoned x.spot n)

/-- Byte keys that a lane reaches. -/
def State.spotKeys (s : State) (p : Spot) (n : Nat) : List Nat := (List.range n).map (s.spotKey p)

/-- UNCORR where a store writes part of a poisoned sector. Its lanes together may write a sector whole, which clears it (R165,
R225, R281; log 45). -/
def State.uncorrStore (s : State) (xs : List LaneSpot) (n : Nat) : Option TrapInfo :=
  let written := xs.flatMap fun x => s.spotKeys x.spot n
  spotTrap trapUNCORR <| xs.filter fun x =>
    (List.range n).any fun i =>
      s.poisonedAt x.spot i && !((List.range 32).all fun j => written.contains (s.spotKey x.spot i / 32 * 32 + j))

/-- What turns accesses to peer pages away: the first code that applies, for the lanes that meet it (R374, R375). -/
def State.peerCheck (s : State) (xs : List LaneSpot) (ordered : Bool) (sc : Scope) : Option TrapInfo :=
  match xs.filterMap fun x => s.peerCode x.spot ordered sc with
  | [] => none
  | code :: _ => spotTrap code (xs.filter fun x => decide (s.peerCode x.spot ordered sc = some code))

/-- The checks after translation: peer pages, then poisoned sectors, which come last (R225). -/
def State.placeChecks (s : State) (xs : List LaneSpot) (n : Nat) (ordered : Bool) (sc : Scope) : Option TrapInfo :=
  firstFailing [s.peerCheck xs ordered sc, s.uncorrCheck xs n]

def State.storeChecks (s : State) (xs : List LaneSpot) (n : Nat) (ordered : Bool) (sc : Scope) : Option TrapInfo :=
  firstFailing [s.peerCheck xs ordered sc, s.uncorrStore xs n]

/-- Lines filled and misses entered for the accesses that succeed. -/
def State.prepareAll (s : State) (xs : List LaneSpot) (n : Nat) (alloc : Bool) : State :=
  xs.foldl (fun s x => s.prepare (s.kind .plain .team) s.cur.team s.cur.party.groupNo x.lane n x.reach alloc) s

/-- Accesses to other than private memory: only they can be ordered (R154). -/
def sharedSpots (xs : List LaneSpot) : Bool := xs.any fun x => match x.spot with | .priv _ _ _ _ => false | _ => true

/-- A request type that allocates in L1, on a load and on a store (Table 7.3). -/
def loadAllocates (rt : ReqType) : Bool := decide (rt ≠ .unc)
def storeAllocates (rt : ReqType) : Bool := decide (rt = .own)

/-! ### Loads -/

/-- The register image of a load: the words written from D on (R165). -/
def loadWords (w : Width) (bs : List Byte) : List Word :=
  let x := leValue bs
  match w with
  | .b8 | .b16 | .b32 => [BitVec.ofNat 32 x]
  | .i8 => [BitVec.ofInt 32 (signedOf 8 x)]
  | .i16 => [BitVec.ofInt 32 (signedOf 16 x)]
  | .b64 => [BitVec.ofNat 32 x, BitVec.ofNat 32 (x / 2 ^ 32)]
  | .b128 => [BitVec.ofNat 32 x, BitVec.ofNat 32 (x / 2 ^ 32), BitVec.ofNat 32 (x / 2 ^ 64), BitVec.ofNat 32 (x / 2 ^ 96)]

/-- Registers of a destination of a width. -/
def Width.regs : Width → Nat
  | .b64 => 2
  | .b128 => 4
  | _ => 1

/-- Destinations for which a test fails are pending no more. -/
def Lane.stillPending (x : Lane) (f : Nat → Bool) : Lane :=
  let p := x.pend.filter f
  { x with pend := p, uses := if p.isEmpty then [] else x.uses }

/-- The entry that a failing load makes (R174). DESIGN CHOICE, log 58: where its lanes fail with different causes, the one cause that
the entry holds is that of the lowest failing lane. -/
def State.newEntry (s : State) (fails : List (Nat × Nat × Nat × Nat × Nat)) : PoisonEntry where
  spent := false
  pc := s.cur.pc
  w1 := s.cur.w1
  w2 := if s.cur.len = 2 then s.cur.w2 else 0
  lanes := maskOf fun l => fails.any fun f => f.1 = l
  addrs := fails.foldl (fun m f => Map.put m f.1 f.2.1) []
  cause := match fails with | f :: _ => f.2.2.2.1 | [] => 0
  pages := fails.foldl (fun m f => Map.put m f.1 f.2.2.1) []
  walkCause := match fails with | f :: _ => f.2.2.2.2 | [] => 0
  issued := s.freeCtr
  set := s.cur.lanes

/-- Puts the entry of a failing load into the table, and its pages into the fault batch. -/
def State.recordLoadFault (s : State) (e : Nat) (fails : List (Nat × Nat × Nat × Nat × Nat)) : State :=
  let s1 := s.mapCurGroup fun y => { y.prune with poison := Map.put y.prune.poison e (s.newEntry fails) }
  s1.noteFaults 1 (fails.map fun f => (f.2.2.1, f.2.2.2.2))

/-- A race of a context (R242, R315): nothing of it goes on (R316). -/
def State.raceIn (s : State) (race : Bool) (tag : Nat) : State := if race then { s with raced := unionIds s.raced [tag] } else s

def State.noteRace (s : State) (race : Bool) : State := s.raceIn race s.curTeam.ctx

/-- Poisoned zero in the destination of one lane. -/
def State.poisonLane (s : State) (l d n : Nat) (t : Tag) : State :=
  s.mapCurGroup fun y => y.setLane l ((y.lane l).writeWords d (some t) (List.replicate n 0))

/-! ### Loads whose values come later (R35, R312) -/

/-- The event of a late load's unit. -/
def State.lateUnit (s : State) (k : AccessKind) (p : Spot) (i0 n : Nat) : State :=
  s.logEvent k (k.spec p false 0 ((List.range n).map fun i => s.spotKey p (i0 + i)) []) [] true

/-- A load's events, its value still to come. -/
def State.lateRead (s : State) (k : AccessKind) (p : Spot) (lane : Option Nat) (d : Nat) (w : Width) : State :=
  let n := Width.bytes w
  let s1 := if n ≤ 8 then s.lateUnit k p 0 n else (s.lateUnit k p 0 8).lateUnit k p 8 (n - 8)
  { s1 with lates := s.lates ++ [⟨s.cur.team, s.cur.party, lane, d, w, (List.range ((n + 7) / 8)).map (nextId s.log + ·), none⟩] }

/-- The load may take its value later: it reaches neither private memory nor a weave in compute mode. -/
def State.mayBeLate (s : State) (p : Spot) : Bool :=
  s.late && !s.spotComputes p && match p with | .priv _ _ _ _ => false | _ => true

/-- The bytes of a late load's unit come: the log keeps the writes that they come from. -/
def State.unitArrives (s : State) (u : Nat) : State × List Byte :=
  match eventOf s.log u with
  | none => (s, [])
  | some f =>
    let r := readLate s.log f
    let rf := r.1
    ({ s with log := withSources s.log u rf r.2 }, f.rd.map fun k => valueOf s.log (s.byteOfKey k) k (Map.get 0 rf k))

def State.unitsArrive (s : State) : List Nat → State × List Byte
  | [] => (s, [])
  | u :: us =>
      let r := s.unitArrives u
      let q := r.1.unitsArrive us
      (q.1, r.2 ++ q.2)

/-- The value of a `uld`: its bytes, extended by the width. -/
def uldValue (w : Width) (bs : List Byte) : DWord :=
  match w with
  | .i8 => BitVec.ofInt 64 (signedOf 8 (leValue bs))
  | .i16 => BitVec.ofInt 64 (signedOf 16 (leValue bs))
  | _ => BitVec.ofNat 64 (leValue bs)

/-- Registers that a late load of a lane is to write. -/
def LateLoad.regs (x : LateLoad) : List Nat := (List.range (Width.regs x.width)).map (x.dest + ·)

/-- The destination of a late load receives its value, and is pending no more. -/
def State.lateWrite (s : State) (x : LateLoad) (bs : List Byte) : State :=
  match x.lane, x.party with
  | some l, .group g =>
      s.mapGroup x.team g fun y =>
        let z := (y.lane l).writeWords x.dest none (loadWords x.width bs)
        y.setLane l (z.stillPending fun r => !x.regs.contains r)
  | _, .group g =>
      s.mapGroup x.team g fun y =>
        { y.writeS x.dest (clear (uldValue x.width bs)) with spend := y.spend.filter fun r => decide (r ≠ x.dest) }
  | _, q =>
      s.mapTeam x.team fun t =>
        let y := t.stream q
        t.setStream q { y with s := writeSMap y.s x.dest (clear (uldValue x.width bs)), spend := y.spend.filter fun r => decide (r ≠ x.dest) }

/-- A late atomic of a lane is performed, at its place in program order. -/
def State.lateRmw (s : State) (x : LateLoad) (r : LateRmw) : State :=
  let s1 := (s.mapGroup x.team x.party.groupNo fun y =>
    match x.lane with
    | some l => if r.ret then y.setLane l ((y.lane l).stillPending fun k => !x.regs.contains k) else y
    | none => y)
  let z := { s1 with cur := r.issue }.atomLane r.op r.stamp [] (if r.ret then some x.dest else none) r.b r.c (x.lane.getD 0) r.spot
  ({ z with cur := s.cur }).mapGroup x.team x.party.groupNo fun y =>
    match x.lane with
    | some l => if r.ret then y.setLane l ((y.lane l).stillPending fun k => !x.regs.contains k) else y
    | none => y

/-- A late load takes its value, or a late atomic is performed. A race that waited for it to be decided is seen now. -/
def State.lateComes (s : State) (x : LateLoad) : State :=
  let s0 := { s with lates := s.lates.filter fun z => decide (z ≠ x) }
  let s1 :=
    match x.rmw with
    | some r => s0.lateRmw x r
    | none => let r := s0.unitsArrive x.units; r.1.lateWrite x r.2
  { s1 with raced := unionIds s1.raced (racingContexts s1.log) }

/-- The late accesses that come with one: of an atomic's lanes, all of them, in increasing order (R169). -/
def State.comesWith (s : State) (x : LateLoad) : List LateLoad :=
  match x.rmw with
  | none => [x]
  | some r => s.lates.filter fun z => decide (z.team = x.team) && decide (z.party = x.party) && z.rmw.any fun q => decide (q.stamp = r.stamp)

def State.lateArrives (s : State) (x : LateLoad) : State := (s.comesWith x).foldl (fun s x => s.lateComes x) s

/-- Late loads that meet a condition arrive, oldest first. -/
def State.arriveWhere (s : State) (f : LateLoad → Bool) : State :=
  (s.lates.filter f).foldl (fun s x => if s.lates.contains x then s.lateArrives x else s) s

/-- Bytes that a late atomic is to read and write. -/
def State.rmwKeys (s : State) (r : LateRmw) : List Nat := (List.range (if r.op.wide64 then 8 else 4)).map (s.spotKey r.spot)

/-- The issuing party's atomics to some bytes are performed before its next access to them: program order orders the two (R307). -/
def State.performBefore (s : State) (keys : List Nat) : State :=
  s.arriveWhere fun x =>
    decide (x.team = s.cur.team) && decide (x.party = s.cur.party) && match x.rmw with | some r => overlap (s.rmwKeys r) keys | none => false

/-- The issuing party's atomics are performed before an event that program order puts behind every one of them (R307). -/
def State.performRmws (s : State) (t : Nat) (p : Party) : State :=
  s.arriveWhere fun x => decide (x.team = t) && decide (x.party = p) && x.rmw.isSome

/-- A late load of a party. -/
def LateLoad.of (t : Nat) (p : Party) (x : LateLoad) : Bool := decide (x.team = t) && decide (x.party = p)

/-! ### `ld` and `ldl` -/

/-- One lane's load takes effect, or is on its way. -/
def State.loadLane (s : State) (k : AccessKind) (rt : ReqType) (last : Bool) (w : Width) (d : Nat) (uses : List Nat) (x : LaneSpot) : State :=
  let s1 :=
    if s.mayBeLate x.spot then (s.lateRead k x.spot (some x.lane) d w).mapCurGroup fun y => y.setLane x.lane ((y.lane x.lane).markPending d (Width.regs w) uses)
    else
      let r := s.readAt k x.spot (Width.bytes w)
      r.1.mapCurGroup fun y =>
        y.setLane x.lane
          ((((y.lane x.lane).writeWords d none (loadWords w r.2.bytes)).setFlags (if r.2.wmode then 128 else 0)).markPending d (Width.regs w) uses)
  s1.touch s.cur.team x.spot (Width.bytes w) rt k.scope false true last

/-- The tags of a load's operands in a lane (R54). -/
def loadTag (y : Group) (x : Lane) (a b : Reg) (p : Pred) : Option Tag :=
  firstTag [(srcPair y x a).tag, (src y x b).tag, (predOf x p).tag]

/-- The lanes of a load take effect: those with a poisoned operand, those whose translation fails, in one entry `e` of the poison
table, and the rest. -/
def State.loadEffect (s : State) (i : Instr) (m : MemX) (last : Bool) (d : Nat) (poisoned : List (Nat × Tag)) (tr : Translated) (e : Nat) : State :=
  let n := Width.regs m.width
  let s1 := poisoned.foldl (fun s p => s.poisonLane p.1 d n p.2) s
  let s2 := tr.fails.foldl (fun s f => s.poisonLane f.1 d n ⟨BitVec.ofNat 3 e, true⟩) s1
  let s3 := (if tr.fails.isEmpty then s2 else s2.recordLoadFault e tr.fails).prepareAll tr.ok (Width.bytes m.width) (loadAllocates m.rtype)
  tr.ok.foldl (fun s x => s.loadLane (s.kind (Order.loadClass m.order) m.scope) m.rtype last m.width d (vRegsOf i) x)
    (s3.performBefore (tr.ok.flatMap fun x => s.spotKeys x.spot (Width.bytes m.width)))

/-- `ld` and `ldl`: a load with an empty active set has no effect (R34). An sc load acts as a release on mapped regions (R158). -/
def State.loadOp (s : State) (i : Instr) (m : MemX) (last : Bool) (d : Nat) (a b : Reg) : Out :=
  let y := s.curGroup
  let act := activeMask y s.cur.lanes m.pred
  let poisoned := (lanesOf act).filterMap fun l => (loadTag y (y.lane l) a b m.pred).map fun t => (l, t)
  let pm := maskOf fun l => poisoned.any fun p => p.1 = l
  let n := Width.bytes m.width
  let xs := laneAccs (act &&& ~~~pm)
    (fun l => laneAddr m (srcPair y (y.lane l) a).val (src y (y.lane l) b).val) (s.decodeSpace s.cur.team m.space)
  match firstFailing (windowChecks xs n) with
  | some t => .next (s.trap t)
  | none =>
    let tr := s.translateAll .read n (loadAllocates m.rtype) xs
    if tr.held then .next (s.holdAccess i .read n xs)
    else
      match s.placeChecks tr.ok n (decide (m.order ≠ .plain)) m.scope with
      | some t => .next (s.trap t)
      | none =>
        match (if tr.fails.isEmpty then some 0 else s.curGroup.prune.freeEntry) with
        | none =>
          .next (s.trap { code := trapPOISONOVF, lanes := maskOf fun l => tr.fails.any fun f => f.1 = l, addr := match tr.fails with | f :: _ => f.2.1 | [] => 0 })
        | some e =>
          let shared := sharedSpots tr.ok
          let rel := decide (m.order = .sc) && shared
          let sc := actsAt (tr.ok.map fun x => x.spot) m.scope
          .next <| s.withRelease i rel sc fun s =>
            let s1 := (if rel then s.releaseEffects sc else s).loadEffect i m last d poisoned tr e
            (if (m.order = .ar ∨ m.order = .sc) ∧ shared then s1.dropL1 s.cur.team true sc else s1).advance

def execLd (m : MemX) (d : Nat) (a b : Reg) (s : State) : Out := s.loadOp (.ld m d a b) m false d a b

/-- `ldl` makes each L2 line that it reads the first victim of its set (R163); what L1 evicts is the agenda's choice
(log 71). -/
def execLdl (m : MemX) (d : Nat) (a b : Reg) (s : State) : Out := s.loadOp (.ldl m d a b) m true d a b

/-! ### Barriers in use (R242) -/

/-- Parties of a team. -/
def parties : List Party := (List.range 16).map Party.group ++ [.matrix, .copy]

/-- Local offset of the transaction barrier; none for `none`. -/
def tbOf (x : CopyX) : Option Nat := if x.nb then none else some (16 * x.tb.toNat)

/-- The barrier that a copy records into. -/
def Copy.barrier (c : Copy) : Option Nat :=
  match c.instr with
  | .bcopy x _ _ _ => tbOf x
  | .bcopyr x _ _ _ => tbOf x
  | .bcopymc x _ _ _ _ => tbOf x
  | .gather x _ _ _ _ => tbOf x
  | .scatter x _ _ _ _ => tbOf x
  | .send x _ _ _ _ => tbOf x
  | .coll x _ _ _ _ => tbOf x
  | _ => none

/-- Members selected by a multicast mask (R231). -/
def Copy.mask (c : Copy) : Nat := c.d % 2 ^ 64 + c.d1 % 2 ^ 64 * 2 ^ 64 + c.d2 % 2 ^ 64 * 2 ^ 128

def maskSlots (m : Nat) : List Nat := (List.range 192).filter fun i => m.testBit i

/-- The transaction barriers on which a party waits, as team and offset. -/
def State.waitedBars (s : State) (u : Nat) (p : Party) : List (Nat × Nat) :=
  match s.waitOf ⟨u, p⟩ with
  | none => []
  | some w =>
    let reach (a : Nat) : Option (Nat × Nat) := match s.decodeGeneric u a with | some (.pad m o) => some (m, o) | _ => none
    match w.instr with
    | .txbWait a _ pr =>
        let y := (s.team u).group p.groupNo
        (lanesOf (activeMask y w.issue.lanes pr)).filterMap fun l => reach (srcPair y (y.lane l) a).val.toNat
    | .utxbWait a _ off => (reach ({ s with cur := w.issue }.uAddr a off).val.toNat).toList
    | _ => []

/-- The transaction barriers of a team's scratchpad that an operation waits on, or that a copy in flight records into. -/
def State.barsInUse (s : State) (m : Nat) : List Nat :=
  (s.teams.flatMap fun e => e.2.copies.filterMap fun c =>
    let here : Bool := match c.instr with
      | .bcopymc _ _ _ _ _ => (maskSlots c.mask).any fun i => decide (s.member e.1 i = some m)
      | _ => decide (e.1 = m)
    if here && !c.complete then c.barrier else none) ++
  ((s.teams.flatMap fun e => parties.flatMap fun p => s.waitedBars e.1 p).filter fun q => decide (q.1 = m)).map fun q => q.2

/-- A plain store, atomic or copy write of `n` bytes meets a barrier in use: a data race (R242). -/
def State.meetsBarrier (s : State) (p : Spot) (n : Nat) : Bool :=
  match p with
  | .pad m o => decide ((s.padWeave m o).mode ≠ .compute) && (s.barsInUse m).any fun b => decide (b < o + n) && decide (o < b + 16)
  | _ => false

/-! ### Stores -/

/-- The data of a store: its bytes, lowest first. -/
def storeData (y : Group) (x : Lane) (w : Width) (d : Reg) : Tagged (List Byte) :=
  match w with
  | .b64 => ⟨leBytes 8 (srcPair y x d).val.toNat, (srcPair y x d).tag⟩
  | .b128 => ⟨leBytes 16 (srcQuad x d).val.toNat, (srcQuad x d).tag⟩
  | w => ⟨leBytes (Width.bytes w) (src y x d).val.toNat, (src y x d).tag⟩

/-- Every poisoned operand of a store in a lane, in the order D, A, B, predicate. -/
def storeTags (y : Group) (x : Lane) (m : MemX) (d a b : Reg) : List Tag :=
  (match m.width with | .b64 => pairTags y x d | .b128 => quadTags x d | _ => (src y x d).tag.toList) ++ pairTags y x a ++
    [(src y x b).tag, (predOf x m.pred).tag].filterMap id

/-- A store of the issuing team is held for the slot that it reaches (R297). -/
def State.storeHeld (s : State) (p : Spot) : Bool :=
  match p with
  | .pad m _ => decide (m ≠ s.cur.team) && s.moving m
  | _ => false

/-- Units of a width. -/
def unitCount (n : Nat) : Nat := (n + 7) / 8

/-- The relocation buffers have room for the held writes of a store; else its group waits (R298). Each unit of at most 8 bytes takes one of
the 1,024 places: DESIGN CHOICE, log 68. -/
def State.roomFor (s : State) (xs : List Spot) (n : Nat) : Bool :=
  xs.all fun p =>
    match p with
    | .pad m _ =>
        !s.storeHeld p ||
          s.bufferRoom m (unitCount n * xs.countP fun q => match q with | .pad u _ => decide (u = m) | _ => false)
    | _ => true

/-- One unit of a store: performed, or held for a slot that moves. -/
def State.storeUnit (s : State) (k : AccessKind) (p : Spot) (i0 : Nat) (bs : List Byte) (skip : List Nat) : State :=
  match p with
  | .pad m o =>
      if s.storeHeld p then
        match (List.range bs.length).filter fun i => !skip.contains (s.spotKey p (i0 + i)) with
        | [] => s
        | is => s.holdWrite k m (is.map fun i => (o + i0 + i, bs.getD i 0)) false 0 none
      else s.writeUnitAt k p i0 bs skip
  | _ => s.writeUnitAt k p i0 bs skip

/-- A lane's store, as units of at most 8 bytes (R166). -/
def State.storeAt (s : State) (k : AccessKind) (p : Spot) (bs : List Byte) (skip : List Nat) : State :=
  if bs.length ≤ 8 then s.storeUnit k p 0 bs skip
  else (s.storeUnit k p 0 (bs.take 8) skip).storeUnit k p 8 (bs.drop 8) skip

/-- All lanes of a store take effect, each without the bytes that a higher lane writes (R167). -/
def State.storeLanes (s : State) (k : AccessKind) (rt : ReqType) (n : Nat) (data : Nat → List Byte) (alloc : Bool) : List LaneSpot → State
  | [] => s
  | x :: xs =>
      let skip := xs.flatMap fun z => s.spotKeys z.spot n
      ((s.storeAt k x.spot (data x.lane) skip).touch s.cur.team x.spot n rt k.scope true alloc !alloc).storeLanes k rt n data alloc xs

/-- The lanes of a store take effect: sectors that they write whole are poisoned no more. -/
def State.storeEffect (s : State) (k : AccessKind) (rt : ReqType) (n : Nat) (data : Nat → List Byte) (alloc : Bool) (xs : List LaneSpot) : State :=
  let keys := (xs.filter fun x => !s.storeHeld x.spot).flatMap fun x => s.spotKeys x.spot n
  (s.storeLanes k rt n data alloc xs).mendSectors keys

def State.storeOp (s : State) (i : Instr) (m : MemX) (d a b : Reg) (alloc : Bool) : Out :=
  let y := s.curGroup
  let act := activeMask y s.cur.lanes m.pred
  let n := Width.bytes m.width
  let bad := (lanesOf act).filter fun l => !(storeTags y (y.lane l) m d a b).isEmpty
  if !bad.isEmpty then
    .next (s.poisonTrap i (maskOf fun l => bad.contains l) (bad.flatMap fun l => storeTags y (y.lane l) m d a b))
  else
    let xs := laneAccs act
      (fun l => laneAddr m (srcPair y (y.lane l) a).val (src y (y.lane l) b).val) (s.decodeSpace s.cur.team m.space)
    match firstFailing (windowChecks xs n) with
    | some t => .next (s.trap t)
    | none =>
      if anySwitching s xs then .next (s.hold i)
      else
        match computeCheck s xs with
        | some t => .next (s.trap t)
        | none =>
          let tr := s.translateAll .write n (alloc && storeAllocates m.rtype) xs
          match tr.fails with
          | f :: fs =>
              .next (s.storeFault i trapACCESS (maskOf fun l => (f :: fs).any fun q => q.1 = l) f.2.1
                ((f :: fs).map fun q => (q.2.2.1, q.2.2.2.2)) 2)
          | [] =>
            if tr.held then .next (s.holdAccess i .write n xs)
            else
              match s.storeChecks tr.ok n (decide (m.order ≠ .plain)) m.scope with
              | some t => .next (s.trap t)
              | none =>
                if !s.roomFor (tr.ok.map fun x => x.spot) n then .next (s.hold i)
                else
                  let rel := (decide (m.order = .ar) || decide (m.order = .sc)) && sharedSpots tr.ok
                  let sc := actsAt (tr.ok.map fun x => x.spot) m.scope
                  .next <| s.withRelease i rel sc fun s =>
                    let s1 := ((if rel then s.releaseEffects sc else s).performBefore (tr.ok.flatMap fun x => s.spotKeys x.spot n)).prepareAll tr.ok n (alloc && storeAllocates m.rtype)
                    ((s1.storeEffect (s1.kind (Order.storeClass m.order) m.scope) m.rtype n
                      (fun l => (storeData y (y.lane l) m.width d).val) alloc tr.ok).noteRace
                        (decide (m.order = .plain) && tr.ok.any fun x => s.meetsBarrier x.spot n)).advance

def execSt (m : MemX) (d a b : Reg) (s : State) : Out := s.storeOp (.st m d a b) m d a b true

/-- `stl` allocates no L1 line, and makes each L2 line that it writes the first victim of its set (Table 7.5). -/
def execStl (m : MemX) (d a b : Reg) (s : State) : Out := s.storeOp (.stl m d a b) m d a b false

/-! ### uld and ust (R145) -/

/-- The private window is out of reach of uniform accesses. -/
def uniformReach (s : State) (sp : Space) (a : Nat) : Option Reached :=
  match s.decodeSpace s.cur.team sp a with
  | some (.priv _) => none
  | r => r

/-- The destination of a `uld` is pending until its value arrives (R35, R139). -/
def State.markSPending (s : State) (d : BitVec 5) : State :=
  if s.cur.party.isGroup then s.mapCurGroup fun y => { y with spend := y.spend ++ [d.toNat] }
  else s.mapCurStream fun y => { y with spend := y.spend ++ [d.toNat] }

/-- A failure of a uniform instruction: it fails for the lanes of its execution set (R82). Log 22. -/
def State.uTrap (s : State) (code addr : Nat) : Out := .next (s.trapAt code s.cur.lanes addr)

/-- The value of a `uld` is read, or is on its way. -/
def State.uldEffect (s : State) (m : UMemX) (d : BitVec 5) (p : Spot) : State :=
  let k := s.kind (Order.loadClass m.order) m.scope
  let n := Width.bytes m.width
  let s := s.performBefore (s.spotKeys p n)
  let s1 :=
    if s.mayBeLate p then s.lateRead k p none d.toNat m.width
    else
      let q := s.readAt k p n
      (q.1.writeS d (clear (uldValue m.width q.2.bytes))).setFlagsAll (if q.2.wmode then 128 else 0)
  (s1.markSPending d).touch s.cur.team p n m.rtype m.scope false true false

/-- A poisoned base gives a group a poisoned zero; in a sequencer, which holds no poison, it is a stream trap (R54; log 46). -/
def execUld (m : UMemX) (d a : BitVec 5) (s : State) : Out :=
  let i := Instr.uld m d a
  let ad := s.uAddr a m.off
  let n := Width.bytes m.width
  match ad.tag with
  | some t => if s.cur.party.isGroup then .next (s.writeS d ⟨0, some ⟨t.idx, false⟩⟩).advance else .next (s.streamTrap { code := trapPOISON })
  | none =>
    match uniformReach s m.space ad.val.toNat with
    | none => s.uTrap trapACCESS ad.val.toNat
    | some r =>
      if ad.val.toNat % n ≠ 0 then s.uTrap trapMISALIGN ad.val.toNat
      else
        match s.translateOne 0 0 n r .read (loadAllocates m.rtype) with
        | .hold => .next (s.holdAccess i .read n [⟨0, ad.val.toNat, some r⟩])
        | .fail va c w =>
          if !s.cur.party.isGroup then s.uTrap trapACCESS ad.val.toNat
          else
            match s.curGroup.prune.freeEntry with
            | none => s.uTrap trapPOISONOVF ad.val.toNat
            | some e => .next ((s.writeS d ⟨0, some ⟨BitVec.ofNat 3 e, true⟩⟩).recordLoadFault e [(0, ad.val.toNat, va, c, w)]).advance
        | .ok p =>
          match s.peerCode p (decide (m.order ≠ .plain)) m.scope with
          | some code => s.uTrap code ad.val.toNat
          | none =>
          if s.sectorPoisoned p n then s.uTrap trapUNCORR ad.val.toNat
          else
            let rel := decide (m.order = .sc)
            let sc := actsAt [p] m.scope
            .next <| s.withRelease i rel sc fun s =>
              let s1 := (if rel then s.releaseEffects sc else s).prepare (s.kind .plain .team) s.cur.team 0 0 n r (loadAllocates m.rtype)
              let s2 := s1.uldEffect m d p
              (if m.order = .ar ∨ m.order = .sc then s2.dropL1 s.cur.team true sc else s2).advance

def execUst (m : UMemX) (d a : BitVec 5) (s : State) : Out :=
  let i := Instr.ust m d a
  let ad := s.uAddr a m.off
  let n := Width.bytes m.width
  match [(s.readS d).tag, ad.tag].filterMap id with
  | t :: ts => .next (s.poisonTrap i s.cur.lanes (t :: ts))
  | [] =>
    match uniformReach s m.space ad.val.toNat with
    | none => s.uTrap trapACCESS ad.val.toNat
    | some r =>
      if ad.val.toNat % n ≠ 0 then s.uTrap trapMISALIGN ad.val.toNat
      else if s.inSwitch r then .next (s.hold i)
      else if s.inCompute r then s.uTrap trapWMODE ad.val.toNat
      else
        match s.translateOne 0 0 n r .write (storeAllocates m.rtype) with
        | .hold => .next (s.holdAccess i .write n [⟨0, ad.val.toNat, some r⟩])
        | .fail va _ w => .next (s.storeFault i trapACCESS s.cur.lanes ad.val.toNat [(va, w)] 2)
        | .ok p =>
          match s.peerCode p (decide (m.order ≠ .plain)) m.scope with
          | some code => s.uTrap code ad.val.toNat
          | none =>
          if s.sectorPoisoned p n then s.uTrap trapUNCORR ad.val.toNat
          else if !s.roomFor [p] n then .next (s.hold i)
          else
            let rel := decide (m.order = .ar) || decide (m.order = .sc)
            let sc := actsAt [p] m.scope
            .next <| s.withRelease i rel sc fun s =>
              let s0 := (if rel then s.releaseEffects sc else s).performBefore (s.spotKeys p n)
              let s1 := s0.prepare (s.kind .plain .team) s.cur.team 0 0 n r (storeAllocates m.rtype)
              let s2 := s1.storeAt (s1.kind (Order.storeClass m.order) m.scope) p (leBytes n (s.readS d).val.toNat) []
              ((s2.touch s.cur.team p n m.rtype m.scope true true false).noteRace (decide (m.order = .plain) && s.meetsBarrier p n)).advance

/-! ### Fences (R172, R173, R319) -/

/-- `fence.light`: the group owns its instance, and every narrower one, until it ends (R319). -/
def Group.own (y : Group) (sc : Scope) : Group :=
  { y with light := match y.light with | some o => if Scope.rank o < Scope.rank sc then some sc else some o | none => some sc }

/-- Groups that own an instance which the heavy fence at `sc` waits for: team and group (R319). -/
def State.ownersOf (s : State) (sc : Scope) : List (Nat × Nat) :=
  s.teams.flatMap fun e =>
    (List.range e.2.nGroups).filterMap fun g =>
      match (e.2.group g).light with
      | some o => if Scope.rank sc ≤ Scope.rank o && !(e.2.group g).ended && sameInst sc false s.curAgent (s.agentOf e.1 g) then some (e.1, g) else none
      | none => none

/-- Events of an owner that fall after its serialisation point: some of those that have not been performed, and none before a
`fence.light` after which something falls before the point (R319, steps 2 and 3). The events come newest first; `later`: all
after the next light fence fall after the point, `here`: all since the last one looked at. -/
def afterPoint (stamp : Nat) (later here : Bool) : List MEvent → List Nat
  | [] => []
  | e :: es =>
      if e.cls = .fenceLight then afterPoint stamp (later && here) true es
      else
        let waiting := decide (e.arrived = 0) || (!e.wr.isEmpty && !e.performed)
        if later && waiting && Config.fenceSide (stamp * 2 ^ 64 + e.id) then e.id :: afterPoint stamp later here es
        else afterPoint stamp later false es

/-- The owners' events, those of `after` put behind event `m` (R319, step 5). -/
def putAfter (log : List MEvent) (after : List Nat) (m : Nat) (shared : Bool) : List MEvent :=
  log.map fun e =>
    if !after.contains e.id then e
    else if shared then { e with extraShared := e.extraShared ++ [m] } else { e with extra := e.extra ++ [m] }

/-- Stores of the given agents leave their buffers, but for some. -/
def performBut (log : List MEvent) (as : List Agent) (but : List Nat) : List MEvent :=
  log.map fun e => if as.any (sameAgent e.agent) && !but.contains e.id then { e with performed := true } else e

/-- One owner takes part in a heavy fence, `m` standing for the events before the fence: what falls after its serialisation point
comes behind `m`, as does all that it does from now on. An order that no execution has is not chosen: then all falls before. -/
def State.serialise (s : State) (sc : Scope) (m : Nat) (o : Nat × Nat) : State × List Nat :=
  let a := s.agentOf o.1 o.2
  let shared := !sameInst sc true s.curAgent a
  let after := afterPoint s.freeCtr true true (s.log.filter fun e => sameAgent e.agent a && !e.isEngine)
  let log := putAfter s.log after m shared
  let after := if consistent log then after else []
  let s1 := { s with log := performBut (putAfter s.log after m shared) [a] after }
  (s1.mapGroup o.1 o.2 fun y => if shared then { y with fencedShared := y.fencedShared ++ [m] } else { y with fenced := y.fenced ++ [m] }, after)

/-- All owners in turn: the events of each before its point, for every location and for shared pages only. -/
def State.serialiseAll (s : State) (sc : Scope) (m : Nat) : List (Nat × Nat) → State × List Nat × List Nat
  | [] => (s, [], [])
  | o :: os =>
      let r := s.serialise sc m o
      let a := s.agentOf o.1 o.2
      let evs := s.log.filterMap fun e => if sameAgent e.agent a && !r.2.contains e.id then some e.id else none
      let q := r.1.serialiseAll sc m os
      if sameInst sc true s.curAgent a then (q.1, evs ++ q.2.1, q.2.2) else (q.1, q.2.1, evs ++ q.2.2)

/-- The effect of each fence for the issuing group as a whole. -/
def State.fenceAcqOp (s : State) (sc : Scope) : State := (s.bareEvent .fenceAcq sc []).dropL1 s.cur.team true sc

def State.fenceRelOp (s : State) (sc : Scope) : State := (s.releaseEffects sc).bareEvent .fenceRel sc []

def State.fenceScOp (s : State) (sc : Scope) : State := ((s.performOwn sc).bareEvent .fenceSc sc []).dropL1 s.cur.team true sc

/-- Heavy fences that have come in instances of which a light fence at `sc` makes the group an owner, each as the event that stands for
what precedes it in its group (R319); `die`: of those whose instance holds the group only for shared pages. -/
def State.heavyBefore (s : State) (sc : Scope) (die : Bool) : List Nat :=
  s.log.filterMap fun e =>
    if e.cls = .fenceHeavy ∧ Scope.rank e.scope ≤ Scope.rank sc ∧ sameInst e.scope false e.agent s.curAgent = true ∧
        sameInst e.scope true e.agent s.curAgent = !die ∧ sameAgent e.agent s.curAgent = false then some (e.id - 1)
    else none

/-- `fence.light`: the group is an owner from now on. What it does from now on falls after the serialisation points of the heavy fences that
have come, which have nothing of it to wait for: their groups' earlier events lie before it (R319, R324). -/
def State.fenceLightOp (s : State) (sc : Scope) : State :=
  (s.bareEvent .fenceLight sc []).mapCurGroup fun y =>
    { y.own sc with
      fenced := unionIds y.fenced (s.heavyBefore sc false)
      fencedShared := unionIds y.fencedShared (s.heavyBefore sc true) }

/-- `fence.heavy`: every owner has its serialisation point now. -/
def State.fenceHeavyOp (s : State) (sc : Scope) : State :=
  let s1 := (s.performOwn sc).bareEvent .fenceRel sc []
  let r := s1.serialiseAll sc (nextId s.log) (s1.ownersOf sc)
  let k := s.kind .fenceHeavy sc
  ({ r.1 with
    log := addEvent r.1.log k.stamp
      { agent := k.agent, cls := .fenceHeavy, scope := sc, extra := k.extra ++ r.2.1, extraShared := k.extraShared ++ r.2.2 } [] }).dropL1 s.cur.team true sc

/-- A fence under a predicate: an empty active set has no effect; a release at cluster or wider writes mapped regions
back first (R158). A poisoned predicate makes a lane active (R54). -/
def State.fenceOp (s : State) (i : Instr) (p : Pred) (rel : Bool) (sc : Scope) (f : State → State) : Out :=
  if activeMask s.curGroup s.cur.lanes p = 0 then .next s.advance
  else .next (s.withRelease i rel sc fun s => (f s).advance)

def execFenceAcq (sc : Scope) (p : Pred) (s : State) : Out := s.fenceOp (.fenceAcq sc p) p false sc fun s => s.fenceAcqOp sc
def execFenceRel (sc : Scope) (p : Pred) (s : State) : Out := s.fenceOp (.fenceRel sc p) p true sc fun s => s.fenceRelOp sc
def execFenceSc (sc : Scope) (p : Pred) (s : State) : Out := s.fenceOp (.fenceSc sc p) p true sc fun s => s.fenceScOp sc
def execFenceLight (sc : Scope) (p : Pred) (s : State) : Out := s.fenceOp (.fenceLight sc p) p false sc fun s => s.fenceLightOp sc
def execFenceHeavy (sc : Scope) (p : Pred) (s : State) : Out := s.fenceOp (.fenceHeavy sc p) p true sc fun s => s.fenceHeavyOp sc

/-- The unpredicated fences (R360). -/
def execUfenceAcq (sc : Scope) (s : State) : Out := .next (s.fenceAcqOp sc).advance
def execUfenceRel (sc : Scope) (s : State) : Out := .next (s.withRelease (.ufenceRel sc) true sc fun s => (s.fenceRelOp sc).advance)
def execUfenceSc (sc : Scope) (s : State) : Out := .next (s.withRelease (.ufenceSc sc) true sc fun s => (s.fenceScOp sc).advance)
def execUfenceLight (sc : Scope) (s : State) : Out := .next (s.fenceLightOp sc).advance
def execUfenceHeavy (sc : Scope) (s : State) : Out := .next (s.withRelease (.ufenceHeavy sc) true sc fun s => (s.fenceHeavyOp sc).advance)

/-! ### Arrival and performance events -/

/-- A party's pending destinations whose values have come are pending no more: what its late loads write stays marked. -/
def State.clearPending (s : State) (p : PartyRef) : State :=
  let mine := s.lates.filter fun x => x.of p.team p.party
  match p.party with
  | .group g =>
      s.mapGroup p.team g fun y =>
        { y with
          spend := y.spend.filter fun r => mine.any fun x => x.lane.isNone && decide (x.dest = r)
          lanes := mapLanes (BitVec.allOnes 32)
            (fun l x => x.stillPending fun r => mine.any fun z => decide (z.lane = some l) && z.regs.contains r) y.lanes }
  | q => s.mapTeam p.team fun x => x.setStream q { x.stream q with spend := (x.stream q).spend.filter fun r => mine.any fun z => decide (z.dest = r) }

/-- A party's loads arrive (R35): one that is late takes its value, and the other destinations, whose values stand there, are
pending no more. Which late load arrives first is not stated. -/
def execLoadValueArrival (p : PartyRef) (s : State) : Out :=
  match s.lates.filter fun x => x.of p.team p.party with
  | [] => .next (s.clearPending p)
  | x :: xs =>
    let x := if xs.isEmpty then x else (x :: xs).getD (Config.readChoice s.freeCtr % (xs.length + 1)) x
    .next ((s.lateArrives x).clearPending p)

/-- The oldest unperformed store of a party leaves its buffer (R279); a grid that an error ended performs no more (R255, R323). -/
def execStorePerformed (p : PartyRef) (s : State) : Out :=
  let a := s.agentOf p.team p.party.number
  if (s.team p.team).residency = .ended ∧ (s.grid (s.team p.team).grid).status.isSome = true then .next s
  else
  match (s.log.filter fun e => sameAgent e.agent a && !e.performed && !e.wr.isEmpty).getLast? with
  | some f => .next { s with log := s.log.map fun e => if e.id = f.id then { e with performed := true } else e }
  | none => .next s

end Sys2Proof.Machine
end

