-- ==== Sys2Proof/Machine/Atomic.lean ====
section
/-!
DEFINITION. `atom` and `red` (R168 to R171), and `waitv` (R74 to R76).
-/

namespace Sys2Proof.Machine

/-! ### atom and red (R168 to R171) -/

/-- An operand of an atomic: one register or a pair. -/
def atomSrc (y : Group) (x : Lane) (wide64 : Bool) (r : Reg) : Tagged Nat :=
  if wide64 then ⟨(srcPair y x r).val.toNat, (srcPair y x r).tag⟩ else ⟨(src y x r).val.toNat, (src y x r).tag⟩

/-- a(l) of R168. -/
def atomAddr (x : AtomX) (base : DWord) : Nat := (base + x.off.signExtend 64).toNat

/-- The C operand, 0 where the operation reads none. -/
def atomC (y : Group) (ln : Lane) (x : AtomX) (c : Reg) : Tagged Nat := if x.op.usesC then atomSrc y ln x.wide64 c else clear 0

/-- Poisoned operands of an atomic in a lane. -/
def atomTags (y : Group) (ln : Lane) (x : AtomX) (a b c : Reg) : List Tag :=
  (if x.wide64 then pairTags y ln b else (src y ln b).tag.toList) ++ pairTags y ln a ++ (if x.wide64 ∧ AtomOp.usesC x.op then pairTags y ln c else (atomC y ln x c).tag.toList) ++
    (predOf ln x.pred).tag.toList

/-- `prog` reaches no scratchpad and no private memory (R170). -/
def progReach (x : AtomX) (r : Option Reached) : Bool :=
  decide (x.op = .prog) && match r with | some (.pad _ _) => true | some (.priv _) => true | _ => false

/-- An atomic that Table 7.6 turns away with ACCESS. -/
def State.placementBad (s : State) (isRed : Bool) (x : AtomX) (p : Spot) : Bool :=
  match p with
  | .pad _ _ => decide (x.op = .prog)
  | .priv _ _ _ _ => decide (x.op = .prog)
  | .mem _ f =>
      (decide (f.location = 2) && decide (x.scope ≠ .fab)) ||
      (decide (f.placement = 2) &&
        !(decide (x.op = .add) || (!isRed && (decide (x.op = .exch) || decide (x.op = .cas))))) ||
      (decide (x.op = .prog) && decide (s.curCtx.routines = 0))

/-- The checks of an atomic after translation; `prog` meets a poisoned line as a whole, which is locked for it (R338). -/
def State.atomChecks (s : State) (x : AtomX) (xs : List LaneSpot) (n : Nat) : Option TrapInfo :=
  let wide (z : LaneSpot) : Bool :=
    match z.spot with
    | .mem k f => decide (x.op = .prog) && s.sectorPoisoned (.mem (k / 128 * 128) f) 128
    | _ => false
  firstFailing [s.placeChecks xs n false x.scope, spotTrap trapUNCORR (xs.filter wide)]

/-- An atomic of a lane may be performed later (R312): one that orders nothing that follows it but events of its own kind. -/
def State.mayDefer (s : State) (x : AtomX) (p : Spot) : Bool :=
  s.late && (decide (x.order = .plain) || decide (x.order = .mk)) && match p with | .mem _ _ => true | _ => false

/-- The operation of a lane, now or later. -/
def State.atomStart (s : State) (x : AtomX) (uses : List Nat) (d : Option Nat) (b c : Nat) (z : LaneSpot) : State :=
  if s.mayDefer x z.spot then
    let n := if x.wide64 then 2 else 1
    let s1 : State :=
      { s with lates := s.lates ++
        [⟨s.cur.team, s.cur.party, some z.lane, d.getD 0, if x.wide64 then .b64 else .b32, [],
          some ⟨s.cur, s.freeCtr, x, d.isSome, z.spot, b, c, uses⟩⟩] }
    match d with
    | some d => s1.mapCurGroup fun y => y.setLane z.lane ((y.lane z.lane).markPending d n uses)
    | none => s1
  else s.atomLane x s.freeCtr uses d b c z.lane z.spot

/-- The lanes of an atomic, in increasing order (R169), after the party's own to the same bytes that have not been performed. -/
def State.atomLanes (s : State) (x : AtomX) (uses : List Nat) (d : Option Nat) (y : Group) (b c : Reg) (zs : List LaneSpot) : State :=
  zs.foldl (fun s z => s.atomStart x uses d (atomSrc y (y.lane z.lane) x.wide64 b).val (atomC y (y.lane z.lane) x c).val z)
    (s.performBefore (zs.flatMap fun z => s.spotKeys z.spot (if x.wide64 then 8 else 4)))

def State.atomOp (s : State) (i : Instr) (x : AtomX) (d : Option Nat) (a b c : Reg) : Out :=
  let y := s.curGroup
  let act := activeMask y s.cur.lanes x.pred
  let n := if x.wide64 then 8 else 4
  let bad := (lanesOf act).filter fun l => !(atomTags y (y.lane l) x a b c).isEmpty
  if !bad.isEmpty then
    .next (s.poisonTrap i (maskOf fun l => bad.contains l) (bad.flatMap fun l => atomTags y (y.lane l) x a b c))
  else
    let xs := laneAccs act (fun l => atomAddr x (srcPair y (y.lane l) a).val) (s.decodeGeneric s.cur.team)
    match firstFailing (windowChecks xs n) with
    | some t => .next (s.trap t)
    | none =>
      if anySwitching s xs then .next (s.hold i)
      else
        match firstFailing [computeCheck s xs, failing xs (fun z => progReach x z.reach) trapACCESS] with
        | some t => .next (s.trap t)
        | none =>
          let tr := s.translateAll .atomic n (decide (x.scope = .team)) xs
          match spotTrap trapACCESS (tr.ok.filter fun z => s.placementBad d.isNone x z.spot) with
          | some t => .next (s.trap t)
          | none =>
            match tr.fails with
            | f :: fs =>
                .next (s.storeFault i trapACCESS (maskOf fun l => (f :: fs).any fun q => q.1 = l) f.2.1
                  ((f :: fs).map fun q => (q.2.2.1, q.2.2.2.2)) 4)
            | [] =>
              if tr.held then .next (s.holdAccess i .atomic n xs)
              else
                match s.atomChecks x tr.ok n with
                | some t => .next (s.trap t)
                | none =>
                  let ordered := (decide (x.order = .ar) || decide (x.order = .sc)) && sharedSpots tr.ok
                  let sc := actsAt (tr.ok.map fun z => z.spot) x.scope
                  .next <| s.withRelease i ordered sc fun s =>
                    let s1 := (if ordered then s.releaseEffects sc else s).prepareAll tr.ok n (decide (x.scope = .team))
                    let s2 := (s1.atomLanes x (vRegsOf i) d y b c tr.ok).noteRace (tr.ok.any fun z => s.meetsBarrier z.spot n)
                    (if ordered then s2.dropL1 s.cur.team true sc else s2).advance

def execAtom (x : AtomX) (d : Nat) (a b c : Reg) (s : State) : Out := s.atomOp (.atom x d a b c) x (some d) a b c

/-- `red`: the D field is the operand, and nothing is returned. -/
def execRed (x : AtomX) (d a : Reg) (s : State) : Out := s.atomOp (.red x d a) x none a d (.v 0)

/-! ### waitv -/

/-- sat(x, cond, b) of R75. -/
def waitSat (c : WaitCond) (x b : Word) : Bool :=
  match c with
  | .eq => decide (x = b)
  | .ne => decide (x ≠ b)
  | .ltI => decide (x.toInt < b.toInt)
  | .geI => decide (b.toInt ≤ x.toInt)
  | .ltN => decide (x.toNat < b.toNat)
  | .geN => decide (b.toNat ≤ x.toNat)

/-- A lane leaves `waitv` with a value. -/
def State.waitvLeave (s : State) (l d : Nat) (r : Tagged Word) (fl : BitVec 8) : State :=
  s.mapCurGroup fun y =>
    let x := y.lane l
    y.setLane l { ((x.writeV d r).setFlags fl).advance s.cur.len with waitv := none }

/-- One load of a waiting lane: it leaves when the load fails, when the value satisfies, or when its time is up. -/
def State.waitvLane (s : State) (i : Instr) (cond : WaitCond) (sc : Scope) (acq : Bool) (d : Nat) (start : Nat) (b timeout : Word)
    (z : LaneSpot) : State :=
  let r := s.awaitValue sc acq z.spot fun bs => waitSat cond (BitVec.ofNat 32 (leValue bs)) b
  let x : Word := BitVec.ofNat 32 (leValue r.2.1.bytes)
  let sat := r.2.2
  let s0 := r.1.touch s.cur.team z.spot 4 .selfinv sc false true false
  let s1 := if sat && acq && sharedSpots [z] then s0.dropL1 s.cur.team true (actsAt [z.spot] sc) else s0
  let fl : BitVec 8 := if r.2.1.wmode then 128 else 0
  if sat || (decide (timeout ≠ 0) && decide (timeout.toNat ≤ s.now - start)) then s1.waitvLeave z.lane d (clear x) fl
  else
    s1.mapCurGroup fun y => y.setLane z.lane { (y.lane z.lane).setFlags fl with waitv := some ⟨start, x, i, s.cur, z.addr, b, timeout⟩ }

/-- The loads of lanes whose operands are read: `start`, `b` and `timeout` give each lane's. Once the checks pass, lanes
of a poisoned operand leave with poison. -/
def State.waitvLoads (s : State) (i : Instr) (cond : WaitCond) (sc : Scope) (acq : Bool) (d : Nat) (poisoned : List (Nat × Tag)) (xs : List LaneAcc)
    (start : Nat → Nat) (b timeout : Nat → Word) : State :=
  let tr := s.translateAll .read 4 true xs
  if tr.held then s.holdAccess i .read 4 xs
  else
    match s.placeChecks tr.ok 4 true sc with
    | some t => s.trap t
    | none =>
      let entry := s.curGroup.prune.freeEntry
      if !tr.fails.isEmpty && entry.isNone then
        s.trap { code := trapPOISONOVF, lanes := maskOf fun l => tr.fails.any fun f => f.1 = l, addr := match tr.fails with | f :: _ => f.2.1 | [] => 0 }
      else
        let s1 := poisoned.foldl (fun s q => s.waitvLeave q.1 d ⟨0, some q.2⟩ 0) s
        let s2 := tr.fails.foldl (fun s f => s.waitvLeave f.1 d ⟨0, some ⟨BitVec.ofNat 3 (entry.getD 0), true⟩⟩ 0) s1
        let s3 := if tr.fails.isEmpty then s2 else s2.recordLoadFault (entry.getD 0) tr.fails
        tr.ok.foldl (fun s z => s.waitvLane i cond sc acq d (start z.lane) (b z.lane) (timeout z.lane) z) (s3.prepareAll tr.ok 4 true)

/-- `waitv` as it issues for the lanes of a mask: a poisoned operand lets its lane leave with poison. -/
def State.waitvOp (s : State) (i : Instr) (cond : WaitCond) (sc : Scope) (acq : Bool) (d : Nat) (a b c : Reg) (p : Pred)
    (act : BitVec 32) : State :=
  let y := s.curGroup
  let tagOf (l : Nat) : Option Tag :=
    firstTag [(srcPair y (y.lane l) a).tag, (src y (y.lane l) b).tag, (src y (y.lane l) c).tag, (predOf (y.lane l) p).tag]
  let poisoned := (lanesOf act).filterMap fun l => (tagOf l).map fun t => (l, t)
  let pm := maskOf fun l => poisoned.any fun q => q.1 = l
  let xs := laneAccs (act &&& ~~~pm) (fun l => (srcPair y (y.lane l) a).val.toNat) (s.decodeGeneric s.cur.team)
  match firstFailing [failing xs (fun x => decide (x.addr % 4 ≠ 0)) trapMISALIGN, failing xs (fun x => x.reach.isNone) trapACCESS] with
  | some t => s.trap t
  | none =>
    s.waitvLoads i cond sc acq d poisoned xs (fun _ => s.now) (fun l => (src y (y.lane l) b).val) fun l => (src y (y.lane l) c).val

/-- The first issue: inactive lanes pass on, active lanes load once and leave or stay. Lanes of the execution set that wait in it
already wait on (R59, R75). -/
def execWaitv (cond : WaitCond) (sc : Scope) (acq : Bool) (d : Nat) (a b c : Reg) (p : Pred) (s : State) : Out :=
  let fresh := s.cur.lanes &&& maskOf fun l => (s.curGroup.lane l).waitv.isNone
  let act := activeMask s.curGroup fresh p
  let s1 := s.mapCurGroup fun y => { y with lanes := mapLanes (fresh &&& ~~~act) (fun _ x => x.advance s.cur.len) y.lanes }
  if act = 0 then .next s1
  else .next (s1.waitvOp (.waitv cond sc acq d a b c p) cond sc acq d a b c p act)

/-- The waiting lane of a party of a team that runs; no lane of a group that is stopped by a fault goes on (R81). -/
def State.waitingLane (s : State) (p : PartyRef) (l : Nat) : Option WaitvState :=
  let y := (s.team p.team).group p.party.groupNo
  if (s.team p.team).residency = .resident ∧ y.replayable = false then (y.lane l).waitv else none

/-- The repeated load of a waiting lane: the lane leaves if its value satisfies the condition, else it waits on (R75).
It reads no register again (R273). -/
def execWaitvSatisfied (p : PartyRef) (lane : Nat) (s : State) : Out :=
  match s.waitingLane p lane with
  | some w =>
      match w.instr with
      | .waitv cond sc acq d _ _ _ _ =>
          let s1 : State := { s with cur := { w.issue with lanes := BitVec.ofNat 32 (2 ^ lane) } }
          let xs : List LaneAcc := [⟨lane, w.addr, s.decodeGeneric p.team w.addr⟩]
          if (s1.translateAll .read 4 true xs).held then .next s
          else .next (s1.waitvLoads w.instr cond sc acq d [] xs (fun _ => w.start) (fun _ => w.b) fun _ => w.timeout)
      | _ => .next s
  | none => .next s

/-- A lane whose timeout has passed leaves with the last value read (R75). -/
def execWaitvTimeout (p : PartyRef) (lane : Nat) (s : State) : Out :=
  match s.waitingLane p lane with
  | some w =>
      match w.instr with
      | .waitv _ _ _ d _ _ _ _ =>
          if w.timeout ≠ 0 ∧ w.timeout.toNat ≤ s.clkOf p.team - w.start then
            .next (({ s with cur := w.issue }).waitvLeave lane d (clear w.last) 0)
          else .next s
      | _ => .next s
  | none => .next s

end Sys2Proof.Machine
end

