-- ==== Sys2Proof/Machine/Queue.lean ====
section
/-!
DEFINITION. Stage queues (R131 to R134): `qpush`, `qpop`, and their resumption; stage levels (R135).
-/

namespace Sys2Proof.Machine

/-- An undeclared queue. -/
def noQueue : StageQueue := ⟨0, 0, 0, []⟩

def Team.queue (x : Team) (q : Nat) : StageQueue := Map.get noQueue x.queues q

/-- Every group of a role has ended. -/
def Team.roleEnded (x : Team) (r : Nat) : Bool := x.groupList.all fun g => decide ((x.group g).role ≠ r) || (x.group g).ended

/-- Poisoned operands of lanes, in lane order: the lanes and their tags. -/
def poisonOf (lanes : List Nat) (f : Nat → List (Option Tag)) : BitVec 32 × List Tag :=
  (maskOf fun l => lanes.contains l && (f l).any Option.isSome, lanes.flatMap fun l => (f l).filterMap id)

/-- `qpush` with a non-empty active set (R132). -/
def State.qpushOp (s : State) (i : Instr) (q : BitVec 3) (d : Reg) (p : Pred) : State :=
  let y := s.curGroup
  let act := activeMask y s.cur.lanes p
  let x := s.curTeam.queue q.toNat
  let bad := poisonOf (lanesOf act) fun l => [(src y (y.lane l) d).tag, (predOf (y.lane l) p).tag]
  if x.depth = 0 ∨ x.producer ≠ y.role then s.trapAt trapQUEUE act 0
  else if !bad.2.isEmpty then s.poisonTrap i bad.1 bad.2
  else if x.depth ≤ x.entries.length then
    if s.curTeam.roleEnded x.consumer then s.trapAt trapQUEUE act 0 else s.hold i
  else
    let e : Map Word := (lanesOf act).foldl (fun m l => Map.set 0 m l (src y (y.lane l) d).val) []
    (s.mapCurTeam fun t => { t with queues := Map.put t.queues q.toNat { x with entries := x.entries ++ [e] } }).advance

def execQpush (q : BitVec 3) (d : Reg) (p : Pred) (s : State) : Out :=
  if activeMask s.curGroup s.cur.lanes p = 0 then .next s.advance else .next (s.qpushOp (.qpush q d p) q d p)

/-- What `qpop` writes in a lane: the entry's value, which is never poisoned (R132); a poisoned predicate poisons it, as `qpop` is no consumer
(R54). DEDUCED, log 59. -/
def popped (z : Lane) (p : Pred) (v : Word) : Tagged Word := match (predOf z p).tag with | some t => ⟨0, some t⟩ | none => clear v

/-- `qpop` with a non-empty active set. -/
def State.qpopOp (s : State) (i : Instr) (q : BitVec 3) (d : Nat) (p : Pred) : State :=
  let y := s.curGroup
  let act := activeMask y s.cur.lanes p
  let x := s.curTeam.queue q.toNat
  if x.depth = 0 ∨ x.consumer ≠ y.role then s.trapAt trapQUEUE act 0
  else
    match x.entries with
    | [] => if s.curTeam.roleEnded x.producer then s.trapAt trapQUEUE act 0 else s.hold i
    | e :: es =>
        (s.mapCurTeam fun t => { t with queues := Map.put t.queues q.toNat { x with entries := es } }).onLanes fun _ l z =>
          (whenActive p z (z.writeV d (popped z p (Map.get 0 e l)))).advance s.cur.len

def execQpop (q : BitVec 3) (d : Nat) (p : Pred) (s : State) : Out :=
  if activeMask s.curGroup s.cur.lanes p = 0 then .next s.advance else .next (s.qpopOp (.qpop q d p) q d p)

/-- A waiting instruction of a group can execute again: every flexible unit that it names is granted (R129). -/
def State.backedFor (s : State) (p : PartyRef) (i : Instr) : Bool := ((s.team p.team).unbacked p.party.groupNo i).isEmpty

/-- A waiting `qpush` executes again: it appends, waits on, or raises QUEUE (R133). -/
def execQpushResume (p : PartyRef) (s : State) : Out :=
  match s.waitOf p with
  | some w =>
      match w.instr with
      | .qpush q d pr => .next (if s.backedFor p w.instr then (s.resumeAs p w).qpushOp w.instr q d pr else s)
      | _ => .next s
  | none => .next s

/-- A waiting `qpop` executes again (R133). -/
def execQpopResume (p : PartyRef) (s : State) : Out :=
  match s.waitOf p with
  | some w =>
      match w.instr with
      | .qpop q d pr => .next (if s.backedFor p w.instr then (s.resumeAs p w).qpopOp w.instr q d pr else s)
      | _ => .next s
  | none => .next s

/-! ### Stage levels (R135) -/

/-- The declared queues of a team that satisfy a test. -/
def Team.queuesWhere (x : Team) (f : StageQueue → Bool) : List StageQueue :=
  (x.queues.map fun e => e.2).filter fun q => decide (q.depth ≠ 0) && f q

/-- The level of a role (Table 6.3); blocked wins over drain. A role of no queue has level 1. -/
def Team.levelOf (x : Team) (r : Nat) : Nat :=
  let prod := x.queuesWhere fun q => decide (q.producer = r)
  let cons := x.queuesWhere fun q => decide (q.consumer = r)
  let full (q : StageQueue) : Bool := decide (q.depth ≤ q.entries.length)
  if (!prod.isEmpty && prod.all full) || (!cons.isEmpty && cons.all fun q => q.entries.isEmpty) then 0
  else if (cons.any fun q => decide (3 * q.depth ≤ 4 * q.entries.length)) && !(prod.any full) then 2
  else 1

/-- Every 16 clk each role takes its level (R135). -/
def execStageLevelUpdate (team : Nat) (s : State) : Out :=
  let x := s.team team
  if 16 ≤ s.clkOf team - x.levelTime then
    .next (s.setTeam team
      { x with levels := (x.roles.map fun e => (e.1, x.levelOf e.1)), levelTime := s.clkOf team })
  else .next s

end Sys2Proof.Machine
end

