-- ==== Sys2Proof/Machine/Barrier.lean ====
section
/-!
DEFINITION. Named barriers (R243 to R248): `bar` and `ubar`; transaction barriers (R237 to R242): `txb` and `utxb`; the
completion of their waits.
-/

namespace Sys2Proof.Machine

/-! ### Named barriers -/

/-- A barrier that nothing has set holds the team's lane count (R243). -/
def Team.barReset (x : Team) : NamedBar := ⟨0, x.laneCount, x.laneCount, []⟩

def Team.bar (x : Team) (b : Nat) : NamedBar := Map.get x.barReset x.bars b

def Team.setBar (x : Team) (b : Nat) (v : NamedBar) : Team := { x with bars := Map.put x.bars b v }

/-- The token of party `p` at barrier `b`. -/
def Team.token (x : Team) (p b : Nat) : Token := Map.get Token.none x.tokens (16 * p + b)

def Team.setToken (x : Team) (p b : Nat) (v : Token) : Team := { x with tokens := Map.set Token.none x.tokens (16 * p + b) v }

/-- A token at the completion of a phase: pending ones are released, and so are waits begun with none (R246, R247). -/
def Token.complete (evs : List Nat) : Token → Token
  | .pending => .released evs
  | .waiting => .released evs
  | t => t

/-- The phase completes when pending is zero (R246). -/
def Team.settleBar (x : Team) (b : Nat) : Team :=
  let v := x.bar b
  if v.pending = 0 then
    { x.setBar b { v with phase := v.phase + 1, pending := v.expected, arrivals := [] } with
      tokens := x.tokens.map fun e => if e.1 % 16 = b then (e.1, e.2.complete v.arrivals) else e }
  else x

/-- The party with a number (R250). -/
def partyAt (p : Nat) : Party := if p = 16 then .matrix else if p = 17 then .copy else .group p

/-- An arrival of a party of a team with contribution `c` (R246): none where it raises BAROVF. `event` makes its event. -/
def State.arriveWith (s : State) (t p b c : Nat) (event : State → State) : Option State :=
  let v := (s.team t).bar b
  if v.pending < c then none
  else
    let s1 := event s
    some (s1.mapTeam t fun x =>
      ((x.setBar b { v with pending := v.pending - c, arrivals := v.arrivals ++ s1.lastEvent }).setToken p b .pending).settleBar b)

/-- An arrival at issue. -/
def State.arriveAt (s : State) (t p b c : Nat) : Option State :=
  s.arriveWith t p b c fun s => s.partyEvent t (partyAt p) .arrive .team []

/-- An arrival that a stream's engine makes for an instruction issued at `stamp`, after the events `extra` (R217, R236). -/
def State.arriveLater (s : State) (t p b stamp : Nat) (extra : List Nat) : Option State :=
  s.arriveWith t p b 1 fun s => s.partyEventAt t (partyAt p) .arrive .team extra stamp true

/-- A drop with contribution `c` (R246): the token is unchanged, and the release joins no phase (Table 18.1, R247). -/
def State.dropAt (s : State) (t p b c : Nat) : Option State :=
  let v := (s.team t).bar b
  if v.pending < c ∨ v.expected < c then none
  else
    some ((s.partyEvent t (partyAt p) .arrive .team []).mapTeam t fun x =>
      (x.setBar b { v with pending := v.pending - c, expected := v.expected - c }).settleBar b)

/-- What a wait finds (R247): done, with the arrivals that it acquires, or the token to leave while waiting. -/
def Team.tryWait (x : Team) (p b : Nat) : Except Token (List Nat) :=
  match x.token p b with
  | .released evs => .ok evs
  | .pending => if (x.bar b).expected = 0 then .ok [] else .error .pending
  | .waiting => if (x.bar b).expected = 0 then .ok [] else .error .waiting
  | .none => if (x.bar b).expected = 0 then .ok [] else .error .waiting

/-- The wait of the current party: completes with an acquire, or is held as `i`. -/
def State.barWaitOp (s : State) (i : Instr) (b : Nat) : State :=
  let p := s.cur.party.number
  match s.curTeam.tryWait p b with
  | .ok evs => ((s.mapCurTeam fun x => x.setToken p b .none).bareEvent .wait .team evs).advance
  | .error t => (s.mapCurTeam fun x => x.setToken p b t).hold i

/-- The active lanes of a `bar` issue, as a contribution. -/
def State.activeCount (s : State) (p : Pred) : Nat := (lanesOf (activeMask s.curGroup s.cur.lanes p)).length

/-- BAROVF at the current instruction. -/
def State.barOvf (s : State) (lanes : BitVec 32) : State := s.trapAt trapBAROVF lanes 0

/-- `bar` under a predicate: an empty active set has no effect (R34, R244). -/
def State.barOp (s : State) (p : Pred) (f : BitVec 32 → Nat → State) : Out :=
  let act := activeMask s.curGroup s.cur.lanes p
  if act = 0 then .next s.advance else .next (f act (s.activeCount p))

def execBarArrive (b : BitVec 4) (p : Pred) (s : State) : Out :=
  s.barOp p fun act c =>
    match s.arriveAt s.cur.team s.cur.party.number b.toNat c with
    | some s1 => s1.advance
    | none => s.barOvf act

def execBarWait (b : BitVec 4) (p : Pred) (s : State) : Out := s.barOp p fun _ _ => s.barWaitOp (.barWait b p) b.toNat

/-- A `sync` whose arrival is made waits as a `wait` does, so it arrives once (R247). -/
def execBarSync (b : BitVec 4) (p : Pred) (s : State) : Out :=
  s.barOp p fun act c =>
    match s.arriveAt s.cur.team s.cur.party.number b.toNat c with
    | some s1 => s1.barWaitOp (.barWait b p) b.toNat
    | none => s.barOvf act

def execBarDrop (b : BitVec 4) (p : Pred) (s : State) : Out :=
  s.barOp p fun act c =>
    match s.dropAt s.cur.team s.cur.party.number b.toNat c with
    | some s1 => s1.advance
    | none => s.barOvf act

/-- pending | (expected << 16) | (phase << 28) (R244). -/
def NamedBar.word (v : NamedBar) : Word := BitVec.ofNat 32 (v.pending + v.expected * 2 ^ 16 + v.phase.toNat * 2 ^ 28)

/-- `bar.count` consumes a poisoned predicate (R54). -/
def execBarCount (d : Nat) (b : BitVec 4) (p : Pred) (s : State) : Out :=
  let y := s.curGroup
  let bad := poisonOf (lanesOf s.cur.lanes) fun l => [(predOf (y.lane l) p).tag]
  if activeMask y s.cur.lanes p = 0 then .next s.advance
  else if !bad.2.isEmpty then .next (s.poisonTrap (.barCount d b p) bad.1 bad.2)
  else .next (s.laneOp fun _ x => whenActive p x (x.result d none (s.curTeam.bar b.toNat).word 0))

/-- A `marrive` or `carrive` of the stream at a barrier has not arrived: what the stream does at the barrier after it waits for it, as
instructions of one stream act on barriers in program order (R35). -/
def State.barBehind (s : State) (b : Nat) : Bool :=
  match s.cur.party with
  | .matrix => s.curTeam.engine.any fun o => decide (o.phase ≠ .done) && match o.instr with | .marrive c => decide (c.toNat = b) | _ => false
  | .copy => s.curTeam.copies.any fun c => !c.complete && match c.instr with | .carrive e => decide (e.toNat = b) | _ => false
  | .group _ => false

/-- A `ubar` operation, once the stream's earlier ones at its barrier have acted. -/
def State.ubarOp (s : State) (i : Instr) (b : BitVec 4) (f : State) : Out := if s.barBehind b.toNat then .next (s.hold i) else .next f

/-- R245: the phase stays; arrivals of the phase stay arrivals for ordering; tokens keep their values. -/
def execUbarInit (b : BitVec 4) (count : BitVec 12) (s : State) : Out :=
  s.ubarOp (.ubarInit b count) b
    (s.mapCurTeam fun x => x.setBar b.toNat { x.bar b.toNat with expected := count.toNat, pending := count.toNat }).advance

def execUbarArrive (b : BitVec 4) (s : State) : Out :=
  s.ubarOp (.ubarArrive b) b
    (match s.arriveAt s.cur.team s.cur.party.number b.toNat 1 with
      | some s1 => s1.advance
      | none => s.barOvf s.cur.lanes)

def execUbarWait (b : BitVec 4) (s : State) : Out := s.ubarOp (.ubarWait b) b (s.barWaitOp (.ubarWait b) b.toNat)

def execUbarSync (b : BitVec 4) (s : State) : Out :=
  s.ubarOp (.ubarSync b) b
    (match s.arriveAt s.cur.team s.cur.party.number b.toNat 1 with
      | some s1 => s1.barWaitOp (.ubarWait b) b.toNat
      | none => s.barOvf s.cur.lanes)

def execUbarDrop (b : BitVec 4) (s : State) : Out :=
  s.ubarOp (.ubarDrop b) b
    (match s.dropAt s.cur.team s.cur.party.number b.toNat 1 with
      | some s1 => s1.advance
      | none => s.barOvf s.cur.lanes)

/-- A waiting party looks at its barrier again; one of a team that does not run waits on. -/
def execBarWaitComplete (p : PartyRef) (s : State) : Out :=
  match s.waitOf p with
  | some w =>
      match w.instr with
      | .barWait b _ => s.whileRuns p.team (.next ((s.resumeAs p w).barWaitOp w.instr b.toNat))
      | .ubarWait b => s.whileRuns p.team (execUbarWait b (s.resumeAs p w))
      | _ => .next s
  | none => .next s

/-! ### Transaction barriers (Table 10.3) -/

/-- The fields of a transaction barrier. -/
structure Txb where
  phase : Nat
  pending : Nat
  expected : Nat
  /-- the 36-bit pattern of pending sectors -/
  sectors : Nat
  /-- OOR, WMODE, POISON, WRAP in bits 0 to 3 -/
  flags : Nat
  reserved : Nat
  deriving DecidableEq, Repr

def Txb.ofNat (x : Nat) : Txb := ⟨bitsOf x 3 0, bitsOf x 23 4, bitsOf x 43 24, bitsOf x 79 44, bitsOf x 83 80, bitsOf x 127 84⟩

def Txb.toNat (t : Txb) : Nat :=
  t.phase + t.pending * 2 ^ 4 + t.expected * 2 ^ 24 + t.sectors * 2 ^ 44 + t.flags * 2 ^ 80 + t.reserved * 2 ^ 84

def txbOOR : Nat := 1
def txbWMODE : Nat := 2
def txbPOISON : Nat := 4
def txbWRAP : Nat := 8

/-- After every update: the phase completes when nothing is pending (R238). -/
def Txb.settle (t : Txb) : Txb :=
  if t.pending = 0 ∧ t.sectors = 0 then { t with phase := (t.phase + 1) % 16, pending := t.expected } else t

/-- Adds to pending sectors; leaving the range sets WRAP (R238). -/
def Txb.addSectors (t : Txb) (n : Int) : Txb :=
  let r := signedOf 36 t.sectors + n
  { t with sectors := wrapInt 36 r, flags := if r < -(2 ^ 35 : Int) ∨ (2 ^ 35 : Int) ≤ r then t.flags ||| txbWRAP else t.flags }

/-- An update of R238. -/
inductive TxbUpdate where
  | init (c : Nat)
  | arrive (c : Nat)
  | expect (n : Int)
  | arrivex (n : Int) (c : Nat)
  | flag (f : Nat)
  | counted
  deriving DecidableEq, Repr

/-- The barrier after one indivisible update; none for BAROVF. -/
def Txb.apply (t : Txb) : TxbUpdate → Option Txb
  | .init c => some (Txb.settle ⟨0, c, c, 0, 0, 0⟩)
  | .arrive c => if t.pending < c then none else some (Txb.settle { t with pending := t.pending - c })
  | .expect n => some (t.addSectors n).settle
  | .arrivex n c => if t.pending < c then none else some (Txb.settle { t.addSectors n with pending := t.pending - c })
  | .flag f => some (Txb.settle { t with flags := t.flags ||| f })
  | .counted => some (t.addSectors (-1)).settle

/-- The barrier at an offset of a team's scratchpad. -/
def State.txb (s : State) (t off : Nat) : Txb :=
  Txb.ofNat (leValue ((List.range 16).map fun i => Map.get 0 (s.team t).pad (off + i)))

/-- Writes the barrier's bytes; later loads read its current value (R237). -/
def State.putTxb (s : State) (t off : Nat) (v : Txb) : State :=
  let bs := leBytes 16 v.toNat
  { s.mapTeam t (fun x =>
      { x with
        pad := (List.range 16).foldl (fun m i => Map.set 0 m (off + i) (bs.getD i 0)) x.pad
        flips := x.flips.filter fun e => !(decide (off ≤ e.1 / 8) && decide (e.1 / 8 < off + 16))
        dirty := if (x.mapAt off).isSome then (List.range 16).foldl (fun m i => Map.set false m (off + i) true) x.dirty else x.dirty }) with
    log := forgetBytes s.log ((List.range 16).map fun i => padKey t (off + i)) }

/-- Records the events that an update brings to the running phase, and closes the phase when it completed (R239). -/
def Team.txbEvents (x : Team) (off : Nat) (old new : Txb) (evs : List Nat) : Team :=
  let now := Map.get [] x.txbArrivals off ++ evs
  if new.phase ≠ old.phase then
    { x with txbArrivals := Map.set [] x.txbArrivals off [], txbHistory := Map.set [] x.txbHistory (off * 16 + old.phase) now }
  else { x with txbArrivals := Map.set [] x.txbArrivals off now }

/-- `init` starts the barrier afresh. -/
def Team.txbForget (x : Team) (off : Nat) : Team :=
  { x with
    txbArrivals := Map.set [] x.txbArrivals off []
    txbHistory := x.txbHistory.filter fun e => decide (e.1 / 16 ≠ off) }

/-- One update of a barrier, with the events that it brings. -/
def State.txbUpdate (s : State) (t off : Nat) (u : TxbUpdate) (evs : List Nat) : Option State :=
  let old := s.txb t off
  match old.apply u with
  | none => none
  | some new =>
    let s1 := s.putTxb t off new
    some (s1.mapTeam t fun x =>
      match u with
      | .init _ => x.txbForget off
      | _ => x.txbEvents off old new evs)

/-- Phases completed since phase `p`, given the phase now: p, p+1, … up to it. -/
def phasesSince (p now : Nat) : List Nat := (List.range ((now + 16 - p % 16) % 16)).map fun i => (p + i) % 16

/-- What a wait or test that observes the completion of phase `p` acquires (R239). -/
def State.txbAcquired (s : State) (t off p : Nat) : List Nat :=
  (phasesSince p (s.txb t off).phase).flatMap fun q => Map.get [] (s.team t).txbHistory (off * 16 + q)

/-- A lane's barrier: lane, address, team and offset. -/
structure TxbLane where
  lane : Nat
  addr : Nat
  team : Nat
  off : Nat
  deriving DecidableEq, Repr

def txbReach (s : State) (a : Nat) : Option Reached :=
  match s.decodeGeneric s.cur.team a with
  | some (.pad t o) => some (.pad t o)
  | _ => none

/-- Distinct barriers among the lanes, in order of their first lane. -/
def txbGroups : List TxbLane → List (List TxbLane)
  | [] => []
  | x :: xs =>
      let same (z : TxbLane) : Bool := decide (z.team = x.team) && decide (z.off = x.off)
      match txbGroups xs with
      | gs =>
        match gs.find? fun g => g.any same with
        | some _ => gs.map fun g => if g.any same then x :: g else g
        | none => [x] :: gs

/-- Applies one update per distinct barrier; none where any raises BAROVF. -/
def State.txbAll (s : State) (u : List TxbLane → TxbUpdate) (evs : List Nat) : List (List TxbLane) → Option State
  | [] => some s
  | g :: gs =>
      match g with
      | [] => s.txbAll u evs gs
      | z :: _ =>
        match s.txbUpdate z.team z.off (u g) evs with
        | none => none
        | some s1 => s1.txbAll u evs gs

/-- The lanes of the barriers that raise BAROVF. -/
def State.txbOver (s : State) (u : List TxbLane → TxbUpdate) (gs : List (List TxbLane)) : BitVec 32 × Nat :=
  let bad := gs.filter fun g => match g with | [] => false | z :: _ => ((s.txb z.team z.off).apply (u g)).isNone
  (maskOf fun l => bad.any fun g => g.any fun z => z.lane = l, ((bad.headD []).map TxbLane.addr).headD 0)

/-- The barriers of accesses whose checks have passed. -/
def txbLanes (xs : List LaneAcc) : List TxbLane :=
  xs.filterMap fun x => match x.reach with | some (.pad t o) => some ⟨x.lane, x.addr, t, o⟩ | _ => none

/-- The common course of a barrier operation: checks, the fill of mapped lines, poisoned sectors, then `k`. -/
def State.txbWith (s : State) (i : Instr) (xs : List LaneAcc) (bounds : LaneAcc → Bool) (k : State → List TxbLane → State) : State :=
  match firstFailing (windowChecks xs 16) with
  | some t => s.trap t
  | none =>
    if anySwitching s xs then s.hold i
    else
    match firstFailing [computeCheck s xs, failing xs bounds trapBOUNDS] with
    | some t => s.trap t
    | none =>
      let tr := s.translateAll .atomic 16 false xs
      match tr.fails with
      | f :: fs =>
          s.storeFault i trapACCESS (maskOf fun l => (f :: fs).any fun q => q.1 = l) f.2.1 ((f :: fs).map fun q => (q.2.2.1, q.2.2.2.2)) 4
      | [] =>
        if tr.held then s.holdAccess i .atomic 16 xs
        else
          match s.uncorrCheck tr.ok 16 with
          | some t => s.trap t
          | none => k (s.prepareAll tr.ok 16 false) (txbLanes xs)

/-- An operation that changes barriers. An arrival is a release at cluster scope (R239, R158); one that raises BAROVF changes
nothing. -/
def State.txbChange (s : State) (i : Instr) (arrives : Bool) (u : List TxbLane → TxbUpdate) (zs : List TxbLane) : State :=
  let gs := txbGroups zs
  if (s.txbAll u [] gs).isNone then s.trapAt trapBAROVF (s.txbOver u gs).1 (s.txbOver u gs).2
  else
    s.withRelease i arrives .cluster fun s =>
      let s1 := if arrives then (s.releaseEffects .cluster).bareEvent .arrive .cluster [] else s
      ((s1.txbAll u (if arrives then s1.lastEvent else []) gs).getD s1).advance

/-- A wait or a true test acquires at cluster scope (R239, R279). -/
def State.txbAcquire (s : State) (evs : List Nat) : State := (s.bareEvent .wait .cluster evs).dropL1 s.cur.team true .cluster

/-- A wait on barriers, each at its own phase: completes as an acquire, or holds (R239, R240). -/
def State.txbWaitFor (s : State) (i : Instr) (phase : Nat → Nat) (zs : List TxbLane) : State :=
  if zs.all fun z => decide ((s.txb z.team z.off).phase ≠ phase z.lane % 16) then
    (s.txbAcquire (zs.flatMap fun z => s.txbAcquired z.team z.off (phase z.lane))).advance
  else s.hold i

/-- `txb` in a group: poison first, then the lanes of the active set (R240). -/
def State.txbLaneOp (s : State) (i : Instr) (a : Reg) (b : Option Reg) (p : Pred) (bounds : (Nat → Word) → LaneAcc → Bool)
    (k : (Nat → Word) → State → List TxbLane → State) : Out :=
  let y := s.curGroup
  let act := activeMask y s.cur.lanes p
  let bv (l : Nat) : Tagged Word := match b with | some r => src y (y.lane l) r | none => clear 0
  let bad := poisonOf (lanesOf act) fun l => ((pairTags y (y.lane l) a).map some) ++ [(bv l).tag, (predOf (y.lane l) p).tag]
  if act = 0 then .next s.advance
  else if !bad.2.isEmpty then .next (s.poisonTrap i bad.1 bad.2)
  else
    let xs := laneAccs act (fun l => (srcPair y (y.lane l) a).val.toNat) (txbReach s)
    .next (s.txbWith i xs (bounds fun l => (bv l).val) (k fun l => (bv l).val))

/-- The highest-numbered lane at a barrier. -/
def topLane (zs : List TxbLane) : Nat := zs.foldl (fun m z => max m z.lane) 0

/-- The signed sum of the lanes' sectors. -/
def sumSectors (bv : Nat → Word) (zs : List TxbLane) : Int := zs.foldl (fun acc z => acc + (bv z.lane).toInt) 0

def badCount (c : Nat) : Bool := decide (c = 0) || decide (2 ^ 20 ≤ c)

def execTxbInit (a b : Reg) (p : Pred) (s : State) : Out :=
  s.txbLaneOp (.txbInit a b p) a (some b) p (fun bv x => badCount (bv x.lane).toNat)
    fun bv s zs => s.txbChange (.txbInit a b p) false (fun g => .init (bv (topLane g)).toNat) zs

def execTxbArrive (a : Reg) (p : Pred) (s : State) : Out :=
  s.txbLaneOp (.txbArrive a p) a none p (fun _ _ => false) fun _ s zs => s.txbChange (.txbArrive a p) true (fun g => .arrive g.length) zs

def execTxbExpect (a b : Reg) (p : Pred) (s : State) : Out :=
  s.txbLaneOp (.txbExpect a b p) a (some b) p (fun _ _ => false) fun bv s zs => s.txbChange (.txbExpect a b p) false (fun g => .expect (sumSectors bv g)) zs

def execTxbArrivex (a b : Reg) (p : Pred) (s : State) : Out :=
  s.txbLaneOp (.txbArrivex a b p) a (some b) p (fun _ _ => false)
    fun bv s zs => s.txbChange (.txbArrivex a b p) true (fun g => .arrivex (sumSectors bv g) g.length) zs

def State.txbWaitOp (s : State) (a b : Reg) (p : Pred) : Out :=
  s.txbLaneOp (.txbWait a b p) a (some b) p (fun _ _ => false)
    fun bv s zs => s.txbWaitFor (.txbWait a b p) (fun l => (bv l).toNat) zs

def execTxbWait (a b : Reg) (p : Pred) (s : State) : Out := s.txbWaitOp a b p

/-- A test that is true for some lane is an acquire of what that lane observes. -/
def execTxbTest (d : BitVec 3) (a b : Reg) (p : Pred) (s : State) : Out :=
  s.txbLaneOp (.txbTest d a b p) a (some b) p (fun _ _ => false) fun bv s zs =>
    let hit (z : TxbLane) : Bool := decide ((s.txb z.team z.off).phase ≠ (bv z.lane).toNat % 16)
    let yes := zs.filter hit
    let s1 := if yes.isEmpty then s
      else s.txbAcquire (yes.flatMap fun z => s.txbAcquired z.team z.off (bv z.lane).toNat)
    s1.onLanes fun _ l x =>
      (match zs.find? fun (z : TxbLane) => decide (z.lane = l) with
        | some z => x.writeK d (clear (hit z))
        | none => x).advance s.cur.len

/-- `utxb`: one barrier for the party, with the checks of R240 (R241). -/
def State.utxbOp (s : State) (i : Instr) (a : BitVec 5) (off : BitVec 22) (b : Option (BitVec 5)) (bounds : DWord → Bool)
    (k : DWord → State → List TxbLane → State) : Out :=
  let ad := s.uAddr a off
  let bv : Tagged DWord := match b with | some r => s.readS r | none => clear 0
  match [ad.tag, bv.tag].filterMap id with
  | t :: ts => .next (s.poisonTrap i s.cur.lanes (t :: ts))
  | [] => .next (s.txbWith i [⟨0, ad.val.toNat, txbReach s ad.val.toNat⟩] (fun _ => bounds bv.val) (k bv.val))

def execUtxbInit (a b : BitVec 5) (off : BitVec 22) (s : State) : Out :=
  s.utxbOp (.utxbInit a b off) a off (some b) (fun c => badCount c.toNat)
    fun c s zs => s.txbChange (.utxbInit a b off) false (fun _ => .init c.toNat) zs

def execUtxbArrive (a : BitVec 5) (off : BitVec 22) (s : State) : Out :=
  s.utxbOp (.utxbArrive a off) a off none (fun _ => false) fun _ s zs => s.txbChange (.utxbArrive a off) true (fun _ => .arrive 1) zs

def execUtxbExpect (a b : BitVec 5) (off : BitVec 22) (s : State) : Out :=
  s.utxbOp (.utxbExpect a b off) a off (some b) (fun _ => false) fun c s zs => s.txbChange (.utxbExpect a b off) false (fun _ => .expect c.toInt) zs

def State.utxbWaitOp (s : State) (a b : BitVec 5) (off : BitVec 22) : Out :=
  s.utxbOp (.utxbWait a b off) a off (some b) (fun _ => false)
    fun c s zs => s.txbWaitFor (.utxbWait a b off) (fun _ => c.toNat) zs

def execUtxbWait (a b : BitVec 5) (off : BitVec 22) (s : State) : Out := s.utxbWaitOp a b off

/-- A waiting `txb.wait` or `utxb.wait` looks at its barriers again. -/
def execTxbWaitComplete (p : PartyRef) (s : State) : Out :=
  match s.waitOf p with
  | some w =>
      match w.instr with
      | .txbWait a b pr => s.whileRuns p.team ((s.resumeAs p w).txbWaitOp a b pr)
      | .utxbWait a b off => s.whileRuns p.team ((s.resumeAs p w).utxbWaitOp a b off)
      | _ => .next s
  | none => .next s

end Sys2Proof.Machine
end

