-- ==== Sys2Proof/Machine/Uniform.lean ====
section
/-!
DEFINITION. The uniform scalar set (R141), `urd` and `usreg` (R142, R143), `ubra`, `ucall` and `uret` (R144).
-/

namespace Sys2Proof.Machine

/-! ### Table 6.4 -/

/-- A shift by a 64-bit amount read unsigned; 64 or more leaves 0. -/
def ushlFn (a b : DWord) : DWord := if 64 ≤ b.toNat then 0 else a <<< b.toNat
def ushrFn (a b : DWord) : DWord := if 64 ≤ b.toNat then 0 else a >>> b.toNat
def usraFn (a b : DWord) : DWord := if 64 ≤ b.toNat then (if a.msb then BitVec.allOnes 64 else 0) else a.sshiftRight b.toNat

def execUadd (d a b : BitVec 5) (imm : BitVec 9) (s : State) : Out := .next (s.scalarOp (· + ·) d a b imm)
def execUaddK (d a : BitVec 5) (lit : Word) (s : State) : Out := .next (s.scalarOpK (· + ·) d a lit)
def execUsub (d a b : BitVec 5) (imm : BitVec 9) (s : State) : Out := .next (s.scalarOp (· - ·) d a b imm)
def execUsubK (d a : BitVec 5) (lit : Word) (s : State) : Out := .next (s.scalarOpK (· - ·) d a lit)
def execUmul (d a b : BitVec 5) (imm : BitVec 9) (s : State) : Out := .next (s.scalarOp (· * ·) d a b imm)
def execUmulK (d a : BitVec 5) (lit : Word) (s : State) : Out := .next (s.scalarOpK (· * ·) d a lit)
def execUand (d a b : BitVec 5) (imm : BitVec 9) (s : State) : Out := .next (s.scalarOp (· &&& ·) d a b imm)
def execUandK (d a : BitVec 5) (lit : Word) (s : State) : Out := .next (s.scalarOpK (· &&& ·) d a lit)
def execUor (d a b : BitVec 5) (imm : BitVec 9) (s : State) : Out := .next (s.scalarOp (· ||| ·) d a b imm)
def execUorK (d a : BitVec 5) (lit : Word) (s : State) : Out := .next (s.scalarOpK (· ||| ·) d a lit)
def execUxor (d a b : BitVec 5) (imm : BitVec 9) (s : State) : Out := .next (s.scalarOp (· ^^^ ·) d a b imm)
def execUxorK (d a : BitVec 5) (lit : Word) (s : State) : Out := .next (s.scalarOpK (· ^^^ ·) d a lit)
def execUshl (d a b : BitVec 5) (imm : BitVec 9) (s : State) : Out := .next (s.scalarOp ushlFn d a b imm)
def execUshlK (d a : BitVec 5) (lit : Word) (s : State) : Out := .next (s.scalarOpK ushlFn d a lit)
def execUshr (d a b : BitVec 5) (imm : BitVec 9) (s : State) : Out := .next (s.scalarOp ushrFn d a b imm)
def execUshrK (d a : BitVec 5) (lit : Word) (s : State) : Out := .next (s.scalarOpK ushrFn d a lit)
def execUsra (d a b : BitVec 5) (imm : BitVec 9) (s : State) : Out := .next (s.scalarOp usraFn d a b imm)
def execUsraK (d a : BitVec 5) (lit : Word) (s : State) : Out := .next (s.scalarOpK usraFn d a lit)

/-- `umov`: b alone. -/
def execUmov (d b : BitVec 5) (imm : BitVec 9) (s : State) : Out :=
  .next (s.scalarResult d (firstTag [(s.scalarB b imm).tag]) (s.scalarB b imm).val).advance

def execUmovK (d : BitVec 5) (lit : Word) (s : State) : Out := .next (s.writeS d (clear (lit.signExtend 64))).advance

/-! ### urd and usreg -/

/-- `urd` consumes the poison of its selector and of the live lane that it selects; a sequencer reads 0 (R44, R142). -/
def execUrd (d a : BitVec 5) (v : Nat) (imm : BitVec 9) (s : State) : Out :=
  let i := Instr.urd d a v imm
  match (s.readS a).tag with
  | some t => .next (s.poisonTrap i s.cur.lanes [t])
  | none =>
    if !s.cur.party.isGroup then .next (s.writeS d (clear 0)).advance
    else
      let j := ((s.readS a).val + imm.signExtend 64).toNat % 32
      let x := s.curGroup.lane j
      if x.cond ≠ .live then .next (s.writeS d (clear 0)).advance
      else
        match (x.readV v).tag with
        | some t => .next (s.poisonTrap i s.cur.lanes [t])
        | none => .next (s.writeS d (clear ((x.readV v).val.setWidth 64))).advance

/-- The OR of the 32 lanes' %status (R53). -/
def Group.statusOr (y : Group) : BitVec 8 := (List.range 32).foldl (fun m l => m ||| (y.lane l).status) 0

/-- %status is OR-ed and kept in a group, read and cleared in a sequencer (R53, R143). -/
def execUsreg (d : BitVec 5) (n : SReg) (s : State) : Out :=
  if n = SReg.status then
    if s.cur.party.isGroup then .next (s.writeS d (clear (s.curGroup.statusOr.setWidth 64))).advance
    else .next ((s.writeS d (clear (s.curStream.status.setWidth 64))).mapCurStream fun y => { y with status := 0 }).advance
  else .next (s.writeS d (clear (BitVec.ofNat 64 (s.special n)))).advance

/-! ### ubra, ucall and uret -/

def UCond.holds (c : UCond) (x : DWord) : Bool :=
  match c with
  | .al => true
  | .z => decide (x = 0)
  | .nz => decide (x ≠ 0)

/-- A taken transfer to `t`, with the return address in `d` for `ucall` (R144). -/
def State.transfer (s : State) (d : Option (BitVec 5)) (t : DWord) : Out :=
  if t.toNat % 4 ≠ 0 then s.uTrap trapMISALIGN t.toNat
  else if 2 ^ 56 ≤ t.toNat then s.uTrap trapACCESS t.toNat
  else
    let s1 := match d with
      | some d => s.writeS d (clear (s.cur.pc.setWidth 64 + 8))
      | none => s
    .next (s1.jump (t.setWidth 56))

/-- `ubra` and `ucall`: the tested register is consumed unless the condition is `al` (R144). -/
def State.uBranch (s : State) (i : Instr) (c : UCond) (d : Option (BitVec 5)) (a : BitVec 5) (disp : BitVec 22) : Out :=
  match if c = .al then none else (s.readS a).tag with
  | some t => .next (s.poisonTrap i s.cur.lanes [t])
  | none => if UCond.holds c (s.readS a).val then s.transfer d (s.relative disp) else .next s.advance

def execUbra (c : UCond) (a : BitVec 5) (disp : BitVec 22) (s : State) : Out := s.uBranch (.ubra c a disp) c none a disp

def execUcall (c : UCond) (d a : BitVec 5) (disp : BitVec 22) (s : State) : Out := s.uBranch (.ucall c d a disp) c (some d) a disp

def execUret (a : BitVec 5) (s : State) : Out :=
  match (s.readS a).tag with
  | some t => .next (s.poisonTrap (.uret a) s.cur.lanes [t])
  | none => s.transfer none (s.readS a).val

end Sys2Proof.Machine
end

