-- ==== Sys2Proof/Machine/CopyPlan.lean ====
section
/-!
DEFINITION. Tile descriptors (Table 9.4, R208), and the plan of a copy: the pieces that it reads and writes, numbered as
its counted sectors are (R223, R228 to R233, R376, R378).
-/

namespace Sys2Proof.Machine

/-! ### Tile descriptors -/

/-- Element widths by format code (R208). -/
def tileElemBits (fmt width : Nat) : Nat :=
  match fmt with
  | 0 => width + 1
  | 1 => 1
  | 2 | 3 | 7 => 8
  | 4 | 5 => 6
  | _ => 4

/-- The fields of a descriptor. -/
structure Tile where
  unit : Bool
  width : Nat
  fmt : Nat
  cols : Nat
  segs : Nat
  pitch : Nat
  scale : Nat
  base : Nat
  deriving DecidableEq, Repr

def Tile.ofNat (x : Nat) : Tile :=
  ⟨x.testBit 200, bitsOf x 198 196, bitsOf x 195 192, bitsOf x 185 176 + 1, bitsOf x 164 160 + 1, bitsOf x 159 128,
    bitsOf x 119 64, bitsOf x 55 0⟩

/-- A reserved field of a descriptor is not zero. -/
def tileReserved (x : Nat) : Bool :=
  decide (bitsOf x 255 201 ≠ 0) || x.testBit 199 || decide (bitsOf x 191 186 ≠ 0) || decide (bitsOf x 175 165 ≠ 0) ||
    decide (bitsOf x 127 120 ≠ 0) || decide (bitsOf x 63 56 ≠ 0)

def Tile.elemBits (t : Tile) : Nat := tileElemBits t.fmt t.width

/-- Bytes of a row. -/
def Tile.rowBytes (t : Tile) : Nat := (t.cols * t.elemBits + 7) / 8

def Tile.rows (t : Tile) : Nat := 32 * t.segs

/-- The element format of a tile. -/
def Tile.elem (t : Tile) : Elem :=
  match t.fmt with
  | 0 => .mxint (t.width + 1)
  | 1 => .bin1
  | 2 => .e4m3
  | 3 => .e5m2
  | 4 => .e3m2
  | 5 => .e2m3
  | 6 => .e2m1
  | _ => .t8

/-- Ranges that a `wload` reads. -/
def Tile.ranges (t : Tile) : List (Nat × Nat) :=
  ((List.range t.rows).map fun k => (t.base + k * t.pitch, t.rowBytes)) ++ if t.unit then [] else [(t.scale, t.segs * t.cols)]

/-- The weaves that a scratchpad range touches. -/
def weavesOf (off n : Nat) : List Nat :=
  (List.range 4).filter fun w => decide (n ≠ 0) && decide (off < (w + 1) * 0x20000) && decide (w * 0x20000 < off + n)

/-- A generic range of team `o` reaches weave `w` of team `t`. -/
def State.rangeOn (s : State) (o t w : Nat) (r : Nat × Nat) : Bool :=
  match s.decodeGeneric o r.1 with
  | some (.pad m off) => decide (m = t) && (weavesOf off r.2).contains w
  | _ => false

/-! ### Sectors (R223) -/

/-- Aligned 32-byte sectors that `n` bytes from `d` overlap. -/
def sectors (d n : Nat) : Nat := if n = 0 then 0 else (d + n - 1) / 32 - d / 32 + 1

/-- The bytes of piece `k` of a run of `n` bytes at `d`: its offset in the run, and its length. -/
def runPiece (d n k : Nat) : Nat × Nat :=
  let lo := max d ((d / 32 + k) * 32)
  let hi := min (d + n) ((d / 32 + k + 1) * 32)
  (lo - d, hi - lo)

/-- Where the bytes of a counted sector come from. -/
inductive Source where
  | addr (a : Nat)
  | zero
  | poison
  deriving DecidableEq, Repr

/-- A counted sector: what it writes (none: nothing is written), and where from. -/
structure Piece where
  dest : Option Nat
  len : Nat
  src : Source
  deriving DecidableEq, Repr

/-! ### The kinds of copy -/

/-- The tile of a copy's handle. -/
def Copy.tile (c : Copy) : Tile := Tile.ofNat c.handle.toNat

/-- Destination pitch of `bcopyr`: s[D], or packed rows for D of 0 (R229). -/
def Copy.pitch (c : Copy) : Nat :=
  match c.instr with
  | .bcopyr _ d _ _ => if d = 0 then c.tile.rowBytes else c.d
  | _ => 0

/-- Indices, row bytes and bound of a `gather` or `scatter` (R232). -/
def Copy.entries (c : Copy) : Nat := c.d1 % 2 ^ 16
def Copy.rowBytes (c : Copy) : Nat := c.d1 / 2 ^ 16 % 2 ^ 16 * 32
def Copy.bound (c : Copy) : Nat := c.d1 / 2 ^ 32 % 2 ^ 32

/-- What stands for an index read from a poisoned sector (R234). -/
def badIndex : Nat := 2 ^ 32

/-- The row of `bcopyr` and the piece of it that counted sector `k` is. -/
def rowPiece (a pitch rb : Nat) : Nat → Nat → Nat → Option (Nat × Nat)
  | 0, _, _ => none
  | n + 1, row, k =>
      let m := sectors (a + row * pitch) rb
      if k < m then some (row, k) else rowPiece a pitch rb n (row + 1) (k - m)

/-- Counted sectors of `bcopyr` (R229). -/
def tileSectors (a pitch rb rows : Nat) : Nat := ((List.range rows).map fun k => sectors (a + k * pitch) rb).sum

/-- Frames of a `send` of `n` bytes: up to 512 bytes each, in address order (R376). -/
def frames (n : Nat) : Nat := (n + 511) / 512

/-- Counted sectors of frame `f` of `n` bytes from `b`: those whose first byte lies in it. -/
def frameSectors (b n f : Nat) : Nat := sectors b (min n (512 * (f + 1))) - sectors b (min n (512 * f))

/-- Length of a `bcopymc`. -/
def mcLength (len : BitVec 9) : Nat := (len.toNat + 1) * 128

/-- Piece `k` of a copy whose destination addresses are generic. A `bcopymc` has its own (its destination is an offset). -/
def Copy.piece (c : Copy) (k : Nat) : Option Piece :=
  match c.instr with
  | .bcopy _ _ _ _ =>
      let p := runPiece c.a c.d k
      if k < c.total then some ⟨some (c.a + p.1), p.2, .addr (c.b + p.1)⟩ else none
  | .bcopyr _ _ _ _ =>
      match rowPiece c.a c.pitch c.tile.rowBytes c.tile.rows 0 k with
      | none => none
      | some (row, j) =>
          let p := runPiece (c.a + row * c.pitch) c.tile.rowBytes j
          some ⟨some (c.a + row * c.pitch + p.1), p.2, .addr (c.tile.base + row * c.tile.pitch + p.1)⟩
  | .bcopymc _ _ _ _ len =>
      let n := sectors c.a (mcLength len)
      if k < c.total then some ⟨some (c.a + k % n * 32), 32, .addr (c.b + k % n * 32)⟩ else none
  | .gather _ _ _ _ _ =>
      let per := c.rowBytes / 32
      if k < c.total then
        let i := k / per
        some ⟨some (c.a + k * 32), 32,
          if Map.get 0 c.idx i = badIndex then .poison
          else if Map.get false c.oor i then .zero
          else .addr (c.b + Map.get 0 c.idx i * c.rowBytes + k % per * 32)⟩
      else none
  | .scatter _ _ _ _ _ =>
      let per := c.rowBytes / 32
      if k < c.total then
        let i := k / per
        some <|
          if Map.get 0 c.idx i = badIndex then ⟨none, 32, .poison⟩
          else if Map.get false c.oor i then ⟨none, 32, .zero⟩
          else ⟨some (c.a + Map.get 0 c.idx i * c.rowBytes + k % per * 32), 32, .addr (c.b + k * 32)⟩
      else none
  | _ => none

/-- Ranges of generic addresses that a copy may write, as address and length. -/
def Copy.writes (c : Copy) : List (Nat × Nat) :=
  match c.instr with
  | .bcopy _ _ _ _ => [(c.a, c.d)]
  | .bcopyr _ _ _ _ => [(c.a, (c.tile.rows - 1) * c.pitch + c.tile.rowBytes)]
  | .gather _ _ _ _ _ => [(c.a, c.entries * c.rowBytes), (c.d2, if c.d2 = 0 then 0 else (c.entries + 31) / 32 * 4)]
  | .scatter _ _ _ _ _ => [(c.a, c.bound * c.rowBytes), (c.d2, if c.d2 = 0 then 0 else (c.entries + 31) / 32 * 4)]
  | .coll _ _ _ _ _ => [(c.b, c.d2), (c.a + 0x38, 4)]
  | _ => []

/-- A copy of team `o` may write weave `w` of team `t` (R182). -/
def State.copyTargets (s : State) (o : Nat) (c : Copy) (t w : Nat) : Bool :=
  match c.instr with
  | .bcopymc _ _ _ _ len => (maskSlots c.mask).any (fun sl => decide (s.member o sl = some t)) && (weavesOf c.a (mcLength len)).contains w
  | _ => c.writes.any (s.rangeOn o t w)

/-- A copy, as against a `carrive` that waits among them. -/
def Copy.isCopy (c : Copy) : Bool :=
  match c.instr with
  | .carrive _ => false
  | _ => true

/-- Copies of any team in flight, started at or before a clk, that may write a weave of a team. -/
def State.copiesInto (s : State) (t w since : Nat) : Bool :=
  s.teams.any fun e => decide (e.2.cluster = (s.team t).cluster) && e.2.copies.any fun c => !c.complete && decide (c.started ≤ since) && s.copyTargets e.1 c t w

end Sys2Proof.Machine
end

