-- ==== Sys2Proof/Machine/Weave.lean ====
section
/-!
DEFINITION. Weave modes: `wmode` (R181 to R184), its switch point, and the end of a switch (R179).
-/

namespace Sys2Proof.Machine

def Team.setWeave (x : Team) (w : Nat) (v : Weave) : Team := { x with weaves := Map.put x.weaves w v }

/-! ### Engagement (R182) -/

/-- Weaves that a matrix instruction names. -/
def instrWeaves : Instr → List Nat
  | .mma x _ => (List.range 4).filter fun i => x.mask.getLsbD i
  | .wload _ w _ _ => [w.toNat]
  | _ => []

def EngineOp.names (o : EngineOp) (w : Nat) : Bool := (instrWeaves o.instr).contains w

/-- An issued, uncompleted matrix instruction names the weave. -/
def Team.engineNames (x : Team) (w : Nat) : Bool := x.engine.any fun o => decide (o.phase ≠ .done) && o.names w

/-- A `wload` that names the weave has not completed. -/
def Team.wloadOn (x : Team) (w : Nat) : Bool :=
  x.engine.any fun o => decide (o.phase ≠ .done) && (match o.instr with | .wload _ v _ _ => decide (v.toNat = w) | _ => false)

/-- The matrix stream waits at an `mma` whose mode check has passed: it names these weaves. -/
def Team.pendingWeaves (x : Team) : List Nat :=
  match x.matrix.wait with
  | some v =>
      match v.instr with
      | .mma m a =>
          let ws := instrWeaves (.mma m a)
          if ws.all fun w => !x.wloadOn w && decide ((x.weave w).mode = .compute) then ws else []
      | _ => []
  | none => []

/-- A matrix instruction is engaged with the weave. -/
def Team.engaged (x : Team) (w : Nat) : Bool := x.engineNames w || x.pendingWeaves.contains w

/-! ### wmode -/

/-- The weave, whether the target is compute, and what `comp` sets. -/
def wmodeOf : Instr → Option (Nat × Option (Nat × Bool × Bool))
  | .wmodeComp w n bin1 keep => some (w.toNat, some (n.toNat + 1, bin1, keep))
  | .wmodeStore w => some (w.toNat, none)
  | _ => none

/-- What `wmode.comp` leaves in the weave besides its mode: width, kind, and the scale store unless kept. -/
def Weave.setComp (v : Weave) (c : Option (Nat × Bool × Bool)) : Weave :=
  match c with
  | none => v
  | some (n, bin1, keep) => { v with n := if bin1 then 1 else n, bin1 := bin1, scales := if keep then v.scales else [] }

/-- The switching state that leads to a target; none when the weave is in it. -/
def Weave.switchTo (v : Weave) (comp : Bool) (now : Nat) : Option WeaveMode :=
  if comp then (if v.mode = .compute then none else some (.toCompute (now + 24)))
  else if v.mode = .storage then none else some (.toStorage (now + 8))

/-- An uncompleted instruction of the matrix stream has still to read the weave: the factors of an `accsc`, a tile of a `wload`
(R184, R321). -/
def State.engineReads (s : State) (t w : Nat) (o : EngineOp) : Bool :=
  decide (o.phase ≠ .done) &&
    match o.instr with
    | .accsc _ _ _ _ _ => (weavesOf o.b 64).contains w
    | .wload _ _ _ _ => (Tile.ofNat o.handle.toNat).ranges.any (s.rangeOn t t w)
    | _ => false

/-- A log event touches a byte of a weave. -/
def MEvent.onWeave (e : MEvent) (t w : Nat) : Bool :=
  e.bytes.any fun k => decide (padKey t (w * 0x20000) ≤ k) && decide (k < padKey t ((w + 1) * 0x20000))

/-- A late load reads a weave of a team. -/
def State.lateOn (s : State) (t w : Nat) (x : LateLoad) : Bool :=
  x.units.any fun u => match eventOf s.log u with | some e => e.onWeave t w | none => false

/-- The conditions that a `wmode` of a party waits for: what the matrix stream has itself issued and not read yet, copies in
flight when it issued, engagement, and a switch on its way. The party's other accesses are performed at the switch. -/
def State.wmodeReady (s : State) (t : Nat) (p : Party) (w since : Nat) : Bool :=
  !(decide (p = .matrix) && (s.team t).engine.any (s.engineReads t w)) && !s.copiesInto t w since && !(s.team t).engaged w &&
    !((s.team t).weave w).mode.switching

/-- A switch to compute holds the die's rail at or above its compute floor (R195). -/
def State.raiseRail (s : State) (t : Nat) (comp : Bool) : State :=
  let d := (s.team t).cluster / 2
  if comp && decide ((s.die d).rail < 0) then s.setDie d { s.die d with rail := 0 } else s

/-- The event of a switch by a party at a place of its program order, after the listed ones; its place is the weave (R321). -/
def State.switchEvent (s : State) (t : Nat) (p : Party) (w : Nat) (extra : List Nat) (stamp : Nat) : State :=
  { s with
    log := addEvent s.log stamp
      { agent := s.agentOf t p.number, cls := .modeSwitch, scope := .team, place := padKey t (w * 0x20000),
        extra := s.partyExtra t p ++ extra, extraShared := s.partyShared t p } [] }

/-- The party's own accesses to a weave are performed (R184). -/
def State.performOn (s : State) (w : Nat) : State :=
  (s.performOwn .team).arriveWhere fun x => x.of s.cur.team s.cur.party && s.lateOn s.cur.team w x

/-- `wmode` once its conditions hold: it switches and waits for the switch to end, or completes (R182). -/
def State.wmodeGo (s : State) (w : Nat) (c : Option (Nat × Bool × Bool)) : State :=
  let s1 := (s.performOn w).raiseRail s.cur.team c.isSome
  let v := s1.curTeam.weave w
  match v.switchTo c.isSome s.now with
  | none => (s1.mapCurTeam fun x => x.setWeave w (v.setComp c)).advance
  | some m =>
      let made := (if s.cur.party = .matrix then s1.engineEvents s.cur.team s.freeCtr else []).filter fun i =>
        match eventOf s1.log i with | some e => e.onWeave s.cur.team w | none => false
      ((s1.switchEvent s.cur.team s.cur.party w made s.freeCtr).mapCurTeam fun x => x.setWeave w { v.setComp c with mode := m }).hold
        (.weaveSwitchEnd s.cur.team (BitVec.ofNat 2 w))

/-- `wmode` at issue: it acts at once when nothing is to be waited for, else it waits. -/
def State.wmodeIssue (s : State) (i : Instr) (w : Nat) (c : Option (Nat × Bool × Bool)) : State :=
  if s.wmodeReady s.cur.team s.cur.party w s.now then s.wmodeGo w c else s.hold i

def execWmodeComp (w : BitVec 2) (n : BitVec 3) (bin1 keep : Bool) (s : State) : Out :=
  s.outsideChain (.next (s.wmodeIssue (.wmodeComp w n bin1 keep) w.toNat (some (n.toNat + 1, bin1, keep))))

def execWmodeStore (w : BitVec 2) (s : State) : Out :=
  s.outsideChain (.next (s.wmodeIssue (.wmodeStore w) w.toNat none))

/-- The waits of a waiting `wmode` are met: its switch point. -/
def execWmodeSwitchPoint (p : PartyRef) (s : State) : Out :=
  match s.waitOf p with
  | some v =>
      match wmodeOf v.instr with
      | some (w, c) =>
          s.whileRuns p.team <|
            if s.wmodeReady p.team p.party w v.since then .next ((s.resumeAs p v).wmodeGo w c) else .next s
      | none => .next s
  | none => .next s

/-! ### The end of a switch -/

/-- The mode that a switching state leads to. -/
def WeaveMode.target : WeaveMode → WeaveMode
  | .toCompute _ => .compute
  | .toStorage _ => .storage
  | m => m

def WeaveMode.ends : WeaveMode → Nat
  | .toCompute e => e
  | .toStorage e => e
  | _ => 0

/-- The `wmode` whose switch ends completes: its party moves on. -/
def State.finishWmode (s : State) (t w : Nat) : State :=
  parties.foldl
    (fun s p =>
      match s.waitOf ⟨t, p⟩ with
      | some v =>
          match v.instr with
          | .weaveSwitchEnd _ u => if u.toNat = w then (s.resumeAs ⟨t, p⟩ v).advance else s
          | _ => s
      | none => s) s

/-- The switch of a weave ends whatever the time: at its clk, or at a freeze (R183). -/
def State.endSwitch (s : State) (t w : Nat) : State :=
  let v := (s.team t).weave w
  if v.mode.switching then (s.mapTeam t fun x => x.setWeave w { v with mode := v.mode.target }).finishWmode t w else s

/-- R179: the state ends 24 or 8 clk after the switch point; what was held then executes in the new mode. -/
def execWeaveSwitchEnd (team : Nat) (w : BitVec 2) (s : State) : Out :=
  if ((s.team team).weave w.toNat).mode.ends ≤ s.clkOf team then .next (s.endSwitch team w.toNat) else .next s

end Sys2Proof.Machine
end

