-- ==== Sys2Proof/Machine/Engine.lean ====
section
/-!
DEFINITION. The accesses of the engines, which move data for the matrix stream and the copy stream: probes of pages
(R211, R222), and reads and writes under the translations that a probe found (R320).
-/

namespace Sys2Proof.Machine

/-! ### Probes of pages (R211, R222) -/

/-- Pages that `n` bytes at an address touch: the first, and how many. -/
def pageSpan (va n : Nat) : Nat × Nat := if n = 0 then (pageOf va, 0) else (pageOf va, pageOf (va + n - 1) - pageOf va + 1)

/-- Probes pages one after another: the leaves found, or the first page that fails (none: the miss table is full). -/
def State.probePages (s : State) (t : Nat) (acc : Access) : Nat → Nat → Map Leaf → Except (Option Nat) (Map Leaf)
  | 0, _, m => .ok m
  | n + 1, p, m =>
      match s.find t (p * 2 ^ 18) acc with
      | .leaf f => s.probePages t acc n (p + 1) (Map.put m p f)
      | .fail _ => .error (some (p * 2 ^ 18))
      | .full => .error none

/-- Probes the pages from which unfilled mapped lines of a scratchpad range are to be filled (R157). -/
def State.probePad (s : State) (m : Nat) : Nat → Nat → Map Leaf → Except (Option Nat) (Map Leaf)
  | 0, _, ps => .ok ps
  | n + 1, line, ps =>
      match (s.team m).mapAt (line * 128) with
      | some d =>
          if (s.team m).lineFilled (line * 128) then s.probePad m n (line + 1) ps
          else
            match s.find m (mapVa d (line * 128)) .read with
            | .leaf f => s.probePad m n (line + 1) (Map.put ps (pageOf (mapVa d (line * 128))) f)
            | .fail _ => .error (some (mapVa d (line * 128)))
            | .full => .error none
      | none => s.probePad m n (line + 1) ps

/-- Probes a generic range, which lies in one window. -/
def State.probeRange (s : State) (t : Nat) (acc : Access) (r : Nat × Nat) (m : Map Leaf) : Except (Option Nat) (Map Leaf) :=
  if r.2 = 0 then .ok m
  else
    match s.decodeGeneric t r.1, s.decodeGeneric t (r.1 + r.2 - 1) with
    | some (.glob va), some (.glob _) => s.probePages t acc (pageSpan va r.2).2 (pageSpan va r.2).1 m
    | some (.pad u o), some (.pad v p) =>
        if u = v ∧ p = o + r.2 - 1 then s.probePad u ((o + r.2 - 1) / 128 - o / 128 + 1) (o / 128) m else .error (some r.1)
    | _, _ => .error (some r.1)

def State.probeAll (s : State) (t : Nat) (acc : Access) : List (Nat × Nat) → Map Leaf → Except (Option Nat) (Map Leaf)
  | [], m => .ok m
  | r :: rs, m =>
      match s.probeRange t acc r m with
      | .ok m1 => s.probeAll t acc rs m1
      | .error e => .error e

/-- The addresses whose translations a probe of a generic range asks for, each with its team. -/
def State.rangeAsks (s : State) (t : Nat) (r : Nat × Nat) : List (Nat × Nat) :=
  if r.2 = 0 then []
  else
    match s.decodeGeneric t r.1 with
    | some (.glob va) => (List.range (pageSpan va r.2).2).map fun i => (t, ((pageSpan va r.2).1 + i) * 2 ^ 18)
    | some (.pad u o) =>
        (List.range ((o + r.2 - 1) / 128 - o / 128 + 1)).filterMap fun i =>
          let at' := (o / 128 + i) * 128
          match (s.team u).mapAt at' with
          | some d => if (s.team u).lineFilled at' then none else some (u, mapVa d at')
          | none => none
    | _ => []

/-- An instruction whose probe finds the miss table full waits, and so does the first miss that finds it so, for an entry (R341). -/
def State.holdProbe (s : State) (i : Instr) (rs : List (Nat × Nat × Access)) : State :=
  let full := rs.findSome? fun r => (s.rangeAsks s.cur.team (r.1, r.2.1)).find? fun v => decide (s.find v.1 v.2 r.2.2 = .full)
  (match full with | some v => s.waitMiss v.1 v.2 | none => s).hold i

/-! ### Engine accesses (R320) -/

/-- Where a byte of an engine's range lies, by the translations found at its probe. -/
def State.engineSpot (s : State) (t : Nat) (pages : Map Leaf) (a : Nat) : Option Spot :=
  match s.decodeGeneric t a with
  | some (.glob va) =>
      match lookup? pages (pageOf va) with
      | some f => some (.mem (s.physKey (s.team t).ctx f va) f)
      | none => none
  | some (.pad u o) => some (.pad u o)
  | _ => none

/-- A byte is held: its weave is switching, its slot moves, whose team may be the engine's own (R179, R297), or it waits on the lease
of a holder that has drifted (R334). -/
def State.spotHeld (s : State) (p : Spot) : Bool :=
  match p with
  | .pad m o => (s.padWeave m o).mode.switching || s.moving m
  | .mem k f => s.leaseHeld none k 1 f
  | _ => false

/-- Some byte of a generic range is held. -/
def State.engineHeld (s : State) (t : Nat) (pages : Map Leaf) (a n : Nat) : Bool :=
  (List.range n).any fun i => match s.engineSpot t pages (a + i) with | some p => s.spotHeld p | none => false

/-- Fills the mapped line under a spot, with the translation of the probe where it found one; none: the fill fails. -/
def State.engineFill (s : State) (k : AccessKind) (pages : Map Leaf) (p : Spot) : Option State :=
  match p with
  | .pad m o =>
      match s.toFill m o with
      | none => some s
      | some d =>
        match lookup? pages (pageOf (mapVa d o)) with
        | some f => some (s.fillFrom k m d o f)
        | none => match s.find m (mapVa d o) .read with | .leaf f => some (s.fillFrom k m d o f) | _ => none
  | _ => some s

/-- Reads `n` bytes at generic addresses as units of 8 bytes at most, each in the mode of its weave (R155); none where a fill
fails. A byte that no window or page holds reads as zero. -/
def State.engineRead (s : State) (k : AccessKind) (t : Nat) (pages : Map Leaf) : Nat → Nat → Nat → Option (State × ReadOut)
  | 0, _, _ => some (s, ⟨[], false⟩)
  | fuel + 1, a, n =>
      if n = 0 then some (s, ⟨[], false⟩)
      else
        let m := min n (8 - a % 8)
        let rest (s : State) (bs : List Byte) (wm : Bool) : Option (State × ReadOut) :=
          (s.engineRead k t pages fuel (a + m) (n - m)).map fun q => (q.1, ⟨bs ++ q.2.bytes, wm || q.2.wmode⟩)
        match s.engineSpot t pages a with
        | none => rest s (List.replicate m 0) false
        | some p =>
          match s.engineFill k pages p with
          | none => none
          | some s1 =>
            let r := (s1.touchL2 (s.team t).cluster p m false).readAt k p m
            rest r.1 r.2.bytes r.2.wmode

/-- Writes bytes to a spot as units of 8 bytes at most. -/
def State.engineWrite (s : State) (k : AccessKind) (p : Spot) : Nat → Nat → List Byte → State
  | 0, _, _ => s
  | fuel + 1, i, bs =>
      if bs.isEmpty then s
      else
        let m := min bs.length (8 - s.spotKey p i % 8)
        (s.writeUnitAt k p i (bs.take m) []).engineWrite k p fuel (i + m) (bs.drop m)

/-- Some byte of a generic range lies in a poisoned sector. -/
def State.enginePoisoned (s : State) (t : Nat) (pages : Map Leaf) (a n : Nat) : Bool :=
  (List.range (sectors a n)).any fun k =>
    let r := runPiece a n k
    match s.engineSpot t pages (a + r.1) with
    | some p => s.sectorPoisoned p r.2
    | none => false

end Sys2Proof.Machine
end

