-- ==== Sys2Proof/Machine/Pass.lean ====
section
/-!
DEFINITION. What a weave computes (spec chapter 08): counts of a pass (R187 to R190), block integers (R191), and the update
of one accumulator element (R193, R194).
-/

namespace Sys2Proof.Machine

/-! ### Cells (R176, R177) -/

/-- The cell at row `k`, physical column `j` of weave `w`: as ECC corrects it, or as it stands (`raw`), soft errors and
all (R190). -/
def Team.cell (x : Team) (raw : Bool) (w k j : Nat) : Bool :=
  let o := w * 0x20000 + 128 * k + j / 8
  Bool.xor ((Map.get 0 x.pad o).getLsbD (j % 8)) (raw && Map.get false x.flips (8 * o + j % 8))

/-- Weight columns at width `n`. -/
def weaveCols (n : Nat) : Nat := 1024 / n

/-- Bit plane `p` of weight column `c` over the 32 rows of segment `g`, row 32g + k in bit k. -/
def Team.weightPlane (x : Team) (raw : Bool) (w n g c p : Nat) : Nat :=
  (List.range 32).foldl (fun m k => if x.cell raw w (32 * g + k) (n * c + p) then m + 2 ^ k else m) 0

/-- Bit plane `i` of a row of block integers, element k in bit k; for BIN1 the bit is set for +1. -/
def actPlane (bin1 : Bool) (q : List Int) (i : Nat) : Nat :=
  (List.range 32).foldl
    (fun m k =>
      let v := q.getD k 0
      if (if bin1 then decide (v = 1) else (wrapInt 32 v).testBit i) then m + 2 ^ k else m) 0

/-- Set bits of a 32-bit mask. -/
def ones (x : Nat) : Nat := (List.range 32).countP x.testBit

/-- The ideal count of a pass (R187): AND for INTn weights, XNOR for BIN1 on both sides. -/
def idealCount (xnor : Bool) (a w : Nat) : Nat := if xnor then 32 - ones (a ^^^ w) else ones (a &&& w)

/-- One conversion of an ideal count: off by at most one, and within 0 to 32 (R188). Log 11. -/
def conversion (key c : Nat) : Nat := (max 0 (min 32 ((c : Int) + max (-1) (min 1 (Config.conversionError key))))).toNat

/-- The count that a pass returns (R189): exact at RPT 7; at RPT 0 one conversion; else the rounded mean of 2^RPT conversions. -/
def passCount (rpt : Nat) (key : Nat) (c : Nat) : Int :=
  if rpt = 7 then c
  else if rpt = 0 then conversion (8 * key) c
  else ((((List.range (2 ^ rpt)).map fun j => conversion (8 * key + j) c).sum + 2 ^ (rpt - 1)) / 2 ^ rpt : Nat)

/-- The sign of a plane: the top plane of more than one counts negative (R191). -/
def planeSign (n i : Nat) : Int := if 1 < n ∧ i + 1 = n then -1 else 1

/-- Activation planes of a format word (Table 4.10). -/
def actBits (fw : Nat) : Nat := match Elem.ofWord fw with | some e => e.bits | none => 0

def actBin1 (fw : Nat) : Bool := decide (fw % 16 = 1)

/-- The block integer of Table 8.7; `key` tells its conversions from all others. -/
def blockInt (rpt key : Nat) (aBin : Bool) (na : Nat) (row : SlotRow) (wBin : Bool) (n : Nat) (plane : Nat → Nat) : Int :=
  let count (i p : Nat) : Int :=
    passCount rpt (key * 64 + i * 8 + p) (idealCount (aBin && wBin) (actPlane aBin row.q i) (plane p))
  if aBin then 2 * count 0 0 - 32
  else if wBin then 2 * ((List.range na).map fun i => planeSign na i * 2 ^ i * count i 0).sum - row.sum
  else
    ((List.range na).map fun i =>
      ((List.range n).map fun p => planeSign na i * planeSign n p * 2 ^ (i + p) * count i p).sum).sum

/-! ### Accumulation (R193, R194) -/

/-- One term: block integer, exponent, and whether a scale of it is 0xFF. -/
structure Term where
  b : Int
  e : Int
  bad : Bool
  deriving DecidableEq, Repr

/-- The term of segment block (row, entry of the scale store). -/
def termOf (b : Int) (row : SlotRow) (entry : BitVec 16) : Term :=
  let xw := entry.toNat % 256
  let sw := signedOf 8 (entry.toNat / 256)
  ⟨b, row.shift + sw + ((row.scale : Int) - 127) + ((xw : Int) - 127), decide (row.scale = 255) || decide (xw = 255)⟩

/-- Truncation toward zero of m × 2^(e − top). -/
def alignTerm (top : Int) (t : Int × Int) : Int :=
  let sh := (top - t.2).toNat
  if t.1 < 0 then -((t.1.natAbs / 2 ^ sh : Nat) : Int) else ((t.1.natAbs / 2 ^ sh : Nat) : Int)

/-- The update of one element by one instruction. -/
def accumulate (flush : Bool) (acc : Nat) (ts : List Term) : Res :=
  let scaleNan := ts.any fun t => t.bad
  match fp32.readFlush flush acc with
  | .nan _ => ⟨fp32.canon, flagIf scaleNan flagIV⟩
  | .inf n => if scaleNan then ⟨fp32.canon, flagIV⟩ else ⟨fp32.infBits n, 0⟩
  | .fin neg m e =>
    if scaleNan then ⟨fp32.canon, flagIV⟩
    else
      let own : List (Int × Int) := if m = 0 then [] else [(if neg then -(m : Int) else m, e)]
      let all := (ts.filter fun t => decide (t.b ≠ 0)).map (fun t => (t.b, t.e)) ++ own
      match all with
      | [] => ⟨0, 0⟩
      | t :: rest =>
        let top := rest.foldl (fun a u => max a u.2) t.2
        let sum := (all.map (alignTerm top)).sum
        if sum = 0 then ⟨0, 0⟩ else fp32.deliver .rne false flush (decide (sum < 0)) sum.natAbs top

end Sys2Proof.Machine
end

