-- ==== Sys2Proof/Machine/MatrixGroup.lean ====
section
/-!
DEFINITION. What groups do for the matrix stream: `mpush` (R199 to R203), `mpull` (R206), `accalloc` and `accfree` (R205),
`tdesc` (R209), and their resumption.
-/

namespace Sys2Proof.Machine

/-! ### mpush -/

/-- Two format words agree in their voted bits (R202). -/
def fwAgree (x y : Nat) : Bool :=
  decide (x % 16 = y % 16) && decide (x / 256 % 4 = y / 256 % 4) && (decide (x % 16 ≠ 0) || decide (x / 16 % 8 = y / 16 % 8))

def Team.slotAt (x : Team) (p : Nat) : Slot := Map.get Slot.zero x.slots p

def Team.setSlot (x : Team) (p : Nat) (v : Slot) : Team := { x with slots := Map.set Slot.zero x.slots p v }

def Slot.row (v : Slot) (r : Nat) : SlotRow := Map.get SlotRow.zero v.rows r

def Slot.full (v : Slot) : Bool := decide (v.filled = 15)

/-- An emptied slot: no quarter filled, not broken (R199). -/
def Slot.emptied (v : Slot) : Slot := { v with filled := 0, broken := false }

/-- An issued, uncompleted `mma` names a slot. -/
def mmaSlots (x : MmaX) : List Nat := (List.range (x.g.toNat + 1)).map fun t => (x.slot.toNat + t) % 8

def EngineOp.slots (o : EngineOp) : List Nat := match o.instr with | .mma x _ => mmaSlots x | _ => []

/-- A group has ended, or waits in an instruction that satisfies a test. -/
def Group.endedOrIn (y : Group) (f : Instr → Bool) : Bool := y.ended || (match y.wait with | some w => f w.instr | none => false)

def Instr.isMpush : Instr → Bool
  | .mpush .. => true
  | _ => false

def Instr.isAccalloc : Instr → Bool
  | .accalloc .. => true
  | _ => false

/-- The slot can no longer be emptied while group `g` waits for it (R203). -/
def Team.slotDead (x : Team) (g p : Nat) : Bool :=
  decide (x.matrix.state ≠ .running) && !(x.engine.any fun o => decide (o.phase ≠ .done) && o.slots.contains p) &&
    x.groupList.all fun h => decide (h = g) || (x.group h).endedOrIn Instr.isMpush

/-- Element bytes of row `i` of the pushed quarter (R200, R202). -/
def pushRow (y : Group) (d : Reg) (act : BitVec 32) (i : Nat) : List Nat :=
  (List.range 32).map fun e =>
    let l := 8 * i + e / 4
    if act.getLsbD l then (src y (y.lane l) d).val.toNat / 2 ^ (8 * (e % 4)) % 256 else 0

/-- X_a of row `i`: the lowest active lane of its eight (R202). -/
def pushScale (y : Group) (a : Reg) (act : BitVec 32) (fw i : Nat) : Nat :=
  match (List.range 8).find? fun j => act.getLsbD (8 * i + j) with
  | some j => if unitScale fw then 0x7F else (src y (y.lane (8 * i + j)) a).val.toNat % 256
  | none => 0x7F

/-- The row that a push deposits, and the elements that set IV. -/
def pushedRow (f : Elem) (y : Group) (d a : Reg) (act : BitVec 32) (fw i : Nat) : SlotRow × List Bool :=
  let bi := convertBlock f (pushRow y d act i)
  (⟨bi.q, bi.shift, pushScale y a act fw i, bi.q.sum⟩, bi.iv)

/-- Quarter `j` of the slot with the four rows. -/
def Slot.deposit (v : Slot) (j : Nat) (rows : List SlotRow) (fw : Word) : Slot :=
  { v with
    rows := (List.range 4).foldl (fun m i => Map.set SlotRow.zero m (4 * j + i) (rows.getD i SlotRow.zero)) v.rows
    filled := v.filled ||| BitVec.ofNat 4 (2 ^ j)
    fw := fw }

/-- The checks of `mpush` that do not wait: the trap, and whether the slot breaks. -/
def State.mpushCheck (s : State) (slot : Nat) (c : Reg) (act : BitVec 32) : Option (BitVec 32 × Bool) :=
  let y := s.curGroup
  let cv (l : Nat) : Nat := (src y (y.lane l) c).val.toNat
  let m := (lanesOf act).headD 0
  let wrong := maskOf fun l => act.getLsbD l && (!fwAgree (cv l) (cv m) || (decide (l = m) && (Elem.ofWord (cv m)).isNone))
  let v := s.curTeam.slotAt slot
  if wrong ≠ 0 then some (wrong, false)
  else if v.filled ≠ 0 ∧ fwAgree (cv m) v.fw.toNat = false then some (act, true)
  else none

/-- `mpush` with a non-empty active set (R202). -/
def State.mpushOp (s : State) (i : Instr) (slot j : Nat) (d a c : Reg) (p : Pred) : State :=
  let y := s.curGroup
  let act := activeMask y s.cur.lanes p
  let bad := poisonOf (lanesOf s.cur.lanes) fun l =>
    let x := y.lane l
    if act.getLsbD l then [(src y x d).tag, (src y x a).tag, (src y x c).tag, (predOf x p).tag] else [(predOf x p).tag]
  if !bad.2.isEmpty then s.poisonTrap i bad.1 bad.2
  else
    match s.mpushCheck slot c act with
    | some (lanes, brk) =>
        (if brk then s.mapCurTeam fun x => x.setSlot slot { x.slotAt slot with broken := true } else s).trapAt trapFORMAT lanes 0
    | none =>
      let v := s.curTeam.slotAt slot
      if v.filled.getLsbD j then
        if s.curTeam.slotDead s.cur.party.groupNo slot then s.trapAt trapQUEUE act 0 else s.hold i
      else
        let fw := (src y (y.lane ((lanesOf act).headD 0)) c).val
        match Elem.ofWord fw.toNat with
        | none => s
        | some f =>
          let rows := (List.range 4).map fun i => pushedRow f y d a act fw.toNat i
          (s.mapCurTeam fun x => x.setSlot slot (v.deposit j (rows.map Prod.fst) fw)).onLanes fun _ l x =>
            let iv := act.getLsbD l && (List.range 4).any fun b => ((rows.getD (l / 8) (SlotRow.zero, [])).2).getD (4 * (l % 8) + b) false
            (x.setFlags (flagIf iv flagIV)).advance s.cur.len

def execMpush (slot : BitVec 3) (quarter : BitVec 2) (d a c : Reg) (p : Pred) (s : State) : Out :=
  if activeMask s.curGroup s.cur.lanes p = 0 then .next s.advance
  else .next (s.mpushOp (.mpush slot quarter d a c p) slot.toNat quarter.toNat d a c p)

/-- A waiting `mpush` executes again (R203). -/
def execMpushResume (p : PartyRef) (s : State) : Out :=
  match s.waitOf p with
  | some w =>
      match w.instr with
      | .mpush slot quarter d a c pr =>
          .next (if s.backedFor p w.instr then (s.resumeAs p w).mpushOp w.instr slot.toNat quarter.toNat d a c pr else s)
      | _ => .next s
  | none => .next s

/-! ### Accumulator banks (R204) -/

def Team.bankFree (x : Team) (b : Nat) : Bool := !x.banks.getLsbD b

/-- Element (r, c) of a bank. -/
def bankKey (b r c : Nat) : Nat := b * 2048 + r * 128 + c

def Team.elem (x : Team) (b r c : Nat) : Word := Map.get 0 x.bankData (bankKey b r c)

def Team.setElem (x : Team) (b r c : Nat) (v : Word) : Team := { x with bankData := Map.set 0 x.bankData (bankKey b r c) v }

/-- Banks b to b + n − 1 are all allocated and exist. -/
def Team.banksHeld (x : Team) (b n : Nat) : Bool := decide (b + n ≤ 16) && (List.range n).all fun i => !x.bankFree (b + i)

def execMpull (d : Nat) (a : BitVec 5) (off row : BitVec 4) (cb : BitVec 2) (p : Pred) (s : State) : Out :=
  let act := activeMask s.curGroup s.cur.lanes p
  let sa := s.readS a
  let b := sa.val.toNat % 16 + off.toNat
  if act = 0 then .next s.advance
  else if sa.tag.isNone && !s.curTeam.banksHeld b 1 then .next (s.trapAt trapACCERR act 0)
  else
    .next <| s.onLanes fun _ l x =>
      (whenActive p x (x.result d (firstTag [sa.tag, (predOf x p).tag]) (s.curTeam.elem b row.toNat (32 * cb.toNat + l)) 0)).advance s.cur.len

/-- The lowest bank at which n consecutive banks are free. -/
def Team.freeRun (x : Team) (n : Nat) : Option Nat :=
  (List.range (17 - n)).find? fun b => (List.range n).all fun i => x.bankFree (b + i)

/-- Banks b to b + n − 1 as a mask. -/
def bankMask (b n : Nat) : BitVec 16 := BitVec.ofNat 16 ((2 ^ n - 1) * 2 ^ b)

/-- Elements of the banks of a mask become +0. -/
def Team.clearBanks (x : Team) (b n : Nat) : Team :=
  { x with bankData := x.bankData.filter fun e => !(decide (b * 2048 ≤ e.1) && decide (e.1 < (b + n) * 2048)) }

/-- Only a group can free a bank (R205). -/
def Team.allocDead (x : Team) (g : Nat) : Bool :=
  x.groupList.all fun h => decide (h = g) || (x.group h).endedOrIn Instr.isAccalloc

def State.accallocOp (s : State) (d n : BitVec 5) : State :=
  match s.curTeam.freeRun n.toNat with
  | some b =>
      ((s.mapCurTeam fun x => { x.clearBanks b n.toNat with banks := x.banks ||| bankMask b n.toNat }).writeS d (clear (BitVec.ofNat 64 b))).advance
  | none =>
      if s.curTeam.allocDead s.cur.party.groupNo then s.trapAt trapACCERR 0 0 else s.hold (.accalloc d n)

def execAccalloc (d n : BitVec 5) (s : State) : Out := .next (s.accallocOp d n)

/-- A waiting `accalloc` executes again (R205). -/
def execAccallocResume (p : PartyRef) (s : State) : Out :=
  match s.waitOf p with
  | some w =>
      match w.instr with
      | .accalloc d n => .next ((s.resumeAs p w).accallocOp d n)
      | _ => .next s
  | none => .next s

/-- Columns of a weave, after what an uncompleted `wload` will set. -/
def Team.colsOf (x : Team) (w : Nat) : Nat :=
  match (x.engine.filter fun o => decide (o.phase ≠ .done) && (match o.instr with | .wload _ v _ _ => decide (v.toNat = w) | _ => false)).getLast? with
  | some o => weaveCols (Tile.ofNat o.handle.toNat).elemBits
  | none => weaveCols (x.weave w).n

/-- Bank count of an `mma` on weaves of so many columns, after `nball` (R212): an integer, since it may fall below 1. -/
def mmaBanks (m : MmaX) (cols : Nat) : Int :=
  if m.nb = 0 then (((cols + 127) / 128 : Nat) : Int) - m.cb.toNat else m.nb.toNat

/-- The first weave of an `mma`. -/
def mmaWeave (m : MmaX) : Nat := (instrWeaves (.mma m 0)).headD 0

/-- The banks that an `mma` names from b0 on exist and are allocated: b0 + |W| × nb is at most 16 as it is written, also where nb is
below 0 (R213). -/
def Team.mmaBanksHeld (x : Team) (b0 weaves : Nat) (nb : Int) : Bool :=
  decide ((b0 : Int) + weaves * nb ≤ 16) && (List.range (weaves * nb.toNat)).all fun i => !x.bankFree (b0 + i)

/-- Bank count at issue, where an earlier `wload` may still set the width. Log 23. -/
def Team.mmaBanksIssue (x : Team) (m : MmaX) : Int := mmaBanks m (x.colsOf (mmaWeave m))

/-- Bank count of an issued `mma`. -/
def Team.mmaBanksNow (x : Team) (m : MmaX) : Int := mmaBanks m (weaveCols (x.weave (mmaWeave m)).n)

/-- First bank and number of banks that a matrix instruction names, given its base. -/
def Team.opBanks (x : Team) (i : Instr) (base : Nat) : Nat × Nat :=
  match i with
  | .mma m _ => (base % 16 + m.off.toNat, (instrWeaves i).length * (x.mmaBanksNow m).toNat)
  | .accz _ off n => (base % 16 + off.toNat, n.toNat)
  | .accsc _ off n _ _ => (base % 16 + off.toNat, n.toNat)
  | _ => (0, 0)

/-- An issued, uncompleted matrix instruction names one of the banks (R205). -/
def Team.banksNamed (x : Team) (b n : Nat) : Bool :=
  x.engine.any fun o =>
    let r := x.opBanks o.instr o.a
    decide (o.phase ≠ .done) && decide (r.1 < b + n) && decide (b < r.1 + r.2)

def State.accfreeOp (s : State) (a : BitVec 5) (off : BitVec 4) (n : BitVec 5) : State :=
  let b := (s.readS a).val.toNat % 16 + off.toNat
  if !s.curTeam.banksHeld b n.toNat then s.trapAt trapACCERR 0 0
  else if s.curTeam.banksNamed b n.toNat then s.hold (.accfree a off n)
  else (s.mapCurTeam fun x => { x.clearBanks b n.toNat with banks := x.banks &&& ~~~(bankMask b n.toNat) }).advance

def execAccfree (a : BitVec 5) (off : BitVec 4) (n : BitVec 5) (s : State) : Out := .next (s.accfreeOp a off n)

/-- A waiting `accfree` executes again (R205). -/
def execAccfreeResume (p : PartyRef) (s : State) : Out :=
  match s.waitOf p with
  | some w =>
      match w.instr with
      | .accfree a off n => .next ((s.resumeAs p w).accfreeOp a off n)
      | _ => .next s
  | none => .next s

/-! ### tdesc (R209) -/

/-- The four 8-byte units of a descriptor read: each with its address and what it reaches. -/
def tdescUnits (s : State) (a : Nat) : List LaneAcc := (List.range 4).map fun i => ⟨i, a + 8 * i, uniformReach s .gen (a + 8 * i)⟩

/-- Reads the units in order as self-invalidating loads: the bytes, and whether a unit met a compute-mode weave. -/
def State.readUnits (s : State) (k : AccessKind) : List LaneSpot → State × ReadOut
  | [] => (s, ⟨[], false⟩)
  | x :: xs =>
      let r := s.readAt k x.spot 8
      let q := (r.1.touch s.cur.team x.spot 8 .selfinv .team false true false).readUnits k xs
      (q.1, ⟨r.2.bytes ++ q.2.bytes, r.2.wmode || q.2.wmode⟩)

def execTdesc (h : BitVec 4) (a : BitVec 5) (off : BitVec 22) (s : State) : Out :=
  let i := Instr.tdesc h a off
  let ad := s.uAddr a off
  let va := ad.val.toNat
  match ad.tag with
  | some t => .next (s.poisonTrap i s.cur.lanes [t])
  | none =>
    if va % 8 ≠ 0 then s.uTrap trapMISALIGN va
    else
      let xs := tdescUnits s va
      match failing xs (fun x => x.reach.isNone) trapACCESS with
      | some t => .next (s.trap t)
      | none =>
        let tr := s.translateAll .read 8 true xs
        match tr.fails with
        | f :: fs => .next (s.storeFault i trapACCESS s.cur.lanes f.2.1 ((f :: fs).map fun q => (q.2.2.1, q.2.2.2.2)) 1)
        | [] =>
          if tr.held then .next (s.holdAccess i .read 8 xs)
          else
            match s.placeChecks tr.ok 8 false .fab with
            | some t => .next (s.trap t)
            | none =>
              let r := (s.prepareAll tr.ok 8 true).readUnits (s.kind .plain .team) tr.ok
              let d := leValue r.2.bytes
              let t := Tile.ofNat d
              let s1 := r.1.setFlagsAll (if r.2.wmode then flagWMODE else 0)
              if tileReserved d || decide (8 ≤ t.fmt) then r.1.uTrap trapFORMAT 0
              else if t.pitch < t.rowBytes then r.1.uTrap trapBOUNDS 0
              else .next (s1.mapCurTeam fun x => { x with handles := Map.put x.handles h.toNat (BitVec.ofNat 256 d) }).advance

end Sys2Proof.Machine
end

