-- ==== Sys2Proof/Machine/Matrix.lean ====
section
/-!
DEFINITION. The matrix stream (R196, R197, R210 to R219): chains, `mma`, `accz`, `accsc`, `wload`, `marrive`, `mwait`,
`mend`, and the engine's steps on what has issued.
-/

namespace Sys2Proof.Machine

/-! ### Issue to the engine -/

/-- The array cycle of a team's cluster: 2 clk each, numbered from reset (R3, R275). -/
def State.acOf (s : State) (t : Nat) : Nat := s.clkOf t / 2

/-- Places of the engine (R218). -/
def enginePlaces : Nat := 32

def Team.engineFull (x : Team) : Bool := decide (enginePlaces ≤ (x.engine.filter fun o => decide (o.phase ≠ .done)).length)

/-- Completed instructions leave the front of the engine's list. -/
def Team.retire (x : Team) : Team := { x with engine := x.engine.dropWhile fun o => decide (o.phase = .done) }

/-- Hands an instruction to the engine; the stream goes on (R196). It waits where the engine has no place. -/
def State.toEngine (s : State) (i : Instr) (a b : Nat) (handle : BitVec 256) (pages : Map Leaf) (acts : List Slot) : State :=
  if s.curTeam.engineFull then s.hold i
  else
    (s.mapCurTeam fun x =>
      { x.retire with
        engine := x.retire.engine ++ [⟨x.nextOp, i, s.cur, a, b, handle, x.matrix.chain, .issued, 0, 0, [], [], acts, pages, s.freeCtr, s.acOf s.cur.team⟩]
        nextOp := x.nextOp + 1 }).advance

def Team.opOf (x : Team) (id : Nat) : Option EngineOp := x.engine.find? fun o => decide (o.id = id)

def Team.mapOp (x : Team) (id : Nat) (f : EngineOp → EngineOp) : Team :=
  { x with engine := x.engine.map fun o => if o.id = id then f o else o }

/-- Instructions issued before one and not completed. -/
def Team.before (x : Team) (id : Nat) : List EngineOp := x.engine.filter fun o => decide (o.id < id) && decide (o.phase ≠ .done)


/-- A matrix stream's operand: poison raises POISON as a stream trap (R54). -/
def State.streamPoison (s : State) (rs : List (BitVec 5)) : Bool := rs.any fun r => (s.readS r).tag.isSome

/-! ### Chains (R215, R216) -/

def State.mchainOpen (s : State) (c : Chain) : Out :=
  s.outsideChain (.next ((s.mapCurStream fun y => { y with chain := c }).advance))

def execMchainBegin (s : State) : Out := s.mchainOpen .unordered
def execMchainBeginOrdered (s : State) : Out := s.mchainOpen .ordered

/-- Completes when every instruction of the chain has. -/
def execMchainEnd (s : State) : Out :=
  if s.curStream.chain = .closed then .next (s.trap { code := trapSTREAM })
  else if s.curTeam.engine.any fun o => decide (o.phase ≠ .done) && decide (o.chain ≠ .closed) then .next (s.hold .mchainEnd)
  else .next ((s.mapCurStream fun y => { y with chain := .closed }).advance)

/-! ### mma (R212, R213) -/

/-- A slot is full for an `mma`: full, and no earlier uncompleted `mma` is going to empty it. Log 23. -/
def Team.slotReady (x : Team) (p : Nat) : Bool :=
  (x.slotAt p).full &&
    !(x.engine.any fun o => decide (o.phase ≠ .done) && (match o.instr with | .mma m _ => !m.hold && (mmaSlots m).contains p | _ => false))

/-- Broken slots among those named are emptied with the FORMAT trap. -/
def Team.emptyBroken (x : Team) (ps : List Nat) : Team :=
  ps.foldl (fun x p => if (x.slotAt p).broken then x.setSlot p (x.slotAt p).emptied else x) x

/-- The checks after the slots are full. -/
def State.mmaSlotsOk (s : State) (m : MmaX) (ws : List Nat) : Bool :=
  let x := s.curTeam
  let ps := mmaSlots m
  let fw := (x.slotAt (ps.headD 0)).fw.toNat
  (ps.all fun p => fwAgree (x.slotAt p).fw.toNat fw) && !(actBin1 fw && !(x.weave (ws.headD 0)).bin1)

def execMma (m : MmaX) (a : BitVec 5) (s : State) : Out :=
  let i := Instr.mma m a
  let x := s.curTeam
  let ws := instrWeaves i
  let w0 := x.weave (ws.headD 0)
  let b0 := (s.readS a).val.toNat % 16 + m.off.toNat
  let nb := x.mmaBanksIssue m
  let ps := mmaSlots m
  if s.streamPoison [a] then .next (s.trap { code := trapPOISON })
  else if !x.mmaBanksHeld b0 ws.length nb then .next (s.trap { code := trapACCERR })
  else if ws.any fun w => x.wloadOn w || (x.weave w).mode.switching then .next (s.hold i)
  else if ws.any fun w => decide ((x.weave w).mode ≠ .compute) then .next (s.trap { code := trapWMODE })
  else if ws.any fun w => decide ((x.weave w).n ≠ w0.n) || decide ((x.weave w).bin1 ≠ w0.bin1) then .next (s.trap { code := trapFORMAT })
  else if weaveCols w0.n ≤ 128 * m.cb.toNat ∨ nb < 1 then .next (s.trap { code := trapBOUNDS })
  else if !(ps.all x.slotReady) then
    if x.allEnded then .next (s.trap { code := trapQUEUE }) else .next (s.hold i)
  else if ps.any fun p => (x.slotAt p).broken then .next ((s.mapCurTeam fun x => x.emptyBroken ps).trap { code := trapFORMAT })
  else if !(s.mmaSlotsOk m ws) then .next (s.trap { code := trapFORMAT })
  else .next (s.toEngine i (s.readS a).val.toNat 0 0 [] (ps.map x.slotAt))

/-- An `mma` may perform its passes (R197, R216). -/
def Team.mmaDue (x : Team) (o : EngineOp) : Bool :=
  (x.before o.id).all fun e =>
    match e.instr with
    | .wload _ _ _ _ => !(instrWeaves o.instr).any e.names
    | .mma _ _ => decide (o.chain ≠ .closed) && decide (e.chain ≠ .closed)
    | .marrive _ => true
    | _ => false

/-- Passes of an `mma`, of one row on one segment each (R213); and how many come before the elements of row `rows`: all of them
at RPT 7, where a poisoned sector met by the last one still leaves every element unwritten (R189; log 36). -/
def mmaPasses (m : MmaX) : Nat := 16 * (m.g.toNat + 1)

def mmaPassesBefore (m : MmaX) (rows : Nat) : Nat := if m.rpt = 7 then mmaPasses m else (rows + 1) * (m.g.toNat + 1)

/-- Array cycles of the working kind before cycle `a` at throttle step `k` (R275). -/
def workingBefore (k a : Nat) : Nat := a / 8 * (8 - k) + min (a % 8) (8 - k)

/-- Working array cycles from cycle `a` to `b` under the steps of a list, each with the cycle from which it holds, the newest first. -/
def workingUnder (a : Nat) : List (Nat × Nat) → Nat → Nat
  | [], _ => 0
  | p :: ps, b =>
      let f := max a (min b p.1)
      (workingBefore p.2 b - workingBefore p.2 f) + workingUnder a ps f

/-- Working array cycles of a slice from cycle `a` to `b`. -/
def Slice.working (x : Slice) (a b : Nat) : Nat := workingUnder a ((x.matrix.since, x.matrix.val) :: x.matrix.past) (max a b)

/-- Working ac of the instruction's next passes, one for each activation plane (Table 8.6, R195). -/
def EngineOp.passTime (o : EngineOp) (m : MmaX) : Nat :=
  actBits (o.acts.getD (o.seg % (m.g.toNat + 1)) Slot.zero).fw.toNat * (if m.rpt = 7 then 16 else 2 ^ m.rpt.toNat)

/-- The engine has had the working ac that the next passes take, since its last ones and since the instruction's turn came. -/
def State.passTimeOver (s : State) (t : Nat) (o : EngineOp) (m : MmaX) : Bool :=
  let x := s.team t
  decide (o.passTime m ≤ (s.slice x.cluster x.tile).working (max x.acDone o.ready) (s.acOf t))

/-- The next pass of the instruction is at RPT 7 and its segment holds a poisoned sector (R189). -/
def Team.mmaUncorr (x : Team) (o : EngineOp) (m : MmaX) : Bool :=
  decide (m.rpt = 7) &&
    (instrWeaves o.instr).any fun w => (List.range 128).any fun i =>
      Map.get false x.padPoison ((w * 0x20000 + 0x1000 * (m.g0.toNat + o.seg % (m.g.toNat + 1))) / 32 + i)

/-- Weave columns of an `mma`: the first, and how many. -/
def Team.mmaCols (x : Team) (o : EngineOp) (m : MmaX) : Nat × Nat :=
  let n := weaveCols (x.weave ((instrWeaves o.instr).headD 0)).n
  let c0 := 128 * m.cb.toNat
  (c0, min n (c0 + 128 * (x.mmaBanksNow m).toNat) - c0)

/-- The block integer of row `r`, slot `t`, weave `w`, column `c` among those that an instruction holds. -/
def blockKey (r t w c : Nat) : Nat := ((r * 8 + t) * 4 + w) * 1024 + c

/-- The next pass: the block integers of one row on one segment of every selected weave. -/
def Team.mmaPass (x : Team) (o : EngineOp) (m : MmaX) (key : Nat) : Map Int :=
  let r := o.seg / (m.g.toNat + 1)
  let t := o.seg % (m.g.toNat + 1)
  let sl := o.acts.getD t Slot.zero
  let g := m.g0.toNat + t
  let cs := x.mmaCols o m
  (instrWeaves o.instr).foldl
    (fun bs w =>
      let v := x.weave w
      (List.range cs.2).foldl
        (fun bs j =>
          let c := cs.1 + j
          Map.set 0 bs (blockKey r t w c)
            (blockInt m.rpt.toNat ((((key * 4 + w) * 16 + r) * 32 + g) * 1024 + c) (actBin1 sl.fw.toNat) (actBits sl.fw.toNat) (sl.row r) v.bin1 v.n
              fun p => x.weightPlane (decide (m.rpt ≠ 7)) w v.n g c p)) bs) o.blocks

/-- An element of a row, as bank × 128 + column. -/
def elemOf (bank col : Nat) : Nat := bank * 128 + col

/-- Elements of a row that an `mma` updates. -/
def Team.mmaElems (x : Team) (o : EngineOp) (m : MmaX) : List Nat :=
  let b0 := o.a % 16 + m.off.toNat
  let nb := (x.mmaBanksNow m).toNat
  (List.range (instrWeaves o.instr).length).flatMap fun i =>
    (List.range (x.mmaCols o m).2).map fun j => elemOf (b0 + i * nb + j / 128) (j % 128)

/-- The terms of an element of row `r`: one for each segment (R193). -/
def Team.mmaTerms (x : Team) (o : EngineOp) (m : MmaX) (r el : Nat) : List Term :=
  let nb := (x.mmaBanksNow m).toNat
  let i := el / 128 - (o.a % 16 + m.off.toNat)
  let w := (instrWeaves o.instr).getD (i / nb) 0
  let c := (x.mmaCols o m).1 + i % nb * 128 + el % 128
  (List.range (m.g.toNat + 1)).map fun t =>
    termOf (Map.get 0 o.blocks (blockKey r t w c)) ((o.acts.getD t Slot.zero).row r)
      (Map.get 0x007F (x.weave w).scales (1024 * (m.g0.toNat + t) + c))

/-- An element's value after the update (R193, R194). -/
def Team.mmaUpdate (x : Team) (flush : Bool) (o : EngineOp) (m : MmaX) (r el : Nat) : Res :=
  accumulate flush (x.elem (el / 128) r (el % 128)).toNat (x.mmaTerms o m r el)

/-- In an ordered chain an element waits for the earlier instructions of the chain that name its bank (R216). -/
def Team.elemDue (x : Team) (o : EngineOp) (el : Nat) : Bool :=
  decide (o.chain ≠ .ordered) ||
    (x.before o.id).all fun e =>
      let r := x.opBanks e.instr e.a
      !(decide (r.1 ≤ el / 128) && decide (el / 128 < r.1 + r.2)) || decide (o.rows < e.rows) || (decide (o.rows = e.rows) && e.elems.contains el)

/-- The elements that the engine writes next of those that it may: at least one where there is one (R206, R216). -/
def nextElems (key : Nat) (els : List Nat) : List Nat :=
  match els.filter fun e => Config.elementNow (key * 2 ^ 12 + e) with
  | [] => els.take 1
  | es => es

/-- Flags of the matrix sequencer. -/
def Team.matrixFlags (x : Team) (f : Flags) : Team := { x with matrix := { x.matrix with status := x.matrix.status ||| f } }

/-- Elements of a row take the values that a function gives each. -/
def Team.writeElems (x : Team) (r : Nat) (f : Nat → Res) (els : List Nat) : Team :=
  els.foldl (fun y el => (y.setElem (el / 128) r (el % 128) (BitVec.ofNat 32 (f el).bits)).matrixFlags (f el).flags) x

/-- The instruction has written these of the elements `all` of its row in progress; a row that is written is left behind, with its
block integers. -/
def EngineOp.wrote (o : EngineOp) (all els : List Nat) : EngineOp :=
  let done := o.elems ++ els
  if all.all done.contains then
    { o with rows := o.rows + 1, elems := [], blocks := o.blocks.filter fun b => decide (b.1 / blockKey 1 0 0 0 ≠ o.rows) }
  else { o with elems := done }

/-- Some elements of the row in progress are written: of `all`, those that are due and not yet written. -/
def Team.rowStep (x : Team) (o : EngineOp) (key : Nat) (all : List Nat) (f : Nat → Res) : Team :=
  let els := nextElems key (all.filter fun el => !o.elems.contains el && x.elemDue o el)
  (x.writeElems o.rows f els).mapOp o.id fun e => e.wrote all els

/-! ### Completion, and deferred traps (R218) -/

/-- The turn of an instruction has come. -/
def Team.turnOf (x : Team) (o : EngineOp) : Bool := match o.instr with | .mma _ _ => x.mmaDue o | _ => true

/-- An instruction has completed in an array cycle: the turn of others may come. -/
def Team.markDone (x : Team) (id ac : Nat) : Team :=
  let y := x.mapOp id fun o => { o with phase := .done }
  { y with engine := y.engine.map fun o => if x.turnOf o = false ∧ y.turnOf o = true then { o with ready := ac } else o }.retire

/-- A stream with an error stops once what had started has completed (step 4 of R218). -/
def State.stopFailing (s : State) (t : Nat) : State :=
  let x := s.team t
  match x.matrix.failing with
  | none => s
  | some f =>
      ({ s.mapTeam t fun x => { x with matrix := { x.matrix with failing := none } } with
        cur := { f.issue with team := t, party := .matrix } }).streamTrap
        { code := f.code, flags := recDeferred, lastIssued := x.matrix.lastIssued, completed := f.completed }

def State.settleFailing (s : State) (t : Nat) : State := if (s.team t).engine.all fun o => decide (o.phase = .done) then s.stopFailing t else s

/-- An instruction completes. -/
def State.opDone (s : State) (t id : Nat) : State := (s.mapTeam t fun x => x.markDone id (s.acOf t)).settleFailing t

/-- An instruction that has started. -/
def EngineOp.begun (o : EngineOp) : Bool := decide (o.phase ≠ .issued)

/-- Bit i of the mask: the i-th instruction issued after the failing one completes. -/
def completedMask (after : List EngineOp) : Word :=
  BitVec.ofNat 32 ((List.range after.length).foldl
    (fun m i => match after[i]? with
      | some o => if o.begun then m + 2 ^ i else m
      | none => m) 0)

/-- The stream issues nothing more at the error of F; what had started completes, the rest is discarded, and then the stream stops. A
stream that has stopped already, at a later instruction's precise trap, keeps that record, and one whose stop is due keeps the error
found first: this one leaves none (log 48). -/
def State.deferTrap (s : State) (t : Nat) (o : EngineOp) (code : Nat) : State :=
  let x := s.team t
  let after := x.engine.filter fun e => decide (o.id < e.id)
  let kept := x.engine.filter fun e => decide (e.id ≠ o.id) && (decide (e.id < o.id) || e.begun)
  let s1 := s.setTeam t { x with engine := kept }
  if x.matrix.state = .running ∧ x.matrix.failing = none then
    (s1.mapTeam t fun x => { x with matrix := { x.matrix with failing := some ⟨o.issue, code, completedMask after⟩ } }).settleFailing t
  else s1.settleFailing t

/-- A step of the engine on an instruction of a team that runs, which has not completed (R219, R261). -/
def State.engineStep (s : State) (team id : Nat) (f : EngineOp → Out) : Out :=
  match (s.team team).opOf id with
  | none => .next s
  | some o => if o.phase = .done then .next s else s.whileRuns team (f o)

/-- The next part of an issued `mma` whose turn has come: its passes of one row on one segment of every selected weave, where a
poisoned sector is found, once the slice has had the array cycles for them (R275); or, once the row's passes are done, elements of the row. -/
def execMmaExecution (team id : Nat) (s : State) : Out :=
  s.engineStep team id fun o =>
    match o.instr with
    | .mma m _ =>
      let x := s.team team
      if decide (16 ≤ o.rows) || !x.mmaDue o then .next s
      else if o.seg < mmaPassesBefore m o.rows then
        if !s.passTimeOver team o m then .next s
        else if x.mmaUncorr o m then .next (s.deferTrap team o trapUNCORR)
        else
          let bs := x.mmaPass o m s.freeCtr
          .next (s.mapTeam team fun x => { x with acDone := s.acOf team }.mapOp id fun e => { e with phase := .started, seg := e.seg + 1, blocks := bs })
      else .next (s.setTeam team (x.rowStep o s.freeCtr (x.mmaElems o m) (x.mmaUpdate (s.ctx x.ctx).flush o m o.rows)))
    | _ => .next s

/-- The instruction completes once its 16 rows are written; `use` empties its slots (R199, R213). -/
def execMmaCompletion (team id : Nat) (s : State) : Out :=
  s.engineStep team id fun o =>
    match o.instr with
    | .mma m _ =>
      if o.rows < 16 then .next s
      else
        let x := s.team team
        let y := if m.hold then x else (mmaSlots m).foldl (fun x p => x.setSlot p (x.slotAt p).emptied) x
        .next ((s.setTeam team y).opDone team id)
    | _ => .next s

/-! ### accz and accsc (R214) -/

def execAccz (a : BitVec 5) (off : BitVec 4) (n : BitVec 5) (s : State) : Out :=
  let b := (s.readS a).val.toNat % 16 + off.toNat
  s.outsideChain <|
    if s.streamPoison [a] then .next (s.trap { code := trapPOISON })
    else if !s.curTeam.banksHeld b n.toNat then .next (s.trap { code := trapACCERR })
    else .next (s.toEngine (.accz a off n) (s.readS a).val.toNat 0 0 [] [])

/-- The 64 factor bytes reach the team's own scratchpad. -/
def State.ownPad (s : State) (a n : Nat) : Option Nat :=
  match s.decodeGeneric s.cur.team a with
  | some (.pad t o) => if t = s.cur.team ∧ o + n ≤ padSize then some o else none
  | _ => none

/-- The checks, in the order written. An unfilled mapped line whose fill fails counts as scratchpad not reached (R157; log 48). -/
def execAccsc (a : BitVec 5) (off : BitVec 4) (n b : BitVec 5) (imm : BitVec 22) (s : State) : Out :=
  let i := Instr.accsc a off n b imm
  let bank := (s.readS a).val.toNat % 16 + off.toNat
  let fa := (s.uAddr b imm).val.toNat
  s.outsideChain <|
    if s.streamPoison [a, b] then .next (s.trap { code := trapPOISON })
    else if !s.curTeam.banksHeld bank n.toNat then .next (s.trap { code := trapACCERR })
    else
      match s.ownPad fa 64 with
      | none => .next (s.trap { code := trapACCESS, addr := fa })
      | some o =>
        if fa % 4 ≠ 0 then .next (s.trap { code := trapMISALIGN, addr := fa })
        else if (weavesOf o 64).any fun w => (s.curTeam.weave w).mode.switching then .next (s.hold i)
        else if (weavesOf o 64).any fun w => decide ((s.curTeam.weave w).mode = .compute) then .next (s.trap { code := trapWMODE, addr := fa })
        else
          match s.probeRange s.cur.team .read (fa, 64) [] with
          | .error (some va) => .next (s.trap { code := trapACCESS, addr := va })
          | .error none => .next (s.holdProbe i [(fa, 64, .read)])
          | .ok pages => .next (s.toEngine i (s.readS a).val.toNat o 0 pages [])

/-- An `accz` or `accsc` may start: every earlier instruction has completed but a `wload`, unless the factors lie in the weave
that it is to switch (R184, R197). -/
def Team.accDue (x : Team) (o : EngineOp) : Bool :=
  (x.before o.id).all fun e =>
    match e.instr, o.instr with
    | .wload _ w _ _, .accsc _ _ _ _ _ => !(weavesOf o.b 64).contains w.toNat
    | .wload _ _ _ _, _ => true
    | .marrive _, _ => true
    | _, _ => false

/-- An engine access for an instruction of the matrix stream, in the stream's program order at its issue (R320). -/
def State.engineKind (s : State) (t : Nat) (o : EngineOp) (sc : Scope) (extra : List Nat) : AccessKind :=
  ⟨s.agentOf t 16, .marked, sc, true, s.partyExtra t .matrix ++ extra, [], [], o.stamp⟩

/-- The 16 factors, as marked loads at team scope; none where a fill fails. -/
def State.readFactors (s : State) (t : Nat) (o : EngineOp) : List Nat → Option (State × Map Int)
  | [] => some (s, [])
  | r :: rs =>
      let k := s.engineKind t o .team []
      match s.engineFill k o.pages (.pad t (o.b + 4 * r)) with
      | none => none
      | some s1 =>
        let q := s1.readAt k (.pad t (o.b + 4 * r)) 4
        (q.1.readFactors t o rs).map fun z => (z.1, Map.put z.2 r (leValue q.2.bytes : Int))

/-- Elements of a row of the banks that an `accz` or `accsc` names. -/
def Team.bankElems (x : Team) (o : EngineOp) : List Nat :=
  let r := x.opBanks o.instr o.a
  (List.range (r.2 * 128)).map fun i => elemOf (r.1 + i / 128) (i % 128)

/-- An element's new value: +0, or its product with its row's factor. -/
def Team.accValue (x : Team) (flush : Bool) (o : EngineOp) (r el : Nat) : Res :=
  match o.instr with
  | .accsc _ _ _ _ _ => floatMul fp32 .rne flush (x.elem (el / 128) r (el % 128)).toNat (Map.get 0 o.blocks r).toNat
  | _ => ⟨0, 0⟩

/-- What the factor read of an `accsc` meets at its start: a deferred WMODE or UNCORR. -/
def State.factorTrap (s : State) (t : Nat) (o : EngineOp) : Option Nat :=
  if (weavesOf o.b 64).any fun w => decide (((s.team t).weave w).mode = .compute) then some trapWMODE
  else if (List.range 64).any fun i => s.poisonedAt (.pad t o.b) i then some trapUNCORR
  else none

/-- The start, with the factor read and its deferred traps, and then the element writes, which complete the instruction. -/
def execAccscStart (team id : Nat) (s : State) : Out :=
  s.engineStep team id fun o =>
    let x := s.team team
    let begin (s : State) (fs : Map Int) : State := s.mapTeam team fun x => x.mapOp id fun e => { e with phase := .started, blocks := fs }
    let writes : State :=
      let y := x.rowStep o s.freeCtr (x.bankElems o) (x.accValue (s.ctx x.ctx).flush o o.rows)
      let s1 := s.setTeam team y
      match y.opOf id with | some e => if 16 ≤ e.rows then s1.opDone team id else s1 | none => s1
    match o.instr with
    | .accz _ _ _ =>
      if o.begun then .next writes else if x.accDue o then .next (begin s []) else .next s
    | .accsc _ _ _ _ _ =>
      if o.begun then .next writes
      else if !x.accDue o || (weavesOf o.b 64).any fun w => (x.weave w).mode.switching then .next s
      else
        match s.factorTrap team o with
        | some c => .next (s.deferTrap team o c)
        | none =>
          match s.readFactors team o (List.range 16) with
          | some q => .next (begin q.1 q.2)
          | none => .next s
    | _ => .next s

/-! ### wload (R210, R211) -/

def execWload (h : BitVec 4) (w : BitVec 2) (g0 : BitVec 5) (c0 : BitVec 10) (s : State) : Out :=
  let i := Instr.wload h w g0 c0
  s.outsideChain <|
    match lookup? s.curTeam.handles h.toNat with
    | none => .next (s.trap { code := trapBOUNDS })
    | some d =>
      let t := Tile.ofNat d.toNat
      if 32 < g0.toNat + t.segs ∨ weaveCols t.elemBits < c0.toNat + t.cols then .next (s.trap { code := trapBOUNDS })
      else
        match s.probeAll s.cur.team .read t.ranges [] with
        | .error (some va) => .next (s.trap { code := trapACCESS, addr := va })
        | .error none => .next (s.holdProbe i (t.ranges.map fun r => (r.1, r.2, .read)))
        | .ok pages => .next (s.toEngine i 0 0 d pages [])

/-- The switch of a weave by the matrix stream, at the place of its `wload` in program order: after what the engine did for earlier instructions
of the stream, and after the listed events (R184, R321). -/
def State.streamSwitch (s : State) (t w : Nat) (m : WeaveMode) (extra : List Nat) (stamp : Nat) : State :=
  (s.switchEvent t .matrix w extra stamp).mapTeam t fun x => x.setWeave w { x.weave w with mode := m }

/-- Puts an n-bit weight into the bytes of a row. -/
def putWeight (row : List Byte) (n c : Nat) (v : Int) : List Byte :=
  (List.range n).foldl
    (fun bs p =>
      let j := n * c + p
      let b := bs.getD (j / 8) 0
      let m := BitVec.ofNat 8 (2 ^ (j % 8))
      bs.set (j / 8) (if (wrapInt 8 v).testBit p then b ||| m else b &&& ~~~m)) row

/-- The weight that an element stands for (R211): BIN1 keeps its bit. -/
def weightOf (f : Elem) (q : Int) : Int := match f with | .bin1 => if q = 1 then 1 else 0 | _ => q

/-- The byte ranges of block (g, c) of a tile: the element of each of its 32 rows, with the scale byte. -/
def Tile.blockRanges (d : Tile) (g c : Nat) : List (Nat × Nat) :=
  let w := d.elemBits
  ((List.range 32).map fun r => (d.base + (32 * g + r) * d.pitch + c * w / 8, (c * w % 8 + w + 7) / 8)) ++
    if d.unit then [] else [(d.scale + g * d.cols + c, 1)]

/-- Reads ranges one after another; none where a fill fails. -/
def State.readRanges (s : State) (k : AccessKind) (t : Nat) (pages : Map Leaf) : List (Nat × Nat) → Option (State × List Nat × Bool)
  | [] => some (s, [], false)
  | r :: rs =>
      match s.engineRead k t pages 3 r.1 r.2 with
      | none => none
      | some q => (q.1.readRanges k t pages rs).map fun z => (z.1, leValue q.2.bytes :: z.2.1, q.2.wmode || z.2.2)

/-- The elements and the scale of a block, from what its ranges hold. -/
def Tile.blockOf (d : Tile) (c : Nat) (xs : List Nat) : BlockInts × Nat :=
  let w := d.elemBits
  (convertBlock d.elem ((xs.take 32).map fun x => x / 2 ^ (c * w % 8) % 2 ^ w), if d.unit then 0x7F else xs.getD 32 0)

/-- Block (g, c) is read and converted: the instruction holds its weights, and the scale store takes its entry. -/
def State.takeBlock (s : State) (t w : Nat) (o : EngineOp) (d : Tile) (g0 c0 g c : Nat) (xs : List Nat) (wmode : Bool) : State :=
  let b := d.blockOf c xs
  s.mapTeam t fun x =>
    ((x.setWeave w
      { x.weave w with
        scales := Map.set 0x007F (x.weave w).scales (1024 * (g0 + g) + (c0 + c)) (BitVec.ofNat 16 (wrapInt 8 b.1.shift * 256 + b.2)) }).matrixFlags
      (flagIf (b.1.iv.any id) flagIV ||| flagIf wmode flagWMODE)).mapOp o.id fun e =>
        { e with phase := .started, rows := e.rows + 1, blocks := (List.range 32).map fun r => (r, weightOf d.elem (b.1.q.getD r 0)) }

/-- Every cell of a 32-byte sector of a row that holds a weight has been rewritten once column `c` is (R180; log 47). -/
def sectorRewritten (n c0 c j : Nat) : Bool := decide (n * c0 ≤ 256 * j) && decide (min (256 * (j + 1)) (n * weaveCols n) ≤ n * (c0 + c + 1))

/-- The cells of row `r` of the block that the instruction holds. Sectors that are rewritten are good again. -/
def State.putCells (s : State) (k : AccessKind) (t w : Nat) (o : EngineOp) (d : Tile) (g0 c0 g c r : Nat) : Option State :=
  let n := d.elemBits
  let base := w * 0x20000 + 128 * (32 * (g0 + g) + r)
  let lo := n * (c0 + c) / 8
  let hi := (n * (c0 + c + 1) - 1) / 8
  match s.engineFill k o.pages (.pad t base) with
  | none => none
  | some s1 =>
    let row := (List.range 128).map fun j => Map.get 0 (s1.team t).pad (base + j)
    let new := putWeight row n (c0 + c) (Map.get 0 o.blocks r)
    let s2 := s1.engineWrite k (.pad t (base + lo)) 3 0 ((new.drop lo).take (hi + 1 - lo))
    some ((((List.range 4).filter (sectorRewritten n c0 c)).foldl (fun (s : State) j => s.setPoison (padKey t (base + 32 * j)) false) s2).mapTeam t
      fun x => x.mapOp o.id fun e => { e with rows := e.rows + 1 })

/-- The matrix stream's newest switch of a weave. -/
def State.lastSwitch (s : State) (t w : Nat) : List Nat :=
  match s.log.find? fun e => decide (e.cls = .modeSwitch) && decide (e.place = padKey t (w * 0x20000)) && sameAgent e.agent (s.agentOf t 16) with
  | some e => [e.id]
  | none => []

/-- Instructions that a `wload` of a weave waits for: earlier ones that name it, or have still to read it (R184, R211). -/
def State.wloadWaits (s : State) (t id w : Nat) : Bool := ((s.team t).before id).any fun e => e.names w || s.engineReads t w e

/-- The next part of an issued `wload`: the switch to storage; for each block a read and then the cells of its 32 rows; the switch
to compute; the completion. A poisoned source ends it, and what is written stays. -/
def execWloadCompletion (team id : Nat) (s : State) : Out :=
  s.engineStep team id fun o =>
    match o.instr with
    | .wload _ w g0 c0 =>
      let v := (s.team team).weave w.toNat
      let d := Tile.ofNat o.handle.toNat
      let g := o.rows / 33 / d.cols
      let c := o.rows / 33 % d.cols
      if v.mode.switching || s.wloadWaits team id w.toNat then .next s
      else if o.phase = .moved then .next (s.opDone team id)
      else if v.mode = .compute then
        .next ((s.streamSwitch team w.toNat (.toStorage (s.clkOf team + 8)) [] o.stamp).mapTeam team fun x => x.mapOp id fun e => { e with phase := .started })
      else if d.segs ≤ g then
        let own := s.log.filterMap fun e => if e.isEngine && sameAgent e.agent (s.agentOf team 16) && decide (e.stamp = o.stamp) then some e.id else none
        .next (((s.raiseRail team true).streamSwitch team w.toNat (.toCompute (s.clkOf team + 24)) own o.stamp).mapTeam team fun x =>
          (x.setWeave w.toNat { x.weave w.toNat with n := d.elemBits, bin1 := decide (d.fmt = 1) }).mapOp id fun e => { e with phase := .moved })
      else if o.rows % 33 = 0 then
        let rs := d.blockRanges g c
        if rs.any fun r => s.engineHeld team o.pages r.1 r.2 then .next s
        else if rs.any fun r => s.enginePoisoned team o.pages r.1 r.2 then .next (s.deferTrap team o trapUNCORR)
        else
          match s.readRanges (s.engineKind team o .cluster []) team o.pages rs with
          | none => .next s
          | some q => .next (q.1.takeBlock team w.toNat o d g0.toNat c0.toNat g c q.2.1 q.2.2)
      else
        match s.putCells (s.engineKind team o .cluster (s.lastSwitch team w.toNat)) team w.toNat o d g0.toNat c0.toNat g c (o.rows % 33 - 1) with
        | none => .next s
        | some s1 => .next s1
    | _ => .next s

/-- The error that an issued instruction would meet now, as its deferred trap. -/
def State.deferredCode (s : State) (t : Nat) (o : EngineOp) : Option Nat :=
  let x := s.team t
  match o.instr with
  | .mma m _ => if o.seg < mmaPassesBefore m o.rows && x.mmaDue o && x.mmaUncorr o m then some trapUNCORR else none
  | .accsc _ _ _ _ _ =>
      if o.begun || !x.accDue o || (weavesOf o.b 64).any fun w => (x.weave w).mode.switching then none else s.factorTrap t o
  | _ => none

/-- An error found after issue stops the stream (R218). A `wload` finds its own as it copies. -/
def execDeferredTrap (team id : Nat) (s : State) : Out :=
  s.engineStep team id fun o =>
    match s.deferredCode team o with
    | some c => .next (s.deferTrap team o c)
    | none => .next s

/-! ### marrive, mwait, mend (R217) -/

def execMarrive (b : BitVec 4) (s : State) : Out := s.outsideChain (.next (s.toEngine (.marrive b) 0 0 0 [] []))

/-- The arrival, once every earlier instruction has completed: it releases what they did. One that raises BAROVF stops the stream
at the `marrive`, past which it has issued; the record is that of a trap at issue (log 48). -/
def execMarriveArrival (team id : Nat) (s : State) : Out :=
  s.engineStep team id fun o =>
    match o.instr with
    | .marrive b =>
      if !((s.team team).before id).isEmpty then .next s
      else
        match s.arriveLater team 16 b.toNat o.stamp (s.engineEvents team o.stamp) with
        | some s1 => .next (s1.opDone team id)
        | none =>
            .next (({ s.mapTeam team (fun x => x.markDone id 0) with cur := { o.issue with team := team, party := .matrix } }).streamTrap
              { code := trapBAROVF })
    | _ => .next s

/-- Every earlier matrix instruction of the stream has completed. -/
def Team.matrixIdle (x : Team) : Bool := x.engine.all fun o => decide (o.phase = .done)

/-- What follows an `mwait` follows what the engine did before it. -/
def State.mwaitOp (s : State) : State :=
  if s.curTeam.matrixIdle then
    match s.engineEvents s.cur.team s.freeCtr with
    | [] => s.advance
    | evs => (s.bareEvent .wait .team evs).advance
  else s.hold .mwait

def execMwait (s : State) : Out := s.outsideChain (.next s.mwaitOp)

/-- A stream that ends: its end is an event that a later `rdv` orders (R308). -/
def State.endStream (s : State) (extra : List Nat) : State :=
  let s1 := (s.bareEvent .streamEnd .team extra).advance
  (s1.mapCurStream fun y => { y with state := .ended, endEv := s1.lastEvent }).teamEnds s.cur.team

def State.mendOp (s : State) : State :=
  if s.curTeam.matrixIdle then s.endStream (s.engineEvents s.cur.team s.freeCtr) else s.hold .mend

def execMend (s : State) : Out := s.outsideChain (.next s.mendOp)

def execMwaitComplete (team : Nat) (s : State) : Out :=
  match (s.team team).matrix.wait with
  | some w => if w.instr = .mwait ∧ (s.team team).matrix.failing = none then s.whileRuns team (.next (s.resumeAs ⟨team, .matrix⟩ w).mwaitOp) else .next s
  | none => .next s

def execMendComplete (team : Nat) (s : State) : Out :=
  match (s.team team).matrix.wait with
  | some w => if w.instr = .mend ∧ (s.team team).matrix.failing = none then s.whileRuns team (.next (s.resumeAs ⟨team, .matrix⟩ w).mendOp) else .next s
  | none => .next s

end Sys2Proof.Machine
end

