-- ==== Sys2Proof/Machine/Copy.lean ====
section
/-!
DEFINITION. The copy stream and its engine (R220 to R236): the checks at issue, the sector events, completion, and
`cwait`, `carrive` and `cend`.
-/

namespace Sys2Proof.Machine

/-! ### Issue (R222) -/

/-- What an instruction has its issue check. -/
structure CopyReq where
  /-- registers that it reads -/
  regs : List Nat
  bounds : Bool
  route : Bool
  misaligned : Bool
  ranges : List (Nat × Nat × Access)
  tb : Option Nat
  deriving DecidableEq, Repr

/-- A range lies wholly in one window that a copy may use (R223). -/
def State.inOneWindow (s : State) (t : Nat) (a n : Nat) : Bool :=
  decide (n = 0) ||
  match s.decodeGeneric t a with
  | some (.glob _) => match s.decodeGeneric t (a + n - 1) with | some (.glob _) => true | _ => false
  | some (.pad _ o) => decide (o + n ≤ padSize)
  | _ => false

/-- The stream's s register as a number. -/
def State.sNat (s : State) (n : Nat) : Nat := (readSMap s.curStream.s n).val.toNat

/-- Checks 1 to 4, in order. -/
def State.copyTrap (s : State) (q : CopyReq) : Option Nat :=
  if q.regs.any fun r => (readSMap s.curStream.s r).tag.isSome then some trapPOISON
  else if q.bounds then some trapBOUNDS
  else if q.route then some trapROUTE
  else if q.misaligned then some trapMISALIGN
  else if q.ranges.any fun r => !s.inOneWindow s.cur.team r.1 r.2.1 then some trapACCESS
  else none

/-- The weave of the copy's own transaction barrier is in a mode that satisfies a test. -/
def State.barrierMode (s : State) (q : CopyReq) (f : WeaveMode → Bool) : Bool :=
  match q.tb with
  | some o => f (s.padWeave s.cur.team o).mode
  | none => false

def Team.flying (x : Team) : List Copy := x.copies.filter fun c => c.isCopy && !c.complete

/-- Copies in flight per team (R220). -/
def copyPlaces : Nat := 64

/-- Check 7: the translations of every range, or the first page that fails. -/
def State.probeRanges (s : State) (t : Nat) : List (Nat × Nat × Access) → Map Leaf → Except (Option Nat) (Map Leaf)
  | [], m => .ok m
  | r :: rs, m =>
      match s.probeRange t r.2.2 (r.1, r.2.1) m with
      | .ok m1 => s.probeRanges t rs m1
      | .error e => .error e

/-- A copy at issue, before its kind is filled in. -/
def State.newCopy (s : State) (i : Instr) (pages : Map Leaf) : Copy where
  id := s.curTeam.nextOp
  instr := i
  issue := s.cur
  d := 0
  a := 0
  b := 0
  d1 := 0
  d2 := 0
  handle := 0
  pages := pages
  total := 0
  done := []
  idx := []
  oor := []
  started := s.now
  issuedAt := s.gtime
  round := 0
  accepted := []
  acked := []
  sentAt := []
  landed := []
  data := []
  stamp := s.freeCtr
  issueEv := []
  events := []
  around := []
  complete := false

/-- The copy joins the team's engine; the stream goes on (R220). -/
def State.addCopy (s : State) (c : Copy) : State :=
  let s1 := s.bareEvent .copyIssue .cluster []
  (s1.mapCurTeam fun x =>
    { x with copies := x.copies ++ [{ c with issueEv := s1.lastEvent, events := s1.lastEvent ++ c.events }], nextOp := x.nextOp + 1 }).advance

/-- What a copy's kind makes of it at issue. -/
inductive CopyStart where
  | trap (code : Nat)
  | hold
  | go (c : Copy)
  deriving DecidableEq, Repr

/-- The course of R222. `k` sets up the copy once every page is found; a copy of no sector completes at once. -/
def State.copyIssue (s : State) (i : Instr) (q : CopyReq) (k : State → Copy → State × CopyStart) : State :=
  match s.copyTrap q with
  | some code => s.streamTrap { code := code }
  | none =>
    if s.barrierMode q WeaveMode.switching then s.hold i
    else if s.barrierMode q fun m => decide (m = .compute) then s.streamTrap { code := trapWMODE }
    else if copyPlaces ≤ s.curTeam.flying.length then s.hold i
    else
      match s.probeRanges s.cur.team q.ranges [] with
      | .error (some a) => s.streamTrap { code := trapACCESS, addr := a }
      | .error none => s.holdProbe i q.ranges
      | .ok pages =>
        if pages.any fun e => s.peerRouteBad s.curTeam.ctx e.2 then s.streamTrap { code := trapROUTE }
        else
          let r := k s (s.newCopy i pages)
          match r.2 with
          | .trap code => r.1.streamTrap { code := code }
          | .hold => s.hold i
          | .go c => if c.total = 0 then r.1.advance else r.1.addCopy c

/-! ### Accesses of the engine (R224, R320) -/

/-- Sector accesses of a copy are events of the copy stream: marked, at cluster scope, after the copy's issue. -/
def State.copyKind (s : State) (t : Nat) (c : Copy) : AccessKind :=
  ⟨s.agentOf t 17, .marked, .cluster, true, s.partyExtra t .copy ++ c.issueEv, [], c.around, c.stamp⟩

/-- What a sector read gives. -/
structure SectorData where
  bytes : List Byte
  wmode : Bool
  poison : Bool
  deriving DecidableEq, Repr

/-- A sector of zeros. -/
def SectorData.zeros (n : Nat) (poison : Bool) : SectorData := ⟨List.replicate n 0, false, poison⟩

/-- Some byte of a generic range lies in a weave in compute mode. -/
def State.engineComputes (s : State) (t : Nat) (pages : Map Leaf) (a n : Nat) : Bool :=
  (List.range n).any fun i => match s.engineSpot t pages (a + i) with | some p => s.spotComputes p | none => false

/-- Reads `n` bytes at a generic address as the engine does, each in the mode of its weave (R186): zeros where a sector of them is
poisoned (R224); none where a fill fails. -/
def State.engineSector (s : State) (t : Nat) (c : Copy) (a n : Nat) : Option (State × SectorData) :=
  if s.enginePoisoned t c.pages a n then some (s, ⟨List.replicate n 0, s.engineComputes t c.pages a n, true⟩)
  else (s.engineRead (s.copyKind t c) t c.pages (n / 8 + 2) a n).map fun r => (r.1, ⟨r.2.bytes, r.2.wmode, false⟩)

/-- A sector write, with the flags that it sets in the barrier: not performed in compute mode (R186), nor where it covers part of a
poisoned sector (R224). None where a fill fails. -/
def State.sectorWrite (s : State) (k : AccessKind) (c : Nat) (pages : Map Leaf) (p : Spot) (bs : List Byte) (poison : Bool) : Option (State × Nat) :=
  if s.spotComputes p then some (s, txbWMODE)
  else if bs.length < 32 && s.sectorPoisoned p bs.length then some (s, txbPOISON)
  else
    match s.engineFill k pages p with
    | none => none
    | some s1 =>
      let s2 := ((s1.touchL2 c p bs.length true).touchMsc p).engineWrite k p (bs.length / 8 + 2) 0 bs
      some (s2.setPoison (s2.spotKey p 0) poison, if poison then txbPOISON else 0)

/-- Events written since the log's next identifier was `n`. -/
def State.writesSince (s : State) (n : Nat) : List Nat :=
  ((s.log.takeWhile fun e => decide (n ≤ e.id)).filter fun e => !e.wr.isEmpty).map fun e => e.id

/-- Events of a copy stream since the log's next identifier was `n`. -/
def State.streamEvents (s : State) (t n : Nat) : List Nat :=
  ((s.log.takeWhile fun e => decide (n ≤ e.id)).filter fun e => e.ofCopy && sameAgent e.agent (s.agentOf t 17)).map fun e => e.id

/-- The copy has made the events of its stream since the log's next identifier was `n`: what waits for it follows them (R307). -/
def State.madeSince (s : State) (t n : Nat) (c : Copy) : Copy := { c with events := unionIds c.events (s.streamEvents t n) }

/-- A barrier of an engine is updated: a flag at a time, then the sectors counted (R238). Not performed while the barrier's weave is
in compute mode (R223, R242). None where the barrier's line cannot be filled. -/
def State.engineCount (s : State) (k : AccessKind) (pages : Map Leaf) (m : Nat) (tb : Option Nat) (flags : Nat) (evs : List Nat) (counted : Bool) :
    Option State :=
  match tb with
  | none => some s
  | some o =>
    if (s.padWeave m o).mode = .compute then some s
    else
      (s.engineFill k pages (.pad m o)).map fun s1 =>
        let update (s : State) (u : TxbUpdate) (evs : List Nat) : State := (s.txbUpdate m o u evs).getD s
        let s2 := [txbOOR, txbWMODE, txbPOISON].foldl (fun s f => if flags / f % 2 = 1 then update s (.flag f) [] else s) s1
        if counted then update s2 .counted evs else s2

/-- One sector counted in a barrier, with its flags. -/
def State.countSector (s : State) (k : AccessKind) (pages : Map Leaf) (m : Nat) (tb : Option Nat) (flags : Nat) (evs : List Nat) : Option State :=
  s.engineCount k pages m tb flags evs true

/-- Several sectors counted one after another. -/
def State.countSectors (s : State) (k : AccessKind) (pages : Map Leaf) (m : Nat) (tb : Option Nat) (flags : Nat) (evs : List Nat) : Nat → Option State
  | 0 => some s
  | n + 1 => (s.countSector k pages m tb flags evs).bind fun s => s.countSectors k pages m tb flags evs n

/-! ### Copies of the team -/

def Team.copyOf (x : Team) (id : Nat) : Option Copy := x.copies.find? fun c => decide (c.id = id)

def Team.mapCopy (x : Team) (id : Nat) (f : Copy → Copy) : Team :=
  { x with copies := x.copies.map fun c => if c.id = id then f c else c }

def State.putCopy (s : State) (t : Nat) (c : Copy) : State := s.mapTeam t fun x => x.mapCopy c.id fun _ => c

/-! ### bcopy, bcopyr, bcopymc, cpref (R228 to R231) -/

/-- Some number is not a multiple of `n`. -/
def unaligned (n : Nat) (xs : List Nat) : Bool := xs.any fun x => decide (x % n ≠ 0)

def execBcopy (x : CopyX) (d a b : BitVec 5) (s : State) : Out :=
  let n := s.sNat d.toNat
  let da := s.sNat a.toNat
  let sa := s.sNat b.toNat
  .next <| s.copyIssue (.bcopy x d a b)
    { regs := [d.toNat, a.toNat, b.toNat], bounds := decide (2 ^ 32 < n), route := false, misaligned := unaligned 16 [n, da, sa]
      ranges := [(sa, n, .read), (da, n, .write)], tb := tbOf x }
    fun s c => (s, .go { c with d := n, a := da, b := sa, total := sectors da n })

def execBcopyr (x : CopyX) (d a : BitVec 5) (h : BitVec 4) (s : State) : Out :=
  let v := lookup? s.curTeam.handles h.toNat
  let hd := v.getD 0
  let t := Tile.ofNat hd.toNat
  let da := s.sNat a.toNat
  let p := if d = 0 then t.rowBytes else s.sNat d.toNat
  let rows := List.range t.rows
  .next <| s.copyIssue (.bcopyr x d a h)
    { regs := [d.toNat, a.toNat], bounds := v.isNone || (decide (p ≠ 0) && decide (p < t.rowBytes)), route := false
      misaligned := unaligned 16 [t.base, t.pitch, da, p]
      ranges := rows.flatMap fun k => [(t.base + k * t.pitch, t.rowBytes, .read), (da + k * p, t.rowBytes, .write)]
      tb := tbOf x }
    fun s c => (s, .go { c with d := p, a := da, handle := hd, total := tileSectors da p t.rowBytes t.rows })

/-- A mask names only members of the gang; the team itself needs a gang (R231). -/
def State.maskBad (s : State) (m : Nat) : Bool :=
  (maskSlots m).any fun i => s.curTeam.gang.isNone || (s.member s.cur.team i).isNone

def execBcopymc (x : CopyX) (d a b : BitVec 5) (len : BitVec 9) (s : State) : Out :=
  let r := d.toNat
  let da := s.sNat a.toNat
  let sa := s.sNat b.toNat
  let n := mcLength len
  let mask := s.sNat r + s.sNat (r + 1) * 2 ^ 64 + s.sNat (r + 2) * 2 ^ 128
  let glob : Bool := match s.decodeGeneric s.cur.team sa with | some (.glob _) => true | _ => false
  .next <| s.copyIssue (.bcopymc x d a b len)
    { regs := [r, r + 1, r + 2, a.toNat, b.toNat], bounds := decide (0x80000 < da + n), route := false
      misaligned := unaligned 128 [da, sa]
      ranges := if glob && !s.maskBad mask then (if mask = 0 then [] else [(sa, n, .read)]) else [(2 ^ 56, 1, .read)]
      tb := tbOf x }
    fun s c =>
      (s, .go { c with d := s.sNat r, d1 := s.sNat (r + 1), d2 := s.sNat (r + 2), a := da, b := sa,
                       total := (maskSlots mask).length * sectors da n })

/-- One line is read into the cluster L2 of the issuing team; one outside the global window, or whose page is not there, is skipped. -/
def State.prefetch (s : State) (a : Nat) : State :=
  let t := s.cur.team
  match s.decodeGeneric t a with
  | some (.glob va) =>
      match s.find t va .read with
      | .leaf f => (s.noteMiss t va).touchL2 s.curTeam.cluster (.mem (s.physKey s.curTeam.ctx f va) f) 128 false
      | _ => s
  | _ => s

/-- The lines that `n` bytes from an address touch. -/
def linesOf (a n : Nat) : List Nat := if n = 0 then [] else (List.range ((a + n - 1) / 128 - a / 128 + 1)).map fun i => (a / 128 + i) * 128

/-- `cpref` makes checks 1 and 2 only, and brings the range's lines into the cluster L2; it changes no value (R230). A read that finds the
miss table full waits (R341). -/
def execCpref (d b : BitVec 5) (s : State) : Out :=
  let a := s.sNat b.toNat
  let n := s.sNat d.toNat
  let full (l : Nat) : Bool := match s.decodeGeneric s.cur.team l with | some (.glob va) => decide (s.find s.cur.team va .read = .full) | _ => false
  if (readSMap s.curStream.s d.toNat).tag.isSome || (readSMap s.curStream.s b.toNat).tag.isSome then
    .next (s.streamTrap { code := trapPOISON })
  else if 2 ^ 32 < n then .next (s.streamTrap { code := trapBOUNDS })
  else
    match (linesOf a n).find? full with
    | some l => .next ((s.waitMiss s.cur.team l).hold (.cpref d b))
    | none => .next ((linesOf a n).foldl (fun s l => s.prefetch l) s).advance

/-! ### gather and scatter (R232 to R234) -/

/-- Reads the index of one entry, once; none while it is held, or its fill fails. An index in a compute-mode weave reads as zero. One read
poisoned counts as in range: DESIGN CHOICE, log 64 (R234). -/
def State.readIndex (s : State) (t : Nat) (c : Copy) (i : Nat) : Option (State × Copy) :=
  if (lookup? c.idx i).isSome then some (s, c)
  else if s.engineHeld t c.pages (c.d + 4 * i) 4 then none
  else
    (s.engineSector t c (c.d + 4 * i) 4).map fun r =>
      let v := leValue r.2.bytes
      if r.2.poison then (r.1, { c with idx := Map.put c.idx i badIndex })
      else
        (r.1,
          { c with
            idx := Map.put c.idx i v
            oor := Map.set false c.oor i (decide (c.bound ≤ v))
            data := if r.2.wmode then Map.put c.data i 1 else c.data })

def State.readIndices (s : State) (t : Nat) (c : Copy) : List Nat → Option (State × Copy)
  | [] => some (s, c)
  | i :: is => (s.readIndex t c i).bind fun r => r.1.readIndices t r.2 is

/-- The common issue of `gather` and `scatter`; `table` is the table's base and `side` the contiguous side. -/
def State.indexedIssue (s : State) (i : Instr) (x : CopyX) (d a b : BitVec 5) (trap : Bool) (table side : Nat) (tableAcc sideAcc : Access) :
    State :=
  let r := d.toNat
  let list := s.sNat r
  let par := s.sNat (r + 1)
  let bm := s.sNat (r + 2)
  let n := par % 2 ^ 16
  let rb := par / 2 ^ 16 % 2 ^ 16 * 32
  let bound := par / 2 ^ 32
  s.copyIssue i
    { regs := [r, r + 1, r + 2, a.toNat, b.toNat]
      bounds := unaligned 4 [list, bm] || decide (n = 0) || decide (4096 < n) || decide (rb = 0) || decide (32768 * 32 < rb)
      route := false
      misaligned := unaligned 32 [table, side]
      ranges := [(list, 4 * n, .read), (table, bound * rb, tableAcc), (side, n * rb, sideAcc)] ++
        (if bm = 0 then [] else [(bm, (n + 31) / 32 * 4, .write)])
      tb := tbOf x }
    fun s c =>
      let c1 := { c with d := list, d1 := par, d2 := bm, a := s.sNat a.toNat, b := s.sNat b.toNat, total := n * (rb / 32) }
      if trap then
        match s.readIndices s.cur.team c1 (List.range n) with
        | none => (s, .hold)
        | some q =>
          if (List.range n).any fun i => Map.get false q.2.oor i then (q.1, .trap trapBOUNDS)
          else (q.1, .go (q.1.madeSince s.cur.team (nextId s.log) q.2))
      else (s, .go c1)

def execGather (x : CopyX) (d a b : BitVec 5) (trap : Bool) (s : State) : Out :=
  .next (s.indexedIssue (.gather x d a b trap) x d a b trap (s.sNat b.toNat) (s.sNat a.toNat) .read .write)

def execScatter (x : CopyX) (d a b : BitVec 5) (trap : Bool) (s : State) : Out :=
  .next (s.indexedIssue (.scatter x d a b trap) x d a b trap (s.sNat a.toNat) (s.sNat b.toNat) .write .read)

/-! ### Sector writes -/

/-- The entries whose indices counted sector `k` needs. -/
def Copy.needs (c : Copy) (k : Nat) : List Nat :=
  match c.instr with
  | .gather _ _ _ _ _ => [k / (c.rowBytes / 32)]
  | .scatter _ _ _ _ _ => List.range (k / (c.rowBytes / 32) + 1)
  | _ => []

/-- In a `scatter`, an earlier entry of the same table row has a sector yet to be done (R234). -/
def Copy.blocked (c : Copy) (k : Nat) : Bool :=
  match c.instr with
  | .scatter _ _ _ _ _ =>
      let per := c.rowBytes / 32
      (List.range (k / per)).any fun j =>
        decide (lookup? c.idx j = lookup? c.idx (k / per)) && (List.range per).any fun u => !c.done.contains (j * per + u)
  | _ => false

/-- The flags that an entry's index brings to each of its sectors. -/
def Copy.entryFlags (c : Copy) (k : Nat) : Nat :=
  match c.needs k with
  | [] => 0
  | is =>
      let i := is.getLastD 0
      (if Map.get false c.oor i then txbOOR else 0) ||| (if Map.get 0 c.idx i = badIndex then txbPOISON else 0) |||
        (if (lookup? c.data i).isSome then txbWMODE else 0)

/-- The team whose scratchpad and barrier a counted sector goes to: a member, or the issuing team. -/
def State.pieceTeam (s : State) (t : Nat) (c : Copy) (k : Nat) : Option Nat :=
  match c.instr with
  | .bcopymc _ _ _ _ len => s.member t ((maskSlots c.mask).getD (k / sectors c.a (mcLength len)) 192)
  | _ => some t

/-- Where a counted sector is written. -/
def State.pieceSpot (s : State) (t : Nat) (c : Copy) (k : Nat) (p : Piece) : Option Spot :=
  match p.dest, c.instr with
  | none, _ => none
  | some o, .bcopymc _ _ _ _ _ => (s.pieceTeam t c k).map fun m => .pad m o
  | some a, _ => s.engineSpot t c.pages a

/-- What a counted sector carries; none where a fill fails. A multicast reads each line once, from the issuing team's cluster
(R287). -/
def State.pieceData (s : State) (t : Nat) (c : Copy) (k : Nat) (p : Piece) : Option (State × Copy × SectorData) :=
  match p.src with
  | .zero => some (s, c, SectorData.zeros p.len false)
  | .poison => some (s, c, SectorData.zeros p.len true)
  | .addr a =>
    match c.instr with
    | .bcopymc _ _ _ _ len =>
        let j := k % sectors c.a (mcLength len)
        match lookup? c.data j with
        | some v => some (s, c, ⟨leBytes 32 (v % 2 ^ 256), false, decide (2 ^ 256 ≤ v)⟩)
        | none =>
          (s.engineSector t c a p.len).map fun r =>
            (r.1, { c with data := Map.put c.data j (leValue r.2.bytes + if r.2.poison then 2 ^ 256 else 0) }, r.2)
    | _ => (s.engineSector t c a p.len).map fun r => (r.1, c, r.2)

/-- With its last sector a copy writes its outcome bitmap: where, and how many words. -/
def Copy.bitmap (c : Copy) : Option (Nat × Nat) :=
  let words := (c.entries + 31) / 32
  match c.instr with
  | .gather _ _ _ _ b => if b || decide (c.d2 = 0) then none else some (c.d2, words)
  | .scatter _ _ _ _ b => if b || decide (c.d2 = 0) then none else some (c.d2, words)
  | _ => none

/-- The next sector to be done is the last. -/
def Copy.atLast (c : Copy) : Bool := decide (c.done.length + 1 = c.total)

/-- The sector's source or place, a weave that it or its count meets, or the bitmap that goes with it is held (R179, R297, R334). -/
def State.pieceHeld (s : State) (t : Nat) (c : Copy) (k : Nat) (p : Piece) : Bool :=
  (match s.pieceSpot t c k p with | some (.pad m o) => (s.padWeave m o).mode.switching | some (.mem key f) => s.leaseHeld none key p.len f | _ => false) ||
    (match p.src with | .addr a => s.engineHeld t c.pages a p.len | _ => false) ||
    (match s.pieceTeam t c k, c.barrier with | some m, some o => (s.padWeave m o).mode.switching | _, _ => false) ||
    (c.atLast && match c.bitmap with | some b => s.engineHeld t c.pages b.1 (4 * b.2) | none => false)

/-- The team whose slot moves, so that the sector waits in the relocation buffer: that of its scratchpad, or of its barrier. -/
def State.pieceMoves (s : State) (t : Nat) (c : Copy) (k : Nat) (p : Piece) : Option Nat :=
  let at' (m : Nat) : Option Nat := if s.moving m then some m else none
  match s.pieceSpot t c k p, c.barrier with
  | some (.pad m _), none => at' m
  | some (.pad m _), some _ => (at' m).orElse fun _ => (s.pieceTeam t c k).bind at'
  | _, some _ => (s.pieceTeam t c k).bind at'
  | _, none => none

/-- One word of the outcome bitmap. -/
def Copy.bitmapWord (c : Copy) (w : Nat) : Nat :=
  (List.range 32).foldl
    (fun acc i => if 32 * w + i < c.entries && Map.get false c.oor (32 * w + i) then acc + 2 ^ i else acc) 0

/-- Writes the bitmap (R233, R234): marked, at cluster scope, before the last sector is counted. None where a fill fails. -/
def State.writeBitmap (s : State) (t : Nat) (c : Copy) : Option (State × Nat) :=
  match c.bitmap with
  | none => some (s, 0)
  | some b =>
    (List.range b.2).foldl
      (fun (a : Option (State × Nat)) w =>
        a.bind fun a =>
          match a.1.engineSpot t c.pages (b.1 + 4 * w) with
          | some p =>
              (a.1.sectorWrite (a.1.copyKind t c) (s.team t).cluster c.pages p (leBytes 4 (c.bitmapWord w)) false).map fun r => (r.1, a.2 ||| r.2)
          | none => some a) (some (s, 0))

/-- Sector writes of the copy on the same bytes: they lie before a later entry's write to the row (R234). -/
def State.rowBefore (s : State) (c : Copy) (p : Spot) (n : Nat) : List Nat :=
  match c.instr with
  | .scatter _ _ _ _ _ =>
      c.events.filter fun i => match eventOf s.log i with | some e => overlap (e.wr.map fun w => w.1) (s.spotKeys p n) | none => false
  | _ => []

/-- The flags of a sector's data. -/
def SectorData.flags (d : SectorData) : Nat := (if d.wmode then txbWMODE else 0) ||| if d.poison then txbPOISON else 0

/-- The line of global memory in the cluster L2 that a counted sector is written to (R227). -/
def State.pieceLine (s : State) (t : Nat) (c : Copy) (k : Nat) : Option Nat :=
  match c.piece k with
  | some p => match s.pieceSpot t c k p with | some (.mem key f) => if f.location = 0 then some (key / 128) else none | _ => none
  | none => none

/-- Counted sectors of a copy, but for `k`, that are still to be written to the line of `k`: a line has four sectors. -/
def State.lineOpen (s : State) (t : Nat) (c : Copy) (k line : Nat) : Bool :=
  (List.range 7).any fun i =>
    let j := k + i - 3
    decide (3 ≤ k + i) && decide (j ≠ k) && decide (j < c.total) && !c.done.contains j && decide (s.pieceLine t c j = some line)

/-- The write of a sector has been performed: its line stays pinned for the line's other sectors, or its pin ends. -/
def State.movePin (s : State) (t : Nat) (c : Copy) (k : Nat) : State :=
  match s.pieceLine t c k with
  | none => s
  | some line =>
    let cl := (s.team t).cluster
    let x := s.cluster cl
    let rest := x.pins.filter fun p => decide (p ≠ (line, t, c.id))
    s.setCluster cl { x with pins := if s.lineOpen t c k line then (line, t, c.id) :: rest else rest }

/-- Ways of one set that may be pinned at a time (R227). -/
def pinLimit : Nat := 4

/-- A copy that needs a fifth pinned way in a set stalls. -/
def State.pinStalls (s : State) (t : Nat) (c : Copy) (k : Nat) : Bool :=
  match s.pieceLine t c k with
  | none => false
  | some line =>
    let cl := (s.team t).cluster
    let others := (((s.cluster cl).pins.map fun p => p.1).eraseDups).filter fun l => decide (l2Set l = l2Set line) && s.pinned cl l
    !others.contains line && decide (pinLimit ≤ others.length)

/-- Counted sector `k` is written and counted, with the bitmap before the last; none where a fill fails. -/
def State.finishPiece (s : State) (t : Nat) (c : Copy) (k : Nat) (p : Piece) (bs : List Byte) (poison : Bool) (flags : Nat) : Option State :=
  let n0 := nextId s.log
  let kind := s.copyKind t c
  let w :=
    match s.pieceSpot t c k p with
    | some q => s.sectorWrite { kind with extra := kind.extra ++ s.rowBefore c q p.len } (s.team t).cluster c.pages q bs poison
    | none => some (s, 0)
  w.bind fun w =>
    (if c.atLast then w.1.writeBitmap t c else some (w.1, 0)).bind fun b =>
      let evs := b.1.writesSince n0
      let fl := c.entryFlags k ||| w.2 ||| b.2 ||| flags
      (match b.1.pieceTeam t c k with | some m => b.1.countSector kind c.pages m c.barrier fl evs | none => some b.1).map fun (s1 : State) =>
        (s1.putCopy t { c with done := k :: c.done, events := evs ++ c.events }).movePin t { c with done := k :: c.done } k

/-- A run of bytes of the engine meets a barrier in use (R242). -/
def State.runMeets (s : State) (t : Nat) (pages : Map Leaf) (a n : Nat) : Bool :=
  (List.range (sectors a n)).any fun k =>
    let r := runPiece a n k
    match s.engineSpot t pages (a + r.1) with
    | some p => s.meetsBarrier p r.2
    | none => false

/-- What counted sector `k` writes meets a barrier in use: its piece, or with the last sector the outcome bitmap. -/
def State.pieceRaces (s : State) (t : Nat) (c : Copy) (k : Nat) (p : Piece) : Bool :=
  (match s.pieceSpot t c k p with | some q => s.meetsBarrier q p.len | none => false) ||
    (c.atLast && match c.bitmap with | some b => s.runMeets t c.pages b.1 (4 * b.2) | none => false)

/-- A sector stands in the relocation buffer. -/
def State.inBuffer (s : State) (t id k : Nat) : Bool :=
  (s.cluster (s.team t).cluster).buffer.any fun h => decide (h.copy = some (t, id, k))

/-- A sector whose source has been read is written and counted, or held for a slot that moves, once the buffer has room (R297,
R298). None where it must wait. -/
def State.placePiece (s : State) (t : Nat) (c : Copy) (k : Nat) (p : Piece) (d : SectorData) : Option State :=
  match s.pieceMoves t c k p with
  | none => (s.finishPiece t c k p d.bytes d.poison d.flags).map fun s1 => s1.raceIn (s.pieceRaces t c k p) (s.team t).ctx
  | some m =>
    if s.bufferRoom m 1 then
      some ((s.putCopy t c).holdWrite (s.copyKind t c) m ((List.range p.len).map fun i => (i, d.bytes.getD i 0)) d.poison d.flags (some (t, c.id, k)))
    else none

/-- The team whose slot moves, so that a read of counted sector `k` waits in the relocation buffer: of an index, or of the source
(R297). -/
def State.sourceMoves (s : State) (t : Nat) (c : Copy) (k : Nat) : Option Nat :=
  let idx := ((c.needs k).filter fun i => (lookup? c.idx i).isNone).map fun i => c.d + 4 * i
  let src := match c.piece k with | some p => (match p.src with | .addr a => [a] | _ => []) | none => []
  (idx ++ src).findSome? fun a => match s.engineSpot t c.pages a with | some (.pad m _) => if s.moving m then some m else none | _ => none

/-- A counted sector is read, then performed and counted or held for a slot that moves, as far as nothing of it must wait. -/
def State.doSector (s : State) (t : Nat) (c : Copy) (k : Nat) : State :=
  match s.readIndices t c (c.needs k) with
  | none => s
  | some r =>
    let c1 := r.1.madeSince t (nextId s.log) r.2
    let s1 := r.1.putCopy t c1
    match c1.piece k with
    | none => s
    | some p =>
      if c1.blocked k || s1.pieceHeld t c1 k p || s1.pinStalls t c1 k then s1
      else
        match s1.pieceData t c1 k p with
        | none => s1
        | some q => (q.1.placePiece t (q.1.madeSince t (nextId s1.log) q.2.1) k p q.2.2).getD s1

/-- A counted sector of a copy in flight is performed and counted (R223, R224); one whose read is for a slot that moves waits in the
relocation buffer. -/
def execCopySectorWrite (team id sector : Nat) (s : State) : Out :=
  match (s.team team).copyOf id with
  | none => .next s
  | some c =>
    if c.complete || c.done.contains sector || decide (c.total ≤ sector) || s.inBuffer team id sector then .next s
    else
      match s.sourceMoves team c sector with
      | some m => .next (if s.bufferRoom m 1 then s.holdWrite (s.copyKind team c) m [] false 0 (some (team, id, sector)) else s)
      | none => .next (s.doSector team c sector)

/-- A write stays in the relocation buffer: the mapped line under it cannot be filled. -/
def State.keepHeld (s : State) (h : HeldWrite) : State :=
  let c := (s.team h.team).cluster
  s.setCluster c { s.cluster c with buffer := (s.cluster c).buffer ++ [h] }

/-- A held access is performed at the destination (R293, R297): a write into a weave in compute mode is not (R186). -/
def State.replayWrite (s : State) (h : HeldWrite) : State :=
  match h.copy with
  | some (t, id, k) =>
      match (s.team t).copyOf id with
      | none => s
      | some c =>
        if h.bytes.isEmpty then s.doSector t c k
        else
          match c.piece k with
          | none => s
          | some p =>
            match s.finishPiece t c k p (h.bytes.map fun b => b.2) h.poison h.flags with
            | none => s.keepHeld h
            | some s1 => s1.raceIn (s.pieceRaces t c k p) (s.team t).ctx
  | none =>
    let p : Spot := .pad h.team ((h.bytes.headD (0, 0)).1)
    if s.spotComputes p then s
    else
      match s.engineFill h.kind [] p with
      | none => s.keepHeld h
      | some s1 =>
        let wr := h.bytes.map fun b => (padKey h.team b.1, s1.newest (.pad h.team b.1) 0, b.2)
        (h.bytes.foldl (fun (s : State) b => s.storeByte (.pad h.team b.1) 0 b.2) s1).logEvent h.kind (h.kind.spec p false 0 [] wr) [] false

/-- Two held writes are of one store of one group. -/
def HeldWrite.sameStore (h e : HeldWrite) : Bool :=
  h.copy.isNone && e.copy.isNone && sameAgent h.ev.agent e.ev.agent && decide (h.ev.stamp = e.ev.stamp) && decide (h.team = e.team)

/-- The sectors that the units of one held store have filled are poisoned no more (R225). -/
def State.mendHeld (s : State) (hs : List HeldWrite) : State :=
  s.mendSectors ((hs.flatMap fun h => h.bytes.map fun b => (h.team, b.1)).filterMap fun b =>
    if s.spotComputes (.pad b.1 b.2) then none else some (padKey b.1 b.2))

/-- Held accesses are performed in order; `all`: those of the release. -/
def State.replayAll (s : State) (all : List HeldWrite) : List HeldWrite → State
  | [] => s
  | h :: hs =>
      let s1 := s.replayWrite h
      (if h.copy.isNone && !hs.any h.sameStore then s1.mendHeld (all.filter h.sameStore) else s1).replayAll all hs

/-! ### Completion (R224, R235, R376) -/

/-- Everything of a copy has been performed and counted. A `coll` completes by its own events. -/
def Copy.finished (c : Copy) : Bool :=
  match c.instr with
  | .send _ tracked _ _ _ =>
      let n := frames c.d1
      if tracked then decide (n ≤ c.acked.length) else decide (n ≤ c.accepted.length)
  | .coll _ _ _ _ _ => false
  | .carrive _ => false
  | _ => decide (c.total ≤ c.done.length)

/-- A copy completes; the watchdog's interval starts afresh (R260). -/
def State.copyDone (s : State) (t : Nat) (c : Copy) : State :=
  (s.putCopy t { c with complete := true }).mapTeam t fun x => { x with idleSince := s.gtime }

def execCopyCompletion (team id : Nat) (s : State) : Out :=
  match (s.team team).copyOf id with
  | none => .next s
  | some c => if c.finished && !c.complete then .next (s.copyDone team c) else .next s

/-- Events of a list of copies. -/
def copyEvents (cs : List Copy) : List Nat := cs.flatMap fun c => c.events

/-- Events that the collectives among some copies put before what follows their completion, on their buffers (R322). -/
def aroundOf (cs : List Copy) : List Nat := cs.flatMap fun c => c.around

/-- Every earlier copy of the stream has completed. -/
def Team.copyIdle (x : Team) : Bool := x.copies.all fun c => c.complete

/-- The stream's copies, all complete, leave the engine; what follows lies after their sector writes (R320). -/
def State.cwaitOp (s : State) : State :=
  if s.curTeam.copyIdle then
    (((s.bareEvent .wait .cluster (copyEvents s.curTeam.copies)).bindBytes (aroundOf s.curTeam.copies)).mapCurTeam fun x => { x with copies := [] }).advance
  else s.hold .cwait

def execCwait (s : State) : Out := .next s.cwaitOp

def execCwaitComplete (team : Nat) (s : State) : Out :=
  match (s.team team).copy.wait with
  | some w => if w.instr = .cwait then s.whileRuns team (.next (s.resumeAs ⟨team, .copy⟩ w).cwaitOp) else .next s
  | none => .next s

/-- `carrive` stands among the copies until those before it are complete. -/
def execCarrive (b : BitVec 4) (s : State) : Out :=
  let c := s.newCopy (.carrive b) []
  .next (s.mapCurTeam fun x => { x with copies := x.copies ++ [c], nextOp := x.nextOp + 1 }).advance

/-- The arrival; it releases the sector writes of the copies before it (R235). It is made while the team runs. -/
def execCarriveArrival (team id : Nat) (s : State) : Out :=
  let x := s.team team
  match x.copyOf id with
  | none => .next s
  | some c =>
    match c.instr with
    | .carrive b =>
      let before := x.copies.filter fun e => decide (e.id < id)
      if c.complete || !before.all (fun e => e.complete) then .next s
      else s.whileRuns team <|
        let s1 := s.putCopy team { c with complete := true }
        match s1.arriveLater team 17 b.toNat c.stamp (copyEvents before) with
        | some s2 => .next (s2.bindBytes (aroundOf before))
        | none => .next (({ s1 with cur := { c.issue with team := team, party := .copy } }).streamTrap { code := trapBAROVF })
    | _ => .next s

/-- The stream ends once its copies are complete. -/
def State.cendOp (s : State) : State :=
  if s.curTeam.copyIdle then (((s.bareEvent .wait .cluster (copyEvents s.curTeam.copies)).bindBytes (aroundOf s.curTeam.copies)).mapCurTeam fun x => { x with copies := [] }).endStream
      (copyEvents s.curTeam.copies)
  else s.hold .cend

def execCend (s : State) : Out := .next s.cendOp

def execCendComplete (team : Nat) (s : State) : Out :=
  match (s.team team).copy.wait with
  | some w => if w.instr = .cend then s.whileRuns team (.next (s.resumeAs ⟨team, .copy⟩ w).cendOp) else .next s
  | none => .next s

end Sys2Proof.Machine
end

