-- ==== Sys2Proof/Machine/Fabric.lean ====
section
/-!
DEFINITION. The fabric: `send` and its frames (R376), frames received (R372, R375, R376), and `coll` (R378, R379, R322).
-/

namespace Sys2Proof.Machine

/-! ### Records of the fault ring -/

/-- A range record of one page and of a cause of its own in a context's fault ring. -/
def State.rangeRecord (s : State) (tag va cause access : Nat) : State :=
  s.deliver ⟨va / 2 ^ 18 * 2 ^ 18, 1, tag, cause, access, 0, 0⟩

/-! ### Frames (R372, R373) -/

/-- The virtual channel of a frame: 0 requests, 1 responses, 2 collectives, 3 management. DEDUCED, log 27: the kinds that each carries. -/
def frameChannel (f : Frame) : Nat :=
  match f.kind with
  | 0 | 1 | 2 | 4 => 0
  | 3 | 5 => 1
  | 6 => 2
  | _ => 3

/-- Payload flits of 64 bytes for `n` bytes. -/
def flitsOf (n : Nat) : Nat := (n + 63) / 64

/-- A frame has up to eight. -/
def flitLimit : Nat := 8

/-- The header before its check (Table 24.1). -/
def frameHeader (f : Frame) : List Byte :=
  leBytes 8 f.turn ++ leBytes 2 f.ctx ++ leBytes 2 f.src ++ leBytes 2 f.dst ++ leBytes 1 f.kind ++ leBytes 1 f.flits ++ leBytes 8 f.addr ++ leBytes 4 f.seq

def frameChecked (f : Frame) : Frame := { f with check := Config.headerCheck (leValue (frameHeader f)) % 2 ^ 32 }

/-- A frame as its source makes it. -/
def newFrame (ctx src dst kind addr seq : Nat) (payload : List Byte) (poison : List Nat) (path : Nat) (stream : Option Nat) (send : Nat) : Frame :=
  frameChecked ⟨path, ctx, src, dst, kind, flitsOf payload.length, addr, seq, 0, payload, poison, none, path, stream, send⟩

/-- The output port on which a Sett forwards a frame, and the frame as it leaves it (R373). -/
def frameHop (f : Frame) : Nat × Frame := (f.turn % 2 ^ 9, frameChecked { f with turn := f.turn / 2 ^ 9 })

/-- A frame after some hops of its path. -/
def frameTravel : Nat → Frame → Frame
  | 0, f => f
  | n + 1, f => frameTravel n (frameHop f).2

/-- Sett hops of a turn string (Table 24.2). -/
def hopsOf (turn : Nat) : Nat := bitsOf turn 63 60

/-- A frame is one that the links can bring: a well-formed payload, and its turn field is what the hops of its path leave (R372, R373). -/
def frameArrives (f : Frame) : Bool :=
  decide (f.flits = flitsOf f.payload.length) && decide (f.flits ≤ flitLimit) && decide (hopsOf f.path ≤ 6) &&
    decide (f.turn = f.path % 2 ^ 64 / 2 ^ (9 * hopsOf f.path))

/-- The package, or a unit on its path, is out of service (R374). -/
def Package.pathBad (p : Package) (path dst : Nat) : Bool := p.routeBad path || p.retiredPackages.contains dst

/-! ### send (R376) -/

def State.isGlobal (s : State) (a : Nat) : Bool :=
  match s.decodeGeneric s.cur.team a with
  | some (.glob _) => true
  | _ => false

/-- A range that lies in no window. -/
def noWindow : Nat × Nat × Access := (2 ^ 56, 1, .read)

def execSend (x : CopyX) (tracked : Bool) (d a b : BitVec 5) (s : State) : Out :=
  let turn := s.sNat d.toNat
  let len := s.sNat (d.toNat + 1)
  let n := len % 2 ^ 32
  let da := s.sNat a.toNat
  let sa := s.sNat b.toNat
  .next <| s.copyIssue (.send x tracked d a b)
    { regs := [d.toNat, d.toNat + 1, a.toNat, b.toNat], bounds := decide (2 ^ 32 ≤ len) || decide (2 ^ 20 < n)
      route := s.pkg.routeBad turn || s.pkg.retiredPackages.contains (Config.cabling turn)
      misaligned := unaligned 16 [da, sa, n]
      ranges := (if n = 0 || (s.isGlobal da && s.isGlobal (da + n - 1)) then [] else [noWindow]) ++ [(sa, n, .read)]
      tb := tbOf x }
    fun s c => (s, .go { c with d := turn, d1 := n, a := da, b := sa, total := sectors sa n })

/-- Reads a frame's source, sector by sector: the bytes, the parts of 16 bytes that are poisoned, and the flags that they bring; none
where a fill fails. -/
def State.readFrame (s : State) (t : Nat) (c : Copy) (f : Nat) : Option (State × List Byte × List Nat × Nat) :=
  let a := c.b + 512 * f
  let n := min c.d1 (512 * (f + 1)) - 512 * f
  (List.range (sectors a n)).foldl
    (fun (o : Option (State × List Byte × List Nat × Nat)) k =>
      o.bind fun q =>
        let p := runPiece a n k
        (q.1.engineSector t c (a + p.1) p.2).map fun r =>
          let parts := if r.2.poison then (List.range (p.2 / 16)).map (p.1 / 16 + ·) else []
          (r.1, q.2.1 ++ r.2.bytes, q.2.2.1 ++ parts, q.2.2.2 ||| r.2.flags)) (some (s, [], [], 0))

/-- The barrier of a copy is held: its weave is switching, or its team's slot moves (R179, R297). -/
def State.barrierHeld (s : State) (t : Nat) (c : Copy) : Bool :=
  match c.barrier with
  | some o => s.spotHeld (.pad t o)
  | none => false

/-- Bytes of the frame, or the barrier, are held. -/
def State.frameHeld (s : State) (t : Nat) (c : Copy) (f : Nat) : Bool :=
  s.engineHeld t c.pages (c.b + 512 * f) (min c.d1 (512 * (f + 1)) - 512 * f) || s.barrierHeld t c

/-- An earlier `send` of the stream by the same turn string has still to give frames to the port (R377). -/
def Team.sendsBefore (x : Team) (c : Copy) : Bool :=
  x.copies.any fun e =>
    decide (e.id < c.id) && decide (e.d = c.d) && match e.instr with | .send _ _ _ _ _ => decide (e.accepted.length < frames e.d1) | _ => false

/-- The agent of a peer package that a frame acts for; its cluster stands for the path, and its team for the copy stream. -/
def frameAgent (f : Frame) : Agent := ⟨f.ctx, f.src, 0, f.path, match f.stream with | some t => t + 1 | none => 0, 19⟩

/-- An event of a frame that came by the same path from the same copy stream (R377). -/
def frameAlike (f : Frame) (e : MEvent) : Bool := f.stream.isSome && decide (e.agent = frameAgent f)

/-- The accesses of a frame: marked, at fab scope, after those of the stream's earlier sends by its path (R376, R377). -/
def State.peerKind (s : State) (f : Frame) : AccessKind :=
  ⟨frameAgent f, .marked, .fab, true, s.log.filterMap fun e => if frameAlike f e && decide (e.stamp < f.send + 1) then some e.id else none, [], [],
    f.send + 1⟩

/-- A sector write at its home, for a peer: not performed on part of a poisoned sector (R225, R281). -/
def State.homeSector (s : State) (k : AccessKind) (p : Spot) (bs : List Byte) (poison : Bool) : State :=
  if s.unreachable (s.spotKey p 0) then s
  else if bs.length < 32 && s.sectorPoisoned p bs.length then s
  else (((s.touchHome p bs.length).touchMsc p).engineWrite k p (bs.length / 8 + 2) 0 (if poison then bs.map fun _ => 0 else bs)).setPoison (s.spotKey p 0) poison

/-- The sector writes of a frame, where `at'` gives the place of each address. -/
def State.writeSectors (s : State) (k : AccessKind) (f : Frame) (at' : State → Nat → Option Spot) : State :=
  (List.range (sectors f.addr f.payload.length)).foldl
    (fun (s : State) j =>
      let p := runPiece f.addr f.payload.length j
      match at' s (f.addr + p.1) with
      | some q => s.homeSector k q ((f.payload.drop p.1).take p.2) (f.poison.any fun i => decide (p.1 ≤ 16 * i) && decide (16 * i < p.1 + p.2))
      | none => s) s

/-- A page at a peer. -/
def peerLeaf : Leaf := ⟨0, 0, 2, 0, false, false, true, true⟩

/-- The sector writes of a frame of a send are performed at its destination, where peer accesses find them (R375, R376): after what the copy
follows. -/
def State.landFrame (s : State) (t : Nat) (c : Copy) (f : Frame) : State :=
  let k := s.peerKind f
  s.writeSectors { k with extra := k.extra ++ s.partyExtra t .copy ++ c.issueEv } f fun _ a => some (.mem (peerKey f.ctx f.dst a) peerLeaf)

/-- Events since the log's next identifier was `n`. -/
def State.eventsSince (s : State) (n : Nat) : List Nat := (s.log.takeWhile fun e => decide (n ≤ e.id)).map fun e => e.id

/-- A frame of a send that has left this package, and has not been found lost. -/
def State.frameSent (s : State) (t id frame : Nat) : Option Frame :=
  s.pkg.sent.find? fun f => decide (f.stream = some t) && decide (f.send = id) && decide (f.seq = frame)

/-- A frame that leaves this package. -/
def State.emit (s : State) (f : Frame) : State := { s with pkg := { s.pkg with sent := s.pkg.sent ++ [f] } }

/-- A frame of a copy is performed at its destination; what waits for a tracked one follows its writes. -/
def State.land (s : State) (t : Nat) (c : Copy) (f : Frame) (tracked : Bool) : State × Copy :=
  let s1 := s.landFrame t c f
  (s1, { c with landed := f.seq :: c.landed, events := c.events ++ if tracked then s1.eventsSince (nextId s.log) else [] })

/-- The local port accepts the next frame of a send; a `post` counts its sectors then. A `post` frame is performed at its destination
thereafter, nothing showing when; a tracked one before its acknowledgement (log 27). -/
def execSendFrameAccepted (team id frame : Nat) (s : State) : Out :=
  match (s.team team).copyOf id with
  | none => .next s
  | some c =>
    match c.instr with
    | .send _ tracked _ _ _ =>
      if c.complete || decide (frame ≠ c.accepted.length) || decide (frames c.d1 ≤ frame) || (s.team team).sendsBefore c ||
          s.frameHeld team c frame then .next s
      else
        match s.readFrame team c frame with
        | none => .next s
        | some r =>
          let f := newFrame (s.team team).ctx s.pkg.index (Config.cabling c.d) (if tracked then 1 else 0) (c.a + 512 * frame) frame r.2.1 r.2.2.1
            c.d (some team) c.id
          let c1 := r.1.madeSince team (nextId s.log) c
          let q := if tracked && !Config.frameLands s.freeCtr then (r.1.emit f, c1) else (r.1.emit f).land team c1 f tracked
          let counted := if tracked then some q.1
            else q.1.countSectors (q.1.copyKind team c) c.pages team c.barrier r.2.2.2 [] (frameSectors c.b c.d1 frame)
          match counted with
          | none => .next s
          | some s2 =>
            .next (s2.putCopy team
              { q.2 with accepted := c.accepted ++ [frame], sentAt := Map.put c.sentAt frame s.gtime, data := Map.put c.data frame r.2.2.2 })
    | _ => .next s

/-- The frame of a tracked send is over: its sectors are counted, and a failure writes the ROUTE record. None where the barrier's line
cannot be filled. -/
def State.frameOver (s : State) (t : Nat) (c : Copy) (frame : Nat) (ok : Bool) : Option State :=
  (s.countSectors (s.copyKind t c) c.pages t c.barrier (Map.get 0 c.data frame) [] (frameSectors c.b c.d1 frame)).map fun s1 =>
    let s2 := if ok then s1 else s1.rangeRecord (s.team t).ctx (c.a + 512 * frame) trapROUTE 2
    s2.putCopy t { c with acked := c.acked ++ [frame] }

/-- A tracked frame in flight: accepted and not acknowledged. -/
def Copy.awaits (c : Copy) (frame : Nat) : Bool :=
  match c.instr with
  | .send _ true _ _ _ => !c.complete && c.accepted.contains frame && !c.acked.contains frame
  | _ => false

/-- The acknowledgement of a frame: it has been performed, or carries a failure. -/
def execSendAck (team id frame : Nat) (ok : Bool) (s : State) : Out :=
  match (s.team team).copyOf id, s.frameSent team id frame with
  | some c, some f =>
    if !c.awaits frame || s.barrierHeld team c || (!ok && c.landed.contains frame) then .next s
    else
      let q := if ok && !c.landed.contains frame then s.land team c f true else (s, c)
      .next ((q.1.frameOver team q.2 frame ok).getD s)
  | _, _ => .next s

/-- A frame is found lost at a retired unit: class 0x32 is logged, and nothing more comes of it (R374). -/
def State.loseFrame (s : State) (f : Frame) : State :=
  ({ s with pkg := { s.pkg with sent := s.pkg.sent.filter fun g => decide (g ≠ f) } }).logBox boxROUTELOST (bitsOf f.path 59 56) (leBytes 8 f.path)

/-- A frame may still be on its way: of a tracked send, one that awaits its acknowledgement and has not been performed. -/
def State.inFlight (s : State) (f : Frame) : Bool :=
  match f.kind, f.stream with
  | 1, some t => match (s.team t).copyOf f.send with | some c => c.awaits f.seq && !c.landed.contains f.seq | none => false
  | _, _ => true

/-- Frames on their way across a unit that has just been retired are delivered, or dropped there (R374). -/
def State.dropFrames (s : State) (before : Package) : State :=
  let hit := (List.range s.pkg.sent.length).filterMap fun i =>
    match s.pkg.sent[i]? with
    | some f =>
        if s.pkg.pathBad f.path f.dst && !before.pathBad f.path f.dst && s.inFlight f && Config.frameDropped (s.freeCtr * 2 ^ 32 + i) then some f
        else none
    | none => none
  hit.foldl (fun s f => s.loseFrame f) s

/-- 1 ms. -/
def ackLimit : Nat := 1000000

/-- A frame that is not acknowledged in time is lost: where a unit of its route has been retired, at that unit. -/
def execTrackedSendTimeout (team id frame : Nat) (s : State) : Out :=
  match (s.team team).copyOf id with
  | none => .next s
  | some c =>
    if c.awaits frame && decide (Map.get 0 c.sentAt frame + ackLimit ≤ s.gtime) && !s.barrierHeld team c then
      match s.frameOver team c frame false with
      | none => .next s
      | some s1 =>
        match s1.frameSent team id frame with
        | some f => .next (if s1.pkg.pathBad f.path f.dst then s1.loseFrame f else s1)
        | none => .next s1
    else .next s

/-! ### Frames received (R372, R376) -/

/-- The first page of a frame's bytes that fails, with its cause. -/
def State.frameFail (s : State) (f : Frame) (acc : Access) : Option (Nat × Nat) :=
  [f.addr, f.addr + (f.payload.length - 1)].findSome? fun va =>
    match walk s.mem f.ctx (s.ctx f.ctx) va acc with
    | .ok _ => none
    | .error e => some (va, e)

/-- The answer to a frame, of a kind, with a payload, by the way back. -/
def State.answer (s : State) (f : Frame) (kind : Nat) (payload : List Byte) : State :=
  s.emit (newFrame f.ctx s.pkg.index f.src kind f.addr f.seq payload [] (Config.returnPath (f.src * 2 ^ 64 + f.path)) none 0)

/-- Where a virtual address of a frame's context lies here. -/
def State.frameSpot (s : State) (f : Frame) (acc : Access) (va : Nat) : Option Spot :=
  match walk s.mem f.ctx (s.ctx f.ctx) va acc with
  | .ok l => some (.mem (s.physKey f.ctx l va) l)
  | .error _ => none

/-- Performs the sector writes of a frame. -/
def State.frameWrite (s : State) (f : Frame) : State := s.writeSectors (s.peerKind f) f fun s a => s.frameSpot f .write a

/-- Reads bytes of one page for a peer, as a marked read at fab scope. -/
def State.frameRead (s : State) (f : Frame) (n : Nat) : State × List Byte :=
  match s.frameSpot f .read f.addr with
  | some p => if s.unreachable (s.spotKey p 0) then (s, []) else (s.touchHome p n).readUnitAt (s.peerKind f) p 0 n
  | none => (s, [])

/-- An atomic meets poison: in a sector of its own, `prog` anywhere in its line (R338). -/
def State.atomPoisoned (s : State) (op : AtomOp) (p : Spot) (n : Nat) : Bool :=
  match p with
  | .mem k f => s.sectorPoisoned p n || (decide (op = .prog) && s.sectorPoisoned (.mem (k / 128 * 128) f) 128)
  | _ => s.sectorPoisoned p n

/-- An atomic of a peer, at the home: the returned value. `prog` runs the routine of the context's table here (R338). Poison, or no table,
leaves the line as it was. -/
def State.frameRmw (s : State) (f : Frame) (a : FrameAtomic) : State × List Byte :=
  let n := if a.wide64 then 8 else 4
  match s.frameSpot f .atomic f.addr with
  | none => (s, [])
  | some p =>
    if s.unreachable (s.spotKey p 0) || s.atomPoisoned a.op p n || (decide (a.op = .prog) && decide ((s.ctx f.ctx).routines = 0)) then (s, [])
    else
      let r := ((s.touchHome p n).touchMsc p).rmwAt (s.peerKind f) p n 4 fun old => s.atomResultIn f.ctx a.op a.wide64 old a.b a.c
      (r.1, leBytes n r.2)

/-- An atomic whose operation the frame does not tell, as the layout of its payload is not given: the bytes that it leaves are free.
Log 27. -/
def State.frameAtomic (s : State) (f : Frame) : State × List Byte :=
  match f.atomic with
  | some a => s.frameRmw f a
  | none =>
    match s.frameSpot f .atomic f.addr with
    | none => (s, [])
    | some p =>
      if s.unreachable (s.spotKey p 0) then (s, [])
      else
        let old := leBytes 4 (leValue (readBytes s.mem (s.spotKey p 0) 4))
        let r := (s.touchHome p 4).rmwAt (s.peerKind f) p 4 4 fun _ =>
          (leValue ((List.range 4).map fun i => Config.openByte (s.freeCtr * 16 + i)), 0)
        (r.1, old)

/-- Performs a frame whose translation has succeeded. A read request names no length in the header: 8 bytes. -/
def State.performFrame (s : State) (f : Frame) : State :=
  match f.kind with
  | 0 => s.frameWrite f
  | 1 => (s.frameWrite f).answer f 5 [0]
  | 2 => let r := s.frameRead f 8; r.1.answer f 3 r.2
  | 4 => let r := s.frameAtomic f; r.1.answer f 3 r.2
  | _ => s

def frameAccess (kind : Nat) : Access := if kind = 2 then .read else if kind = 4 then .atomic else .write

def accessBit (a : Access) : Nat :=
  match a with
  | .write => 2
  | .atomic => 4
  | _ => 1

/-- Frames that reach memory here; the others belong to a `send`, a `coll` or management. -/
def touchesMemory (kind : Nat) : Bool := decide (kind < 3) || decide (kind = 4)

/-- A frame of the same channel between the same ports waits here for a translation: what comes behind it waits with it, as frames are
delivered in the order sent (R372, R376). -/
def State.heldBefore (s : State) (f : Frame) : Option Nat :=
  (s.pkg.heldFrames.find? fun h =>
    decide (h.frame.src = f.src) && decide (h.frame.path = f.path) && decide (frameChannel h.frame = frameChannel f)).map fun h => h.page

def State.holdFrame (s : State) (f : Frame) (page : Nat) : State :=
  { s with pkg := { s.pkg with heldFrames := s.pkg.heldFrames ++ [⟨f, page⟩] } }

/-- A frame as a party that waits on a page (R343). -/
def frameParty (n : Nat) : Nat := 2 ^ 40 + n

/-- A frame that names this package and a context on it: performed, or held while its translation fails. -/
def State.takeFrame (s : State) (f : Frame) : State :=
  if !touchesMemory f.kind then s
  else
    match s.heldBefore f with
    | some page => s.holdFrame f page
    | none =>
      match s.frameFail f (frameAccess f.kind) with
      | none => s.performFrame f
      | some (va, cause) => (s.noteFault f.ctx va cause (accessBit (frameAccess f.kind)) (frameParty s.freeCtr)).holdFrame f (pageOf va)

/-- A peer's access waits for the lease of a holder that has drifted (R334). -/
def State.frameWaits (s : State) (f : Frame) : Bool :=
  touchesMemory f.kind && (List.range (f.payload.length / 32 + 1)).any fun i =>
    match s.frameSpot f (frameAccess f.kind) (f.addr + 32 * i) with
    | some (.mem k l) => decide (l.location = 0) && !l.dieScope && s.leaseWaits none k 32
    | _ => false

/-- R372: what no link brings is no frame. A frame for another package, of kind 8 or above, or of no context here is dropped and logged. -/
def execFrameReceive (f : Frame) (s : State) : Out :=
  if !frameArrives f then .next s
  else if f.dst ≠ s.pkg.index ∨ 8 ≤ f.kind ∨ lookup? s.ctxs f.ctx = none then
    .next (s.logBox boxFRAMEDROP f.src (leBytes 2 f.ctx ++ [BitVec.ofNat 8 f.kind]))
  else if s.frameWaits f then .next s
  else .next (s.takeFrame f)

/-- The driver has answered for the page on which a frame waits: the frame is taken, or dropped where its own page is unresolvable
(R376). -/
def State.retakeFrame (s : State) (hit : Nat → Bool) (ok : Bool) (f : Frame) : State :=
  match s.frameFail f (frameAccess f.kind) with
  | some (va, _) => if !ok && hit (pageOf va) then (if f.kind = 1 then s.answer f 5 [1] else s) else s.takeFrame f
  | none => s.takeFrame f

/-- A driver's answer about a page ends the hold of the frames on it, in order. -/
def State.releaseFrames (s : State) (tag : Nat) (hit : Nat → Bool) (ok : Bool) : State :=
  let mine (h : HeldFrame) : Bool := decide (h.frame.ctx = tag) && hit h.page
  let out := s.pkg.heldFrames.filter mine
  out.foldl (fun s h => s.retakeFrame hit ok h.frame) { s with pkg := { s.pkg with heldFrames := s.pkg.heldFrames.filter fun h => !mine h } }

/-! ### coll: the descriptor (Table 24.3) -/

structure CollDesc where
  group : Nat
  rank : Nat
  root : Nat
  count : Nat
  send : Nat
  recv : Nat
  reserved : Bool
  deriving DecidableEq, Repr

def CollDesc.ofBytes (bs : List Byte) : CollDesc :=
  let f (o n : Nat) : Nat := leValue ((bs.drop o).take n)
  ⟨f 0 4, f 4 2, f 6 2, f 8 4, f 0x10 8, f 0x18 8, decide (f 0xC 4 ≠ 0) || decide (f 0x20 24 ≠ 0) || decide (f 0x3C 4 ≠ 0)⟩

def collElem (ty : CollType) : Nat := match ty with | .bf16 => 2 | _ => 4

/-- Bytes of a rank's send buffer; for `bcast` only the root's is read. -/
def collSend (op : CollOp) (n rank root bytes : Nat) : Nat :=
  match op with
  | .barrier => 0
  | .bcast => if rank = root then bytes else 0
  | .allgather => bytes
  | .redscat => n * bytes
  | .allreduce => bytes

/-- Bytes of a rank's receive buffer. -/
def collRecv (op : CollOp) (n bytes : Nat) : Nat :=
  match op with
  | .barrier => 0
  | .allgather => n * bytes
  | _ => bytes

/-- Communicators are told apart by context. -/
def commKey (ctx group : Nat) : Nat := ctx * 2 ^ 32 + group

/-- The issuing team as a member. -/
def State.memberOf (s : State) (t : Nat) : Member := ⟨s.pkg.index, s.logicalCluster t, (s.team t).slot⟩

/-- A peer window of the context leads to the package by a route that is out of service (R374). -/
def State.commRouteBad (s : State) (ctx : Nat) (ms : List Member) : Bool :=
  ms.any fun m =>
    decide (m.package ≠ s.pkg.index) &&
      (s.ctx ctx).windows.any fun w => decide (w.2.package = m.package) && s.pkg.routeBad w.2.turn.toNat

/-- What a `coll` keeps of its descriptor: group, rank, root and count. -/
def packDesc (d : CollDesc) : BitVec 256 := BitVec.ofNat 256 (d.group + d.rank * 2 ^ 32 + d.root * 2 ^ 48 + d.count * 2 ^ 64)

def Copy.group (c : Copy) : Nat := c.handle.toNat % 2 ^ 32
def Copy.rank (c : Copy) : Nat := c.handle.toNat / 2 ^ 32 % 2 ^ 16
def Copy.root (c : Copy) : Nat := c.handle.toNat / 2 ^ 48 % 2 ^ 16
def Copy.count (c : Copy) : Nat := c.handle.toNat / 2 ^ 64 % 2 ^ 32

/-- Once its descriptor is read (R379); `wmode`: in a weave in compute mode (R186). -/
def State.collIssue (s : State) (x : CopyX) (op : CollOp) (ty : CollType) (rd : CollRed) (a : BitVec 5) (d : CollDesc) (wmode : Bool) : State :=
  let ctx := s.curTeam.ctx
  let comm := lookup? s.pkg.comms (commKey ctx d.group)
  let ms := comm.getD []
  let n := ms.length
  let bytes := d.count * collElem ty
  let sb := collSend op n d.rank d.root bytes
  let rb := collRecv op n bytes
  let here : Bool := decide (ms[d.rank]? = some (s.memberOf s.cur.team))
  let key := commKey ctx d.group * 2 ^ 32 + s.cur.team
  s.copyIssue (.coll x op ty rd a)
    { regs := [a.toNat]
      bounds := d.reserved || decide (2 ^ 24 < d.count) || (comm.isSome && (decide (n ≤ d.rank) || (decide (op = .bcast) && decide (n ≤ d.root))))
      route := s.commRouteBad ctx ms
      misaligned := unaligned 32 [d.send, d.recv]
      ranges := (if here then [] else [noWindow]) ++ [(d.send, sb, .read), (d.recv, rb, .write), (s.sNat a.toNat + 0x38, 4, .write)]
      tb := tbOf x }
    fun s c =>
      let k := Map.get 0 s.pkg.collCount key
      let s1 : State := { s with pkg := { s.pkg with collCount := Map.put s.pkg.collCount key (k + 1) } }
      ((s1.engineCount (s1.copyKind s.cur.team c) c.pages s.cur.team (tbOf x) (if wmode then txbWMODE else 0) [] false).getD s1,
        .go { c with a := s.sNat a.toNat, b := d.recv, d := d.send, d1 := sb, d2 := rb, handle := packDesc d, round := k, total := 1 })

/-- `coll` reads its descriptor first: its own operand, alignment, window and page decide whether it can. -/
def execColl (x : CopyX) (op : CollOp) (ty : CollType) (rd : CollRed) (a : BitVec 5) (s : State) : Out :=
  let da := s.sNat a.toNat
  let own : Bool :=
    match s.decodeGeneric s.cur.team da with
    | some (.glob _) => true
    | some (.pad m _) => decide (m = s.cur.team)
    | _ => false
  if (readSMap s.curStream.s a.toNat).tag.isSome then .next (s.streamTrap { code := trapPOISON })
  else if da % 64 ≠ 0 then .next (s.streamTrap { code := trapMISALIGN })
  else if !own || !s.inOneWindow s.cur.team da 64 then .next (s.streamTrap { code := trapACCESS })
  else
    match s.probeRange s.cur.team .read (da, 64) [] with
    | .error (some p) => .next (s.streamTrap { code := trapACCESS, addr := p })
    | .error none => .next (s.holdProbe (.coll x op ty rd a) [(da, 64, .read)])
    | .ok pages =>
      let i : Instr := .coll x op ty rd a
      if s.engineHeld s.cur.team pages da 64 then .next (s.hold i)
      else if s.enginePoisoned s.cur.team pages da 64 then .next (s.streamTrap { code := trapUNCORR })
      else
        match s.engineSector s.cur.team (s.newCopy i pages) da 64 with
        | none => .next (s.hold i)
        | some r => .next (r.1.collIssue x op ty rd a (CollDesc.ofBytes r.2.bytes) r.2.wmode)

/-! ### Reductions (R379) -/

/-- One step of a reduction on FP32 or integer patterns. -/
def collStep (ty : CollType) (rd : CollRed) (flush : Bool) (a b : Nat) : Nat × Flags :=
  match ty with
  | .i32 =>
      let x := signedOf 32 a
      let y := signedOf 32 b
      (wrapInt 32 (match rd with | .add => x + y | .min => min x y | .max => max x y), 0)
  | _ =>
      let r := match rd with
        | .add => floatAdd fp32 .rne flush a b
        | .min => fp32.minMax flush false a b
        | .max => fp32.minMax flush true a b
      (r.bits, r.flags)

/-- Combines partial results along the communicator's tree: each step takes two of them. -/
def treeReduce (f : Nat → Nat → Nat × Flags) (key : Nat) : Nat → List Nat → Nat × Flags
  | 0, xs => (xs.headD 0, 0)
  | fuel + 1, xs =>
      if xs.length ≤ 1 then (xs.headD 0, 0)
      else
        let i := Config.reduceTree (key * 2 ^ 20 + 2 * fuel) % xs.length
        let ys := xs.eraseIdx i
        let j := Config.reduceTree (key * 2 ^ 20 + 2 * fuel + 1) % ys.length
        let r := f (xs.getD i 0) (ys.getD j 0)
        let q := treeReduce f key fuel (r.1 :: ys.eraseIdx j)
        (q.1, r.2 ||| q.2)

/-- Reduces one element over the ranks; BF16 is combined in FP32 and rounded once. -/
def reduceElem (ty : CollType) (rd : CollRed) (flush : Bool) (key : Nat) (xs : List Nat) : Nat × Flags :=
  match ty with
  | .bf16 =>
      let ws := xs.map fun x => widen (bf16.readFlush flush x)
      let r := treeReduce (collStep ty rd flush) key xs.length (ws.map fun w => w.bits)
      let b := narrow bf16 .rne false flush (fp32.readFlush flush r.1)
      (b.bits, (ws.foldl (fun acc w => acc ||| w.flags) 0) ||| r.2 ||| b.flags)
  | _ => treeReduce (collStep ty rd flush) key xs.length xs

/-- Element `i` of a buffer held as a number. -/
def elemAt (ty : CollType) (v i : Nat) : Nat := v / 2 ^ (8 * collElem ty * i) % 2 ^ (8 * collElem ty)

/-- Reduces elements `lo` to `lo + c − 1`. -/
def reduceAll (ty : CollType) (rd : CollRed) (flush : Bool) (key : Nat) (vs : List Nat) (lo c : Nat) : List Byte × Flags :=
  (List.range c).foldl
    (fun (q : List Byte × Flags) i =>
      let r := reduceElem ty rd flush key (vs.map fun v => elemAt ty v (lo + i))
      (q.1 ++ leBytes (collElem ty) r.1, q.2 ||| r.2)) ([], 0)

/-- Table of R379: the receive buffer of a rank, and the flags of the whole reduction. -/
def collResult (op : CollOp) (ty : CollType) (rd : CollRed) (flush : Bool) (key rank root c : Nat) (vs : List Nat) : List Byte × Flags :=
  let bytes := c * collElem ty
  match op with
  | .barrier => ([], 0)
  | .bcast => (leBytes bytes (vs.getD root 0), 0)
  | .allgather => (vs.flatMap fun v => leBytes bytes v, 0)
  | .redscat =>
      let all := reduceAll ty rd flush key vs 0 (vs.length * c)
      ((all.1.drop (rank * bytes)).take bytes, all.2)
  | .allreduce => reduceAll ty rd flush key vs 0 c

/-! ### Completion of a collective -/

def collParts (c : Copy) : Option (CollOp × CollType × CollRed) :=
  match c.instr with
  | .coll _ op ty rd _ => some (op, ty, rd)
  | _ => none

/-- The `coll` of a local member that belongs to the same round. -/
def State.partner (s : State) (ctx : Nat) (c : Copy) (m : Member) : Option (Nat × Copy) :=
  s.teams.findSome? fun e =>
    if e.2.ctx = ctx ∧ e.2.residency ≠ .ended ∧ e.2.residency ≠ .absent ∧ s.memberOf e.1 = m then
      (e.2.copies.find? fun o => (collParts o).isSome && decide (o.group = c.group) && decide (o.round = c.round)).map fun o => (e.1, o)
    else none

/-- A member's package is retired, or its die is dead (R379, R384). -/
def State.memberLost (s : State) (ctx : Nat) (m : Member) : Bool :=
  s.pkg.retiredPackages.contains m.package ||
    (decide (m.package = s.pkg.index) && (s.die ((m.cluster + (s.ctx ctx).firstCluster) / 2)).dead)

/-- A member of another package is reported lost. -/
def State.lostAfar (s : State) (ms : List Member) (others : List Contribution) : Bool :=
  others.any fun q => q.lost && match ms[q.rank]? with | some m => decide (m.package ≠ s.pkg.index) | none => false

/-- Marks in a gathered `coll`: participants disagree; the poisoned sectors of rank j's buffer; that rank j's buffer was read in
compute mode. -/
def collMismatch : Nat := 2 ^ 20
def collPoison (j : Nat) : Nat := 2 ^ 21 + j
def collWmode (j : Nat) : Nat := 2 ^ 22 + j

/-- One member's contribution, with what it declares; bit k of `poison` marks its sector k. -/
structure Share where
  parts : CollOp × CollType × CollRed
  count : Nat
  value : Nat
  poison : Nat
  wmode : Bool
  deriving DecidableEq, Repr

/-- A member's send buffer, sector by sector; none where a fill fails. -/
def State.readShare (s : State) (u : Nat) (o : Copy) : Option (State × List Byte × Nat × Bool) :=
  (List.range (sectors o.d o.d1)).foldl
    (fun (q : Option (State × List Byte × Nat × Bool)) k =>
      q.bind fun q =>
        let p := runPiece o.d o.d1 k
        (q.1.engineSector u o (o.d + p.1) p.2).map fun r =>
          (r.1, q.2.1 ++ r.2.bytes, q.2.2.1 + (if r.2.poison then 2 ^ k else 0), q.2.2.2 || r.2.wmode)) (some (s, [], 0, false))

/-- The contribution of a member; none while it is not there, or is held. -/
def State.shareOf (s : State) (ctx : Nat) (c : Copy) (others : List Contribution) (j : Nat) (m : Member) : Option (State × Share) :=
  if m.package = s.pkg.index then
    match s.partner ctx c m with
    | none => none
    | some (u, o) =>
      if s.engineHeld u o.pages o.d o.d1 then none
      else (collParts o).bind fun parts => (s.readShare u o).map fun r => (r.1, ⟨parts, o.count, leValue r.2.1, r.2.2.1, r.2.2.2⟩)
  else
    match others.find? fun q => decide (q.rank = j) && !q.lost with
    | none => none
    | some q => some (s, ⟨(q.op, q.type, q.red), q.count, leValue q.data, q.poison, false⟩)

/-- Every member's contribution, by rank; none while one is missing. -/
def State.shares (s : State) (ctx : Nat) (c : Copy) (others : List Contribution) : Nat → List Member → Option (State × List Share)
  | _, [] => some (s, [])
  | j, m :: ms =>
      (s.shareOf ctx c others j m).bind fun r =>
        (r.1.shares ctx c others (j + 1) ms).map fun q => (q.1, r.2 :: q.2)

/-- What every local member of the round keeps of the contributions. -/
def gathered (xs : List Share) : Map Nat :=
  let agree := match xs with | [] => true | x :: rest => rest.all fun y => decide (y.parts = x.parts) && decide (y.count = x.count)
  (List.range xs.length).foldl
    (fun (m : Map Nat) j =>
      match xs[j]? with
      | none => m
      | some x =>
        let m1 := Map.put (Map.put m j x.value) (collPoison j) x.poison
        if x.wmode then Map.put m1 (collWmode j) 1 else m1) (if agree then [] else [(collMismatch, 1)])

/-- Byte `i` of a rank's receive buffer comes of poisoned bytes (R224). -/
def collBytePoisoned (op : CollOp) (data : Map Nat) (n rank root bytes i : Nat) : Bool :=
  let bad (j k : Nat) : Bool := (Map.get 0 data (collPoison j)).testBit (k / 32)
  match op with
  | .barrier => false
  | .bcast => bad root i
  | .allgather => bad (i / bytes) (i % bytes)
  | .redscat => (List.range n).any fun j => bad j (rank * bytes + i)
  | .allreduce => (List.range n).any fun j => bad j i

/-- Events on the named buffers that lie before the `coll` of some local member (R322). -/
def State.bufferEvents (s : State) (parts : List (Nat × Copy)) : List Nat :=
  let seeds := parts.flatMap fun p => p.2.issueEv
  let earlier := closeOver s.log (causalPreds s.log false) (s.log.length + seeds.length + 1) seeds seeds
  let keys := parts.flatMap fun p =>
    [(p.2.d, p.2.d1), (p.2.b, p.2.d2)].filterMap fun r =>
      if r.2 = 0 then none
      else match s.engineSpot p.1 p.2.pages r.1 with | some q => some (s.spotKey q 0, r.2) | none => none
  earlier.filter fun i =>
    match eventOf s.log i with
    | some e => e.bytes.any fun k => keys.any fun r => decide (r.1 ≤ k) && decide (k < r.1 + r.2)
    | none => false

/-- Writes a run of bytes sector by sector, and counts the sectors; none where a fill fails. -/
def State.writeRun (s : State) (t : Nat) (c : Copy) (k : AccessKind) (a : Nat) (bs : List Byte) (poison : Nat → Bool) : Option State :=
  (List.range (sectors a bs.length)).foldl
    (fun (o : Option State) j =>
      o.bind fun s =>
        let p := runPiece a bs.length j
        let n0 := nextId s.log
        let bad := (List.range p.2).any fun i => poison (p.1 + i)
        let w := match s.engineSpot t c.pages (a + p.1) with
          | some q => s.sectorWrite k (s.team t).cluster c.pages q (if bad then List.replicate p.2 0 else (bs.drop p.1).take p.2) bad
          | none => some (s, 0)
        w.bind fun w => w.1.countSector k c.pages t c.barrier w.2 (w.1.writesSince n0)) (some s)

/-- The outcome word is written, then the `coll` completes at the rank: an acquire at fab scope, so the die's clean die-private lines are
dropped (R322, R328). None where the fill of its line fails. -/
def State.collDone (s : State) (t : Nat) (c : Copy) (outcome : Nat) (fl : Flags) : Option State :=
  let n0 := nextId s.log
  let k := s.copyKind t c
  let cl := (s.team t).cluster
  let w := match s.engineSpot t c.pages (c.a + 0x38) with
    | some p => s.sectorWrite k cl c.pages p (leBytes 4 outcome) false
    | none => some (s, 0)
  (w.bind fun w => w.1.engineCount k c.pages t c.barrier w.2 [] false).map fun (s1 : State) =>
    ((s1.copyDone t (s1.madeSince t n0 c)).mapTeam t fun x => { x with copy := { x.copy with status := x.copy.status ||| fl } }).dropDie (cl / 2)

/-- The outcome word meets a barrier in use (R242). -/
def State.outcomeMeets (s : State) (t : Nat) (c : Copy) : Bool :=
  match s.engineSpot t c.pages (c.a + 0x38) with
  | some p => s.meetsBarrier p 4
  | none => false

/-- The bytes that the end of a `coll` writes, or its barrier, are held. -/
def State.collHeld (s : State) (t : Nat) (c : Copy) (n : Nat) : Bool :=
  s.engineHeld t c.pages (c.a + 0x38) 4 || s.barrierHeld t c || (decide (n ≠ 0) && s.engineHeld t c.pages c.b n)

/-- A `coll` ends at its rank, once nothing of it is held. -/
def State.collEnd (s : State) (t : Nat) (c : Copy) (outcome : Nat) (fl : Flags) : Out :=
  if s.collHeld t c 0 then .next s
  else .next (((s.collDone t c outcome fl).map fun s1 => s1.raceIn (s.outcomeMeets t c) (s.team t).ctx).getD s)

/-- The members of a round whose `coll`s are here, each with its team. -/
def State.partners (s : State) (ctx : Nat) (c : Copy) (ms : List Member) : List (Nat × Copy) :=
  ms.filterMap fun m => if m.package = s.pkg.index then s.partner ctx c m else none

/-- The receive buffer of a gathered rank, and the flags. -/
def State.collOut (s : State) (t : Nat) (c : Copy) (n : Nat) : List Byte × Flags :=
  match collParts c with
  | none => ([], 0)
  | some (op, ty, rd) =>
    let ctx := (s.team t).ctx
    collResult op ty rd (s.ctx ctx).flush (commKey ctx c.group) c.rank c.root c.count ((List.range n).map fun j => Map.get 0 c.data j)

/-- Local ranks of the round put events before what follows their completion, on the buffers (R322). -/
def State.addAround (s : State) (ctx : Nat) (c : Copy) (ms : List Member) (ids : List Nat) : State :=
  (s.partners ctx c ms).foldl (fun s q => s.putCopy q.1 { q.2 with around := unionIds q.2.around ids }) s

/-- A gathered rank of a round of `n` members writes its receive buffer, once; none while something of it is held, or a fill fails. -/
def State.collWrite (s : State) (t : Nat) (c : Copy) (n : Nat) : Option State :=
  match collParts c with
  | none => none
  | some (op, ty, _) =>
    let bs := (s.collOut t c n).1
    if s.collHeld t c bs.length then none
    else
      let n0 := nextId s.log
      let k := s.copyKind t c
      let bad := collBytePoisoned op c.data n c.rank c.root (c.count * collElem ty)
      let wm := if (lookup? c.data (collWmode c.rank)).isSome then txbWMODE else 0
      ((s.engineCount k c.pages t c.barrier wm [] false).bind fun s1 => s1.writeRun t c k c.b bs bad).map fun s2 =>
        (s2.putCopy t { s2.madeSince t n0 c with done := [0] }).raceIn (s.runMeets t c.pages c.b bs.length) (s.team t).ctx

/-- Every local rank of a gathered round writes its receive buffer. -/
def State.collWriteAll (s : State) (ctx : Nat) (c : Copy) (ms : List Member) : State :=
  (s.partners ctx c ms).foldl
    (fun s q =>
      match (s.team q.1).copyOf q.2.id with
      | some o =>
          if o.complete || !o.done.isEmpty then s
          else
            match s.collWrite q.1 o ms.length with
            | some s1 => s1.addAround ctx c ms (s1.eventsSince (nextId s.log))
            | none => s
      | none => s) s

/-- A rank whose round has been gathered completes once every receive buffer here has been written: the collective's accesses lie before what
follows its completion (R322). -/
def State.collFinish (s : State) (t id : Nat) (ms : List Member) : Out :=
  match (s.team t).copyOf id with
  | none => .next s
  | some c =>
    if (lookup? c.data collMismatch).isSome then s.collEnd t c 1 0
    else
      let ctx := (s.team t).ctx
      let s1 := s.collWriteAll ctx c ms
      match (s1.team t).copyOf id with
      | none => .next s1
      | some c1 =>
        if (s1.partners ctx c ms).all fun q => q.2.complete || !q.2.done.isEmpty then s1.collEnd t c1 0 (s1.collOut t c1 ms.length).2
        else .next s1

/-- Each rank here releases at fab scope, so that its die's dirty die-private lines are merged, and its accesses to the named buffers lie before
what the other ranks do (R322, R328). -/
def State.collRelease (s : State) (ctx : Nat) (c : Copy) (ms : List Member) : State :=
  let ps := s.partners ctx c ms
  ps.foldl (fun s q => (s.putCopy q.1 { q.2 with around := s.bufferEvents ps }).mergeDie ((s.team q.1).cluster / 2)) s

/-- The contributions are read, and every local member of the round keeps them. None while one is missing. -/
def State.collGather (s : State) (ctx : Nat) (c : Copy) (others : List Contribution) (ms : List Member) : Option State :=
  let s0 := s.collRelease ctx c ms
  (s0.shares ctx c others 0 ms).map fun r =>
    let read := r.1.eventsSince (nextId s.log)
    (r.1.partners ctx c ms).foldl
      (fun s q => s.putCopy q.1 { r.1.madeSince q.1 (nextId s0.log) q.2 with data := gathered r.2, around := unionIds q.2.around read }) r.1

/-- A collective completes at a rank: outcome 2 where a participant is lost, else once every contribution is read. -/
def execCollCompletion (team id : Nat) (others : List Contribution) (s : State) : Out :=
  match (s.team team).copyOf id with
  | none => .next s
  | some c =>
    let ctx := (s.team team).ctx
    let ms := (lookup? s.pkg.comms (commKey ctx c.group)).getD []
    if c.complete || (collParts c).isNone then .next s
    else if (ms.any fun m => s.memberLost ctx m) || s.lostAfar ms others then s.collEnd team c 2 0
    else if !c.data.isEmpty then s.collFinish team id ms
    else
      match s.collGather ctx c others ms with
      | none => .next s
      | some s1 => s1.collFinish team id ms

/-- A rank that waits longer than its context's watchdog interval completes with outcome 3, or with 2 where a participant is lost (R379, R384). -/
def execCollTimeout (team id : Nat) (s : State) : Out :=
  match (s.team team).copyOf id with
  | none => .next s
  | some c =>
    if !c.complete && (collParts c).isSome && c.data.isEmpty &&
        decide (c.issuedAt + (s.ctx (s.team team).ctx).watchdog * 1000000 < s.gtime) then
      s.collEnd team c (if ((lookup? s.pkg.comms (commKey (s.team team).ctx c.group)).getD []).any fun m => s.memberLost (s.team team).ctx m then 2 else 3) 0
    else .next s

end Sys2Proof.Machine
end

