-- ==== Sys2Proof/Machine/Fetch.lean ====
section
/-!
DEFINITION. Fetch and decoding (R45, R48, R63), the scoreboard (R35), loop buffers and the broadcast PC (R57 to R60).
-/

namespace Sys2Proof.Machine

/-! ### Fetch and decoding -/

/-- What stands at an address for a party. -/
inductive Look where
  /-- a decode trap (R45), MISALIGN (R254) or ACCESS (R48); the words as far as they were fetched -/
  | trap (code : Nat) (w1 w2 : Word)
  | instr (i : Instr) (w1 w2 : Word)
  /-- the miss table is full -/
  | wait
  deriving DecidableEq, Repr

/-- The values that a word of code had before each write to it since the launch of a team's grid, the latest first. -/
def State.codeVersions (s : State) (t key : Nat) : List Word :=
  let x := s.team t
  let evs := s.log.filter fun e =>
    (e.wr.any fun w => decide (key ≤ w.1) && decide (w.1 < key + 4)) && x.launchEv.all fun i => decide (i < e.id)
  (evs.foldl
    (fun (a : List Byte × List Word) e =>
      let old := (List.range 4).map fun i =>
        match e.wr.find? fun w => w.1 = key + i with
        | some w => w.2.1
        | none => a.1.getD i 0
      (old, a.2 ++ [BitVec.ofNat 32 (leValue old)])) (readBytes s.mem key 4, [])).2

/-- A word of code. Where it has been written while the grid runs, an old value or the new one (R63). Log 44. -/
def State.codeWord (s : State) (t va : Nat) : Except Nat (Option Word) :=
  match s.find t va .fetch with
  | .leaf f =>
      let key := s.physKey (s.team t).ctx f va
      let w := BitVec.ofNat 32 (leValue (readBytes s.mem key 4))
      match s.codeVersions t key with
      | [] => .ok (some w)
      | vs => .ok (some ((w :: vs).getD (Config.codeChoice (s.freeCtr * 2 ^ 56 + va) % (vs.length + 1)) w))
  | .fail e => .error e
  | .full => .ok none

/-- The stream fate of a uniform word (Table 2.13). -/
def uniformFate (p : Party) (op : Nat) : Bool :=
  let group := p.isGroup
  if op ≤ 0x11 ∨ op = 0x13 ∨ op = 0x14 ∨ op = 0x15 ∨ op = 0x3F then true
  else if op ≤ 0x1B then group
  else if op ≤ 0x28 then decide (p = .matrix)
  else decide (p = .copy)

/-- Whether a stream may execute a word. The all-zero word executes everywhere. -/
def streamAllows (p : Party) (w1 : Nat) : Bool :=
  decide (w1 = 0) || (if w1 / 2 ^ 31 % 2 = 0 then p.isGroup else uniformFate p (w1 / 2 ^ 24 % 64))

/-- The checks of R45, steps 1 to 4. -/
def decodeFor (p : Party) (w1 w2 : Word) : Look :=
  if illOp w1.toNat then .trap trapILLEGAL w1 w2
  else if !streamAllows p w1.toNat then .trap trapSTREAM w1 w2
  else
    match decode w1.toNat w2.toNat with
    | .ok i => .instr i w1 w2
    | .error _ => .trap trapILLEGAL w1 w2

/-- Fetches and decodes at an address. Both words are fetched before the checks of R45 begin: DESIGN CHOICE, log 61 (the ACCESS of a second
word that cannot be fetched comes before an ILLEGAL or STREAM of the first). -/
def State.look (s : State) (t : Nat) (p : Party) (pc : Nat) : Look :=
  if pc % 4 ≠ 0 then .trap trapMISALIGN 0 0
  else
    match s.codeWord t pc with
    | .error _ => .trap trapACCESS 0 0
    | .ok none => .wait
    | .ok (some w1) =>
      if hasSecond w1.toNat then
        match s.codeWord t (pc + 4) with
        | .error _ => .trap trapACCESS w1 0
        | .ok none => .wait
        | .ok (some w2) => decodeFor p w1 w2
      else decodeFor p w1 0

def Look.len : Look → Nat
  | .trap _ w1 _ => if hasSecond w1.toNat then 2 else 1
  | .instr _ w1 _ => if hasSecond w1.toNat then 2 else 1
  | .wait => 1

/-- A fetch uses its TLB entries, and a failed one fills the fault filter. -/
def State.fetched (s : State) (t pc : Nat) : State :=
  match s.find t pc .fetch with
  | .leaf _ => s.noteMiss t pc
  | .fail e => s.noteFail t pc e
  | .full => s.waitMiss t pc

/-- A fetch that finds the miss table full waits for an entry (R341): that of the first word, or that of the second. -/
def State.waitFetch (s : State) (t pc : Nat) : State :=
  if s.find t pc .fetch = .full then s.waitMiss t pc
  else if s.find t (pc + 4) .fetch = .full then s.waitMiss t (pc + 4)
  else s

/-! ### Readiness of lanes (R35, R58, R60) -/

/-- Local ops (Table 3.3), by op number. -/
def localOp (w1 : Nat) : Bool :=
  let op := w1 / 2 ^ 24 % 64
  decide (w1 / 2 ^ 31 % 2 = 0) && (decide (op ≤ 0x22) || (decide (0x30 ≤ op) && decide (op ≤ 0x33)) || decide (op = 0x37) || decide (op = 0x3F))

/-- The scoreboard holds every register of the instruction: no load of the group that has not arrived writes one. -/
def Group.sourcesReady (y : Group) (i : Instr) : Bool :=
  (sRegsOf i).all (fun n => !y.spend.contains n) &&
    (vRegsOf i).all fun n => !y.lanes.any fun l => l.2.pend.contains n

/-- Live lanes that stand at an address (R59). -/
def Group.lanesAt (y : Group) (pc : BitVec 56) : BitVec 32 := maskOf fun l => decide ((y.lane l).cond = .live) && decide ((y.lane l).pc = pc)

/-- A convergent instruction may execute for a lane: it stands outside the participants, or all of them have arrived (R77). -/
def Group.converged (y : Group) (i : Instr) (l : Nat) : Bool :=
  match convC i with
  | none => true
  | some c =>
    let p := participants y c
    !p.getLsbD l || decide (missing y p (y.lanesAt (y.lane l).pc) = 0)

/-- What a group finds at an address. -/
def State.groupLook (s : State) (t g : Nat) (pc : BitVec 56) : Look := s.look t (.group g) pc.toNat

/-- The lane's instruction is ready; `slow` marks lanes whose sources the memory system still holds back. -/
def State.laneReady (s : State) (t g l : Nat) (slow : BitVec 32) : Bool :=
  let y := (s.team t).group g
  match s.groupLook t g (y.lane l).pc with
  | .trap _ _ _ => true
  | .wait => false
  | .instr i _ _ => !slow.getLsbD l && y.sourcesReady i && y.converged i l

/-- The lane can run from its loop buffer (R58); an ungranted unit is no ready source. -/
def State.canBuffer (s : State) (t g l : Nat) (slow : BitVec 32) : Bool :=
  let y := (s.team t).group g
  let x := y.lane l
  match s.groupLook t g x.pc with
  | .instr i w1 w2 =>
      let n := (Look.instr i w1 w2).len
      decide (x.cond = .live) && x.waitv.isNone && decide (x.winBase ≤ x.pc.toNat) && decide (x.pc.toNat + 4 * n ≤ x.winEnd) &&
        localOp w1.toNat && !slow.getLsbD l && y.sourcesReady i && ((s.team t).unbacked g i).isEmpty
  | _ => false

/-- A waiting lane (R60): live, not in its buffer, and ready. -/
def State.laneWaits (s : State) (t g l : Nat) (slow : BitVec 32) : Bool :=
  let x := ((s.team t).group g).lane l
  decide (x.cond = .live) && x.waitv.isNone && !s.canBuffer t g l slow && s.laneReady t g l slow

/-- The age at which a waiting lane goes first. -/
def ageLimit : Nat := 64

/-- Of two waiting lanes, the one whose PC is broadcast: the older of those at the limit, else the lower PC. -/
def Group.lanePrior (y : Group) (a b : Nat) : Bool :=
  let x := y.lane a
  let z := y.lane b
  if ageLimit ≤ x.age ∨ ageLimit ≤ z.age then
    decide (z.age < x.age) || (decide (x.age = z.age) && (decide (x.pc.toNat < z.pc.toNat) || (decide (x.pc = z.pc) && decide (a < b))))
  else decide (x.pc.toNat < z.pc.toNat) || (decide (x.pc = z.pc) && decide (a < b))

/-- The waiting lane whose PC is broadcast. -/
def State.broadcastLane (s : State) (t g : Nat) (slow : BitVec 32) : Option Nat :=
  let y := (s.team t).group g
  ((List.range 32).filter fun l => s.laneWaits t g l slow).foldl
    (fun b l => match b with | none => some l | some k => if y.lanePrior l k then some l else some k) none

/-- The broadcast PC of an issue (R60). -/
def State.castPc (s : State) (t g : Nat) (slow : BitVec 32) : Option (BitVec 56) :=
  (s.broadcastLane t g slow).map fun l => (((s.team t).group g).lane l).pc

end Sys2Proof.Machine
end

