-- ==== Sys2Proof/Machine/TeamOps.lean ====
section
/-!
DEFINITION. `team` instructions (R146 to R151): `fork`, `rdv`, `regq`, `yield`; and the grant of flexible units (R129,
R130). `rotreq` stands with rotation.
-/

namespace Sys2Proof.Machine

/-! ### fork and rdv (R147, R148, R253) -/

/-- A stream that no `fork` may name. -/
def Stream.busy (y : Stream) : Bool := decide (y.state = .running) || decide (y.state = .ended)

/-- A stream started at an entry with the group's s registers and role. -/
def Group.startStream (y : Group) (entry : BitVec 56) (ev : List Nat) : Stream where
  pc := entry
  s := y.s
  status := 0
  state := .running
  role := y.role
  chain := .closed
  wait := none
  record := none
  lastPc := 0
  tried := 0
  forkEv := ev
  endEv := []
  spend := []
  failing := none

/-- The entry of a stream: a displacement in words from the `fork`. DESIGN CHOICE, log 52: the spec checks bits 63:56 of the target
nowhere, and a sequencer's PC has 56 bits. -/
def State.entryOf (s : State) {n : Nat} (disp : BitVec n) : BitVec 56 := (s.relative disp).setWidth 56

def execFork (mdisp : BitVec 22) (cdisp : BitVec 24) (s : State) : Out :=
  let x := s.curTeam
  if (mdisp ≠ 0 ∧ x.matrix.busy = true) ∨ (cdisp ≠ 0 ∧ x.copy.busy = true) then
    .next (s.trap { code := trapSTREAM, lanes := s.cur.lanes })
  else if mdisp = 0 ∧ cdisp = 0 then .next s.advance
  else
    let s1 := s.bareEvent .fork .team []
    let start {n : Nat} (disp : BitVec n) (old : Stream) : Stream :=
      if disp = 0 then old else s.curGroup.startStream (s.entryOf disp) s1.lastEvent
    .next (s1.mapCurTeam fun x => { x with matrix := start mdisp x.matrix, copy := start cdisp x.copy }).advance

/-- A stopped stream raises its code against the group: the record carries the stream's pc, words and code (R253). -/
def State.joinTrap (s : State) (y : Stream) (code : Byte) : State :=
  match y.record with
  | some r =>
      s.trap
        { code := code.toNat, flags := recAtRdv ||| (r.flags &&& recDeferred), origin := some (r.pc, r.w1, r.w2)
          lastIssued := r.lastIssued, completed := r.completed }
  | none => s.trap { code := code.toNat, flags := recAtRdv }

/-- A completed `rdv` moves an ended stream to idle. -/
def Stream.joined (y : Stream) : Stream := if y.state = .ended then { y with state := .idle } else y

/-- `rdv`: a stopped stream's code, the matrix stream's first; a wait while a stream runs; else the join. -/
def State.rdvOp (s : State) : State :=
  let x := s.curTeam
  match x.matrix.code with
  | some c => s.joinTrap x.matrix c
  | none =>
    match x.copy.code with
    | some c => s.joinTrap x.copy c
    | none =>
      if x.matrix.state = .running ∨ x.copy.state = .running then s.hold .rdv
      else
        ((s.bareEvent .rdv .team (x.matrix.endEv ++ x.copy.endEv)).mapCurTeam fun x =>
          { x with matrix := x.matrix.joined, copy := x.copy.joined }).advance

def execRdv (s : State) : Out := .next s.rdvOp

/-- A waiting `rdv` looks at the streams again. -/
def execRdvComplete (p : PartyRef) (s : State) : Out :=
  match s.waitOf p with
  | some w => if w.instr = .rdv then .next (s.resumeAs p w).rdvOp else .next s
  | none => .next s

/-! ### Units in use, regq and yield (R149, R151, R266) -/

/-- Granted flexible units. -/
def Group.grantedCount (y : Group) : Nat := ((List.range 28).filter fun u => y.granted.getLsbD u).length

/-- An issued instruction that has not completed reads or writes a register of a unit (R130, R266). -/
def Team.unitBusy (x : Team) (g u : Nat) : Bool :=
  let y := x.group g
  let inUnit (n : Nat) : Bool := decide (n / 8 = u)
  (y.lanes.any fun l => l.2.pend.any inUnit || l.2.uses.any inUnit || l.2.owes.any inUnit || match l.2.waitv with | some w => (vRegsOf w.instr).any inUnit | none => false) ||
    (match y.wait with | some w => (vRegsOf w.instr).any inUnit && (x.unbacked g w.instr).isEmpty | none => false) ||
    x.collector.any fun c => c.2.any fun k => decide (k.group = g) && k.regs.any inUnit

/-- v registers of some units read as zero. -/
def Lane.dropUnits (x : Lane) (f : Nat → Bool) : Lane :=
  { x with v := x.v.filter fun e => !f (e.1 / 8), spill := x.spill.filter fun e => !f (e.1 / 8) }

/-- The mask of the units that satisfy a test. -/
def unitMask (f : Nat → Bool) : BitVec 28 :=
  (List.range 28).foldl (fun m u => if f u then m ||| BitVec.ofNat 28 (2 ^ u) else m) 0

/-- The demand of a group becomes `n`; its units from `lo` on are released, those that are busy once they no longer are (R149, R266). -/
def Team.setDemand (x : Team) (g n lo : Nat) : Team :=
  let y := x.group g
  let kept (u : Nat) : Bool := y.granted.getLsbD u && x.unitBusy g u && decide (lo ≤ u)
  x.setGroup g { y with
    demand := n
    granted := y.granted &&& unitMask fun u => decide (u < lo)
    releasing := y.releasing ||| unitMask kept
    grantTime := y.grantTime.filter fun e => decide (e.1 < lo)
    lanes := y.lanes.map fun e => (e.1, e.2.dropUnits fun u => decide (lo ≤ u) && !kept u) }

/-- Units on their way back to the pool return to it once nothing uses them (R266). -/
def Team.settleGroup (x : Team) (g : Nat) : Team :=
  let y := x.group g
  let free (u : Nat) : Bool := y.releasing.getLsbD u && !x.unitBusy g u
  if y.releasing = 0 then x
  else
    x.setGroup g { y with
      releasing := y.releasing &&& ~~~(unitMask free)
      lanes := y.lanes.map fun e => (e.1, e.2.dropUnits free) }

def Team.settle (x : Team) : Team := x.groupList.foldl (fun x g => x.settleGroup g) x

/-- R149. A unit whose release is still to come (R266) no longer counts as granted: DEDUCED, log 67. -/
def execRegq (d : BitVec 5) (rd : Bool) (n : BitVec 5) (s : State) : Out :=
  let g := s.cur.party.groupNo
  let dem := min n.toNat (s.curTeam.budget g)
  let s1 := if rd then s else s.mapCurTeam fun x => x.setDemand g dem (x.quota g + dem)
  .next (s1.writeS d (clear (BitVec.ofNat 64 s1.curGroup.grantedCount))).advance

def execYield (s : State) : Out := .next (s.mapCurGroup fun y => { y with yielded := some s.now }).advance

/-! ### Flexible units (R129, R130) -/

def quadrantOf (g : Nat) : Nat := g % 4

/-- Groups of a quadrant. -/
def Team.quadrant (x : Team) (q : Nat) : List Nat := x.groupList.filter fun g => quadrantOf g = q

/-- Units that a group holds: granted, or still on their way back. -/
def Group.heldCount (y : Group) : Nat := ((List.range 28).filter fun u => y.granted.getLsbD u || y.releasing.getLsbD u).length

/-- Units of the quadrant's free pool: 64 less the quotas of its groups and what they hold. -/
def Team.freePool (x : Team) (q : Nat) : Nat :=
  64 - ((x.quadrant q).map x.quota).sum - ((x.quadrant q).map fun g => (x.group g).heldCount).sum

/-- Some lane waits in `waitv`, or the group waits at a barrier or in `rdv`. -/
def Group.atRest (y : Group) : Bool :=
  (y.lanes.any fun l => l.2.waitv.isSome) ||
  match y.wait with
  | some w =>
      match w.instr with
      | .barWait _ _ | .ubarWait _ | .txbWait _ _ _ | .utxbWait _ _ _ | .rdv => true
      | _ => false
  | none => false

/-- A granted unit that may be reclaimed: its group and number, and the keys of R130 (smaller is taken first). -/
structure Lent where
  group : Nat
  unit : Nat
  rest : Bool
  within : Bool
  level : Nat
  since : Nat
  deriving DecidableEq, Repr

/-- Units of other groups of the quadrant that are granted for 256 clk and that no instruction uses. -/
def Team.lent (x : Team) (g now : Nat) : List Lent :=
  ((x.quadrant (quadrantOf g)).filter fun h => decide (h ≠ g)).flatMap fun h =>
    let y := x.group h
    ((List.range 28).filter fun u => y.granted.getLsbD u && !x.unitBusy h u && decide (Map.get 0 y.grantTime u + 256 ≤ now)).map fun u =>
      ⟨h, u, y.atRest, decide (u < x.quota h + y.demand), Map.get 1 x.levels y.role, Map.get 0 y.grantTime u⟩

/-- R130: a resting group's unit only when nothing else qualifies; then above the demand, lower level, longest ago. -/
def Lent.before (a b : Lent) : Bool :=
  if a.rest ≠ b.rest then b.rest
  else if a.within ≠ b.within then b.within
  else if a.level ≠ b.level then decide (a.level < b.level)
  else decide (a.since < b.since)

/-- The unit to reclaim. DESIGN CHOICE, log 53: of two that are equal in every key of R130, the lower group's, then the lower unit. -/
def pickLent : List Lent → Option Lent
  | [] => none
  | a :: as =>
      match pickLent as with
      | none => some a
      | some b => if b.before a then some b else some a

/-- A lane's registers of a unit go to the spill area, and come back (R129). -/
def Lane.spillUnit (x : Lane) (u : Nat) : Lane :=
  let mine := x.v.filter fun e => decide (e.1 / 8 = u)
  { x with v := x.v.filter fun e => decide (e.1 / 8 ≠ u), spill := mine.foldl (fun m e => Map.put m e.1 e.2) x.spill }

def Lane.fillUnit (x : Lane) (u : Nat) : Lane :=
  let mine := x.spill.filter fun e => decide (e.1 / 8 = u)
  { x with v := mine.foldl (fun m e => Map.set (clear 0) m e.1 e.2) x.v, spill := x.spill.filter fun e => decide (e.1 / 8 ≠ u) }

/-- A unit is taken from its holder; its contents go to the spill area and come back with the next grant. -/
def Group.lose (y : Group) (u : Nat) : Group :=
  { y with
    granted := y.granted &&& ~~~(BitVec.ofNat 28 (2 ^ u))
    grantTime := y.grantTime.filter fun e => decide (e.1 ≠ u)
    lanes := y.lanes.map fun e => (e.1, e.2.spillUnit u) }

def Group.gain (y : Group) (u now : Nat) : Group :=
  { y with
    granted := y.granted ||| BitVec.ofNat 28 (2 ^ u)
    grantTime := Map.put y.grantTime u now
    lanes := y.lanes.map fun e => (e.1, e.2.fillUnit u) }

/-- The team after a grant to group `g`, from the pool or by reclaim, and the unit reclaimed; none where no unit can be had yet, or
where the unit itself is still on its way back. -/
def Team.grant (x : Team) (g u now : Nat) : Option (Team × Option Lent) :=
  if (x.group g).releasing.getLsbD u then none
  else if 0 < x.freePool (quadrantOf g) then some (x.setGroup g ((x.group g).gain u now), none)
  else
    match pickLent (x.lent g now) with
    | none => none
    | some v =>
      let x1 := x.setGroup v.group ((x.group v.group).lose v.unit)
      some (x1.setGroup g ((x1.group g).gain u now), some v)

/-- Where a save area holds register `v` of a lane (Table 11.4). -/
def spillAt (area g v l : Nat) : Nat := area + 0x40000 + 0x7000 * g + 128 * v + 4 * l

/-- The registers of a reclaimed unit are written to the spill area of the team's save area (R129). -/
def State.spillOut (s : State) (t : Nat) (v : Lent) : State :=
  match (s.team t).area with
  | none => s
  | some a =>
    (List.range 8).foldl
      (fun (s : State) i =>
        (List.range 32).foldl
          (fun (s : State) l =>
            let x := ((s.team t).group v.group).lane l
            if x.cond = .never then s else s.putBytes (spillAt a v.group (8 * v.unit + i) l) (leBytes 4 (x.readV (8 * v.unit + i)).val.toNat)) s) s

/-- Flexible units that a group's next instruction names and that are not granted (R129). -/
def State.unitsFor (s : State) (t g : Nat) (next : Option Instr) : List Nat :=
  match ((s.team t).group g).wait with
  | some w => (s.team t).unbacked g w.instr
  | none => match next with | some i => if (s.team t).beyondQuota g i then [] else (s.team t).unbacked g i | none => []

/-- The instruction at a group's broadcast PC. -/
def State.nextInstr (s : State) (t g : Nat) : Option Instr :=
  (s.castPc t g 0).bind fun pc => match s.groupLook t g pc with | .instr i _ _ => some i | _ => none

/-- Flexible units that a group waits for: those of the instruction that holds it, or of its next broadcast instruction. -/
def State.unitsWanted (s : State) (t g : Nat) : List Nat := s.unitsFor t g (s.nextInstr t g)

/-- A group whose next instruction names ungranted flexible units receives the first of them; with the last one it is ready again. -/
def execFlexUnitGrant (p : PartyRef) (s : State) : Out :=
  let g := p.party.groupNo
  let s0 := s.mapTeam p.team Team.settle
  match s0.unitsWanted p.team g with
  | [] => .next s
  | u :: _ =>
    if (s.team p.team).residency ≠ .resident ∨ p.party.isGroup = false then .next s
    else
      match (s0.team p.team).grant g u (s.clkOf p.team) with
      | none => .next s0
      | some r =>
        let s1 := (match r.2 with | some v => s0.spillOut p.team v | none => s0).setTeam p.team r.1
        .next (if ((s0.waitOf p).all fun w => (r.1.unbacked g w.instr).isEmpty) then s1.clearWait p else s1)

end Sys2Proof.Machine
end

