-- ==== Sys2Proof/Machine/Handler.lean ====
section
/-!
DEFINITION. The handler's instructions `tret`, `tkill`, `tsusp` (R254), and the watchdog (R260).
-/

namespace Sys2Proof.Machine

/-- Outside handler mode `trap` raises PRIV, a handler trap. -/
def State.inHandler (s : State) (k : State) : Out :=
  if s.curGroup.handler then .next k else .next (s.trap { code := trapPRIV, lanes := s.cur.lanes })

/-- What 8 bytes of the record at an address reach; like any uniform access, no private memory (R145). -/
def State.recordUnit (s : State) (t g a : Nat) : Trans :=
  match s.decodeGeneric t a with
  | none => .fail a 0 0
  | some (.priv _) => .fail a 0 0
  | some r => s.translate t g 0 8 r .read

/-- The record's addresses, in the order in which it is read. -/
def recordUnits (a : Nat) : List Nat := (List.range 48).map fun i => a + 8 * i

/-- What the reading of the record at an address meets: the code and address of a failure, or a part that is held. -/
inductive RecordRead where
  | trap (code addr : Nat)
  | held
  | spots (xs : List (Nat × Spot))
  deriving DecidableEq, Repr

/-- The reading of the record as plain loads of 8 bytes, with the checks of a load (R165; log 54). -/
def State.recordRead (s : State) (t g a : Nat) : RecordRead :=
  if a % 8 ≠ 0 then .trap trapMISALIGN a
  else
    let us := (recordUnits a).map fun b => (b, s.recordUnit t g b)
    match us.find? fun u => match u.2 with | .fail _ _ _ => true | _ => false with
    | some u => .trap trapACCESS u.1
    | none =>
      let xs := us.filterMap fun u => match u.2 with | .ok p => some (u.1, p) | _ => none
      let mine : State := { s with cur := { s.cur with team := t } }
      if xs.length < us.length then .held
      else
        match xs.find? fun x => (mine.peerCode x.2 false .team).isSome with
        | some x => .trap ((mine.peerCode x.2 false .team).getD trapROUTE) x.1
        | none =>
          match xs.find? fun x => s.sectorPoisoned x.2 8 with
          | some x => .trap trapUNCORR x.1
          | none => .spots xs

/-- The record's bytes are loaded; WMODE tells of a weave in compute mode (R155). -/
def State.loadRecord (s : State) (t g : Nat) (xs : List (Nat × Spot)) : State × List Byte :=
  xs.foldl
    (fun (a : State × List Byte) x =>
      let k := a.1.kindOf t (.group g) .plain .team
      let s1 := match a.1.decodeGeneric t x.1 with | some r => a.1.prepare k t g 0 8 r false | none => a.1
      let q := s1.readAt k x.2 8
      let s2 := if q.2.wmode then q.1.mapGroup t g fun y => { y with lanes := mapLanes y.liveMask (fun _ z => z.setFlags flagWMODE) y.lanes } else q.1
      (s2, a.2 ++ q.2.bytes)) (s, [])

/-- The record is read at s28, and the group returns; a read that fails is a double trap at the `tret`, or at the `tsusp` of a group
that the driver resumes (R252, R254). None: a part of the record is held. -/
def State.trapReturn (s : State) (t g : Nat) : Option State :=
  let a := (((s.team t).group g).readS 28).val.toNat
  match s.recordRead t g a with
  | .trap code addr => some { ({ s with cur := { s.cur with team := t, party := .group g } }).groupTrap { code := code, addr := addr } with cur := s.cur }
  | .held => none
  | .spots xs => let r := s.loadRecord t g xs; some (r.1.mapGroup t g fun y => y.returnFrom r.2)

/-- The record is read after the group's earlier stores. -/
def execTret (s : State) : Out :=
  s.inHandler <| ((s.performOwn .team).trapReturn s.cur.team s.cur.party.groupNo).getD (s.hold .tret)

/-- A poisoned s[A] is read as its value bits. -/
def execTkill (a : BitVec 5) (s : State) : Out :=
  s.inHandler (s.endGrid s.curTeam.grid ((s.curGroup.readS a.toNat).val.setWidth 32))

/-- The group is not ready until the driver acts on it; its record stands in the trap area. -/
def execTsusp (s : State) : Out := s.inHandler ((s.mapCurGroup fun y => { y with suspended := true }).hold .tsusp)

/-! ### The watchdog (R260) -/

/-- Waits to which the watchdog applies. -/
def watched : Instr → Bool
  | .barWait _ _ | .ubarWait _ | .txbWait _ _ _ | .utxbWait _ _ _ | .qpush _ _ _ | .qpop _ _ _ | .mpush _ _ _ _ _ _
  | .accalloc _ _ | .wmodeComp _ _ _ _ | .wmodeStore _ | .weaveSwitchEnd _ _ | .rdv | .ufenceWait _ _ => true
  | _ => false

/-- The lanes of a group that stand in the `waitv` at an address, without a timeout. -/
def Group.inWaitv (y : Group) (pc : BitVec 56) : BitVec 32 :=
  maskOf fun l =>
    decide ((y.lane l).cond = .live) && match (y.lane l).waitv with | some v => decide (v.timeout = 0) && decide (v.issue.pc = pc) | none => false

/-- The issue at which a group waits: its watched wait, or the lanes that are still in a `waitv` without a timeout. -/
def Group.watchedIssue (y : Group) : Option Issue :=
  match y.wait with
  | some w => if watched w.instr then some w.issue else none
  | none =>
    (List.range 32).findSome? fun l =>
      match (y.lane l).waitv with
      | some v => if v.timeout = 0 ∧ (y.lane l).cond = .live then some { v.issue with lanes := y.inWaitv v.issue.pc } else none
      | none => none

/-- A group awaits the driver: it is descheduled for a fault, or the page of a load that poisoned is in a batch (R343). -/
def State.awaitsDriver (s : State) (x : Team) : Bool :=
  x.groupList.any fun g =>
    (x.group g).fault.isSome || (x.group g).poison.any fun e => !e.2.spent && e.2.pages.any fun a => s.awaited x.ctx (pageOf a.2)

/-- The watchdog fires for a team: nothing has happened for one interval of resident time. What ends a fault or a copy starts the
interval afresh, and a freeze does not count. -/
def State.watchdogDue (s : State) (t : Nat) : Bool :=
  let x := s.team t
  decide (x.residency = .resident) && !s.awaitsDriver x && x.flying.isEmpty &&
    decide ((s.ctx x.ctx).watchdog * 1000000 ≤ s.gtime - x.idleSince)

/-- WATCHDOG for one party, where it waits. -/
def State.watchParty (s : State) (t : Nat) (p : Party) : State :=
  let x := s.team t
  if x.residency ≠ .resident then s
  else
    match p with
    | .group g =>
        match (x.group g).watchedIssue with
        | some i => { s with cur := i }.trap { code := trapWATCHDOG, lanes := i.lanes }
        | none => s
    | p =>
        match (x.stream p).wait with
        | some w => { s with cur := w.issue }.streamTrap { code := trapWATCHDOG }
        | none => s

/-- Each waiting group takes WATCHDOG at its waiting instruction; a waiting stream stops with it. -/
def execWatchdog (team : Nat) (s : State) : Out :=
  if s.watchdogDue team then
    .next (parties.foldl (fun s p => s.watchParty team p) (s.mapTeam team fun x => { x with idleSince := s.gtime }))
  else .next s

end Sys2Proof.Machine
end

