-- ==== Sys2Proof/Machine/Rotation.lean ====
section
/-!
DEFINITION. Freezing a team (R261), thermal rotation (R289 to R301), and the failures of relocation state (R288).
-/

namespace Sys2Proof.Machine

/-! ### Freezing (R261, R293 step 1) -/

/-- A wait that stays over a freeze: at a named barrier at which the party has arrived, where a `sync` does not arrive again (R247),
and after `tsusp`. -/
def keptWait (tok : Nat → Token) (w : Option Wait) : Option Wait :=
  let arrived (b : BitVec 4) : Bool := decide (tok b.toNat ≠ .none) && decide (tok b.toNat ≠ .waiting)
  match w with
  | some v =>
      match v.instr with
      | .barWait b _ => if arrived b then some v else none
      | .ubarWait b => if arrived b then some v else none
      | .tsusp => some v
      | _ => none
  | none => none

/-- A lane at an instruction boundary: its window is empty and it waits for nothing (R76, R80, R293). -/
def Lane.freeze (x : Lane) : Lane :=
  { x with
    winBase := 0, winEnd := 0, age := 0, arrived := none, waitv := none, pend := [], uses := []
    owes := match x.waitv with | some w => vRegsOf w.instr | none => x.owes }

/-- Every wait is abandoned, to execute again on resume. -/
def Group.freeze (y : Group) (tok : Nat → Token) : Group :=
  { y with wait := keptWait tok y.wait, spend := [], lanes := y.lanes.map fun e => (e.1, e.2.freeze) }

/-- A sequencer's wait is abandoned too; what had not issued has still not (R218). -/
def Stream.freeze (y : Stream) (tok : Nat → Token) : Stream :=
  { y with wait := keptWait tok y.wait, spend := [], tried := if (keptWait tok y.wait).isSome then y.tried else y.lastIssued }

/-- What stands in an operand collector has not begun and is discarded (R274); waits at barriers with no token are begun anew (R247). -/
def Team.freeze (x : Team) : Team :=
  let y : Team :=
    { x with
      groups := x.groups.map fun e => (e.1, e.2.freeze (x.token e.1))
      matrix := x.matrix.freeze (x.token 16)
      copy := x.copy.freeze (x.token 17)
      collector := []
      tokens := x.tokens.filter fun e => decide (e.2 ≠ .waiting) }
  y.settle

/-- A team halts: loads on their way arrive, switches complete (R183), and waits are abandoned. -/
def State.freezeTeam (s : State) (t : Nat) : State :=
  let s1 := s.arriveWhere fun x => decide (x.team = t)
  let s2 := ((List.range 4).foldl (fun s w => s.endSwitch t w) s1).stopFailing t
  s2.mapTeam t fun x => { x.freeze with frozenAt := s.gtime }

/-- A team whose freeze ends: the time spent frozen is not resident time (R295). -/
def Team.thaw (x : Team) (now : Nat) : Team := { x with residency := .resident, idleSince := x.idleSince + (now - x.frozenAt) }

/-- Private lines held in L1 go back to the team's frame, and clean ones are dropped; one whose page fails stays (R159, R293). -/
def State.dropPriv (s : State) (t : Nat) : State :=
  ((s.team t).privFilled.map fun e => e.1).foldl (fun s line => if (s.evictFails t line).isSome then s else s.evictPriv t line) s

/-- Every dirty line that a core's L1 holds for a team stands in the cluster L2 (R262, R293), and its leases are given up. -/
def State.emptyL1 (s : State) (t : Nat) : State := let s1 := (s.dropPriv t).quitLeases t; { s1 with words := flushOwned s1.words t }

/-- What a core holds for a team besides the items of Table 11.4 starts empty at the destination (R296): L1 and, DESIGN CHOICE, log 69, the
core TLB. -/
def Team.coldCore (x : Team) : Team := { x with l1 := [], tlb := [], flips := [] }

/-! ### The relocation table (R284) -/

/-- The team on a tile of a cluster. -/
def State.tileTeam (s : State) (c tile : Nat) : Option Nat := (lookup? (s.cluster c).reloc tile).map fun e => e.team

/-- The entry of a team's tile is made, in place of any other of the team. -/
def State.placeEntry (s : State) (t tile : Nat) (moving : Option Nat) : State :=
  let x := s.team t
  let c := s.cluster x.cluster
  s.setCluster x.cluster { c with reloc := Map.put (c.reloc.filter fun e => decide (e.2.team ≠ t)) tile ⟨moving, x.ctx, x.slot, t⟩ }

/-- The moving bit of a team's entry is cleared. -/
def State.clearMoving (s : State) (t : Nat) : State :=
  let x := s.team t
  let c := s.cluster x.cluster
  s.setCluster x.cluster { c with reloc := c.reloc.map fun e => if e.2.team = t then (e.1, { e.2 with moving := none }) else e }

/-! ### Rotation -/

/-- Interval of a rotation field in ns; none unless timed (Table 16.1). -/
def rotationInterval (f : Nat) : Option Nat :=
  match f with
  | 1 => some 250000
  | 2 => some 500000
  | 3 => some 1000000
  | 4 => some 2000000
  | 5 => some 4000000
  | _ => none

/-- On request. -/
def rotationOnRequest : Nat := 6

/-- Some team of a context is halted for a save that has not been made (R292, R299). -/
def State.preempting (s : State) (tag : Nat) : Bool := s.teams.any fun e => decide (e.2.ctx = tag) && decide (e.2.residency = .halted)

/-- A member of a team's gang is being made resident, descheduled or rotated. -/
def State.gangBusy (s : State) (t : Nat) : Bool :=
  s.teams.any fun e => decide (e.1 ≠ t) && (s.team t).sameGang e.2 && decide (e.2.residency ≠ .resident) && decide (e.2.residency ≠ .ended)

/-- A team that a rotation may move: resident, in a context whose mode is not off and that is not being pre-empted (R290, R292). -/
def State.partnerOk (s : State) (t : Nat) : Bool :=
  let x := s.team t
  decide (x.residency = .resident) && decide ((s.ctx x.ctx).rotation ≠ 0) && !s.preempting x.ctx && !s.gangBusy t

/-- A tile that may be the destination of a team. Members of one gang do not change places, as they are rotated one at a time. -/
def State.destOk (s : State) (t tile : Nat) : Bool :=
  decide (tile < 192) &&
  match s.tileTeam (s.team t).cluster tile with
  | none => true
  | some u => s.partnerOk u && !(s.team t).sameGang (s.team u)

/-- Steps 1 to 3 for one team: frozen, written back, moved; its slot's moving bit is set until the release. -/
def State.moveTeam (s : State) (t tile : Nat) (partner : Option Nat) : State :=
  let s1 := ((s.freezeTeam t).emptyL1 t).mapTeam t fun x => { x.coldCore with tile := tile, residency := .moving partner }
  s1.placeEntry t tile (some (s.clkOf t))

/-- A rotation of a team to a tile, or an exchange with the team there. -/
def State.rotate (s : State) (t tile : Nat) : State :=
  let x := s.team t
  match s.tileTeam x.cluster tile with
  | none => s.moveTeam t tile none
  | some u => (s.moveTeam t tile (some u)).moveTeam u x.tile (some t)

/-- Step 4: what the relocation buffer holds for a team's slot is performed, in the order in which it was held. -/
def State.replayHeld (s : State) (t : Nat) : State :=
  let c := (s.team t).cluster
  let mine := (s.cluster c).buffer.filter fun h => decide (h.team = t)
  (s.setCluster c { s.cluster c with buffer := (s.cluster c).buffer.filter fun h => decide (h.team ≠ t) }).replayAll mine mine

/-- Steps 4 to 6 for one team. -/
def State.landTeam (s : State) (t : Nat) : State :=
  ((s.clearMoving t).replayHeld t).mapTeam t fun x => { x.thaw s.gtime with rotgen := x.rotgen + 1, lastRotated := s.gtime }

/-- The release of a rotation: both teams of an exchange are released together (R293). -/
def State.releaseMove (s : State) (t : Nat) : State :=
  match (s.team t).residency with
  | .moving none => s.landTeam t
  | .moving (some u) =>
      match (s.team u).residency with
      | .moving _ => (s.landTeam t).landTeam u
      | _ => s.landTeam t
  | _ => s

/-- A stall is at most 3,150 clk (Table 16.2). -/
def stallLimit : Nat := 3150

/-- What the relocation buffer of a cluster still holds for slots that move no more is performed. -/
def State.retryHeld (s : State) (c : Nat) : State :=
  ((((s.cluster c).buffer.map fun h => h.team).eraseDups).filter fun t => !s.moving t).foldl (fun s t => s.replayHeld t) s

/-- The moves of a cluster whose time is up are released. -/
def State.releaseDue (s : State) (c : Nat) : State :=
  (s.retryHeld c) |> fun s => (s.cluster c).reloc.foldl
    (fun s e =>
      match e.2.moving with
      | some since => if since + stallLimit ≤ Map.get 0 s.clk c then s.releaseMove e.2.team else s
      | none => s) s

/-- Tiles to which a team may rotate on request (R291). -/
def State.rotationTiles (s : State) (t : Nat) : List Nat :=
  if s.partnerOk t then (List.range 192).filter fun i => decide (i ≠ (s.team t).tile) && s.destOk t i else []

/-- `rotreq`: a no-operation unless the context is on request (R150). -/
def execRotreq (s : State) : Out :=
  if s.curCtx.rotation ≠ rotationOnRequest then .next s.advance
  else
    match s.rotationTiles s.cur.team with
    | [] => .next (s.hold .rotreq)
    | c :: cs => .next (s.advance.rotate s.cur.team ((c :: cs).getD (Config.tileChoice s.freeCtr % (c :: cs).length) c))

/-- A team whose interval has passed (R290). -/
def State.rotationDue (s : State) (t : Nat) : Bool :=
  let x := s.team t
  match rotationInterval (s.ctx x.ctx).rotation with
  | some i => s.partnerOk t && decide (i ≤ s.gtime - max x.lastRotated x.residentSince)
  | none => false

/-- The teams that pairs of tiles would move. -/
def State.pairTeams (s : State) (c : Nat) (pairs : List (Nat × Nat)) : List Nat :=
  (pairs.flatMap fun p => [p.1, p.2]).filterMap (s.tileTeam c)

/-- A tile counts as hot (R290, R364). -/
def State.tileHot (s : State) (c tile : Nat) : Bool :=
  decide (s.pkg.hot = 0) || decide (s.pkg.hot ≤ Config.tileHeat ((s.freeCtr * 16 + c) * 256 + tile))

/-- The governor's choice keeps the steps of R290: at most four pairs of distinct tiles, an eligible team on each source, and no two
members of one gang. -/
def State.pairsOk (s : State) (c : Nat) (pairs : List (Nat × Nat)) : Bool :=
  let tiles := pairs.flatMap fun p => [p.1, p.2]
  let ts := s.pairTeams c pairs
  decide (pairs.length ≤ 4) && decide tiles.Nodup &&
    (pairs.all fun p => s.tileHot c p.1 && match s.tileTeam c p.1 with | some t => s.rotationDue t && s.destOk t p.2 | none => false) &&
    ts.all fun t => ts.all fun u => decide (t = u) || !(s.team t).sameGang (s.team u)

/-- Every 250 µs the controller of a cluster rotates the teams on the tiles that the governor pairs. -/
def execRotationConsideration (cluster : Nat) (pairs : List (Nat × Nat)) (s : State) : Out :=
  if s.gtime < (s.cluster cluster).considered + 250000 ∨ s.pairsOk cluster pairs = false then .next s
  else
    let s1 := s.setCluster cluster { s.cluster cluster with considered := s.gtime }
    .next (pairs.foldl (fun s p => match s.tileTeam cluster p.1 with | some t => s.rotate t p.2 | none => s) s1)

/-! ### Failures of relocation state (Table 15.6) -/

/-- Teams of a cluster that have not ended. -/
def State.teamsIn (s : State) (c : Nat) : List Nat :=
  (s.teams.filter fun e => decide (e.2.cluster = c) && decide (e.2.residency ≠ .ended) && decide (e.2.residency ≠ .absent)).map fun e => e.1

/-- Every grid with a team in the cluster ends, and the cluster takes no new teams; the die's rail is nominal again (R367). -/
def execRelocationUncorr (cluster : Nat) (s : State) : Out :=
  let s1 := (s.teamsIn cluster).foldl (fun s t => s.endGrid (s.team t).grid (statusOf 0xFFFFFE00 (s.logicalCluster t))) s
  .next ((s1.setCluster cluster { s1.cluster cluster with stopped := true }).nominalRail (cluster / 2))

/-- The driver resets a stopped cluster. -/
def execClusterReset (cluster : Nat) (s : State) : Out :=
  .next (s.setCluster cluster { s.cluster cluster with stopped := false })

end Sys2Proof.Machine
end

