-- ==== Sys2Proof/Machine/SaveArea.lean ====
section
/-!
DEFINITION. The save area (Tables 11.4 to 11.6): where every item of a team lies, how it is written and how it is read
back. One list of fields serves both.
-/

namespace Sys2Proof.Machine

/-- An item of the save area: its offset, its size in bytes, how it is read from a team, and how it is put back. -/
structure SaveField where
  off : Nat
  size : Nat
  get : Team → List Byte
  put : Team → List Byte → Team

/-- An item that is one little-endian number. -/
def numField (off size : Nat) (get : Team → Nat) (put : Team → Nat → Team) : SaveField :=
  ⟨off, size, fun x => leBytes size (get x), fun x bs => put x (leValue bs)⟩

/-- The layout number, which restore has nowhere to put. -/
def layoutField : SaveField := numField 0 4 (fun _ => 1) fun x _ => x

/-! ### Trap records read back -/

def recordOfBytes (bs : List Byte) : Record :=
  let f (o n : Nat) : Nat := leValue ((bs.drop o).take n)
  { pc := f 0 8
    w1 := BitVec.ofNat 32 (f 8 4)
    w2 := BitVec.ofNat 32 (f 12 4)
    code := BitVec.ofNat 8 (f 0x10 1)
    party := f 0x11 1
    flags := BitVec.ofNat 8 (f 0x12 1)
    index := BitVec.ofNat 8 (f 0x13 1)
    lanes := BitVec.ofNat 32 (f 0x14 4)
    addr := f 0x18 8
    rotgen := BitVec.ofNat 32 (f 0x20 4)
    tile := f 0x24 4
    gtime := f 0x28 8
    savedS := (List.range 4).map fun i => (28 + i, BitVec.ofNat 64 (f (0x30 + 8 * i) 8))
    lastIssued := f 0x50 8
    completed := BitVec.ofNat 32 (f 0x58 4)
    lanePc := (List.range 32).map fun l => (l, f (0x80 + 8 * l) 8) }

def optRecord (r : Option Record) : List Byte := match r with | some r => recordBytes r | none => List.replicate 384 0

/-! ### Streams -/

def StreamState.num : StreamState → Nat
  | .idle => 0
  | .running => 1
  | .ended => 2
  | .stopped _ => 3

/-- The stopped state's code is that of the record. -/
def StreamState.ofNum (n : Nat) (r : Option Record) (old : StreamState) : StreamState :=
  match n with
  | 0 => .idle
  | 1 => .running
  | 2 => .ended
  | _ => match r with | some r => .stopped r.code | none => old

def Chain.num : Chain → Nat
  | .closed => 0
  | .unordered => 1
  | .ordered => 2

def Chain.ofNum (n : Nat) : Chain := if n = 0 then .closed else if n = 1 then .unordered else .ordered

def Team.mapStream (x : Team) (p : Party) (f : Stream → Stream) : Team := x.setStream p (f (x.stream p))

/-- A value put back keeps the register's tag: the area has no place for a stream's. -/
def Stream.putS (y : Stream) (i v : Nat) : Stream := y.writeS i ⟨BitVec.ofNat 64 v, (y.readS i).tag⟩

def streamFields (base : Nat) (p : Party) : List SaveField :=
  [numField base 8 (fun x => (x.stream p).pc.toNat) fun x v => x.mapStream p fun y => { y with pc := BitVec.ofNat 56 v }] ++
  (List.range 32).map (fun i =>
    numField (base + 8 + 8 * i) 8 (fun x => ((x.stream p).readS i).val.toNat) fun x v => x.mapStream p fun y => y.putS i v) ++
  [numField (base + 0x108) 4 (fun x => (x.stream p).status.toNat)
      fun x v => x.mapStream p fun y => { y with status := BitVec.ofNat 8 v },
   ⟨base + 0x200, 384, fun x => optRecord (x.stream p).record,
      fun x bs => x.mapStream p fun y => { y with record := y.record.map fun _ => recordOfBytes bs }⟩,
   numField (base + 0x10C) 4 (fun x => (x.stream p).state.num)
      fun x v => x.mapStream p fun y => { y with state := StreamState.ofNum v y.record y.state }]

def chainField : SaveField :=
  numField 0x1110 4 (fun x => x.matrix.chain.num) fun x v => { x with matrix := { x.matrix with chain := Chain.ofNum v } }

/-! ### Team header (Table 11.5) -/

def WeaveMode.isCompute : WeaveMode → Bool
  | .compute => true
  | _ => false

def Weave.header (v : Weave) : Nat := (if v.mode.isCompute then 1 else 0) + (v.n - 1) * 2 + (if v.bin1 then 16 else 0)

def Weave.ofHeader (v : Weave) (n : Nat) : Weave :=
  { v with mode := if n % 2 = 1 then .compute else .storage, n := n / 2 % 8 + 1, bin1 := n.testBit 4 }

def NamedBar.header (v : NamedBar) : Nat := v.phase.toNat + v.expected * 2 ^ 4 + v.pending * 2 ^ 16

def NamedBar.ofHeader (v : NamedBar) (n : Nat) : NamedBar :=
  { v with phase := BitVec.ofNat 4 n, expected := n / 2 ^ 4 % 2 ^ 12, pending := n / 2 ^ 16 % 2 ^ 12 }

/-- A wait begun with no token is saved as none. -/
def Token.num : Token → Nat
  | .none | .waiting => 0
  | .pending => 1
  | .released _ => 2

def Token.ofNum (n : Nat) (old : Token) : Token :=
  if n = old.num then old else if n = 1 then .pending else if n = 2 then .released [] else .none

/-- Entries of the stage-queue memory before queue `n`. -/
def Team.queueBase (x : Team) (n : Nat) : Nat := ((List.range n).map fun i => (x.queue i).depth).sum

def Team.queueHeader (x : Team) (n : Nat) : Nat :=
  let q := x.queue n
  if q.depth = 0 then 0
  else x.queueBase n + q.entries.length * 2 ^ 8 + q.depth * 2 ^ 16 + q.producer * 2 ^ 24 + q.consumer * 2 ^ 32

/-- Occupancy, depth and roles come back with the header; the entries follow from the stage-queue memory. -/
def Team.putQueueHeader (x : Team) (n v : Nat) : Team :=
  let q := x.queue n
  if v / 2 ^ 16 % 2 ^ 8 = 0 then { x with queues := Map.put x.queues n noQueue }
  else
    { x with
      queues := Map.put x.queues n
        ⟨v / 2 ^ 16 % 2 ^ 8, v / 2 ^ 24 % 2 ^ 8, v / 2 ^ 32 % 2 ^ 8, (List.range (v / 2 ^ 8 % 2 ^ 8)).map fun i => q.entries.getD i []⟩ }

/-- Quota and budget of a role. -/
def Team.putQuota (x : Team) (i v : Nat) : Team :=
  if (lookup? x.roles i).isSome then { x with roles := Map.put x.roles i { x.role i with quota := v % 2 ^ 8, budget := v / 2 ^ 8 } } else x

def headerFields : List SaveField :=
  [layoutField,
   numField 4 4 (fun x => x.x) fun x v => { x with x := v },
   numField 8 4 (fun x => x.y) fun x v => { x with y := v },
   numField 12 4 (fun x => x.z) fun x v => { x with z := v },
   numField 0x10 4 (fun x => x.laneCount) fun x v => { x with laneCount := v },
   numField 0x14 1 (fun x => x.slot) fun x v => { x with slot := v },
   numField 0x16 1 (fun x => x.nGroups) fun x v => { x with nGroups := v },
   numField 0x17 1 (fun x => x.roles.length) fun x v => { x with roles := x.roles.filter fun e => decide (e.1 < v) },
   numField 0x18 4 (fun x => x.rotgen.toNat) fun x v => { x with rotgen := BitVec.ofNat 32 v },
   numField 0x28 2 (fun x => x.banks.toNat) fun x v => { x with banks := BitVec.ofNat 16 v },
   numField 0x2A 2 (fun x => (List.range 16).foldl (fun a h => if (lookup? x.handles h).isSome then a + 2 ^ h else a) 0)
      fun x v => { x with handles := x.handles.filter fun e => v.testBit e.1 }] ++
  (List.range 4).map (fun i =>
    numField (0x20 + 2 * i) 2 (fun x => (x.role i).quota + (x.role i).budget * 2 ^ 8) fun x v => x.putQuota i v) ++
  (List.range 4).map (fun w =>
    numField (0x30 + w) 1 (fun x => (x.weave w).header) fun x v => x.setWeave w ((x.weave w).ofHeader v)) ++
  (List.range 16).map (fun b =>
    numField (0x40 + 4 * b) 4 (fun x => (x.bar b).header) fun x v => x.setBar b ((x.bar b).ofHeader v)) ++
  (List.range 72).map (fun j =>
    numField (0x80 + j) 1
      (fun x => ((List.range 4).map fun i => (x.token ((4 * j + i) / 16) ((4 * j + i) % 16)).num * 4 ^ i).sum)
      fun x v => (List.range 4).foldl
        (fun x i =>
          let k := 4 * j + i
          x.setToken (k / 16) (k % 16) (Token.ofNum (v / 4 ^ i % 4) (x.token (k / 16) (k % 16)))) x) ++
  (List.range 8).map fun n => numField (0xD0 + 8 * n) 8 (fun x => x.queueHeader n) fun x v => x.putQueueHeader n v

/-! ### Handles, slots, queues, mapped lines -/

def handleFields : List SaveField :=
  (List.range 16).map fun h =>
    numField (0x2000 + 32 * h) 32 (fun x => ((lookup? x.handles h).getD 0).toNat)
      fun x v => if (lookup? x.handles h).isSome then { x with handles := Map.put x.handles h (BitVec.ofNat 256 v) } else x

/-- A row: q at 0 to 31, σ_a at 32, X_a at 33, Σq at 36 to 39. -/
def SlotRow.bytes (r : SlotRow) : List Byte :=
  ((List.range 32).map fun i => BitVec.ofNat 8 (wrapInt 8 (r.q.getD i 0))) ++
    [BitVec.ofNat 8 (wrapInt 8 r.shift), BitVec.ofNat 8 r.scale, 0, 0] ++ leBytes 4 (wrapInt 32 r.sum)

def SlotRow.ofBytes (bs : List Byte) : SlotRow :=
  ⟨(List.range 32).map fun i => signedOf 8 ((bs.getD i 0).toNat), signedOf 8 (bs.getD 32 0).toNat, (bs.getD 33 0).toNat,
    signedOf 32 (leValue ((bs.drop 36).take 4))⟩

def slotFields (p : Nat) : List SaveField :=
  (List.range 16).map (fun r =>
    ⟨0x4000 + 0x800 * p + 64 * r, 40, fun x => ((x.slotAt p).row r).bytes,
      fun x bs => x.setSlot p { x.slotAt p with rows := Map.set SlotRow.zero (x.slotAt p).rows r (SlotRow.ofBytes bs) }⟩) ++
  [numField (0x4000 + 0x800 * p + 0x400) 4 (fun x => (x.slotAt p).fw.toNat)
      fun x v => x.setSlot p { x.slotAt p with fw := BitVec.ofNat 32 v },
   numField (0x4000 + 0x800 * p + 0x404) 4 (fun x => (x.slotAt p).filled.toNat + if (x.slotAt p).broken then 16 else 0)
      fun x v => x.setSlot p { x.slotAt p with filled := BitVec.ofNat 4 v, broken := v.testBit 4 }]

/-! ### The matrix engine -/

/-- The `mma` whose row is in progress, with its last pass. The rest of its position has no place stated (log 33). -/
def Team.rowInProgress (x : Team) : Option (EngineOp × Nat × Nat) :=
  x.engine.findSome? fun o =>
    match o.instr with
    | .mma m _ =>
        if 0 < o.seg ∧ o.rows < 16 then some (o, (o.seg - 1) / (m.g.toNat + 1), (o.seg - 1) % (m.g.toNat + 1)) else none
    | _ => none

/-- The block integer that was formed last in a weave column. -/
def Team.blockField (x : Team) (w c : Nat) : Nat :=
  match x.rowInProgress with
  | some q => wrapInt 32 (Map.get 0 q.1.blocks (blockKey q.2.1 q.2.2 w c))
  | none => 0

def Team.putBlock (x : Team) (w c v : Nat) : Team :=
  match x.rowInProgress with
  | some q => x.mapOp q.1.id fun e => { e with blocks := Map.set 0 e.blocks (blockKey q.2.1 q.2.2 w c) (signedOf 32 v) }
  | none => x

def engineFields : List SaveField :=
  (List.range 4).flatMap fun w =>
    (List.range 1024).map fun c => numField (0x8000 + 0x1000 * w + 4 * c) 4 (fun x => x.blockField w c) fun x v => x.putBlock w c v

/-! ### Stage-queue memory and mapped lines -/

/-- The queue that holds entry `e` of the stage-queue memory, and the entry's place in it. -/
def Team.entryOf (x : Team) (e : Nat) : Option (Nat × Nat) :=
  (List.range 8).findSome? fun n =>
    let b := x.queueBase n
    if b ≤ e ∧ e < b + (x.queue n).entries.length then some (n, e - b) else none

def queueFields : List SaveField :=
  (List.range 64).map fun e =>
    ⟨0xC000 + 128 * e, 128,
      fun x => match x.entryOf e with
        | some (n, i) => (List.range 32).flatMap fun l => leBytes 4 (Map.get 0 ((x.queue n).entries.getD i []) l).toNat
        | none => List.replicate 128 0,
      fun x bs => match x.entryOf e with
        | some (n, i) =>
            let m : Map Word := (List.range 32).foldl (fun m l => Map.set 0 m l (BitVec.ofNat 32 (leValue ((bs.drop (4 * l)).take 4)))) []
            { x with queues := Map.put x.queues n { x.queue n with entries := (x.queue n).entries.set i m } }
        | none => x⟩

/-- Bits `8i` to `8i + 7` of a set of numbers, as a byte. -/
def bitsByte (m : Map Bool) (i : Nat) : Nat := (List.range 8).foldl (fun a j => if Map.get false m (8 * i + j) then a + 2 ^ j else a) 0

def putBits (m : Map Bool) (i v : Nat) : Map Bool := (List.range 8).foldl (fun m j => Map.set false m (8 * i + j) (v.testBit j)) m

def mappedFields : List SaveField :=
  (List.range 0x200).map (fun i =>
    numField (0xE000 + i) 1 (fun x => bitsByte x.filled i) fun x v => { x with filled := putBits x.filled i v }) ++
  (List.range 0x10000).map fun i =>
    numField (0x10000 + i) 1 (fun x => bitsByte x.dirty i) fun x v => { x with dirty := putBits x.dirty i v }

/-! ### Groups (Table 11.6) -/

def Team.mapGroup (x : Team) (g : Nat) (f : Group → Group) : Team := x.setGroup g (f (x.group g))

def Group.mapLane (y : Group) (l : Nat) (f : Lane → Lane) : Group := y.setLane l (f (y.lane l))

def tagNibble (t : Option Tag) : Nat := match t with | some t => 8 + t.idx.toNat | none => 0

def nibbleTag (n : Nat) : Option Tag := if n.testBit 3 then some ⟨BitVec.ofNat 3 n, false⟩ else none

def maskNat (f : Nat → Bool) : Nat := (maskOf f).toNat

/-- The destination of a recorded load: whether it is an s register, the first register, and how many. -/
def loadDest (w1 w2 : Word) : Option (Bool × Nat × Nat) :=
  match decode w1.toNat w2.toNat with
  | .ok (.ld m d _ _) => some (false, d, Width.regs m.width)
  | .ok (.ldl m d _ _) => some (false, d, Width.regs m.width)
  | .ok (.uld _ d _) => some (true, d.toNat, 1)
  | .ok (.waitv _ _ _ d _ _ _ _) => some (false, d, 1)
  | _ => none

/-- A v register where its contents stand: in the register file, or in the spill area (R129). -/
def Lane.homeV (x : Lane) (n : Nat) : Tagged Word := match lookup? x.spill n with | some r => r | none => x.readV n

def Lane.setHome (x : Lane) (n : Nat) (r : Tagged Word) : Lane :=
  if (lookup? x.spill n).isSome then { x with spill := Map.put x.spill n r } else x.writeV n r

def intactTag (t : Option Tag) (e : Nat) : Bool := match t with | some t => decide (t.idx.toNat = e) && t.intact | none => false

/-- Intact mask `k` of entry `e`: the lanes whose destination register `k` still holds what the load wrote (R257). -/
def Group.intact (y : Group) (e k : Nat) (p : PoisonEntry) : Nat :=
  match loadDest p.w1 p.w2 with
  | some (true, d, _) => if k = 0 && intactTag (y.readS d).tag e then 1 else 0
  | some (false, d, n) => if k < n then maskNat fun l => intactTag ((y.lane l).homeV (d + k)).tag e else 0
  | none => 0

/-- An entry whose index no register carries any more has been freed (R175). -/
def Group.entryBytes (y : Group) (e : Nat) : List Byte :=
  match lookup? y.prune.poison e with
  | none => List.replicate 0x140 0
  | some p =>
      leBytes 8 (1 + if p.spent then 2 else 0) ++ leBytes 8 p.pc.toNat ++ leBytes 4 p.w1.toNat ++ leBytes 4 p.w2.toNat ++
        leBytes 4 p.lanes.toNat ++ leBytes 4 p.cause ++ ((List.range 32).flatMap fun l => leBytes 8 (Map.get 0 p.addrs l)) ++
        ((List.range 4).flatMap fun k => leBytes 4 (y.intact e k p)) ++ List.replicate 16 0

/-- Marks a register's tag of entry `e` as intact. -/
def setIntact {α : Type} (r : Tagged α) (e : Nat) : Tagged α :=
  match r.tag with
  | some t => if t.idx.toNat = e then ⟨r.val, some ⟨t.idx, true⟩⟩ else r
  | none => r

def Group.putIntact (y : Group) (e k mask : Nat) (p : PoisonEntry) : Group :=
  match loadDest p.w1 p.w2 with
  | some (true, d, _) => if k = 0 ∧ mask.testBit 0 = true then y.writeS d (setIntact (y.readS d) e) else y
  | some (false, d, n) =>
      if k < n then
        (List.range 32).foldl
          (fun y l => if mask.testBit l then y.mapLane l fun x => x.setHome (d + k) (setIntact (x.homeV (d + k)) e) else y) y
      else y
  | none => y

def Group.putEntry (y : Group) (e : Nat) (bs : List Byte) : Group :=
  let f (o n : Nat) : Nat := leValue ((bs.drop o).take n)
  if (f 0 8).testBit 0 then
    let lanes := BitVec.ofNat 32 (f 0x18 4)
    let p : PoisonEntry :=
      ⟨(f 0 8).testBit 1, BitVec.ofNat 56 (f 8 8), BitVec.ofNat 32 (f 0x10 4), BitVec.ofNat 32 (f 0x14 4), lanes,
        (lanesOf lanes).map (fun l => (l, f (0x20 + 8 * l) 8)), f 0x1C 4,
        (match lookup? y.poison e with | some q => q.pages | none => []), (match lookup? y.poison e with | some q => q.walkCause | none => 0),
        (match lookup? y.poison e with | some q => q.issued | none => 0), (match lookup? y.poison e with | some q => q.set | none => lanes)⟩
    (List.range 4).foldl (fun y k => y.putIntact e k (f (0x120 + 4 * k) 4) p) { y with poison := Map.put y.poison e p }
  else { y with poison := Map.erase y.poison e }

def Group.marks (y : Group) : Nat :=
  (if y.replayable then 1 else 0) + (if y.handler then 2 else 0) + (if y.suspended then 4 else 0) + y.granted.toNat * 2 ^ 9 +
    y.demand * 2 ^ 37

def Group.putMarks (y : Group) (v : Nat) : Group :=
  { y with
    replayable := v.testBit 0
    handler := v.testBit 1
    suspended := v.testBit 2
    granted := BitVec.ofNat 28 (v / 2 ^ 9)
    demand := v / 2 ^ 37 % 2 ^ 5 }

def groupFields (g : Nat) : List SaveField :=
  let base := 0x20000 + 0x2000 * g
  let gf (off size : Nat) (get : Group → Nat) (put : Group → Nat → Group) : SaveField :=
    numField (base + off) size (fun x => get (x.group g)) fun x v => x.mapGroup g fun y => put y v
  [gf 0x220 4 (fun y => y.liveMask.toNat) (fun y v =>
      { y with lanes := mapLanes (BitVec.ofNat 32 v) (fun _ x => { x with cond := .live }) y.lanes }),
   gf 0x224 4 (fun y => maskNat fun l => decide ((y.lane l).cond = .exited)) (fun y v =>
      { y with lanes := mapLanes (BitVec.ofNat 32 v) (fun _ x => { x with cond := .exited }) y.lanes }),
   gf 0x228 8 Group.marks Group.putMarks] ++
  (List.range 32).map (fun l =>
    gf (8 * l) 8 (fun y => (y.lane l).pc.toNat) fun y v =>
      if (y.lane l).cond = .live then y.mapLane l fun x => { x with pc := BitVec.ofNat 56 v } else y) ++
  (List.range 32).map (fun i => gf (0x100 + 8 * i) 8 (fun y => (y.readS i).val.toNat) fun y v => y.writeS i ⟨BitVec.ofNat 64 v, none⟩) ++
  (List.range 8).map (fun k =>
    gf (0x200 + 4 * k) 4 (fun y => maskNat fun l => ((y.lane l).readK (BitVec.ofNat 3 k)).val) fun y v =>
      { y with lanes := mapLanes y.liveMask (fun l x => x.writeK (BitVec.ofNat 3 k) ⟨v.testBit l, none⟩) y.lanes }) ++
  (List.range 32).map (fun i =>
    gf (0x230 + i) 1 (fun y => match (y.readS i).tag with | some t => 0x80 + t.idx.toNat | none => 0) fun y v =>
      y.writeS i ⟨(y.readS i).val, if v.testBit 7 then some ⟨BitVec.ofNat 3 v, false⟩ else none⟩) ++
  (List.range 8).map (fun k =>
    gf (0x250 + 16 * k) 16 (fun y => ((List.range 32).map fun l => tagNibble ((y.lane l).readK (BitVec.ofNat 3 k)).tag * 16 ^ l).sum) fun y v =>
      { y with
        lanes := mapLanes y.liveMask (fun l x => x.writeK (BitVec.ofNat 3 k) ⟨(x.readK (BitVec.ofNat 3 k)).val, nibbleTag (v / 16 ^ l % 16)⟩) y.lanes }) ++
  (List.range 32).map (fun l =>
    gf (0x300 + 4 * l) 4 (fun y => (y.lane l).status.toNat) fun y v =>
      if (y.lane l).cond = .live then y.mapLane l fun x => { x with status := BitVec.ofNat 8 v } else y)

/-- The v registers of a group that have contents: those of units that are backed or spilled. -/
def Team.savedV (x : Team) (g : Nat) : List Nat :=
  (List.range (8 * (x.quota g + x.budget g))).filter fun v =>
    x.backed g (v / 8) || (x.group g).lanes.any fun l => l.2.spill.any fun e => decide (e.1 / 8 = v / 8)

/-- Its lanes that have been launched. -/
def Group.launched (y : Group) : List Nat := (List.range 32).filter fun l => decide ((y.lane l).cond ≠ .never)

/-- v registers in the area, those of spilled units among them: the spill area of R129. -/
def valueFields (g : Nat) (vs ls : List Nat) : List SaveField :=
  vs.flatMap fun v =>
    ls.map fun l =>
      numField (0x40000 + 0x7000 * g + 128 * v + 4 * l) 4 (fun x => (((x.group g).lane l).homeV v).val.toNat) fun x w =>
        if ((x.group g).lane l).cond = .live then x.mapGroup g fun y => y.mapLane l fun z => z.setHome v ⟨BitVec.ofNat 32 w, none⟩
        else x

def valueTagFields (g : Nat) (vs : List Nat) : List SaveField :=
  vs.map fun v =>
    numField (0x20000 + 0x2000 * g + 0x400 + 16 * v) 16
      (fun x => ((List.range 32).map fun l => tagNibble (((x.group g).lane l).homeV v).tag * 16 ^ l).sum)
      fun x w => x.mapGroup g fun y =>
        { y with lanes := mapLanes y.liveMask (fun l z => z.setHome v ⟨(z.homeV v).val, nibbleTag (w / 16 ^ l % 16)⟩) y.lanes }

def entryFields (g : Nat) : List SaveField :=
  (List.range 8).map (fun e =>
    ⟨0x20000 + 0x2000 * g + 0x1200 + 0x140 * e, 0x140, fun x => (x.group g).entryBytes e, fun x bs => x.mapGroup g fun y => y.putEntry e bs⟩) ++
  [⟨0x20000 + 0x2000 * g + 0x1C00, 384, fun x => optRecord (x.group g).record,
    fun x bs => x.mapGroup g fun y => { y with record := y.record.map fun _ => recordOfBytes bs }⟩]

/-! ### Banks, scale stores, scratchpad -/

def bankFields : List SaveField :=
  (List.range 0x8000).map fun k =>
    numField (0xB0000 + 4 * k) 4 (fun x => (Map.get 0 x.bankData k).toNat) fun x v => { x with bankData := Map.set 0 x.bankData k (BitVec.ofNat 32 v) }

def scaleFields (w : Nat) : List SaveField :=
  (List.range 0x8000).map fun k =>
    numField (0xD0000 + 0x10000 * w + 2 * k) 2 (fun x => (Map.get 0x007F (x.weave w).scales k).toNat) fun x v =>
      x.setWeave w { x.weave w with scales := Map.set 0x007F (x.weave w).scales k (BitVec.ofNat 16 v) }

def padFields : List SaveField :=
  (List.range padSize).map fun o =>
    numField (0x110000 + o) 1 (fun x => (Map.get 0 x.pad o).toNat) fun x v => { x with pad := Map.set 0 x.pad o (BitVec.ofNat 8 v) }

/-- Every item of Table 11.4 that a team has. The fields of a group's poison follow those of its values. -/
def Team.saveFields (x : Team) : List SaveField :=
  headerFields ++ streamFields 0x1000 .matrix ++ [chainField] ++ streamFields 0x1800 .copy ++ handleFields ++
    ((List.range 8).flatMap slotFields) ++ engineFields ++ queueFields ++ mappedFields ++
    (x.groupList.flatMap fun g =>
      groupFields g ++ valueFields g (x.savedV g) (x.group g).launched ++ valueTagFields g (x.savedV g) ++ entryFields g) ++
    bankFields ++ ((List.range 4).flatMap scaleFields) ++ padFields

/-! ### Writing and reading the area -/

/-- Bytes of a save area. -/
def saveSize : Nat := 0x190000

/-- Writes every item of a team to an area of device memory; what the header does not list is 0 (Table 11.5). -/
def State.writeArea (s : State) (t area : Nat) : State :=
  let x := s.team t
  let s1 := x.saveFields.foldl (fun s f => s.putBytes (area + f.off) (f.get x)) ((s.putBytes area (List.replicate 0x1000 0)).putBytes (area + 0x15) (leBytes 1 (s.logicalCluster t)))
  let inArea (k : Nat) : Bool := decide (area / 32 ≤ k) && decide (k < (area + saveSize) / 32)
  { s1 with
    memPoison := (x.padPoison.filter fun e => e.2).foldl (fun m e => Map.set false m ((area + 0x110000) / 32 + e.1) true)
      (s1.memPoison.filter fun e => !inArea e.1) }

/-- The team as an area holds it. -/
def State.readArea (s : State) (x : Team) (area : Nat) : Team :=
  let y := x.saveFields.foldl (fun y f => f.put y (readBytes s.mem (area + f.off) f.size)) x
  let lo := (area + 0x110000) / 32
  { y with
    padPoison := (s.memPoison.filter fun e => decide (lo ≤ e.1) && decide (e.1 < lo + padSize / 32)).map fun e => (e.1 - lo, e.2) }

end Sys2Proof.Machine
end

