-- ==== Sys2Proof/Machine/Save.lean ====
section
/-!
DEFINITION. Context save, and what a restore is made of (R262, R263).
-/

namespace Sys2Proof.Machine

/-- No copy that the team issued, or that targets it, is in flight. -/
def State.copiesOver (s : State) (t : Nat) : Bool :=
  (s.team t).flying.isEmpty && (List.range 4).all fun w => !s.copiesInto t w (s.clkOf t)

/-- Mapped regions are written back; a byte whose page fails stays dirty, and its page enters the fault batch (R158). -/
def State.saveWriteBack (s : State) (t : Nat) : State :=
  let fails := s.heldWriteBacks t
  let keep := (s.team t).dirtyBytes.filter fun b => fails.any fun f => f.1 = b.2.1
  let s2 := (s.writeBack t (s.lastBack t)).noteHeld t fails
  s2.mapTeam t fun x => { x with dirty := keep.map fun b => (b.1, true) }

/-- A halted team is written to its save area and leaves its core, and its slot has no valid entry any more (R285). -/
def execContextSave (team area : Nat) (s : State) : Out :=
  if (s.team team).residency ≠ .halted ∨ s.copiesOver team = false ∨ area % 0x10000 ≠ 0 ∨ 2 ^ 39 < area + saveSize then .next s
  else
    let s1 := ((s.emptyL1 team).saveWriteBack team).writeArea team area
    .next ((s1.freeTiles fun u => decide (u = team)).mapTeam team fun x => { x.coldCore with residency := .saved area, area := some area, waitingSince := s.gtime })

/-! ### Restore -/

/-- Members of a team's gang, the team among them. -/
def State.gangOf (s : State) (t : Nat) : List Nat :=
  let x := s.team t
  if x.gang.isNone then [t] else (s.teams.filter fun e => x.sameGang e.2).map fun e => e.1

def Residency.isSaved : Residency → Bool
  | .saved _ => true
  | _ => false

/-- A team between the move of a rotation and its release. -/
def Residency.isMoving : Residency → Bool
  | .moving _ => true
  | _ => false

/-- A team that no release has made resident again: halted for a save, or saved. -/
def Residency.isAway : Residency → Bool
  | .saved _ => true
  | .halted => true
  | _ => false

/-- A die that takes teams: neither gated nor dead. -/
def State.dieReady (s : State) (c : Nat) : Bool := !(s.die (c / 2)).gated && !(s.die (c / 2)).dead

/-- Restore or launch needs a gated die: it begins to wake (R368). -/
def State.wakeDie (s : State) (c : Nat) : State :=
  let d := s.die (c / 2)
  if d.gated && !d.dead then s.setDie (c / 2) { d with waking := true } else s

/-- Copies of the records of handler-mode groups go back to the trap area (R263, R385). -/
def State.rewriteRecords (s : State) (t : Nat) : State :=
  (s.team t).groupList.foldl
    (fun s g =>
      let y := (s.team t).group g
      match y.record with
      | some r =>
          if y.handler then
            match s.writeRecord t g r with
            | .ok s1 => s1
            | .error e => s.recordLost t (s.recordAddr t g) e r.code.toNat
          else s
      | none => s) s

/-- Members that have all been restored are released together; one is away until each has been saved and restored (R282, R283). -/
def State.releaseGang (s : State) (t : Nat) : State :=
  let ms := s.gangOf t
  if ms.any fun m => (s.team m).residency.isAway then s
  else
    ms.foldl
      (fun s m =>
        s.mapTeam m fun x => if x.residency = .arriving then { x.thaw s.gtime with residentSince := s.gtime, lastRotated := s.gtime } else x) s

end Sys2Proof.Machine
end

