-- ==== Sys2Proof/Machine/Sched.lean ====
section
/-!
DEFINITION. Launches and scheduling: `launch` (R359), `ufence.wait` (R360), the command processor (R355 to R358, R386),
placement and time-slicing (R282, R286, R361, R362), and grid completion (R357, R323).
-/

namespace Sys2Proof.Machine

/-! ### Queues (Table 23.2) -/

/-- Hardware queues of a presented device. -/
def queueCount (mode : Nat) : Nat := if mode = 0 then 256 else if mode = 1 then 128 else 32

/-- The hardware queue that a context knows as queue `q`. -/
def Context.hwQueue (c : Context) (q : Nat) : Nat := c.device * queueCount c.mode + q

def State.hostQueue (s : State) (q : Nat) : HostQueue := Map.get HostQueue.reset s.hostQueues q

def State.setHostQueue (s : State) (q : Nat) (x : HostQueue) : State := { s with hostQueues := Map.put s.hostQueues q x }

/-- Records join a queue; the first of an empty one stands at its head at once (R355). -/
def HostQueue.push (x : HostQueue) (rs : List LaunchRec) (now : Nat) : HostQueue :=
  { x with records := x.records ++ rs, since := if x.head.isNone && x.records.isEmpty then now else x.since }

/-- A queue with no room: its ring is full, or it is not in use. -/
def State.queueFull (s : State) (q : Nat) : Bool :=
  !(s.block q).enable || decide (2 ^ (s.block q).size ≤ (s.hostQueue q).records.length)

/-! ### launch (R359) -/

/-- Reads `8n` bytes as marked loads of 8; a weave in compute mode reads as zero. -/
def State.readLong (s : State) (k : AccessKind) (p : Spot) (n : Nat) : State × List Byte :=
  if s.spotComputes p then (s, List.replicate (8 * n) 0)
  else
    (List.range n).foldl
      (fun (a : State × List Byte) i =>
        let r := a.1.readUnitAt k p (8 * i) 8
        (r.1, a.2 ++ r.2)) (s, [])

/-- The record is read, and queued where there is room, with the release event that goes with it; s[D] tells. -/
def State.launchRead (s : State) (d : BitVec 5) (q : Nat) (p : Spot) (rel : List Nat) : State :=
  let r := s.readLong (s.kind .marked .fab) p 16
  let s0 := r.1.touch s.cur.team p 128 .unc .fab false false false
  let s1 := if s.spotComputes p then s0.setFlagsAll flagWMODE else s0
  if s1.queueFull q then (s1.writeS d (clear 1)).advance
  else ((s1.setHostQueue q ((s1.hostQueue q).push [⟨r.2, rel⟩] s.gtime)).writeS d (clear 0)).advance

def execLaunch (d a : BitVec 5) (q : BitVec 8) (off : BitVec 22) (s : State) : Out :=
  let i := Instr.launch d a q off
  let ad := s.uAddr a off
  let va := ad.val.toNat
  let hq := s.curCtx.hwQueue q.toNat
  match ad.tag with
  | some t => .next (s.poisonTrap i s.cur.lanes [t])
  | none =>
    if va % 128 ≠ 0 then s.uTrap trapMISALIGN va
    else if queueCount s.curCtx.mode ≤ q.toNat ∨ (s.hostQueue hq).owner ≠ some s.curTeam.ctx then s.uTrap trapACCESS va
    else
      match uniformReach s .gen va with
      | none => s.uTrap trapACCESS va
      | some r =>
        .next <| s.withRelease i true .fab fun s =>
          let s0 := s.fenceRelOp .fab
          match s0.translate s0.cur.team 0 0 128 r .read with
          | .hold => s0.holdAccess i .read 128 [⟨0, va, some r⟩]
          | .fail va' _ w => s0.storeFault i trapACCESS s0.cur.lanes va [(va', w)] 1
          | .ok p =>
            match s0.peerCode p false .fab with
            | some code => s0.trapAt code s0.cur.lanes va
            | none =>
              if s0.sectorPoisoned p 128 then s0.trapAt trapUNCORR s0.cur.lanes va
              else (s0.prepare (s0.kind .plain .team) s0.cur.team 0 0 128 r false).launchRead d hq p s0.lastEvent

/-! ### ufence.wait (R360) -/

/-- One load of the event's state: it acquires and completes, or waits on. -/
def State.ufenceWaitOp (s : State) (d a : BitVec 5) : State :=
  let i := Instr.ufenceWait d a
  let ad := s.readS a
  let va := ad.val.toNat
  match ad.tag with
  | some t => s.poisonTrap i s.cur.lanes [t]
  | none =>
    if va % 16 ≠ 0 then s.trapAt trapMISALIGN s.cur.lanes va
    else
      match uniformReach s .gen va with
      | none => s.trapAt trapACCESS s.cur.lanes va
      | some r =>
        match s.translate s.cur.team 0 0 8 r .read with
        | .hold => s.holdAccess i .read 8 [⟨0, va, some r⟩]
        | .fail _ _ _ => s.trapAt trapACCESS s.cur.lanes va
        | .ok p =>
          match s.peerCode p false .fab with
          | some code => s.trapAt code s.cur.lanes va
          | none =>
            if s.sectorPoisoned p 8 then s.trapAt trapUNCORR s.cur.lanes va
            else
              let s1 := s.prepare (s.kind .plain .team) s.cur.team 0 0 8 r false
              let r1 := s1.awaitValue .fab true p fun bs => decide (2 ≤ leValue bs)
              let s0 := r1.1.touch s.cur.team p 8 .unc .fab false false false
              let s2 := if r1.2.1.wmode then s0.setFlagsAll flagWMODE else s0
              if r1.2.2 then
                let r2 := s2.readUnitAt (s2.kind .marked .fab) p 4 4
                ((r2.1.dropL1 s.cur.team true .fab).writeS d (clear (BitVec.ofNat 64 (leValue r2.2)))).advance
              else s2.hold i

def execUfenceWait (d a : BitVec 5) (s : State) : Out := .next (s.ufenceWaitOp d a)

def execUfenceWaitComplete (p : PartyRef) (s : State) : Out :=
  match s.waitOf p with
  | some w =>
      match w.instr with
      | .ufenceWait d a => .next ((s.resumeAs p w).ufenceWaitOp d a)
      | _ => .next s
  | none => .next s

/-! ### Launch records and kernel descriptors (Tables 23.3 and 23.5) -/

/-- A field of a record. -/
def fieldAt (bs : List Byte) (o n : Nat) : Nat := leValue ((bs.drop o).take n)

/-- Fields that must be zero. -/
def zeroAt (bs : List Byte) (o n : Nat) : Bool := decide (fieldAt bs o n = 0)

/-- The limits of a launch record's own fields. -/
def launchOk (bs : List Byte) : Bool :=
  let f := fieldAt bs
  decide (f 0 8 % 128 = 0) && decide (f 0x28 8 % 16 = 0) &&
    ((List.range 4).all fun i => decide (f (0x30 + 8 * i) 8 % 16 = 0)) &&
    decide (f 0x50 1 < 8) && decide (f 0x51 1 ≤ 8) && zeroAt bs 0x52 6 && zeroAt bs 0x60 32 &&
    decide (f 0x14 4 % 16 = 0) && decide (f 0x14 4 ≤ 2 ^ 20)

def mapRtype (n : Nat) : ReqType := if n = 0 then .own else if n = 1 then .wt else if n = 2 then .selfinv else .unc

/-- A map descriptor (Table 7.2): none where a reserved field is not zero. -/
def mapOf (bs : List Byte) : Option MapDesc :=
  let x := leValue bs
  if bitsOf x 127 120 ≠ 0 ∨ bitsOf x 97 64 % 2 ^ 34 ≠ 0 ∨ bitsOf x 63 56 ≠ 0 ∨ bitsOf x 11 0 ≠ 0 then none
  else some ⟨bitsOf x 119 108 * 4096, bitsOf x 107 100 * 4096, mapRtype (bitsOf x 99 98), bitsOf x 55 12 * 4096⟩

/-- Used regions lie in the scratchpad, and no two overlap (R156). -/
def mapsOk (ms : List MapDesc) : Bool :=
  (ms.all fun m => decide (m.offset + m.size ≤ padSize)) &&
    (List.range ms.length).all fun i => (List.range i).all fun j =>
      match ms[i]?, ms[j]? with
      | some a, some b => decide (a.offset + a.size ≤ b.offset) || decide (b.offset + b.size ≤ a.offset)
      | _, _ => true

/-- The maps of a launch; none where it is rejected or they cannot be read. -/
def State.launchMaps (s : State) (tag : Nat) (bs : List Byte) : Option (List MapDesc) :=
  let n := fieldAt bs 0x51 1
  if n = 0 then some []
  else
    match s.devRead tag (fieldAt bs 0x58 8) (16 * n) with
    | .error _ => none
    | .ok ds =>
      match (List.range n).mapM fun i => mapOf ((ds.drop (16 * i)).take 16) with
      | none => none
      | some ms =>
        let used := ms.filter fun m => decide (m.size ≠ 0)
        if mapsOk used then some used else none

def kernelRole (ds : List Byte) (i : Nat) : RoleDesc :=
  let o := 0x10 + 16 * i
  ⟨fieldAt ds o 8, fieldAt ds (o + 8) 1, fieldAt ds (o + 9) 1, fieldAt ds (o + 10) 1⟩

def kernelQueue (ds : List Byte) (n : Nat) : StageQueue :=
  let o := 0x50 + 4 * n
  ⟨fieldAt ds o 1, fieldAt ds (o + 1) 1, fieldAt ds (o + 2) 1, []⟩

/-- Guaranteed units in quadrant `q` (R127). -/
def quadrantQuota (roles : List RoleDesc) (q : Nat) : Nat :=
  let perGroup := roles.flatMap fun r => List.replicate r.groups r.quota
  ((List.range perGroup.length).filterMap fun g => if g % 4 = q then perGroup[g]? else none).sum

/-- The limits of a kernel descriptor, and the checks of R386. -/
def kernelOk (ds : List Byte) : Bool :=
  let f := fieldAt ds
  let nr := f 5 1
  let roles := (List.range nr).map (kernelRole ds)
  let queues := (List.range 8).map (kernelQueue ds)
  decide (f 0 4 = 1) && decide (1 ≤ f 4 1) && decide (f 4 1 ≤ 16) && decide (1 ≤ nr) && decide (nr ≤ 4) &&
    decide (1 ≤ f 6 2) && decide (f 6 2 ≤ 192) && decide (1 ≤ f 8 4) && decide (1 ≤ f 0xC 2) && decide (1 ≤ f 0xE 2) &&
    (roles.all fun r =>
      decide (r.entry % 4 = 0) && decide (r.entry < 2 ^ 56) && decide (1 ≤ r.quota) && decide (r.quota ≤ 28) && decide (r.quota + r.budget ≤ 28)) &&
    ((List.range 4).all fun i => zeroAt ds (0x10 + 16 * i + 11) 5 && (decide (i < nr) || zeroAt ds (0x10 + 16 * i) 16)) &&
    ((List.range 8).all fun n => zeroAt ds (0x50 + 4 * n + 3) 1) &&
    (queues.all fun q => decide (q.depth ≤ 32) &&
      (decide (q.depth = 0) || (decide (q.producer ≠ q.consumer) && decide (q.producer < nr) && decide (q.consumer < nr)))) &&
    decide ((queues.map fun q => q.depth).sum ≤ 64) && zeroAt ds 0x70 16 &&
    decide ((roles.map fun r => r.groups).sum = f 4 1)

/-- Lane count, quotas and private size of a launch against its kernel and context (R127, R159). -/
def launchFits (c : Context) (bs ds : List Byte) : Bool :=
  let l := fieldAt bs 0x10 4
  let roles := (List.range (fieldAt ds 5 1)).map (kernelRole ds)
  decide (1 ≤ l) && decide (l ≤ 32 * fieldAt ds 4 1) && ((List.range 4).all fun q => decide (quadrantQuota roles q ≤ 64)) &&
    (decide (fieldAt bs 0x14 4 = 0) || decide (c.privBase ≠ 0))

/-- The launch's value, or the kernel's default where it gives 0. -/
def orDefault (v d : Nat) : Nat := if v = 0 then d else v

/-- The grid of an accepted record. -/
def State.gridOf (s : State) (tag q : Nat) (r : LaunchRec) (ds : List Byte) (maps : List MapDesc) : Grid :=
  let f := fieldAt r.bytes
  let k := fieldAt ds
  { Grid.absent with
    ctx := tag
    queue := q
    event := f 0x28 8
    priority := f 0x50 1
    gx := orDefault (f 8 4) (k 8 4)
    gy := orDefault (f 0xC 2) (k 0xC 2)
    gz := orDefault (f 0xE 2) (k 0xE 2)
    laneCount := f 0x10 4
    privSize := f 0x14 4
    args := f 0x18 8
    dataBase := f 0x20 8
    maps := maps
    nGroups := k 4 1
    gang := k 6 2
    roles := (List.range (k 5 1)).map fun i => (i, kernelRole ds i)
    queues := (List.range 8).map fun n => (n, kernelQueue ds n)
    deps := ((List.range 4).map fun i => f (0x30 + 8 * i) 8).filter fun a => decide (a ≠ 0)
    headSince := (s.hostQueue q).since
    completed := false
    launchEv := r.ev
    kernel := f 0 8 }

/-! ### Failed memory dies (R384) -/

/-- Indices of a table whose entry has a byte that is not zero. -/
def tableIdx (m : List Host.Cell) (table n : Nat) : List Nat :=
  ((m.filter fun c => decide (table ≤ c.1) && decide (c.1 < table + 8 * n)).map fun c => (c.1 - table) / 8).eraseDups

/-- A context has a leaf on device memory. -/
def mapsDevice (m : List Host.Cell) (tag : Nat) (c : Context) : Bool :=
  (tableIdx m c.root 4096).any fun i =>
    match tablePointer (tableEntry m c.root i) with
    | .error _ => false
    | .ok t1 => (tableIdx m t1 8192).any fun j =>
        match tablePointer (tableEntry m t1 j) with
        | .error _ => false
        | .ok t2 => (tableIdx m t2 8192).any fun k =>
            match walkLeaf m tag c (i * 2 ^ 44 + j * 2 ^ 31 + k * 2 ^ 18) with
            | .ok f => decide (f.location = 0)
            | .error _ => false

/-- The stacks of a memory die belong to a context's presented device; an interleaved page lies on all of a device's
stacks. -/
def Context.onMemDie (c : Context) (mdie : Nat) : Bool :=
  decide (c.mode = 0) || (decide (c.mode = 1) && decide (mdie / 2 = c.device)) || (decide (c.mode = 2) && decide (mdie = c.device / 2))

/-- A memory die whose island has failed and whose stacks a context maps. -/
def State.failedUnder (s : State) (tag : Nat) : Option Nat :=
  let c := s.ctx tag
  (List.range 4).find? fun d => (Map.get MemDie.reset s.memDies d).failed && c.onMemDie d && mapsDevice s.mem tag c

/-! ### Completion events (R357) -/

/-- A write of the command processor to a context's memory, as an event of its own (R323). -/
def State.hubStore (s : State) (tag k : Nat) (bs : List Byte) (cls : EvClass) (extra : List Nat) : State :=
  let wr := (List.range bs.length).map fun i => (k + i, readMem s.mem (k + i), bs.getD i 0)
  { s with
    mem := writeBytes s.mem k bs
    log := addEvent s.log s.freeCtr { agent := hubAgent tag, cls := cls, scope := .fab, wr := wr, extra := extra } [] }

/-- Status and time, then the state, with a single store; a page that fails leaves the event's bytes (R385). -/
def State.signalEvent (s : State) (tag va : Nat) (status : Word) (extra : List Nat) : State :=
  match s.devKey tag va .write with
  | .error e => s.devFault tag va e 2
  | .ok k =>
    let s1 := s.hubStore tag (k + 4) (leBytes 4 status.toNat ++ leBytes 8 s.gtime) .marked extra
    s1.hubStore tag k (leBytes 4 (if status = 0 then 2 else 3)) .completion (extra ++ s1.lastEvent)

/-- State 1, pending. -/
def State.pendEvent (s : State) (tag va : Nat) : State :=
  match s.devWrite tag va (leBytes 4 1) with
  | .ok s1 => s1
  | .error e => s.devFault tag va e 2

/-! ### The command processor -/

def State.freshGrid (s : State) : Nat := s.grids.foldl (fun m e => max m (e.1 + 1)) 1

/-- A read of the device that failed leaves the record of the page that did (R385). -/
def State.readFault (s : State) (tag va n : Nat) : State :=
  let room := 2 ^ 18 - va % 2 ^ 18
  match s.devKey tag va .read with
  | .error e => s.devFault tag va e 1
  | .ok _ =>
    if n ≤ room then s
    else match s.devKey tag (va + room) .read with | .error e => s.devFault tag (va + room) e 1 | .ok _ => s

/-- The grid of a record that passes the checks of R357; none where it is rejected. A kernel descriptor, or map descriptors, that
cannot be read reject it too, and the page's record goes to the fault ring (R385). -/
def State.checkRecord (s : State) (tag q : Nat) (r : LaunchRec) : State × Option Grid :=
  if !launchOk r.bytes then (s, none)
  else
    let ka := fieldAt r.bytes 0 8
    match s.devRead tag ka 128 with
    | .error _ => (s.readFault tag ka 128, none)
    | .ok ds =>
      if !kernelOk ds || !launchFits (s.ctx tag) r.bytes ds then (s, none)
      else
        match s.launchMaps tag r.bytes with
        | none => (if fieldAt r.bytes 0x51 1 = 0 then s else s.readFault tag (fieldAt r.bytes 0x58 8) (16 * fieldAt r.bytes 0x51 1), none)
        | some maps => (s, some (s.gridOf tag q r ds maps))

/-- The record at the head of a queue is taken: its event becomes pending, and it is checked. -/
def execLaunchRecordTake (q : Nat) (s : State) : Out :=
  let x := s.hostQueue q
  match x.owner, x.head, x.records with
  | some tag, none, r :: rest =>
      let s1 := (s.pendEvent tag (fieldAt r.bytes 0x28 8)).setHostQueue q { x with records := rest }
      let c := s1.checkRecord tag q r
      match c.2 with
      | none =>
          .next ((c.1.signalEvent tag (fieldAt r.bytes 0x28 8) (statusOf 0xFFFFFC00 0) r.ev).setHostQueue q { x with records := rest, since := s.gtime })
      | some g =>
          let n := c.1.freshGrid
          .next ((c.1.setGrid n g).setHostQueue q { x with records := rest, head := some n })
  | _, _, _ => .next s

/-- State of a dependence: 3 where it cannot be read (R385). -/
def State.depState (s : State) (tag va : Nat) : Nat :=
  match s.devRead tag va 4 with
  | .ok bs => leValue bs
  | .error _ => 3

/-- Every dependence has completed. -/
def State.depsDone (s : State) (g : Grid) : Bool := g.deps.all fun a => decide (2 ≤ s.depState g.ctx a) && decide (s.depState g.ctx a ≤ 3)

/-- The launches of a grid's image are held: its context is under regeneration, and the image, known by the base of its data, is not
complete yet. DEDUCED, log 55: R22 does not say how the command processor knows an image, and an image that is loaded later is held too. -/
def State.imageHeld (s : State) (g : Grid) : Bool := s.pkg.holds.any fun h => decide (h.1 = g.ctx) && !h.2.contains g.dataBase

/-- A grid at the head of a queue that may be dispatched now. -/
def State.eligible (s : State) (q : Nat) : Option (Nat × Nat) :=
  match (s.hostQueue q).head with
  | none => none
  | some n => let g := s.grid n; if s.depsDone g = true ∧ s.imageHeld g = false then some (q, n) else none

/-- Highest priority, then earliest at its head, then lower queue (R355). -/
def State.dispatchFirst (s : State) : List (Nat × Nat) → Option (Nat × Nat)
  | [] => none
  | a :: as =>
      match s.dispatchFirst as with
      | none => some a
      | some b =>
        let x := s.grid a.2
        let y := s.grid b.2
        if x.priority < y.priority ∨ (x.priority = y.priority ∧ y.headSince < x.headSince) then some b else some a

/-- Completion events that wrote a dependence. -/
def State.depEvents (s : State) (g : Grid) : List Nat :=
  g.deps.flatMap fun a =>
    match s.devKey g.ctx a .read with
    | .ok k => s.log.filterMap fun e => if decide (e.cls = .completion) && e.covers k then some e.id else none
    | .error _ => []

/-- The 64 kernel descriptors most recently launched stay in the launch cache (R358). -/
def cacheKernel (old : List Nat) (kernel : Nat) : List Nat := (kernel :: old.filter fun e => decide (e ≠ kernel)).take 64

/-- The launch event: after the record's write and the completion of each dependence (R323). -/
def State.launchEvent (s : State) (g : Grid) : State :=
  { s with
    log := addEvent s.log s.freeCtr { agent := hubAgent g.ctx, cls := .launch, scope := .fab, extra := g.launchEv ++ s.depEvents g } [] }

/-- A launch that names dependences observes their completions, and acquires them at fab scope (R323): clean copies of die-private lines
are dropped (R328). -/
def State.acquireDeps (s : State) (g : Grid) : State := if g.deps.isEmpty then s else (List.range 8).foldl (fun s d => s.dropDie d) s

/-- A launch ends before any team of it runs, with a status. -/
def State.endUndispatched (s : State) (n : Nat) (status : Word) : State :=
  let g := s.grid n
  (s.signalEvent g.ctx g.event status g.launchEv).setGrid n { g with completed := true, status := some status }

/-- The launch that comes first is dispatched, where it is one of the presented device. It completes at once with 0xFFFF_FD00 for a failed
dependence, and with 0xFFFF_FB00 + 8 + die where its context maps a failed memory die (R384). -/
def execGridDispatch (device : Nat) (s : State) : Out :=
  match s.dispatchFirst ((List.range 256).filterMap s.eligible) with
  | none => .next s
  | some (q, n) =>
    let g := s.grid n
    if (s.ctx g.ctx).deviceKey ≠ device then .next s
    else
    let s1 := s.setHostQueue q { s.hostQueue q with head := none, since := s.gtime }
    let bad := g.deps.filter fun a => match s.devKey g.ctx a .read with | .ok _ => false | .error _ => true
    let s2 := bad.foldl (fun s a => match s.devKey g.ctx a .read with | .ok _ => s | .error e => s.devFault g.ctx a e 1) s1
    if g.deps.any fun a => decide (s.depState g.ctx a = 3) then
      .next (s2.endUndispatched n (statusOf 0xFFFFFD00 0))
    else match s.failedUnder g.ctx with
    | some d => .next (s2.endUndispatched n (statusOf 0xFFFFFB00 (8 + d)))
    | none =>
      let s3 := (s2.acquireDeps g).launchEvent g
      let s4 := s3.setGrid n { g with dispatched := true, headSince := s.gtime, launchEv := s3.lastEvent }
      .next { s4 with launchCache := Map.put s4.launchCache g.ctx (cacheKernel (Map.get [] s4.launchCache g.ctx) g.kernel) }

/-! ### Teams (R126, R361) -/

def Grid.total (g : Grid) : Nat := g.gx * g.gy * g.gz

/-- The role of group `g`: roles take the groups in order (R125). -/
def roleOf (roles : Map RoleDesc) (g : Nat) : Nat :=
  match (List.range 4).find? fun r => decide (g < ((List.range (r + 1)).map fun i => (Map.get ⟨0, 0, 0, 0⟩ roles i).groups).sum) with
  | some r => r
  | none => 0

/-- A lane at launch (R50, R126). -/
def Lane.launch (entry : Nat) : Lane := { Lane.unlaunched with pc := BitVec.ofNat 56 entry, cond := .live }

/-- A group at launch: its lanes that the lane count covers, and s1 to s3. -/
def Grid.newGroup (g : Grid) (i : Nat) : Group :=
  let r := roleOf g.roles i
  let lanes : Map Lane := ((List.range 32).filter fun l => decide (32 * i + l < g.laneCount)).map fun l =>
    (l, Lane.launch (Map.get ⟨0, 0, 0, 0⟩ g.roles r).entry)
  let y := { Group.absent with lanes := lanes, role := r }
  ((y.writeS 1 (clear (BitVec.ofNat 64 g.dataBase))).writeS 2 (clear (BitVec.ofNat 64 g.args))).writeS 3 (clear (BitVec.ofNat 64 g.laneCount))

/-- Team `i` of a grid on a place. A flexible demand is the whole budget until `regq` sets it (log 40). Until the first update of its stage
levels each role counts as level 1: DESIGN CHOICE, log 63 (R135 gives no level before it). -/
def State.newTeam (s : State) (n i : Nat) (p : Place) (gang : Option Gang) : Team :=
  let g := s.grid n
  { Team.absent with
    ctx := g.ctx
    grid := n
    x := i % g.gx
    y := i / g.gx % g.gy
    z := i / (g.gx * g.gy)
    laneCount := g.laneCount
    privSize := g.privSize
    nGroups := g.nGroups
    roles := g.roles
    cluster := p.cluster
    slot := p.slot
    tile := p.tile
    area := some p.area
    gang := gang
    residency := .resident
    residentSince := s.gtime
    lastRotated := s.gtime
    idleSince := s.gtime
    groups := (List.range g.nGroups).map fun j =>
      (j, { g.newGroup j with demand := (Map.get ⟨0, 0, 0, 0⟩ g.roles (roleOf g.roles j)).budget })
    queues := g.queues
    levelTime := Map.get 0 s.clk p.cluster
    maps := g.maps
    launchEv := g.launchEv }

def State.freshTeam (s : State) : Nat := s.teams.foldl (fun m e => max m (e.1 + 1)) 1

/-- Slots that a context holds in a cluster: of teams that have not ended, and of those that keep their tile for their gang (R283,
R286). -/
def State.slotsHeld (s : State) (tag c : Nat) : List Nat :=
  (s.teams.filter fun e =>
    decide (e.2.ctx = tag) && decide (e.2.cluster = c) && decide (e.2.residency ≠ .absent) &&
      (decide (e.2.residency ≠ .ended) || (s.cluster c).reloc.any fun q => decide (q.2.team = e.1))).map fun e => e.2.slot

/-- Clusters of a presented device (Table 23.2). -/
def Context.clusters (c : Context) : Nat := if c.mode = 0 then 16 else if c.mode = 1 then 8 else 2

/-- The cluster lies on a compute die that the part has (R1, R2). -/
def State.present (s : State) (c : Nat) : Bool := s.pkg.present.getLsbD (c / 2)

/-- The places of one team or of a whole gang: free tiles and slots of one cluster of the device, slots in order. -/
def State.placesOk (s : State) (tag : Nat) (ps : List Place) : Bool :=
  let c := s.ctx tag
  match ps with
  | [] => false
  | p :: _ =>
    decide (c.firstCluster ≤ p.cluster) && decide (p.cluster < c.firstCluster + c.clusters) && s.present p.cluster &&
      !(s.cluster p.cluster).stopped &&
      decide ((ps.map fun q => q.tile).Nodup) &&
      (List.range ps.length).all fun i =>
        match ps[i]? with
        | some q =>
            decide (q.cluster = p.cluster) && decide (q.slot = p.slot + i) && decide (q.slot < 192) && decide (q.tile < 192) &&
              (s.tileTeam q.cluster q.tile).isNone && !(s.slotsHeld tag q.cluster).contains q.slot
        | none => true

/-- A slice that receives its first team after being idle starts low (R365). -/
def State.startSlice (s : State) (c tile : Nat) : State :=
  let k := tile / 32
  if (s.cluster c).reloc.any fun e => decide (e.1 / 32 = k) then s
  else s.setCluster c { s.cluster c with slices := Map.put (s.cluster c).slices k ((s.slice c tile).lowest (Map.get 0 s.clk c) s.gtime) }

/-- One member enters its core. -/
def State.enterTeam (s : State) (n i : Nat) (p : Place) (gang : Option Gang) : State :=
  let s1 := s.startSlice p.cluster p.tile
  let t := s1.freshTeam
  (s1.setTeam t (s1.newTeam n i p gang)).placeEntry t p.tile none

/-! ### Waiting for residency (R362) -/

/-- Quantum in ns. -/
def State.quantumOf (s : State) (tag : Nat) : Nat := (s.ctx tag).quantum * 1000

/-- Effective priority after a wait: one more for every 8 quanta, up to 7. -/
def State.effective (s : State) (tag prio since : Nat) : Nat := min 7 (prio + (s.gtime - since) / (8 * max 1 (s.quantumOf tag)))

/-- What waits for residency in a cluster: effective priority, since when, and the cores it needs. -/
structure Waiter where
  prio : Nat
  since : Nat
  need : Nat
  deriving DecidableEq, Repr

/-- Since when a saved gang waits: its members wait and return together. -/
def State.gangSince (s : State) (t : Nat) : Nat := (s.gangOf t).foldl (fun n m => min n (s.team m).waitingSince) (s.team t).waitingSince

/-- Saved gangs of the cluster, and grids whose next team may be placed there. -/
def State.waiters (s : State) (c : Nat) : List Waiter :=
  (s.teams.filterMap fun e =>
    if decide (e.2.cluster = c) && e.2.residency.isSaved then
      some ⟨s.effective e.2.ctx (s.grid e.2.grid).priority (s.gangSince e.1), s.gangSince e.1,
        ((s.gangOf e.1).filter fun m => (s.team m).residency.isSaved).length⟩
    else none) ++
  s.grids.filterMap fun e =>
    let g := e.2
    let x := s.ctx g.ctx
    let k := if g.gang ≤ 1 then 1 else min g.gang (g.total - g.placed)
    if g.dispatched && !g.completed && g.status.isNone && decide (g.placed < g.total) && decide (x.firstCluster ≤ c) &&
        decide (c < x.firstCluster + x.clusters) && s.present c && decide ((s.slotsHeld g.ctx c).length + k ≤ 192) then
      some ⟨s.effective g.ctx g.priority g.headSince, g.headSince, k⟩
    else none

/-- The front: highest effective priority, then longest waiting. -/
def frontWaiter : List Waiter → Option Waiter
  | [] => none
  | a :: as =>
      match frontWaiter as with
      | none => some a
      | some b => if a.prio < b.prio ∨ (a.prio = b.prio ∧ b.since < a.since) then some b else some a

/-- What waits with a priority since a time is the front in a cluster: nothing there comes before it. -/
def State.isFront (s : State) (c prio since : Nat) : Bool :=
  (s.waiters c).all fun w => !(decide (prio < w.prio) || (decide (w.prio = prio) && decide (w.since < since)))

/-- The next team of a dispatched grid, or its next gang whole, is placed, as the front of its cluster's waiters (R361, R362). A gated die begins to wake. -/
def execTeamPlacement (grid : Nat) (places : List Place) (s : State) : Out :=
  let g := s.grid grid
  let k := if g.gang ≤ 1 then 1 else min g.gang (g.total - g.placed)
  if g.dispatched = false ∨ g.completed = true ∨ g.status.isSome = true ∨ g.total ≤ g.placed ∨ places.length ≠ k ∨
      s.placesOk g.ctx places = false then .next s
  else
    let c := (places.map fun p => p.cluster).headD 0
    if (s.die (c / 2)).dead ∨ s.isFront c (s.effective g.ctx g.priority g.headSince) g.headSince = false then .next s
    else if !s.dieReady c then .next (s.wakeDie c)
    else
      let base := (places.map fun p => p.slot).headD 0
      let s1 := (List.range k).foldl
        (fun (s : State) i =>
          match places[i]? with
          | some p => s.enterTeam grid (g.placed + i) p (if g.gang ≤ 1 then none else some ⟨k, i, base⟩)
          | none => s) s
      .next (s1.setGrid grid { s1.grid grid with placed := g.placed + k })

/-- A saved team at the front is loaded onto a free core of its own cluster, and released with its gang (R263, R362). -/
def execRestore (team tile : Nat) (s : State) : Out :=
  let x := s.team team
  match x.residency with
  | .saved area =>
    if 192 ≤ tile ∨ (s.tileTeam x.cluster tile).isSome = true ∨ (s.cluster x.cluster).stopped = true ∨ (s.die (x.cluster / 2)).dead = true ∨
        s.isFront x.cluster (s.effective x.ctx (s.grid x.grid).priority (s.gangSince team)) (s.gangSince team) = false then .next s
    else if !s.dieReady x.cluster then .next (s.wakeDie x.cluster)
    else
      let r := s.readArea x area
      let y := { r.coldCore with rotgen := r.rotgen + 1, tile := tile, residency := .arriving }
      let s1 := (s.setTeam team y).raiseRail team ((List.range 4).any fun w => (y.weave w).mode.isCompute)
      .next (((s1.placeEntry team tile none).rewriteRecords team).releaseGang team)
  | _ => .next s

/-! ### Time-slicing (R362) -/

def State.freeCount (s : State) (c : Nat) : Nat := ((List.range 192).filter fun i => (s.tileTeam c i).isNone).length

/-- A resident team whose own quantum has passed; one frozen for rotation is resident too (R299). -/
def State.quantumOver (s : State) (t : Nat) : Bool :=
  let x := s.team t
  (decide (x.residency = .resident) || x.residency.isMoving) && decide (s.quantumOf x.ctx ≤ s.gtime - x.residentSince)

/-- Lowest priority first, then longest resident. -/
def State.evictFirst (s : State) : List Nat → Option Nat
  | [] => none
  | a :: as =>
      match s.evictFirst as with
      | none => some a
      | some b =>
        let x := s.team a
        let y := s.team b
        let p := (s.grid x.grid).priority
        let q := (s.grid y.grid).priority
        if q < p ∨ (q = p ∧ y.residentSince < x.residentSince) then some b else some a

/-- A team and its gang halt for a save; one that moves is released to halt at its destination (R299). -/
def State.preempt (s : State) (t : Nat) : State :=
  (s.gangOf t).foldl
    (fun s m =>
      let s := s.releaseMove m
      if (s.team m).residency = .resident then (s.freezeTeam m).mapTeam m fun x => { x with residency := .halted, waitingSince := s.gtime }
      else s) s

/-- Cores that are free or will be, once the halted teams are saved. -/
def State.comingFree (s : State) (c : Nat) : Nat :=
  s.freeCount c + (s.teams.filter fun e => decide (e.2.cluster = c) && decide (e.2.residency = .halted)).length

/-- Pre-empts eligible teams until the front can be placed. -/
def State.preemptFor (s : State) (c need : Nat) : Nat → State
  | 0 => s
  | fuel + 1 =>
      if need ≤ s.comingFree c then s
      else
        match s.evictFirst ((s.teamsIn c).filter s.quantumOver) with
        | none => s
        | some t => (s.preempt t).preemptFor c need fuel

/-- Every 20 µs the dispatcher examines a cluster where teams wait. -/
def execDispatchExamination (cluster : Nat) (s : State) : Out :=
  match frontWaiter (s.waiters cluster) with
  | none => .next s
  | some w =>
    if s.gtime < (s.cluster cluster).examined + 20000 then .next s
    else
      let s1 := s.setCluster cluster { s.cluster cluster with examined := s.gtime }
      .next (s1.preemptFor cluster w.need 192)

/-! ### Grid completion (R357, R323) -/

/-- Teams of a grid. -/
def State.teamsOf (s : State) (n : Nat) : List Nat := (s.teams.filter fun e => decide (e.2.grid = n)).map fun e => e.1

/-- Every event of the grid's groups, streams and engines; of a grid that ended with error, those performed before the halt (R323). -/
def State.gridEvents (s : State) (n : Nat) : List Nat :=
  let ts := s.teamsOf n
  let halted := (s.grid n).status.isSome
  s.log.filterMap fun e =>
    if decide (e.agent.party < 18) && ts.contains e.agent.team && (!halted || e.performed || e.wr.isEmpty || e.isRmw || e.isEngine) then some e.id else none

/-- A completion is a release at fab scope (R323): what the clusters and dies have written and not merged goes to the homes (R328,
R347). -/
def State.mergeAll (s : State) : State :=
  (List.range 8).foldl (fun s d => s.mergeDie d) ((List.range 16).foldl (fun s c => s.mergeShared c fun _ => true) s)

/-- The mapped regions of ended teams are written back; a page that fails holds the completion (R158). -/
def State.gridWriteBacks (s : State) (n : Nat) : State × Bool :=
  (s.teamsOf n).foldl
    (fun (a : State × Bool) t =>
      match a.1.heldWriteBacks t with
      | [] => (if (a.1.team t).dirty.isEmpty then a.1 else a.1.writeBack t (a.1.lastBack t), a.2)
      | fails => (a.1.noteHeld t fails, true)) (s, false)

/-- The grid completes once its teams have ended and their copies are done: its event is signalled. -/
def execGridCompletion (grid : Nat) (s : State) : Out :=
  let g := s.grid grid
  if g.dispatched = false ∨ g.completed = true ∨ g.ended < g.total ∨ (s.teamsOf grid).any (fun t => !(s.team t).flying.isEmpty) = true then
    .next s
  else
    let w := s.gridWriteBacks grid
    if w.2 then .next w.1
    else
      let status := match g.status with | some v => v | none => g.discarded.getD 0
      let own := (s.teamsOf grid).flatMap fun t => parties.map fun (p : Party) => s.agentOf t p.number
      let s1 := { w.1.mergeAll with log := if g.status.isSome then w.1.log else performAll w.1.log own }
      .next ((s1.signalEvent g.ctx g.event status (s1.gridEvents grid)).setGrid grid { g with completed := true })

end Sys2Proof.Machine
end

