-- ==== Sys2Proof/Machine/Admin.lean ====
section
/-!
DEFINITION. The driver's registers, rings and admin commands (Tables 24.5 and 24.6, R381), contexts (R349), and the
retirement of units (R22, R374).
-/

namespace Sys2Proof.Machine

/-! ### Queue blocks (R381) -/

def blockOf : QueueBlock → Nat
  | .admin => 256
  | .host q => q
  | .fault => faultRing

/-- The blocks of Table 24.4: the admin ring, the fault ring, and 256 host queues. -/
def QueueBlock.there : QueueBlock → Bool
  | .host q => decide (q < 256)
  | _ => true

/-- The tail write of a host queue or of the admin ring, as an event: a release at fab scope, after everything that the host has done by then, whichever of
its threads rings (R323). -/
def State.hostRelease (s : State) : State :=
  let own := s.log.filterMap fun e => if e.agent.party = 18 then some e.id else none
  { s with log := addEvent s.log s.freeCtr { agent := hostAgent 0, cls := .fenceRel, scope := .fab, extra := own } [] }

/-- The records that a tail write hands over, in order. -/
def State.ringRecords (s : State) (b : QueueRegs) : List (List Byte) :=
  (List.range ((b.tail + 2 ^ b.size - b.head) % 2 ^ b.size)).map fun i =>
    readBytes s.mem (ringKey (b.base + 128 * ((b.head + i) % 2 ^ b.size))) 128

/-- The command processor reads the records of a host queue that the tail covers. -/
def State.takeRecords (s : State) (q : Nat) : State :=
  let b := s.block q
  let s1 := s.hostRelease
  let x := s1.hostQueue q
  let s2 := s1.setHostQueue q (x.push ((s1.ringRecords b).map fun r => ⟨r, s1.lastEvent⟩) s.gtime)
  (s2.setBlock q { b with head := b.tail }).signal q

/-- A block that is not enabled ignores it, and so do the admin and host queues without a verified image (R382). -/
def execQueueTailWrite (blk : QueueBlock) (tail : Word) (s : State) : Out :=
  let n := blockOf blk
  let b := s.block n
  if QueueBlock.there blk = false ∨ b.enable = false ∨ (s.pkg.verified = false ∧ blk ≠ .fault) then .next s
  else
    let s1 := s.setBlock n { b with tail := tail.toNat % 2 ^ b.size }
    match blk with
    | .host q => .next (s1.takeRecords q)
    | .admin => .next s1.hostRelease
    | .fault => .next s1

/-- The other registers: a write with a bad bit or size is ignored whole. -/
def execRegisterWrite (blk : QueueBlock) (reg : QueueReg) (val : DWord) (s : State) : Out :=
  let n := blockOf blk
  let b := s.block n
  let v := val.toNat
  if s.pkg.verified = false ∨ QueueBlock.there blk = false then .next s
  else
    match reg with
    | .base => if v % 128 ≠ 0 then .next s else .next (s.setBlock n { b with base := v })
    | .size =>
        if v / 2 ^ 32 ≠ 0 ∨ bitsOf v 30 5 ≠ 0 ∨ v % 32 < 4 ∨ 16 < v % 32 then .next s
        else .next ((s.setBlock n { b with enable := v.testBit 31, size := v % 32 }).drainRing)
    | .head => .next s
    | .vector => if v / 2 ^ 11 ≠ 0 then .next s else .next (s.setBlock n { b with vector := v })

/-! ### The admin ring -/

def adminRing : Nat := 256

/-- The key of the entry at the head of the admin ring. -/
def State.adminEntry (s : State) : Option Nat :=
  let b := s.block adminRing
  if b.enable ∧ b.head ≠ b.tail then some (ringKey (b.base + 64 * b.head)) else none

/-- The opcode of the command that is next; none on an empty ring. -/
def State.adminOp (s : State) : Option Nat := s.adminEntry.map fun k => (readMem s.mem k).toNat

/-- The command writes its status to its own entry, and the head moves past it. -/
def State.adminDone (s : State) (status : Nat) : State :=
  match s.adminEntry with
  | none => s
  | some k =>
    let b := s.block adminRing
    ((s.putBytes (k + 4) (leBytes 4 status)).setBlock adminRing { b with head := (b.head + 1) % 2 ^ b.size }).signal adminRing

/-- A command of an opcode, when it is next: its effect and status 0, or rejection. -/
def State.admin (s : State) (op : Nat) (ok : Bool) (f : State → State) : State :=
  if s.adminOp ≠ some op then s
  else if ok then (f s).adminDone 0
  else s.adminDone 1

def State.hasCtx (s : State) (tag : Nat) : Bool := (lookup? s.ctxs tag).isSome

/-- 0x00 and 0x0B to 0xFF. -/
def execAdminUndefined (s : State) : Out :=
  match s.adminOp with
  | some op => if op = 0 ∨ 0x0B ≤ op then .next (s.adminDone 1) else .next s
  | none => .next s

/-! ### Contexts (R349) -/

/-- Presented devices of a mode; in SPLIT the die must be present. -/
def State.deviceOk (s : State) (mode device : Nat) : Bool :=
  if mode = 0 then decide (device = 0) else if mode = 1 then decide (device < 2) else decide (mode = 2) && s.pkg.present.getLsbD device

/-- The limits of Table 23.1. -/
def State.descriptorOk (s : State) (bs : List Byte) : Bool :=
  let f := fieldAt bs
  let m := f 2 1
  let base := f 0x30 8
  decide (f 0 2 < 2 ^ 12) && s.deviceOk (m % 4) (m / 4 % 8) && decide (m / 32 ≠ 7) && decide (f 3 1 < 2) &&
    decide (f 4 4 ≤ 10000) && decide (f 8 8 % 2 ^ 16 = 0) && decide (f 0x10 8 % 4 = 0) && decide (f 0x18 8 % 128 = 0) &&
    decide (f 0x20 8 % 4096 = 0) && (decide (f 0x28 4 = 0) || (decide (20 ≤ f 0x28 4) && decide (f 0x28 4 ≤ 5000))) &&
    zeroAt bs 0x2C 4 && (decide (base = 0) || (decide (base % 2 ^ 30 = 0) && decide (base + 3 * 2 ^ 39 ≤ 2 ^ 56))) && zeroAt bs 0x38 8

/-- Every word of the routine table lies in the set of R337. -/
def State.routinesOk (s : State) (a : Nat) : Bool :=
  decide (a = 0) || (List.range 1024).all fun i => rvLegal (leValue (readBytes s.mem (a + 4 * i) 4))

def contextOf (bs : List Byte) : Context :=
  let f := fieldAt bs
  let m := f 2 1
  { Context.absent with
    mode := m % 4
    device := m / 4 % 8
    rotation := m / 32
    flush := decide (f 3 1 = 1)
    watchdog := orDefault (f 4 4) 100
    root := f 8 8
    handler := f 0x10 8
    trapBase := f 0x18 8
    routines := f 0x20 8
    quantum := orDefault (f 0x28 4) 200
    privBase := f 0x30 8 }

/-- A tag in use is rejected, and so is every context after a memory island has failed (R384). -/
def execCreateContext (desc : Nat) (s : State) : Out :=
  let bs := readBytes s.mem (ringKey desc) 64
  let tag := fieldAt bs 0 2
  .next <| s.admin 1
    (s.descriptorOk bs && s.routinesOk (fieldAt bs 0x20 8) && !s.hasCtx tag && !s.memDies.any fun e => e.2.failed)
    fun s => { s with ctxs := Map.put s.ctxs tag (contextOf bs) }

/-- Grids of a context that have not completed. -/
def State.openGrids (s : State) (tag : Nat) : List Nat :=
  (s.grids.filter fun e => decide (e.2.ctx = tag) && !e.2.completed).map fun e => e.1

/-- A grid ends and its event is signalled with its status. -/
def State.endAndSignal (s : State) (n : Nat) (status : Word) : State :=
  let s1 := s.endGrid n status
  let g := s1.grid n
  (s1.signalEvent g.ctx g.event (g.status.getD 0) (s1.gridEvents n)).setGrid n { g with completed := true }

/-- A status that the spec leaves open. Log 19. -/
def State.openWord (s : State) (i : Nat) : Word :=
  BitVec.ofNat 32 (leValue ((List.range 4).map fun j => Config.openByte ((s.freeCtr * 2 ^ 16 + i) * 4 + j)))

/-- Translations of a context's pages that satisfy a test leave every TLB. -/
def State.dropPages (s : State) (tag : Nat) (hit : Nat → Nat → Bool) : State :=
  let out (base k : Nat) : Bool := decide (base ≤ k) && decide (k < base + 2 ^ 44) && hit ((k - base) / 2 ^ 40) ((k - base) % 2 ^ 40)
  { s with
    teams := s.teams.map fun e =>
      if e.2.ctx = tag then (e.1, { e.2 with tlb := e.2.tlb.filter fun k => !out 0 k.1 }) else e
    clusters := s.clusters.map fun e =>
      (e.1, { e.2 with
        tlb := e.2.tlb.filter fun k => !out (ctxBase tag) k.1
        misses := e.2.misses.map fun m => if m.ctx = tag && m.leaf.any (fun f => hit f.size (tlbKey f.size m.page % 2 ^ 40)) then { m with leaf := none } else m }) }

/-- Pages of a context that satisfy a test leave every fault filter. -/
def State.clearFilter (s : State) (tag : Nat) (hit : Nat → Bool) : State :=
  { s with
    clusters := s.clusters.map fun e =>
      (e.1, { e.2 with filter := e.2.filter.filter fun k =>
        !(decide (ctxBase tag ≤ k.1) && decide (k.1 < ctxBase tag + 2 ^ 44) && hit (k.1 - ctxBase tag)) }) }

/-- Everything that the package keeps for a context. -/
def State.forgetContext (s : State) (tag : Nat) : State :=
  let s1 := ((s.dropPages tag fun _ _ => true).dropPointers tag 0 (2 ^ 38)).clearFilter tag fun _ => true
  { s1 with
    ctxs := Map.erase s1.ctxs tag
    raced := s1.raced.filter fun c => decide (c ≠ tag)
    hostQueues := s1.hostQueues.map fun e => if e.2.owner = some tag then (e.1, HostQueue.reset) else e
    batches := s1.batches.map fun e =>
      (e.1, { e.2 with records := e.2.records.filter (fun r => decide (r.ctx ≠ tag)), delivered := e.2.delivered.filter fun d => decide (d.2.ctx ≠ tag) })
    launchCache := Map.erase s1.launchCache tag
    clusters := s1.clusters.map fun e =>
      (e.1, { e.2 with misses := e.2.misses.filter fun m => decide (m.ctx ≠ tag), waiters := e.2.waiters.filter fun m => decide (m.1 ≠ tag) })
    pkg := { s1.pkg with
      holds := s1.pkg.holds.filter (fun h => decide (h.1 ≠ tag))
      heldFrames := s1.pkg.heldFrames.filter (fun h => decide (h.frame.ctx ≠ tag))
      comms := s1.pkg.comms.filter (fun e => decide (e.1 / 2 ^ 32 ≠ tag))
      collCount := s1.pkg.collCount.filter fun e => decide (e.1 / 2 ^ 64 ≠ tag) } }

/-- Every grid ends first; the spec gives their status no value. -/
def execDestroyContext (tag : Nat) (s : State) : Out :=
  .next <| s.admin 2 (s.hasCtx tag) fun s =>
    ((s.openGrids tag).foldl (fun s n => s.endAndSignal n (s.openWord n)) s).forgetContext tag

/-- The hardware queue lies in the share of the context's presented device, and belongs to no other context. -/
def execAssignQueue (tag q : Nat) (s : State) : Out :=
  let c := s.ctx tag
  .next <| s.admin 3
    (s.hasCtx tag && decide (c.device * queueCount c.mode ≤ q) && decide (q < (c.device + 1) * queueCount c.mode) &&
      (decide ((s.hostQueue q).owner = none) || decide ((s.hostQueue q).owner = some tag)))
    fun s => s.setHostQueue q { s.hostQueue q with owner := some tag }

/-! ### Routes (R22, R373 to R375) -/

def unitOk : Unit24 → Bool
  | .port p => decide (p < 16)
  | .sett p => decide (p < 512)
  | .package p => decide (p < 512)

def Package.retire (p : Package) : Unit24 → Package
  | .port n => { p with retiredPorts := n :: p.retiredPorts }
  | .sett n => { p with retiredSett := n :: p.retiredSett }
  | .package n => { p with retiredPackages := n :: p.retiredPackages }

/-- New launches of every image are held until `olld` has rewritten its turn strings (R22), and frames on their way may be dropped at the
unit (R374). -/
def execRetireUnit (u : Unit24) (s : State) : Out :=
  .next <| s.admin 6 (unitOk u) fun s =>
    let p := s.pkg.retire u
    ({ s with pkg := { p with holds := s.ctxs.map fun e => (e.1, []) } } : State).dropFrames s.pkg

/-- `olld` has rewritten one image of a context: its launches go on. -/
def execRegenerationComplete (image : ImageRef) (s : State) : Out :=
  .next { s with pkg := { s.pkg with holds := s.pkg.holds.map fun h => if h.1 = image.ctx then (h.1, image.base :: h.2) else h } }

def execSetPeerWindow (tag window package : Nat) (turn : DWord) (base : Nat) (s : State) : Out :=
  .next <| s.admin 7 (s.hasCtx tag && decide (window < 64) && decide (package < 512)) fun s =>
    let c := s.ctx tag
    { s with ctxs := Map.put s.ctxs tag { c with windows := Map.put c.windows window ⟨package, turn, base⟩ } }

/-- The instances of a communicator count afresh from its registration. -/
def execRegisterCommunicator (tag number : Nat) (members : List Member) (s : State) : Out :=
  .next <| s.admin 8
    (s.hasCtx tag && decide (number < 2 ^ 32) && decide (members.length ≤ 2 ^ 16) && decide (members ≠ []) && members.all fun m => decide (m.package < 512))
    fun s =>
      let key := tag * 2 ^ 32 + number
      { s with pkg := { s.pkg with
          comms := Map.put s.pkg.comms key members
          collCount := s.pkg.collCount.filter fun e => decide (e.1 / 2 ^ 32 ≠ key) } }

/-! ### Suspended groups (R254) -/

/-- The team of a context on a logical slot of a logical cluster. -/
def State.teamAt (s : State) (tag cluster slot : Nat) : Option Nat :=
  (s.teams.find? fun e =>
    decide (e.2.ctx = tag) && decide (s.logicalCluster e.1 = cluster) && decide (e.2.slot = slot) &&
      decide (e.2.residency ≠ .ended) && decide (e.2.residency ≠ .absent)).map fun e => e.1

/-- The effect of `tret`, at the group's `tsusp`; none while a part of the record is held. -/
def State.resumeSuspended (s : State) (t g : Nat) : Option State :=
  match s.waitOf ⟨t, .group g⟩ with
  | some w => (({ s with cur := w.issue } : State).trapReturn t g).map fun (s1 : State) => { s1 with cur := s.cur }
  | none => s.trapReturn t g

/-- A team that moves is released first; one that is not resident is resumed once it is. -/
def execResumeGroup (tag cluster slot : Nat) (party : Party) (s : State) : Out :=
  match s.teamAt tag cluster slot with
  | none => .next (s.admin 9 false id)
  | some t =>
    if s.adminOp ≠ some 9 then .next s
    else
      let s := s.releaseMove t
      if !party.isGroup || !((s.team t).group party.groupNo).suspended then .next (s.admin 9 false id)
      else if (s.team t).residency ≠ .resident then .next s
      else
        match s.resumeSuspended t party.groupNo with
        | none => .next s
        | some s1 => .next (s1.adminDone 0)

def execEndGrid (tag cluster slot : Nat) (status : Word) (s : State) : Out :=
  match s.teamAt tag cluster slot with
  | none => .next (s.admin 0xA false id)
  | some t => .next (s.admin 0xA true fun s => s.endGrid (s.team t).grid status)

end Sys2Proof.Machine
end

