-- ==== Sys2Proof/Machine/Faults.lean ====
section
/-!
DEFINITION. Walks and translation faults: the miss table (R341), invalidation (R342), batches and their delivery (R343),
the driver's answers and replay (R344, R258), and errors in stored bits (R190, R225, R281, R345).
-/

namespace Sys2Proof.Machine

/-! ### PAGE_WALK (R341, R342) -/

/-- The one result of the walk of an entry. -/
def State.missResult (s : State) (cluster : Nat) (m : Miss) : Except Nat Leaf :=
  match m.leaf with
  | some f => .ok f
  | none => s.dieWalk (cluster / 2) m.ctx (m.page * 2 ^ 18)

/-- A page whose walk failed enters a cluster's fault filter. -/
def State.filterPage (s : State) (cluster tag page cause : Nat) : State :=
  s.setCluster cluster { s.cluster cluster with filter := Map.put (s.cluster cluster).filter (ctxBase tag + page) cause }

/-- Free entries of the miss table go to the misses that wait, in the order in which they began to (R341). One whose page has meanwhile
an entry, or fails, takes none. -/
def State.admitWaiters (s : State) (cluster : Nat) : List (Nat × Nat × Nat) → State
  | [] => s
  | w :: ws =>
      let c := s.cluster cluster
      if missTableSize ≤ c.misses.length then s
      else
        let s1 := s.setCluster cluster { c with waiters := ws }
        let s2 :=
          if (c.missOf w.1 w.2.1).isSome then s1
          else
            match s.dieWalk (cluster / 2) w.1 (w.2.1 * 2 ^ 18) with
            | .ok f => s1.setCluster cluster ((s1.cluster cluster).addMiss w.1 w.2.1 w.2.2 (some f))
            | .error e => s1.filterPage cluster w.1 w.2.1 e
        s2.admitWaiters cluster ws

/-- The walk of the oldest entry of the miss table: its leaf enters the cluster TLB and the core TLB of every team that it
serves, or its page enters the fault filter. The entry is freed, for the misses that wait. -/
def execPageWalk (cluster : Nat) (s : State) : Out :=
  match (s.cluster cluster).misses with
  | [] => .next s
  | m :: rest =>
    let d := cluster / 2
    let s1 := (s.setCluster cluster { s.cluster cluster with misses := rest }).keepPointers d m.ctx (m.page * 2 ^ 18)
    let s2 :=
      match s.missResult cluster m with
      | .ok f =>
          let k := tlbKey f.size m.page
          m.teams.foldl (fun (s : State) t => s.keepCore t k f) (s1.keepCluster cluster (ctxBase m.ctx + k) f)
      | .error e => s1.filterPage cluster m.ctx m.page e
    .next (s2.admitWaiters cluster (s2.cluster cluster).waiters)

/-! ### INVALIDATE_TRANSLATIONS (R342) -/

/-- A leaf of a size, at its first page, overlaps a range of pages. -/
def leafHits (start pages size page : Nat) : Bool :=
  decide (page < start + pages) && decide (start < page + pageBytes size / 2 ^ 18)

/-- Copies and `wload`s of the context whose probe used an entry that serves the range. -/
def State.rangeUsers (s : State) (tag start pages : Nat) : Bool :=
  let hit (m : Map Leaf) : Bool := m.any fun e => leafHits start pages e.2.size (tlbKey e.2.size e.1 % 2 ^ 40)
  s.teams.any fun e =>
    decide (e.2.ctx = tag) && ((e.2.copies.any fun c => !c.complete && hit c.pages) || e.2.engine.any fun o => hit o.pages)

/-- Stores of the context that are still buffered, or loads and atomics whose values have not come. -/
def State.buffered (s : State) (tag : Nat) : Bool :=
  (s.lates.any fun x => decide ((s.team x.team).ctx = tag)) || s.log.any fun e => decide (e.agent.ctx = tag) && decide (e.agent.party < 18) && !e.performed && !e.isEngine && !e.isRmw && !e.wr.isEmpty

/-- The range leaves every TLB and pointer cache; the command completes once its users have finished. -/
def execInvalidateTranslations (tag start pages : Nat) (s : State) : Out :=
  if s.adminOp ≠ some 4 then .next s
  else if s.hasCtx tag = false ∨ start % 2 ^ 18 ≠ 0 then .next (s.adminDone 1)
  else
    let p := start / 2 ^ 18
    let s1 := (s.dropPages tag (leafHits p pages)).dropPointers tag p pages
    if s1.rangeUsers tag p pages || s1.buffered tag then .next s1 else .next (s1.adminDone 0)

/-! ### FAULT_BATCH_CLOSE (R343) -/

/-- Context tag first, then virtual address. -/
def FaultRec.before (a b : FaultRec) : Bool := decide (a.ctx < b.ctx) || (decide (a.ctx = b.ctx) && decide (a.page ≤ b.page))

def insertRec (a : FaultRec) : List FaultRec → List FaultRec
  | [] => [a]
  | b :: bs => if a.before b then a :: b :: bs else b :: insertRec a bs

def sortRecs : List FaultRec → List FaultRec
  | [] => []
  | a :: as => insertRec a (sortRecs as)

/-- Adjacent pages of one context and one cause become one range. -/
def mergePages : List FaultRec → List (List FaultRec)
  | [] => []
  | a :: as =>
      match mergePages as with
      | (b :: bs) :: rs => if b.ctx = a.ctx ∧ b.cause = a.cause ∧ b.page = a.page + 1 then (a :: b :: bs) :: rs else [a] :: (b :: bs) :: rs
      | rs => [a] :: rs

/-- The record of a range (Table 20.6): the union of the accesses, and the parties that wait on any of its pages. -/
def rangeOf (batch : Nat) (a : FaultRec) (as : List FaultRec) : RangeRec :=
  ⟨a.page * 2 ^ 18, (a :: as).length, a.ctx, a.cause, (a :: as).foldl (fun x r => x ||| r.access) 0,
    ((a :: as).foldl (fun x r => unionIds x r.parties) []).length, batch⟩

def mergeRecs (batch : Nat) (rs : List FaultRec) : List RangeRec :=
  (mergePages rs).filterMap fun r => match r with | a :: as => some (rangeOf batch a as) | [] => none

/-- The number of the next batch; numbers are one sequence over the package. -/
def State.nextBatch (s : State) : Nat := s.batches.foldl (fun m e => max m (e.2.seq + 1)) 1

/-- Records of one batch. -/
def batchSize : Nat := 64

/-- At 2 µs or the 64th record the batch closes, and its ranges go to the fault ring. -/
def execFaultBatchClose (device : Nat) (s : State) : Out :=
  let b := Map.get Batch.empty s.batches device
  if b.records = [] ∨ (b.records.length < batchSize ∧ s.gtime < b.opened + 2000) then .next s
  else
    let n := s.nextBatch
    let out := b.records.take batchSize
    let b1 : Batch := { records := b.records.drop batchSize, opened := s.gtime, seq := n, delivered := b.delivered ++ out.map fun r => (n, r) }
    .next ((mergeRecs n (sortRecs out)).foldl (fun s r => s.deliver r) { s with batches := Map.put s.batches device b1 })

/-! ### Replay (R258) -/

/-- The memory operands of a load word, as replay needs them: `ld`, `ldl` or `waitv`. -/
def loadMem (w1 w2 : Word) : Option (Space × Width × Order × Scope × ReqType) :=
  match decode w1.toNat w2.toNat with
  | .ok (.ld m _ _ _) => some (m.space, m.width, m.order, m.scope, m.rtype)
  | .ok (.ldl m _ _ _) => some (m.space, m.width, m.order, m.scope, m.rtype)
  | .ok (.uld m _ _) => some (m.space, m.width, m.order, m.scope, m.rtype)
  | .ok (.waitv _ sc _ _ _ _ _ _) => some (.gen, .b32, .mk, sc, .own)
  | _ => none

/-- An intact register takes a value and loses its tag. -/
def refill {α : Type} (r : Tagged α) (e : Nat) (v : α) : Tagged α := if intactTag r.tag e then clear v else r

/-- The destination registers of one lane that are still intact take the loaded words, in the spill area too. -/
def Lane.refillWords (x : Lane) (e d : Nat) : List Word → Lane
  | [] => x
  | w :: ws => (x.setHome d (refill (x.homeV d) e w)).refillWords e (d + 1) ws

/-- Where one failing lane of an entry's load reaches now. -/
def State.replaySpot (s : State) (t g l : Nat) (sp : Space) (w : Width) (a : Nat) : Option (Reached × Trans) :=
  (s.decodeSpace t sp a).map fun r => (r, s.translate t g l (Width.bytes w) r .read)

/-- One lane of an entry's load is performed again, with its order (R154), at the place in program order at which it was issued (R307);
none where it fails again. A `uld` that meets compute mode sets WMODE in every lane of its execution set (R155). -/
def State.replayLane (s : State) (e l a : Nat) (q : PoisonEntry) : Option State :=
  match loadMem q.w1 q.w2, loadDest q.w1 q.w2 with
  | some (sp, w, o, sc, rt), some (isS, d, _) =>
      let t := s.cur.team
      let g := s.cur.party.groupNo
      match s.replaySpot t g l sp w a with
      | some (r, .ok p) =>
          let n := Width.bytes w
          let back (s : State) : State := if sc ≠ .team ∧ s.heldWriteBacks t = [] then s.writeBackFirst else s
          let at' (k : AccessKind) : AccessKind := { k with stamp := q.issued }
          let s0 := (if o = .sc then (back s).releaseEffects (actsAt [p] sc) else s).prepare (at' (s.kind .plain .team)) t g l n r (loadAllocates rt)
          let r := s0.readAt (at' (s0.kind (Order.loadClass o) sc)) p n
          let s1 :=
            if isS then
              r.1.mapCurGroup fun y =>
                { y.writeS d (refill (y.readS d) e (uldValue w r.2.bytes)) with
                  lanes := mapLanes q.set (fun _ x => x.setFlags (if r.2.wmode then 128 else 0)) y.lanes }
            else r.1.mapCurGroup fun y => y.setLane l (((y.lane l).refillWords e d (loadWords w r.2.bytes)).setFlags (if r.2.wmode then 128 else 0))
          let s2 := s1.touch t p n rt sc false true false
          some (if o = .ar ∨ o = .sc then s2.dropL1 t true (actsAt [p] sc) else s2)
      | _ => none
  | _, _ => some s

/-- The lanes of an entry that fail again, with the pages and cause. -/
def State.stillFailing (s : State) (q : PoisonEntry) : List (Nat × Nat × Nat) :=
  match loadMem q.w1 q.w2 with
  | some (sp, w, _) =>
      q.addrs.filterMap fun a =>
        match s.replaySpot s.cur.team s.cur.party.groupNo a.1 sp w a.2 with
        | some (_, .fail va _ c) => some (a.1, va, c)
        | _ => none
  | none => []

/-- The lanes of an entry whose load is held now: a weave that switches, a slot that moves, a full miss table. -/
def State.stillHeld (s : State) (q : PoisonEntry) : List Nat :=
  match loadMem q.w1 q.w2 with
  | some (sp, w, _) =>
      q.addrs.filterMap fun a =>
        match s.replaySpot s.cur.team s.cur.party.groupNo a.1 sp w a.2 with
        | some (_, .hold) => some a.1
        | _ => none
  | none => []

/-- A lane whose replay reads a poisoned sector. -/
def State.replayUncorr (s : State) (q : PoisonEntry) : Option (Nat × Nat) :=
  match loadMem q.w1 q.w2 with
  | some (sp, w, _) =>
      q.addrs.find? fun a =>
        match s.replaySpot s.cur.team s.cur.party.groupNo a.1 sp w a.2 with
        | some (_, .ok p) => s.sectorPoisoned p (Width.bytes w)
        | _ => false
  | none => none

/-- One valid entry is replayed: it becomes spent, or stays for the lanes that fail again or are held. -/
def State.replayEntry (s : State) (e : Nat) (q : PoisonEntry) : State :=
  let fails := s.stillFailing q
  let held := s.stillHeld q
  let stays (l : Nat) : Bool := held.contains l || fails.any fun f => f.1 = l
  let good := q.addrs.filter fun a => !stays a.1
  let s1 := good.foldl (fun (s : State) a => (s.replayLane e a.1 a.2 q).getD s) s
  let q1 : PoisonEntry :=
    if fails.isEmpty && held.isEmpty then { q with spent := true }
    else
      { q with
        lanes := maskOf stays
        addrs := q.addrs.filter fun a => stays a.1
        pages := fails.map fun f => (f.1, f.2.1)
        walkCause := (fails.map fun f => f.2.2).headD q.walkCause }
  let s2 := s1.noteFaults 1 (fails.map fun f => (f.2.1, f.2.2))
  (s2.mapCurGroup fun y => { y with poison := Map.put y.poison e q1 })

/-- The earliest issue first. -/
def insertEntry (a : Nat × PoisonEntry) : List (Nat × PoisonEntry) → List (Nat × PoisonEntry)
  | [] => [a]
  | b :: bs => if a.2.issued ≤ b.2.issued then a :: b :: bs else b :: insertEntry a bs

def sortEntries : List (Nat × PoisonEntry) → List (Nat × PoisonEntry)
  | [] => []
  | a :: as => insertEntry a (sortEntries as)

/-- Valid entries not yet replayed, in the order in which their loads issued. -/
def Group.unspent (y : Group) : List (Nat × PoisonEntry) :=
  sortEntries (y.poison.filter fun e => !e.2.spent && y.carries e.1)

/-- The pages for which a replayable group waits. -/
def Group.faultPages (y : Group) : List Nat :=
  match y.fault with
  | none => []
  | some f =>
      (match f.kind with | .poison => [] | _ => f.pages) ++ y.unspent.flatMap fun e => e.2.pages.map fun a => pageOf a.2

/-- The fault of a group is over; the watchdog's interval starts afresh (R260). -/
def State.faultOver (s : State) (t g : Nat) : State :=
  (s.mapGroup t g fun y => { y with replayable := false, fault := none }).mapTeam t fun x => { x with idleSince := s.gtime }

/-- A group whose faults lie wholly in answered ranges resumes: its loads are replayed, and its consumer executes again. -/
def State.replayGroup (s : State) (t g : Nat) : State :=
  let s := s.arriveWhere fun x => x.of t (.group g)
  let y := (s.team t).group g
  match y.fault with
  | none => s
  | some f =>
    let c := s.cur
    let s0 := { s with cur := f.issue }
    let es := y.unspent
    match es.findSome? fun e => s0.replayUncorr e.2 with
    | some a => { (s0.faultOver t g).groupTrap { code := trapUNCORR, lanes := BitVec.ofNat 32 (2 ^ a.1), addr := a.2 } with cur := c }
    | none =>
      let s1 := es.foldl (fun s e => s.replayEntry e.1 e.2) s0
      let left := (((s1.team t).group g).unspent).isEmpty
      { (if left then s1.faultOver t g else s1) with cur := c }

/-- ACCESS at the consumer of a group that waited on an unresolvable range (R258). At a consumer of poison its record's address is the base
of the first failing page: DESIGN CHOICE, log 65. -/
def State.failGroup (s : State) (t g : Nat) (f : PendingFault) : State :=
  let s := s.arriveWhere fun x => x.of t (.group g)
  let y := (s.team t).group g
  let r := y.record
  let c := s.cur
  let s1 := { s.faultOver t g with cur := f.issue }
  let lanes := match r with | some r => r.lanes | none => 0
  let addr := match f.kind, r with | .poison, _ => f.pages.headD 0 * 2 ^ 18 | _, some r => r.addr | _, none => 0
  { s1.groupTrap { code := trapACCESS, lanes := lanes, addr := addr } with cur := c }

/-- The driver has answered for a descheduled group of a team that runs: it fails, or resumes where it waits for no page any more. -/
def State.answerGroup (s : State) (t g : Nat) : State :=
  let y := (s.team t).group g
  match y.fault with
  | none => s
  | some f =>
    if (s.team t).residency ≠ .resident then s
    else if f.failed then s.failGroup t g f
    else if y.faultPages.any (s.awaited (s.team t).ctx) then s
    else s.replayGroup t g

/-- Replayable groups of a context, by team and number. -/
def State.faultedGroups (s : State) (tag : Nat) : List (Nat × Nat) :=
  s.teams.flatMap fun e =>
    if e.2.ctx = tag ∧ e.2.residency ≠ .ended then
      (List.range e.2.nGroups).filterMap fun g => if (e.2.group g).replayable then some (e.1, g) else none
    else []

/-- The pages of a batch that a range answers, as context and page. -/
def State.answered (s : State) (batch start pages : Nat) : List (Nat × Nat) :=
  s.batches.flatMap fun e =>
    e.2.delivered.filterMap fun d =>
      if d.1 = batch ∧ start ≤ d.2.page ∧ d.2.page < start + pages then some (d.2.ctx, d.2.page) else none

/-- One context's share of an answer; the watchdog's interval of the teams that awaited the driver before starts afresh (R260). A team that moves is released first (R300); one that does not run acts on the answer once it
runs. -/
def State.resolveFor (s : State) (before : List Nat) (tag : Nat) (hits : List Nat) (ok : Bool) : State :=
  let s0 := if ok then s.clearFilter tag fun p => hits.contains p else s
  let s1 : State := { s0 with teams := s0.teams.map fun (e : Nat × Team) => if e.2.ctx = tag && before.contains e.1 then (e.1, { e.2 with idleSince := s.gtime }) else e }
  let s2 := (s1.faultedGroups tag).foldl
    (fun (s : State) q =>
      let s := s.releaseMove q.1
      let y := (s.team q.1).group q.2
      if !ok && y.faultPages.any hits.contains then
        (s.mapGroup q.1 q.2 fun y => { y with fault := y.fault.map fun f => { f with failed := true } }).answerGroup q.1 q.2
      else if ok then s.answerGroup q.1 q.2
      else s) s1
  s2.releaseFrames tag (fun p => hits.contains p) ok

/-- The driver's answer to a delivered range, or to a part of one (R344). -/
def execResolveRange (batch start pages : Nat) (ok : Bool) (s : State) : Out :=
  let hits := s.answered batch (start / 2 ^ 18) pages
  .next <| s.admin 5 (decide (start % 2 ^ 18 = 0) && !hits.isEmpty) fun s =>
    let s1 := { s with batches := s.batches.map fun e =>
      (e.1, { e.2 with delivered := e.2.delivered.filter fun d => !(decide (d.1 = batch) && hits.contains (d.2.ctx, d.2.page)) }) }
    let tags := (hits.map fun h => h.1).eraseDups
    let before := (s.teams.filter fun e => s.awaitsDriver e.2).map fun e => e.1
    tags.foldl (fun s tag => s.resolveFor before tag ((hits.filter fun h => decide (h.1 = tag)).map fun h => h.2) ok) s1

/-! ### Errors in stored bits -/

/-- The four sectors of a line are poisoned at the home. -/
def State.poisonLine (s : State) (line : Nat) : State :=
  { s with memPoison := (List.range 4).foldl (fun m i => Map.set false m (4 * line + i) true) s.memPoison }

/-- The bit stays flipped until the byte is written; ECC-checked reads give it corrected (R190). -/
def Team.flip (x : Team) (offset bit : Nat) : Team :=
  let k := 8 * offset + bit % 8
  { x with flips := Map.set false x.flips k (!Map.get false x.flips k) }

/-- An error that cannot be corrected poisons its sector (R225, R281); a corrected one is counted (R195, R281). -/
def execSoftError (site : SoftSite) (s : State) : Out :=
  match site with
  | .weave t o b => if padSize ≤ o then .next s else .next (s.mapTeam t fun x => x.flip o b)
  | .weaveSector t k =>
      if padSize / 32 ≤ k then .next s
      else .next ((s.mapTeam t fun x => { x with padPoison := Map.set false x.padPoison k true }).nominalRail ((s.team t).cluster / 2))
  | .memorySector k => .next { s with memPoison := Map.set false s.memPoison k true }
  | .corrected d => let x := s.die d; .next (s.setDie d { x with corrected := x.corrected + 1 })

end Sys2Proof.Machine
end

