-- ==== Sys2Proof/Machine/Sha.lean ====
section
/-!
DEFINITION. SHA-384, the measurement of a firmware image (R382). The spec names the function and does not give it: it is that of FIPS
180-4 (PRESUMED, log 20), the first 384 bits of SHA-512's compression from a start of its own.
-/

namespace Sys2Proof.Machine

/-- The first 64 bits of the fractions of the cube roots of the first eighty primes. -/
def shaK : List Nat :=
  [0x428A2F98D728AE22, 0x7137449123EF65CD, 0xB5C0FBCFEC4D3B2F, 0xE9B5DBA58189DBBC,
    0x3956C25BF348B538, 0x59F111F1B605D019, 0x923F82A4AF194F9B, 0xAB1C5ED5DA6D8118] ++
  [0xD807AA98A3030242, 0x12835B0145706FBE, 0x243185BE4EE4B28C, 0x550C7DC3D5FFB4E2,
    0x72BE5D74F27B896F, 0x80DEB1FE3B1696B1, 0x9BDC06A725C71235, 0xC19BF174CF692694] ++
  [0xE49B69C19EF14AD2, 0xEFBE4786384F25E3, 0x0FC19DC68B8CD5B5, 0x240CA1CC77AC9C65,
    0x2DE92C6F592B0275, 0x4A7484AA6EA6E483, 0x5CB0A9DCBD41FBD4, 0x76F988DA831153B5] ++
  [0x983E5152EE66DFAB, 0xA831C66D2DB43210, 0xB00327C898FB213F, 0xBF597FC7BEEF0EE4,
    0xC6E00BF33DA88FC2, 0xD5A79147930AA725, 0x06CA6351E003826F, 0x142929670A0E6E70] ++
  [0x27B70A8546D22FFC, 0x2E1B21385C26C926, 0x4D2C6DFC5AC42AED, 0x53380D139D95B3DF,
    0x650A73548BAF63DE, 0x766A0ABB3C77B2A8, 0x81C2C92E47EDAEE6, 0x92722C851482353B] ++
  [0xA2BFE8A14CF10364, 0xA81A664BBC423001, 0xC24B8B70D0F89791, 0xC76C51A30654BE30,
    0xD192E819D6EF5218, 0xD69906245565A910, 0xF40E35855771202A, 0x106AA07032BBD1B8] ++
  [0x19A4C116B8D2D0C8, 0x1E376C085141AB53, 0x2748774CDF8EEB99, 0x34B0BCB5E19B48A8,
    0x391C0CB3C5C95A63, 0x4ED8AA4AE3418ACB, 0x5B9CCA4F7763E373, 0x682E6FF3D6B2B8A3] ++
  [0x748F82EE5DEFB2FC, 0x78A5636F43172F60, 0x84C87814A1F0AB72, 0x8CC702081A6439EC,
    0x90BEFFFA23631E28, 0xA4506CEBDE82BDE9, 0xBEF9A3F7B2C67915, 0xC67178F2E372532B] ++
  [0xCA273ECEEA26619C, 0xD186B8C721C0C207, 0xEADA7DD6CDE0EB1E, 0xF57D4F7FEE6ED178,
    0x06F067AA72176FBA, 0x0A637DC5A2C898A6, 0x113F9804BEF90DAE, 0x1B710B35131C471B] ++
  [0x28DB77F523047D84, 0x32CAAB7B40C72493, 0x3C9EBE0A15C9BEBC, 0x431D67C49C100D4C,
    0x4CC5D4BECB3E42B6, 0x597F299CFC657E2A, 0x5FCB6FAB3AD6FAEC, 0x6C44198C4A475817]

/-- The first 64 bits of the fractions of the square roots of the ninth to sixteenth primes. -/
def shaStart : List Nat :=
  [0xCBBB9D5DC1059ED8, 0x629A292A367CD507, 0x9159015A3070DD17, 0x152FECD8F70E5939,
    0x67332667FFC00B31, 0x8EB44A8768581511, 0xDB0C2E0D64F98FA7, 0x47B5481DBEFA4FA4]

/-- A word rotated right. -/
def rotr64 (n x : Nat) : Nat := (x >>> n ||| x <<< (64 - n)) % 2 ^ 64

/-- The two functions that mix the schedule, and the two that mix the state. -/
def shaS0 (x : Nat) : Nat := rotr64 1 x ^^^ rotr64 8 x ^^^ x >>> 7
def shaS1 (x : Nat) : Nat := rotr64 19 x ^^^ rotr64 61 x ^^^ x >>> 6
def shaB0 (x : Nat) : Nat := rotr64 28 x ^^^ rotr64 34 x ^^^ rotr64 39 x
def shaB1 (x : Nat) : Nat := rotr64 14 x ^^^ rotr64 18 x ^^^ rotr64 41 x

/-- The window of sixteen schedule words moves on by one. -/
def shaNext (w : List Nat) : List Nat :=
  w.drop 1 ++ [(shaS1 (w.getD 14 0) + w.getD 9 0 + shaS0 (w.getD 1 0) + w.getD 0 0) % 2 ^ 64]

/-- The eight words of the state. -/
structure ShaState where
  a : Nat
  b : Nat
  c : Nat
  d : Nat
  e : Nat
  f : Nat
  g : Nat
  h : Nat
  deriving DecidableEq, Repr

/-- One round, with its constant and its schedule word. -/
def ShaState.round (x : ShaState) (k w : Nat) : ShaState :=
  let t1 := x.h + shaB1 x.e + ((x.e &&& x.f) ^^^ ((2 ^ 64 - 1 - x.e) &&& x.g)) + k + w
  let t2 := shaB0 x.a + ((x.a &&& x.b) ^^^ (x.a &&& x.c) ^^^ (x.b &&& x.c))
  ⟨(t1 + t2) % 2 ^ 64, x.a, x.b, x.c, (x.d + t1) % 2 ^ 64, x.e, x.f, x.g⟩

/-- The rounds of one block. -/
def shaRounds : List Nat → List Nat → ShaState → ShaState
  | [], _, x => x
  | k :: ks, w, x => shaRounds ks (shaNext w) (x.round k (w.getD 0 0))

/-- A state and what a block adds to it. -/
def ShaState.plus (x y : ShaState) : ShaState :=
  ⟨(x.a + y.a) % 2 ^ 64, (x.b + y.b) % 2 ^ 64, (x.c + y.c) % 2 ^ 64, (x.d + y.d) % 2 ^ 64,
    (x.e + y.e) % 2 ^ 64, (x.f + y.f) % 2 ^ 64, (x.g + y.g) % 2 ^ 64, (x.h + y.h) % 2 ^ 64⟩

def ShaState.start : ShaState :=
  let s := fun i => shaStart.getD i 0
  ⟨s 0, s 1, s 2, s 3, s 4, s 5, s 6, s 7⟩

/-- Bytes as a number, the first the most significant. -/
def bigEndian (bs : List Byte) : Nat := bs.foldl (fun n b => 256 * n + b.toNat) 0

/-- The message with its end mark and its length in bits, in whole blocks of 128 bytes. -/
def shaPadded (m : List Byte) : List Byte :=
  m ++ (0x80 : Byte) :: List.replicate ((239 - m.length % 128) % 128) (0 : Byte) ++
    (List.range 16).map fun i => BitVec.ofNat 8 ((8 * m.length) >>> (8 * (15 - i)))

/-- The message's blocks are taken in, each as sixteen words. -/
def shaBlocks (m : List Byte) : Nat → Nat → ShaState → ShaState
  | _, 0, x => x
  | i, n + 1, x =>
      let w := (List.range 16).map fun j => bigEndian ((m.drop (128 * i + 8 * j)).take 8)
      shaBlocks m (i + 1) n (x.plus (shaRounds shaK w x))

/-- The digest, as a number of 384 bits whose most significant byte is the first. -/
def sha384 (m : List Byte) : Nat :=
  let p := shaPadded m
  let x := shaBlocks p 0 (p.length / 128) .start
  [x.a, x.b, x.c, x.d, x.e, x.f].foldl (fun n w => n * 2 ^ 64 + w) 0

end Sys2Proof.Machine
end

