-- ==== Sys2Proof/Machine/HostLink.lean ====
section
/-!
DEFINITION. The host link and the management of the package: the BAR2 aperture (R387), AtomicOps (R380), reset, firmware and
attestation (R382), and the black box (R383).
-/

namespace Sys2Proof.Machine

/-! ### The aperture (R387) -/

/-- Device memory as the aperture shows it. The page of a byte that die-private accesses reach is die-private for the host too
(R306). -/
def State.hostSpot (s : State) (pa : Nat) : Spot :=
  .mem pa ⟨0, 0, 0, 1, s.log.any fun (e : MEvent) => e.diePriv && e.bytes.contains pa, true, true, true⟩

/-- An access of a host thread, or of an engine of the host, which has a number too (R303). -/
def State.hostKind (s : State) (thread : Nat) (cls : EvClass) : AccessKind := ⟨hostAgent thread, cls, .fab, false, [], [], [], s.freeCtr⟩

/-- The parts of a range in aligned pieces of a size, as address and length. -/
def piecesOf (size pa n : Nat) : List (Nat × Nat) :=
  (List.range ((pa + n - 1) / size - pa / size + 1)).map fun i =>
    let lo := max pa (size * (pa / size + i))
    (lo, min (pa + n) (size * (pa / size + i + 1)) - lo)

/-- The host link serves memory once an image runs, and the bytes lie in the part of device memory that BAR2 shows, on stacks that are
reached (R384). -/
def State.apertureOk (s : State) (pa n : Nat) : Bool :=
  s.pkg.verified && decide (0 < n) && decide (pa + n ≤ min (2 ^ 39) s.pkg.aperture) && !(piecesOf 4096 pa n).any fun p => s.unreachable p.1

/-- An access of the host waits for the lease of a holder that has drifted: it is made once the home has reclaimed it (R334). -/
def State.hostWaits (s : State) (pa n : Nat) : Bool := (piecesOf 128 pa n).any fun p => s.leaseHeld none p.1 p.2 ⟨0, 0, 0, 1, false, true, true, true⟩

/-- A poisoned completion or a dropped write is recorded as a non-fatal internal error. -/
def State.hostError (s : State) (n : Nat) : State :=
  { s with pkg := { s.pkg with aer := s.pkg.aer + 1, reply := ⟨List.replicate n 0, true⟩ } }

def State.memPoisoned (s : State) (pa n : Nat) : Bool := s.sectorPoisoned (s.hostSpot pa) n

/-- The host reads: what it observes, it acquires (R323). -/
def execHostApertureRead (x : HostAccess) (n : Nat) (s : State) : Out :=
  if s.apertureOk x.pa n = false ∨ s.hostWaits x.pa n = true then .next s
  else if s.memPoisoned x.pa n then .next (s.hostError n)
  else
    let r := (piecesOf 8 x.pa n).foldl
      (fun (a : State × List Byte) p =>
        let q := (a.1.touchHome (a.1.hostSpot p.1) p.2).readUnitAt (a.1.hostKind x.thread .acquire) (a.1.hostSpot p.1) 0 p.2
        (q.1, a.2 ++ q.2)) (s, [])
    .next { r.1 with pkg := { r.1.pkg with reply := ⟨r.2, false⟩ } }

/-- One sector of a host write: it clears the poison of a sector that it covers, and is dropped on any other poisoned
sector. -/
def State.hostSector (s : State) (thread a : Nat) (bs : List Byte) : State :=
  if Map.get false s.memPoison (a / 32) && decide (bs.length < 32) then s.hostError 0
  else
    let s1 := (piecesOf 8 a bs.length).foldl
      (fun (s : State) p => (s.touchHome (s.hostSpot p.1) p.2).writeUnitAt (s.hostKind thread .marked) (s.hostSpot p.1) 0 ((bs.drop (p.1 - a)).take p.2) []) s
    { s1 with memPoison := Map.set false s1.memPoison (a / 32) false }

def execHostApertureWrite (x : HostAccess) (bytes : List Byte) (s : State) : Out :=
  if s.apertureOk x.pa bytes.length = false ∨ s.hostWaits x.pa bytes.length = true then .next s
  else .next ((piecesOf 32 x.pa bytes.length).foldl (fun s p => s.hostSector x.thread p.1 ((bytes.drop (p.1 - x.pa)).take p.2)) s)

/-! ### AtomicOps (R380) -/

def HostAtomic.size : HostAtomic → Nat
  | .fetchAdd n _ => n
  | .swap n _ => n
  | .cas n _ _ => n

/-- FetchAdd, Swap and CAS of 4 and 8 bytes, and CAS of 16. -/
def HostAtomic.ok : HostAtomic → Bool
  | .cas n _ _ => decide (n = 4) || decide (n = 8) || decide (n = 16)
  | .fetchAdd n _ => decide (n = 4) || decide (n = 8)
  | .swap n _ => decide (n = 4) || decide (n = 8)

def HostAtomic.new (op : HostAtomic) (old : Nat) : Nat :=
  match op with
  | .fetchAdd n v => (old + v) % 2 ^ (8 * n)
  | .swap n v => v % 2 ^ (8 * n)
  | .cas n cmp v => if old = cmp % 2 ^ (8 * n) then v % 2 ^ (8 * n) else old

/-- The operation is performed at the home of its line; the completion carries the old value. -/
def execHostAtomicop (x : HostAccess) (op : HostAtomic) (s : State) : Out :=
  let n := HostAtomic.size op
  if HostAtomic.ok op = false ∨ x.pa % n ≠ 0 ∨ s.apertureOk x.pa n = false ∨ s.hostWaits x.pa n = true then .next s
  else if s.memPoisoned x.pa n then .next (s.hostError n)
  else
    let r := (s.touchHome (s.hostSpot x.pa) n).rmwAt (s.hostKind x.thread .marked) (s.hostSpot x.pa) n 4 fun old => (HostAtomic.new op old, old)
    .next { r.1 with pkg := { r.1.pkg with reply := ⟨leBytes n r.2, false⟩ } }

/-! ### What the windows of BAR0 show (Table 24.4) -/

/-- The identity window: ordering code, revision, present dies, measurement of the image that runs. -/
def State.identityWindow (s : State) : OrderingCode × Nat × BitVec 8 × Nat := (s.pkg.code, Config.revision, s.pkg.present, s.pkg.measurement)

/-- An entry of a relocation table (Table 15.5). -/
def relocWord (tile : Nat) (e : RelocEntry) : Word :=
  BitVec.ofNat 32 (2 ^ 31 + (if e.moving.isSome then 2 ^ 30 else 0) + e.ctx % 2 ^ 12 * 2 ^ 16 + e.slot % 2 ^ 8 * 2 ^ 8 + tile % 2 ^ 8)

/-- The relocation table of a cluster as the driver reads it through the cluster status window: 192 words (R284). -/
def State.clusterStatus (s : State) (c tile : Nat) : Word :=
  match lookup? (s.cluster c).reloc tile with
  | some e => relocWord tile e
  | none => BitVec.ofNat 32 (tile % 2 ^ 8)

/-! ### Reset, firmware, attestation (R382) -/

/-- The boot ROM verifies an image; it runs, or the failure is logged. -/
def State.boot (s : State) (image : List Byte) (valid : Bool) : State :=
  let s1 := { s with pkg := { s.pkg with image := image, verified := valid, measurement := if valid then sha384 image else 0 } }
  if valid then s1 else s1.logBox boxBOOTFAIL 0 []

/-- Every part of the machine goes to its reset state; the black box survives, and memory keeps its bytes. -/
def execPackageReset (image : List Byte) (valid : Bool) (s : State) : Out :=
  .next <|
    ({ State.reset with
       agenda := s.agenda
       freeCtr := s.freeCtr
       mem := s.mem
       memPoison := s.memPoison
       pkg := { Package.reset with index := s.pkg.index, code := s.pkg.code, blackBox := s.pkg.blackBox } } : State).boot image valid

/-- The recovery window takes an image while none is verified. -/
def execRecoveryImageWrite (image : List Byte) (valid : Bool) (s : State) : Out :=
  if s.pkg.verified then .next s else .next (s.boot image valid)

/-- The signed measurement of the image that runs; the signature is the device key's (log 20). -/
def execAttestationRequest (s : State) : Out :=
  if s.pkg.verified = false then .next s
  else
    .next { s with pkg := { s.pkg with
      reply := ⟨(leBytes 48 s.pkg.measurement).reverse ++ leBytes 96 (Config.attestation s.freeCtr), false⟩ } }

/-! ### The black box (R383) -/

/-- A record: time, class, unit, 48 bytes of detail. -/
def boxBytes (r : BoxRec) : List Byte :=
  leBytes 8 r.gtime ++ leBytes 4 r.cls ++ leBytes 4 r.unit ++ (r.detail ++ List.replicate 48 0).take 48

def execBlackBoxRead (i : Nat) (s : State) : Out :=
  match s.pkg.blackBox[i]? with
  | some r => .next { s with pkg := { s.pkg with reply := ⟨boxBytes r, false⟩ } }
  | none => .next s

/-! ### The host's own end (R380, R381) -/

/-- The registers of a queue block as the host reads them (Table 24.5). -/
def QueueRegs.word (b : QueueRegs) (off : Nat) : Nat :=
  if off = 0 then b.base
  else if off = 8 then (if b.enable then 2 ^ 31 else 0) + b.size
  else if off = 0x10 then b.tail
  else if off = 0x18 then b.head
  else if off = 0x20 then b.vector
  else 0

/-- The identity window: code, revision, present dies, and the measurement from its first byte on. The order is the model's (log 28). -/
def State.identityWord (s : State) (i : Nat) : Nat :=
  if i = 0 then (match s.pkg.code with | .izg8cP => 0 | .izg8cM => 1 | .izg6cP => 2)
  else if i = 1 then Config.revision
  else if i = 2 then s.pkg.present.toNat
  else leValue (((leBytes 48 s.pkg.measurement).reverse.drop (8 * (i - 3))).take 8)

/-- A word of the black box window: 64 bytes a record, the oldest first. -/
def State.boxWord (s : State) (off : Nat) : Nat :=
  match s.pkg.blackBox[off / 64]? with
  | some r => leValue (((boxBytes r).drop (off % 64)).take 8)
  | none => 0

/-- Eight bytes of BAR0, by its windows (Table 24.4). Without a verified image only the identity window answers (R382). -/
def State.barWord (s : State) (off : Nat) : Nat :=
  if off < 0x1000 then s.identityWord (off / 8)
  else if s.pkg.verified = false then 0
  else if off < 0x2000 then (s.block adminRing).word (off - 0x1000)
  else if 0x100000 ≤ off ∧ off < 0x104000 then (s.block ((off - 0x100000) / 64)).word (off % 64)
  else if 0x200000 ≤ off ∧ off < 0x201000 then (s.block faultRing).word (off - 0x200000)
  else if 0x300000 ≤ off ∧ off < 0x304000 then
    let c := (off - 0x300000) / 1024
    let i := off % 1024 / 4
    if i < 192 then (s.clusterStatus c i).toNat + 2 ^ 32 * (s.clusterStatus c (i + 1)).toNat else 0
  else if 0x400000 ≤ off ∧ off < 0x410000 then s.boxWord (off - 0x400000)
  else 0

/-- Eight bytes of BAR4: the mask bits of the MSI-X table, in the last word of each vector's sixteen bytes, and the pending bits behind the
table. The layout is that of PCI Express (PRESUMED, log 28). -/
def State.msixWord (s : State) (off : Nat) : Nat :=
  if off < 0x8000 then (if off % 16 = 8 ∧ s.pkg.masked.contains (off / 16) = true then 2 ^ 32 else 0)
  else if off < 0x8100 then
    (List.range 64).foldl (fun n i => if s.pkg.pending.contains (8 * (off - 0x8000) + i) then n + 2 ^ i else n) 0
  else 0

/-- A vector is masked, or unmasked and signalled where it was pending. -/
def Package.maskVector (p : Package) (v : Nat) (on : Bool) : Package :=
  if on then { p with masked := unionIds p.masked [v] }
  else
    let q := { p with masked := p.masked.filter (fun w => decide (w ≠ v)), pending := p.pending.filter fun w => decide (w ≠ v) }
    if p.pending.contains v then q.signal v else q

/-- The page of a byte of host memory. -/
def hostLeaf : Leaf := ⟨0, 0, 1, 1, false, true, true, true⟩

/-- What the host does. Its stores to its own memory are events of its thread, as those through the aperture are. -/
def State.hostAct (s : State) : HostAct → State
  | .store thread a bytes =>
      (piecesOf 8 a bytes.length).foldl
        (fun (s : State) p => s.writeUnitAt (s.hostKind thread .marked) (.mem (hostKey p.1) hostLeaf) 0 ((bytes.drop (p.1 - a)).take p.2) []) s
  | .look bar off => { s with pkg := { s.pkg with reply := ⟨leBytes 8 (if bar = 4 then s.msixWord off else s.barWord off), false⟩ } }
  | .mask v on => if v < 2048 then { s with pkg := s.pkg.maskVector v on } else s
  | .aperture n => if 2 ^ 30 ≤ n ∧ n ≤ 2 ^ 39 ∧ 2 ^ n.log2 = n then { s with pkg := { s.pkg with aperture := n } } else s

end Sys2Proof.Machine
end

