-- ==== Sys2Proof/Machine/Coherence.lean ====
section
/-!
DEFINITION. The events of the directory protocol (R329, R330), the ends of leases (R333, R334), global time (R335), the incarnations of
caching agents (R336), and errors of lines that leave a cache (R345). None of it changes the value of a byte; it moves the states of
lines.
-/

namespace Sys2Proof.Machine

/-! ### Messages (R336) -/

/-- The number of a caching agent. -/
def agentUnit : CacheAgent → Nat
  | .l2 c => c
  | .dieDir d => 16 + d

/-- A message of an agent is taken: the directory tracks the agent, its die speaks, and the message is of its present incarnation. -/
def State.heeds (s : State) (home : HomeDir) (a : Sender) : Bool :=
  s.speaks home a.agent && decide (a.inc = Map.get 0 s.incarnations (agentUnit a.agent))

/-! ### Lines leave an agent -/

/-- A dirty write-back is one of the holder's dirty line. -/
def execDirtyWriteBack (home : HomeDir) (line : Nat) (a : Sender) (s : State) : Out :=
  if s.heeds home a = false ∨ (s.dirEntry home line).state ≠ .x a.agent ∨ s.holdsDirty a.agent line = false then .next s
  else .next (s.dirtyLeaves home line a.agent)

def execCleanEvictionNotice (home : HomeDir) (line : Nat) (a : Sender) (s : State) : Out :=
  if s.heeds home a = false ∨ s.holdsDirty a.agent line = true then .next s else .next (s.cleanLeaves home line a.agent)

/-! ### Requests -/

/-- A leaf maps a line of device memory. -/
def Leaf.mapsLine (f : Leaf) (line : Nat) : Bool := decide (f.location = 0) && decide (f.pa / 128 ≤ line) && decide (line < (f.pa + pageBytes f.size) / 128)

/-- The die-scope bit of a line's page, as a cluster's translations have it. -/
def State.dieScopeOf (s : State) (c line : Nat) : Option Bool :=
  (((s.cluster c).tlb.map (fun e => e.2) ++ (s.cluster c).misses.filterMap fun m => m.leaf).find? fun f => f.mapsLine line).map fun f => f.dieScope

/-- A directory of the other kind names a line. -/
def State.namedElsewhere (s : State) (home : HomeDir) (line : Nat) : Bool :=
  s.dir.any fun e => decide (e.1 % 2 ^ 48 = line) && (decide (e.1 < 2 ^ 48) != decide (home = .hub)) && decide (e.2.state ≠ .i)

/-- The directory is that of the line's page (R327): by the translation under which the agent reaches it; else by the directory that
names it already. -/
def State.homeFits (s : State) (home : HomeDir) (a : CacheAgent) (line : Nat) : Bool :=
  match a with
  | .l2 c => match s.dieScopeOf c line with | some b => b == decide (home ≠ .hub) | none => !s.namedElsewhere home line
  | .dieDir _ => !s.namedElsewhere home line

/-- A cluster L2 that asks for a line has a way for it, and it takes one. -/
def State.canTake (s : State) (a : CacheAgent) (line : Nat) : Bool := match a with | .l2 c => s.hasWay c line | .dieDir _ => true

def State.takeWayOf (s : State) (a : CacheAgent) (line : Nat) : State := match a with | .l2 c => s.takeWay c line | .dieDir _ => s

/-- A request reaches its home, once the links on its way are awake (R370). -/
def State.ask (s : State) (home : HomeDir) (line : Nat) (a : Sender) (own write : Bool) : Out :=
  let ls := s.linksOf home a.agent line
  if s.heeds home a = false ∨ s.homeFits home a.agent line = false ∨ s.canTake a.agent line = false then .next s
  else if s.linksUp ls then .next (((s.useLinks ls).takeWayOf a.agent line).request home line ⟨a.agent, own, write⟩)
  else .next (s.wakeLinks ls)

def execReadShared (home : HomeDir) (line : Nat) (a : Sender) (s : State) : Out := s.ask home line a false false

def execReadOwn (home : HomeDir) (line : Nat) (a : Sender) (write : Bool) (s : State) : Out := s.ask home line a true write

/-! ### Snoops -/

/-- The link over which a snoop goes: the hub's to the agent's die. -/
def snoopLinks (home : HomeDir) (a : CacheAgent) : List Nat := if home = .hub then [agentDie a] else []

/-- A snoop reaches a holder, which answers: it keeps a copy of a shared line, or drops the line. -/
def execSnoop (home : HomeDir) (line : Nat) (a : CacheAgent) (s : State) : Out :=
  let e := s.dirEntry home line
  let ls := snoopLinks home a
  if !e.snoops.contains a then .next s
  else if s.linksUp ls = false then .next (s.wakeLinks ls)
  else
    let keeps := !e.owning && decide (s.holds a line ≠ .i)
    let s0 := s.setL2 a line (if keeps then .s else .i)
    let s1 := (if keeps then s0 else s0.freeWay home line a).useLinks ls
    .next (s1.setEntry home line { e with snoops := e.snoops.filter (fun b => decide (b ≠ a)), answers := e.answers ++ [(a, keeps)] })

/-- The answer reaches the home; one that follows a crossing write-back changes nothing (R330), and one of an old incarnation is
dropped (R336). -/
def execSnoopAnswer (home : HomeDir) (line : Nat) (a : Sender) (s : State) : Out :=
  let e := s.dirEntry home line
  if a.inc ≠ Map.get 0 s.incarnations (agentUnit a.agent) then .next s
  else
    match e.answers.find? fun x => x.1 = a.agent with
    | some x => .next (s.takeAnswer home line a.agent x.2)
    | none => .next (s.setEntry home line { e with crossed := e.crossed.filter fun b => decide (b ≠ a.agent) })

/-! ### Leases (R333, R334) -/

def State.dropLease (s : State) (line core : Nat) : State :=
  let e := s.dirEntry .hub line
  s.setEntry .hub line { e with leases := e.leases.filter fun l => decide (l.core ≠ core) }

def State.leaseOf (s : State) (line core : Nat) : Option Lease := (s.dirEntry .hub line).leases.find? fun l => l.core = core

/-- A sound holder's lease is over by its own time; its masked bytes have been written back by then. -/
def execLeaseEnd (line core : Nat) (s : State) : Out :=
  match s.leaseOf line core with
  | some l => if s.leaseOver l then .next ((s.dropLease line core).serveLine .hub line) else .next s
  | none => .next s

/-- The sectors of some bytes of a line are poisoned. -/
def State.poisonBytes (s : State) (line : Nat) (offsets : List Nat) : State :=
  { s with memPoison := offsets.foldl (fun m o => Map.set false m ((128 * line + o) / 32) true) s.memPoison }

/-- A lease whose holder has drifted is reclaimed after its end and the guard band, and the sectors of its unmerged bytes are
poisoned. -/
def execLeaseReclaim (line core : Nat) (s : State) : Out :=
  match s.leaseOf line core with
  | some l =>
      if s.leaseLost l && decide (l.ends + guardBand ≤ s.gtime) then .next (((s.dropLease line core).poisonBytes line l.dirty).serveLine .hub line)
      else .next s
  | none => .next s

/-- The holders of leases on a die have drifted: they discard every privatised copy, for good (R334). -/
def State.loseLeases (s : State) (d : Nat) : State :=
  let lose (l : Lease) : Lease := if (s.team l.core).cluster / 2 = d then { l with lost := true } else l
  { s with dir := s.dir.map fun e => (e.1, { e.2 with leases := e.2.leases.map lose }) }

/-! ### Global time (R335) -/

/-- A die that a message finds drifted loses its leases. -/
def State.timed (s : State) (d : Nat) (x : Die) : State := if x.drifted then (s.setDie d x).loseLeases d else s.setDie d x

/-- A die whose time answer has not returned for 4 µs, or whose offset exceeds the guard band, has drifted until it has
resynchronised; one off by more than 250 ns is resynchronised at its next message. Its %gtime never runs backward. -/
def execTimingMessage (die : Nat) (offset : Option Int) (s : State) : Out :=
  let x := s.die die
  if x.gated || x.dead then .next s
  else
    match offset with
    | none => if x.lastTiming + guardBand ≤ s.gtime then .next (s.timed die { x with drifted := true }) else .next s
    | some o =>
      if s.gtime < x.lastTiming + 1000 then .next s
      else
        let y := { x with held := x.reading s.gtime, lastTiming := s.gtime }
        if x.resync then .next (s.setDie die { y with offset := 0, resync := false, drifted := false })
        else
          .next (s.timed die { y with
            offset := o
            resync := decide (250 < o.natAbs)
            drifted := decide (guardBand < o.natAbs) || (x.drifted && decide (250 < o.natAbs)) })

/-! ### Incarnations (R336) -/

/-- Poisons the line of an entry that names an agent as the holder of X. -/
def State.purgePoison (s : State) (a : CacheAgent) : State :=
  (s.dir.filter fun e => decide (e.2.state = .x a)).foldl (fun s e => s.poisonLine (e.1 % 2 ^ 48)) s

/-- An agent's own request is in progress at an entry. -/
def DirEntry.asks (e : DirEntry) (a : CacheAgent) : Bool := match e.queue with | r :: _ => decide (r.agent = a) | [] => false

/-- The state of an entry without an agent: where its request was in progress, after the answers that have been made to it. -/
def DirEntry.purgedState (e : DirEntry) (a : CacheAgent) : DirState :=
  if e.asks a then (e.answers.foldl (fun st x => answeredState st e.owning x.1 x.2) e.state).without a
  else if (e.snoops.contains a || e.answers.any fun x => x.1 = a) && !e.owning then
    match e.state with
    | .x h => if h = a then .s [] else .x h
    | t => t.without a
  else e.state.without a

/-- An entry without an agent's old incarnation: its copies, requests, snoops and answers; what its request in progress had snooped
is snooped no more. -/
def DirEntry.purge (e : DirEntry) (a : CacheAgent) : DirEntry :=
  { e with
    state := e.purgedState a
    queue := e.queue.filter fun r => decide (r.agent ≠ a)
    snoops := if e.asks a then [] else e.snoops.filter fun b => decide (b ≠ a)
    answers := if e.asks a then [] else e.answers.filter fun x => decide (x.1 ≠ a)
    crossed := e.crossed.filter fun b => decide (b ≠ a) }

/-- An agent's own caches are empty after its reset. -/
def State.emptyAgent (s : State) (a : CacheAgent) : State :=
  match a with
  | .l2 c =>
      { s.setCluster c { s.cluster c with ways := [], pins := [] } with
        l2 := s.l2.filter fun e => decide (e.1 / 2 ^ 48 ≠ c)
        words := s.words.filter fun e => decide (e.1 / 32 / 2 ^ 48 ≠ c) }
  | .dieDir d => { s with dir := s.dir.filter fun e => decide (e.1 / 2 ^ 48 ≠ 1 + d) }

/-- The directories drop every entry and message of an agent. -/
def State.purgeAgent (s : State) (a : CacheAgent) : State :=
  let s1 := (s.purgePoison a).emptyAgent a
  let homeOf (k : Nat) : HomeDir := if k / 2 ^ 48 = 0 then .hub else .die (k / 2 ^ 48 - 1)
  let purged : Map DirEntry := s1.dir.filterMap fun (e : Nat × DirEntry) =>
    let x := e.2.purge a
    if x = DirEntry.absent then none else some (e.1, x)
  purged.foldl (fun (s : State) (e : Nat × DirEntry) => s.serveLine (homeOf e.1) (e.1 % 2 ^ 48)) { s1 with dir := purged }

/-- The agents of a die. -/
def agentsOf (d : Nat) : List CacheAgent := [.l2 (2 * d), .l2 (2 * d + 1), .dieDir d]

/-- The agent rejoins with the next incarnation, of 8 bits, once the purge is complete; a dead die whose agents have all rejoined
takes teams again (R371). -/
def execAgentRejoin (a : CacheAgent) (s : State) : Out :=
  let s1 := s.purgeAgent a
  let u := agentUnit a
  let s2 := { s1 with incarnations := Map.set 0 s1.incarnations u (Map.get 0 s1.incarnations u + 1) }
  let d := agentDie a
  let x := s2.die d
  if !x.dead then .next s2
  else
    let back := addAgent x.rejoined a
    let all := (agentsOf d).all fun b => back.contains b
    .next (s2.setDie d { x with dead := !all, rejoined := if all then [] else back })

/-! ### Lines that leave a cache with an uncorrectable error (R345) -/

/-- The context maps a virtual address to a line. -/
def State.mapsTo (s : State) (tag va line : Nat) : Bool :=
  (lookup? s.ctxs tag).isSome &&
    match walkLeaf s.mem tag (s.ctx tag) va with | .ok f => decide (f.location = 0) && decide (s.physKey tag f va / 128 = line) | .error _ => false

/-- The die of the cache that an error is found in: the cluster's, or the line's memory die, which counts as 8 and up. -/
def State.errorDie (s : State) (x : EvictedLine) : Nat := match x.cluster with | some c => c / 2 | none => s.homeLink x.line

/-- The line is in the cache, and dirty there or clean; none: it is not there. -/
def State.cachedDirty (s : State) (x : EvictedLine) : Option Bool :=
  match x.cluster with
  | some c => if s.holds (.l2 c) x.line = .i then none else some (decide (s.holds (.l2 c) x.line = .m) || s.wordsDirty c x.line)
  | none => lookup? s.msc x.line

/-- A dirty line with an error leaves its cache: its sectors are poisoned at the home, and an eviction-error record of the page of its line
goes to the context whose tag it carries (log 41); the rail of the die is nominal again (R367). -/
def State.evictBad (s : State) (x : EvictedLine) (tag : Nat) : State :=
  let s1 := match x.cluster with | some c => s.evictL2 c x.line | none => { s with msc := Map.erase s.msc x.line }
  ((s1.poisonLine x.line).nominalRail (s.errorDie x)).deliver ⟨x.va / 2 ^ 18 * 2 ^ 18, 1, tag, trapUNCORR, 8, 0, 0⟩

/-- A clean line with an error is dropped and fetched again; only the die's count tells. -/
def State.refetch (s : State) (x : EvictedLine) : State :=
  let d := s.die (s.errorDie x)
  let s1 := s.setDie (s.errorDie x) { d with errors := d.errors + 1 }
  match x.cluster with
  | some c =>
      ((s1.evictL2 c x.line).takeWay c x.line).request (if s.dieScopeOf c x.line = some true then .die (c / 2) else .hub) x.line ⟨.l2 c, false, false⟩
  | none => s1

def execEvictionUncorr (x : EvictedLine) (tag : Nat) (s : State) : Out :=
  match s.cachedDirty x with
  | none => .next s
  | some false => .next (s.refetch x)
  | some true => if s.mapsTo tag x.va x.line then .next (s.evictBad x tag) else .next s

end Sys2Proof.Machine
end

