-- ==== Sys2Proof/Machine/Power.lean ====
section
/-!
DEFINITION. Power, gating, wake, and dead dies (R353, R354, R364 to R371), and the failure of a memory island (R384).
-/

namespace Sys2Proof.Machine

/-! ### Memory dies (R353, R354, R369) -/

/-- Every 64 µs the older filter is cleared and becomes the current one. -/
def execBloomFilterSwap (slice : Nat) (s : State) : Out :=
  let b := Map.get Bloom.reset s.blooms slice
  if slice < 16 ∧ b.swapped + 64000 ≤ s.gtime then .next { s with blooms := Map.put s.blooms slice ⟨0, b.current, s.gtime⟩ }
  else .next s

/-- Commands that a refresh allowance holds at most. -/
def refreshLimit : Nat := 8

/-- In a compute-bound interval commands go out ahead of schedule until the allowance is full, and the scheduled refresh
spends one; outside, it is issued. -/
def execRefresh (channel : Nat) (computeBound : Bool) (s : State) : Out :=
  if computeBound then .next { s with pkg := { s.pkg with refresh := Map.put s.pkg.refresh channel (refreshLimit - 1) } }
  else .next s

def State.memDie (s : State) (d : Nat) : MemDie := Map.get MemDie.reset s.memDies d

/-- The cache arrays are gated once their dirty lines are written back, and hold nothing then; the island keeps serving (R369). -/
def execMemoryDieGate (mdie : Nat) (s : State) : Out :=
  if 4 ≤ mdie ∨ (s.memDie mdie).failed = true then .next s
  else .next { s with
    memDies := Map.put s.memDies mdie { s.memDie mdie with gated := true }
    msc := s.msc.filter fun e => decide (s.sliceOf e.1 / 4 ≠ mdie) }

/-! ### The rail (R195, R367) -/

/-- A team stands on a tile of a cluster: it runs, or the relocation table names it. -/
def State.onTile (s : State) (t : Nat) (x : Team) : Bool :=
  decide (x.residency = .resident) || (s.cluster x.cluster).reloc.any fun e => decide (e.2.team = t)

/-- A weave of the die is in compute mode, or switching to or from it. -/
def State.dieComputes (s : State) (d : Nat) : Bool :=
  s.teams.any fun e =>
    decide (e.2.cluster / 2 = d) && s.onTile e.1 e.2 && (List.range 4).any fun w => decide ((e.2.weave w).mode ≠ .storage)

/-- The set point of a reading: 2 to the minus 40 to 2 to the minus 30; any other leaves the one that stands. -/
def Die.aim (x : Die) (r : RailReading) : Nat := if 30 ≤ r.setPoint ∧ r.setPoint ≤ 40 then r.setPoint else x.setPoint

/-- The corrected-error rate, per bit read, lies above the set point, or below. -/
def Die.rateAbove (x : Die) (r : RailReading) : Bool := decide (r.bits < x.corrected * 2 ^ x.aim r)
def Die.rateBelow (x : Die) (r : RailReading) : Bool := decide (x.corrected * 2 ^ x.aim r < r.bits)

/-- One 5 mV step by the corrected-error rate against the set point, never below the compute floor while a weave of the die
computes, and none while the rail stands at its nominal value after an uncorrectable error. -/
def execRailControl (die : Nat) (r : RailReading) (s : State) : Out :=
  let x := s.die die
  if s.gtime < x.railAt + 100000 then .next s
  else
    let y := { x with railAt := s.gtime, corrected := 0, setPoint := x.aim r }
    let v := if s.gtime < x.nominalUntil then x.rail else if x.rateAbove r then x.rail + 1 else if x.rateBelow r then x.rail - 1 else x.rail
    .next (s.setDie die { y with rail := if s.dieComputes die then max 0 v else v })

/-! ### Slice controls (R270, R365, R288) -/

def State.mapSlice (s : State) (c k : Nat) (f : Slice → Slice) : State :=
  let x := s.cluster c
  s.setCluster c { x with slices := Map.put x.slices k (f (Map.get Slice.reset x.slices k)) }

/-- One step from a value towards a target. -/
def stepTo (v target : Nat) : Nat := if v < target then v + 1 else if target < v then v - 1 else v

def SliceControl.lo : SliceControl → Nat
  | .ratio => 4
  | _ => 0

def SliceControl.hi : SliceControl → Nat
  | .ratio => 8
  | .grant => 4
  | .matrix => 7

def Slice.control (x : Slice) : SliceControl → Control
  | .ratio => x.ratio
  | .grant => x.grant
  | .matrix => x.matrix

/-- A control moves to a value, from the boundary at which it may change. -/
def Slice.setControl (x : Slice) (c : SliceControl) (v clk gtime : Nat) : Slice :=
  match c with
  | .ratio => x.setRatio v clk gtime
  | .grant => x.setGrant v clk gtime
  | .matrix => x.setStep v clk gtime

/-- The governor aims a control at a target. -/
def Slice.aim (x : Slice) (c : SliceControl) (v : Nat) : Slice :=
  match c with
  | .ratio => { x with ratio := { x.ratio with target := v } }
  | .grant => { x with grant := { x.grant with target := v } }
  | .matrix => { x with matrix := { x.matrix with target := v } }

/-- The order in which the governor lowers a slice: the matrix step to its end, then the grant step, then the ratio; it raises them in
the reverse order (R364). Log 31. -/
def Slice.admits (x : Slice) (c : SliceControl) (v : Nat) : Bool :=
  match c with
  | .matrix => decide (x.matrix.target ≤ v) || (decide (x.grant.target = 0) && decide (x.ratio.target = 8))
  | .grant => if x.grant.target < v then decide (x.matrix.target = 7) else decide (v = x.grant.target) || decide (x.ratio.target = 8)
  | .ratio => decide (x.ratio.target ≤ v) || (decide (x.matrix.target = 7) && decide (x.grant.target = 4))

/-- A control that has kept its value for 1 µs moves one step towards the governor's target. -/
def execControlRampStep (cluster slice : Nat) (c : SliceControl) (target : Nat) (s : State) : Out :=
  let x := Map.get Slice.reset (s.cluster cluster).slices slice
  let v := x.control c
  if 6 ≤ slice ∨ target < SliceControl.lo c ∨ SliceControl.hi c < target ∨ x.admits c target = false then .next s
  else
    let aimed := s.mapSlice cluster slice fun x => x.aim c target
    if s.gtime < v.changed + 1000 ∨ v.val = target then .next aimed
    else .next (aimed.mapSlice cluster slice fun x => x.setControl c (stepTo v.val target) (Map.get 0 s.clk cluster) s.gtime)

/-- The whole slice goes to its lowest setting, whatever R270 says of dwell. -/
def execThermalEmergency (cluster slice : Nat) (s : State) : Out :=
  if 6 ≤ slice then .next s
  else .next (s.mapSlice cluster slice fun x => x.lowest (Map.get 0 s.clk cluster) s.gtime)

/-! ### Energy and caps (R364 to R366) -/

/-- Every 1 µs %energy of a grid grows by what was measured. -/
def execEnergyUpdate (grid : Nat) (s : State) : Out :=
  let g := s.grid grid
  if g.dispatched = false ∨ g.completed = true ∨ s.gtime < g.energyAt + 1000 then .next s
  else .next (s.setGrid grid { g with energy := g.energy + Config.energyIncrement s.freeCtr, energyAt := s.gtime })

/-- 900 to 1,800 W, and 10 to 200 A/µs. -/
def execPowerCapSet (cap ramp : Nat) (s : State) : Out :=
  .next { s with pkg := { s.pkg with
    cap := if 900 ≤ cap ∧ cap ≤ 1800 then cap else s.pkg.cap
    ramp := if 10 ≤ ramp ∧ ramp ≤ 200 then ramp else s.pkg.ramp } }

/-! ### Gating a compute die (R368) -/

/-- A team on the die is resident, or being saved or restored. -/
def State.dieInUse (s : State) (d : Nat) : Bool := [2 * d, 2 * d + 1].any fun c => !(s.cluster c).reloc.isEmpty

/-- The dirty lines of an agent are written back to their homes. -/
def State.flushAgent (s : State) (a : CacheAgent) : State :=
  match a with
  | .l2 c => (s.l2.filter fun (e : Nat × L2State) => e.1 / 2 ^ 48 = c ∧ e.2 = .m).foldl (fun (s : State) e => s.mscPut (e.1 % 2 ^ 48) true) s
  | .dieDir _ => s

/-- The directories name an agent nowhere, once it has written back and sent its notices. -/
def State.leaveDirs (s : State) (a : CacheAgent) : State :=
  let s1 := (s.flushAgent a).emptyAgent a
  { s1 with dir := s1.dir.filterMap fun (e : Nat × DirEntry) =>
      let x := e.2.purge a
      if x = DirEntry.absent then none else some (e.1, x) }

def execDieGate (die : Nat) (s : State) : Out :=
  let x := s.die die
  if 8 ≤ die ∨ x.gated = true ∨ x.dead = true ∨ s.dieInUse die = true then .next s
  else .next (((agentsOf die).foldl (fun s a => s.leaveDirs a) s).setDie die { x with gated := true, waking := false })

def execDieWakeComplete (die : Nat) (s : State) : Out :=
  let x := s.die die
  if x.gated && x.waking then .next (s.setDie die { x with gated := false, waking := false }) else .next s

/-! ### Links and dead dies (R370, R371) -/

/-- A link idle for 10 µs. -/
def execLinkIdle (link : Nat) (s : State) : Out :=
  let x := s.link link
  if link < 12 ∧ x.low = false ∧ x.lastUse + 10000 ≤ s.gtime then .next (s.setLink link { x with low := true, waking := none }) else .next s

/-- A wake that has taken 4 µs is logged and retried. -/
def execLinkwake (link : Nat) (s : State) : Out :=
  let x := s.link link
  match x.waking with
  | some t =>
      if t + 4000 ≤ s.gtime then .next ((s.logBox boxLINKWAKE link []).setLink link { x with waking := some s.gtime }) else .next s
  | none => .next s

def execLinkWakeComplete (link : Nat) (s : State) : Out :=
  let x := s.link link
  if x.low && x.waking.isSome then .next (s.setLink link { x with low := false, waking := none, lastUse := s.gtime }) else .next s

/-- Every grid with a team in the die's clusters ends. -/
def State.endDieGrids (s : State) (d : Nat) : State :=
  (s.teamsIn (2 * d) ++ s.teamsIn (2 * d + 1)).foldl (fun s t => s.endGrid (s.team t).grid (statusOf 0xFFFFFB00 d)) s

/-! ### A memory island (R384) -/

/-- Every grid of a context that maps the stacks of a memory die ends, and no new context is created until reset. -/
def State.failIsland (s : State) (mdie : Nat) : State :=
  let hit := s.ctxs.filter fun e => e.2.onMemDie mdie && mapsDevice s.mem e.1 e.2
  let s1 := { s with memDies := Map.put s.memDies mdie { s.memDie mdie with failed := true } }
  (hit.flatMap fun e => s.openGrids e.1).foldl (fun s n => s.endGrid n (statusOf 0xFFFFFB00 (8 + mdie))) s1

def execMemoryIslandFailure (mdie : Nat) (s : State) : Out := if 4 ≤ mdie then .next s else .next (s.failIsland mdie)

/-- A die that has answered nothing for 100 µs since the first attempt is dead; a gated compute die never is. A memory die, 8 and up, takes
its island with it. Log 30. -/
def execDiedead (die : Nat) (s : State) : Out :=
  let x := s.die die
  let l := s.link die
  if 12 ≤ die ∨ (x.gated = true ∧ die < 8) ∨ x.dead = true ∨ l.waking.isNone = true ∨ s.gtime < l.first + 100000 then .next s
  else
    let s0 := s.logBox boxDIEDEAD die []
    let gone : State :=
      if 8 ≤ die then (s0.failIsland (die - 8)).setDie die { x with dead := true }
      else
        let s1 := s0.endDieGrids die
        (agentsOf die).foldl (fun s a => s.purgeAgent a) ((s1.setDie die { s1.die die with dead := true, rejoined := [] }).loseLeases die)
    .next (gone.setLink die { l with waking := none })
end Sys2Proof.Machine
end

