-- ==== Sys2Proof/Machine/Dispatch.lean ====
section
/-!
DEFINITION. One arm per constructor of Instr: a direct call of its meaning.
-/

namespace Sys2Proof.Machine

def exec (i : Instr) (s : State) : Host.Outcome State Fault Refusal :=
  match i with
  | .add d a b => Sys2Proof.Machine.execAdd d a b s
  | .addK d a lit => Sys2Proof.Machine.execAddK d a lit s
  | .sub d a b => Sys2Proof.Machine.execSub d a b s
  | .subK d a lit => Sys2Proof.Machine.execSubK d a lit s
  | .mul d a b => Sys2Proof.Machine.execMul d a b s
  | .mulK d a lit => Sys2Proof.Machine.execMulK d a lit s
  | .mulhiI d a b => Sys2Proof.Machine.execMulhiI d a b s
  | .mulhiIK d a lit => Sys2Proof.Machine.execMulhiIK d a lit s
  | .mulhiN d a b => Sys2Proof.Machine.execMulhiN d a b s
  | .mulhiNK d a lit => Sys2Proof.Machine.execMulhiNK d a lit s
  | .minI d a b => Sys2Proof.Machine.execMinI d a b s
  | .minIK d a lit => Sys2Proof.Machine.execMinIK d a lit s
  | .maxI d a b => Sys2Proof.Machine.execMaxI d a b s
  | .maxIK d a lit => Sys2Proof.Machine.execMaxIK d a lit s
  | .minN d a b => Sys2Proof.Machine.execMinN d a b s
  | .minNK d a lit => Sys2Proof.Machine.execMinNK d a lit s
  | .maxN d a b => Sys2Proof.Machine.execMaxN d a b s
  | .maxNK d a lit => Sys2Proof.Machine.execMaxNK d a lit s
  | .and d a b => Sys2Proof.Machine.execAnd d a b s
  | .andK d a lit => Sys2Proof.Machine.execAndK d a lit s
  | .or d a b => Sys2Proof.Machine.execOr d a b s
  | .orK d a lit => Sys2Proof.Machine.execOrK d a lit s
  | .xor d a b => Sys2Proof.Machine.execXor d a b s
  | .xorK d a lit => Sys2Proof.Machine.execXorK d a lit s
  | .andn d a b => Sys2Proof.Machine.execAndn d a b s
  | .andnK d a lit => Sys2Proof.Machine.execAndnK d a lit s
  | .shl d a b => Sys2Proof.Machine.execShl d a b s
  | .shlK d a lit => Sys2Proof.Machine.execShlK d a lit s
  | .shr d a b => Sys2Proof.Machine.execShr d a b s
  | .shrK d a lit => Sys2Proof.Machine.execShrK d a lit s
  | .sra d a b => Sys2Proof.Machine.execSra d a b s
  | .sraK d a lit => Sys2Proof.Machine.execSraK d a lit s
  | .mov d b => Sys2Proof.Machine.execMov d b s
  | .movK d lit => Sys2Proof.Machine.execMovK d lit s
  | .mad d a b c p => Sys2Proof.Machine.execMad d a b c p s
  | .bitop op d p => Sys2Proof.Machine.execBitop op d p s
  | .idiv op d a b p => Sys2Proof.Machine.execIdiv op d a b p s
  | .addr op d p => Sys2Proof.Machine.execAddr op d p s
  | .cmp c d p => Sys2Proof.Machine.execCmp c d p s
  | .sel d a b c p => Sys2Proof.Machine.execSel d a b c p s
  | .fadd rm d a b p => Sys2Proof.Machine.execFadd rm d a b p s
  | .fsub rm d a b p => Sys2Proof.Machine.execFsub rm d a b p s
  | .fmul rm d a b p => Sys2Proof.Machine.execFmul rm d a b p s
  | .ffma rm d a b c p => Sys2Proof.Machine.execFfma rm d a b c p s
  | .fmin d a b p => Sys2Proof.Machine.execFmin d a b p s
  | .fmax d a b p => Sys2Proof.Machine.execFmax d a b p s
  | .fcmp c d p => Sys2Proof.Machine.execFcmp c d p s
  | .mufu op d a p => Sys2Proof.Machine.execMufu op d a p s
  | .hf2 op ty d p => Sys2Proof.Machine.execHf2 op ty d p s
  | .cvt op rm inf d a p => Sys2Proof.Machine.execCvt op rm inf d a p s
  | .dot4 op sat d a b c p => Sys2Proof.Machine.execDot4 op sat d a b c p s
  | .ld m d a b => Sys2Proof.Machine.execLd m d a b s
  | .st m d a b => Sys2Proof.Machine.execSt m d a b s
  | .ldl m d a b => Sys2Proof.Machine.execLdl m d a b s
  | .stl m d a b => Sys2Proof.Machine.execStl m d a b s
  | .atom x d a b c => Sys2Proof.Machine.execAtom x d a b c s
  | .red x d a => Sys2Proof.Machine.execRed x d a s
  | .mpush slot quarter d a c p => Sys2Proof.Machine.execMpush slot quarter d a c p s
  | .mpull d a off row cb p => Sys2Proof.Machine.execMpull d a off row cb p s
  | .qpush q d p => Sys2Proof.Machine.execQpush q d p s
  | .qpop q d p => Sys2Proof.Machine.execQpop q d p s
  | .txbInit a b p => Sys2Proof.Machine.execTxbInit a b p s
  | .txbArrive a p => Sys2Proof.Machine.execTxbArrive a p s
  | .txbExpect a b p => Sys2Proof.Machine.execTxbExpect a b p s
  | .txbArrivex a b p => Sys2Proof.Machine.execTxbArrivex a b p s
  | .txbWait a b p => Sys2Proof.Machine.execTxbWait a b p s
  | .txbTest d a b p => Sys2Proof.Machine.execTxbTest d a b p s
  | .barArrive b p => Sys2Proof.Machine.execBarArrive b p s
  | .barWait b p => Sys2Proof.Machine.execBarWait b p s
  | .barSync b p => Sys2Proof.Machine.execBarSync b p s
  | .barDrop b p => Sys2Proof.Machine.execBarDrop b p s
  | .barCount d b p => Sys2Proof.Machine.execBarCount d b p s
  | .fenceAcq sc p => Sys2Proof.Machine.execFenceAcq sc p s
  | .fenceRel sc p => Sys2Proof.Machine.execFenceRel sc p s
  | .fenceSc sc p => Sys2Proof.Machine.execFenceSc sc p s
  | .fenceLight sc p => Sys2Proof.Machine.execFenceLight sc p s
  | .fenceHeavy sc p => Sys2Proof.Machine.execFenceHeavy sc p s
  | .bra disp p => Sys2Proof.Machine.execBra disp p s
  | .call disp p => Sys2Proof.Machine.execCall disp p s
  | .brx a p => Sys2Proof.Machine.execBrx a p s
  | .ret a p => Sys2Proof.Machine.execRet a p s
  | .exit p => Sys2Proof.Machine.execExit p s
  | .shfl op d a b c p => Sys2Proof.Machine.execShfl op d a b c p s
  | .vote op a c p => Sys2Proof.Machine.execVote op a c p s
  | .sreg d n => Sys2Proof.Machine.execSreg d n s
  | .brk code p => Sys2Proof.Machine.execBrk code p s
  | .waitv cond sc acq d a b c p => Sys2Proof.Machine.execWaitv cond sc acq d a b c p s
  | .nop x => Sys2Proof.Machine.execNop x s
  | .nopTwoWord x w => Sys2Proof.Machine.execNopTwoWord x w s
  | .hint x => Sys2Proof.Machine.execHint x s
  | .hintTwoWord x w => Sys2Proof.Machine.execHintTwoWord x w s
  | .unop x => Sys2Proof.Machine.execUnop x s
  | .unopTwoWord x w => Sys2Proof.Machine.execUnopTwoWord x w s
  | .uhint x => Sys2Proof.Machine.execUhint x s
  | .uhintTwoWord x w => Sys2Proof.Machine.execUhintTwoWord x w s
  | .uadd d a b imm => Sys2Proof.Machine.execUadd d a b imm s
  | .uaddK d a lit => Sys2Proof.Machine.execUaddK d a lit s
  | .usub d a b imm => Sys2Proof.Machine.execUsub d a b imm s
  | .usubK d a lit => Sys2Proof.Machine.execUsubK d a lit s
  | .umul d a b imm => Sys2Proof.Machine.execUmul d a b imm s
  | .umulK d a lit => Sys2Proof.Machine.execUmulK d a lit s
  | .uand d a b imm => Sys2Proof.Machine.execUand d a b imm s
  | .uandK d a lit => Sys2Proof.Machine.execUandK d a lit s
  | .uor d a b imm => Sys2Proof.Machine.execUor d a b imm s
  | .uorK d a lit => Sys2Proof.Machine.execUorK d a lit s
  | .uxor d a b imm => Sys2Proof.Machine.execUxor d a b imm s
  | .uxorK d a lit => Sys2Proof.Machine.execUxorK d a lit s
  | .ushl d a b imm => Sys2Proof.Machine.execUshl d a b imm s
  | .ushlK d a lit => Sys2Proof.Machine.execUshlK d a lit s
  | .ushr d a b imm => Sys2Proof.Machine.execUshr d a b imm s
  | .ushrK d a lit => Sys2Proof.Machine.execUshrK d a lit s
  | .usra d a b imm => Sys2Proof.Machine.execUsra d a b imm s
  | .usraK d a lit => Sys2Proof.Machine.execUsraK d a lit s
  | .umov d b imm => Sys2Proof.Machine.execUmov d b imm s
  | .umovK d lit => Sys2Proof.Machine.execUmovK d lit s
  | .ubra c a disp => Sys2Proof.Machine.execUbra c a disp s
  | .ucall c d a disp => Sys2Proof.Machine.execUcall c d a disp s
  | .uret a => Sys2Proof.Machine.execUret a s
  | .uld m d a => Sys2Proof.Machine.execUld m d a s
  | .ust m d a => Sys2Proof.Machine.execUst m d a s
  | .urd d a v imm => Sys2Proof.Machine.execUrd d a v imm s
  | .usreg d n => Sys2Proof.Machine.execUsreg d n s
  | .fork mdisp cdisp => Sys2Proof.Machine.execFork mdisp cdisp s
  | .rdv => Sys2Proof.Machine.execRdv s
  | .regq d rd n => Sys2Proof.Machine.execRegq d rd n s
  | .rotreq => Sys2Proof.Machine.execRotreq s
  | .yield => Sys2Proof.Machine.execYield s
  | .ubarInit b count => Sys2Proof.Machine.execUbarInit b count s
  | .ubarArrive b => Sys2Proof.Machine.execUbarArrive b s
  | .ubarWait b => Sys2Proof.Machine.execUbarWait b s
  | .ubarSync b => Sys2Proof.Machine.execUbarSync b s
  | .ubarDrop b => Sys2Proof.Machine.execUbarDrop b s
  | .utxbInit a b off => Sys2Proof.Machine.execUtxbInit a b off s
  | .utxbArrive a off => Sys2Proof.Machine.execUtxbArrive a off s
  | .utxbExpect a b off => Sys2Proof.Machine.execUtxbExpect a b off s
  | .utxbWait a b off => Sys2Proof.Machine.execUtxbWait a b off s
  | .wmodeComp w n bin1 keep => Sys2Proof.Machine.execWmodeComp w n bin1 keep s
  | .wmodeStore w => Sys2Proof.Machine.execWmodeStore w s
  | .wmodeSwitchPoint p => Sys2Proof.Machine.execWmodeSwitchPoint p s
  | .weaveSwitchEnd team w => Sys2Proof.Machine.execWeaveSwitchEnd team w s
  | .tdesc h a off => Sys2Proof.Machine.execTdesc h a off s
  | .accalloc d n => Sys2Proof.Machine.execAccalloc d n s
  | .accfree a off n => Sys2Proof.Machine.execAccfree a off n s
  | .launch d a q off => Sys2Proof.Machine.execLaunch d a q off s
  | .ufenceAcq sc => Sys2Proof.Machine.execUfenceAcq sc s
  | .ufenceRel sc => Sys2Proof.Machine.execUfenceRel sc s
  | .ufenceSc sc => Sys2Proof.Machine.execUfenceSc sc s
  | .ufenceLight sc => Sys2Proof.Machine.execUfenceLight sc s
  | .ufenceHeavy sc => Sys2Proof.Machine.execUfenceHeavy sc s
  | .ufenceWait d a => Sys2Proof.Machine.execUfenceWait d a s
  | .tret => Sys2Proof.Machine.execTret s
  | .tkill a => Sys2Proof.Machine.execTkill a s
  | .tsusp => Sys2Proof.Machine.execTsusp s
  | .mchainBegin => Sys2Proof.Machine.execMchainBegin s
  | .mchainBeginOrdered => Sys2Proof.Machine.execMchainBeginOrdered s
  | .mchainEnd => Sys2Proof.Machine.execMchainEnd s
  | .mwait => Sys2Proof.Machine.execMwait s
  | .marrive b => Sys2Proof.Machine.execMarrive b s
  | .mend => Sys2Proof.Machine.execMend s
  | .mma x a => Sys2Proof.Machine.execMma x a s
  | .mmaExecution team id => Sys2Proof.Machine.execMmaExecution team id s
  | .mmaCompletion team id => Sys2Proof.Machine.execMmaCompletion team id s
  | .accz a off n => Sys2Proof.Machine.execAccz a off n s
  | .accsc a off n b imm => Sys2Proof.Machine.execAccsc a off n b imm s
  | .wload h w g0 c0 => Sys2Proof.Machine.execWload h w g0 c0 s
  | .wloadCompletion team id => Sys2Proof.Machine.execWloadCompletion team id s
  | .deferredTrap team id => Sys2Proof.Machine.execDeferredTrap team id s
  | .marriveArrival team id => Sys2Proof.Machine.execMarriveArrival team id s
  | .mwaitComplete team => Sys2Proof.Machine.execMwaitComplete team s
  | .mendComplete team => Sys2Proof.Machine.execMendComplete team s
  | .bcopy x d a b => Sys2Proof.Machine.execBcopy x d a b s
  | .bcopyr x d a h => Sys2Proof.Machine.execBcopyr x d a h s
  | .bcopymc x d a b len => Sys2Proof.Machine.execBcopymc x d a b len s
  | .gather x d a b trap => Sys2Proof.Machine.execGather x d a b trap s
  | .scatter x d a b trap => Sys2Proof.Machine.execScatter x d a b trap s
  | .cpref d b => Sys2Proof.Machine.execCpref d b s
  | .copySectorWrite team id sector => Sys2Proof.Machine.execCopySectorWrite team id sector s
  | .copyCompletion team id => Sys2Proof.Machine.execCopyCompletion team id s
  | .cwait => Sys2Proof.Machine.execCwait s
  | .carrive b => Sys2Proof.Machine.execCarrive b s
  | .cend => Sys2Proof.Machine.execCend s
  | .carriveArrival team id => Sys2Proof.Machine.execCarriveArrival team id s
  | .cwaitComplete team => Sys2Proof.Machine.execCwaitComplete team s
  | .cendComplete team => Sys2Proof.Machine.execCendComplete team s
  | .send x tracked d a b => Sys2Proof.Machine.execSend x tracked d a b s
  | .coll x op ty rd a => Sys2Proof.Machine.execColl x op ty rd a s
  | .undefinedOpcode w => Sys2Proof.Machine.execUndefinedOpcode w s
  | .qpushResume p => Sys2Proof.Machine.execQpushResume p s
  | .qpopResume p => Sys2Proof.Machine.execQpopResume p s
  | .mpushResume p => Sys2Proof.Machine.execMpushResume p s
  | .accallocResume p => Sys2Proof.Machine.execAccallocResume p s
  | .accfreeResume p => Sys2Proof.Machine.execAccfreeResume p s
  | .barWaitComplete p => Sys2Proof.Machine.execBarWaitComplete p s
  | .txbWaitComplete p => Sys2Proof.Machine.execTxbWaitComplete p s
  | .rdvComplete p => Sys2Proof.Machine.execRdvComplete p s
  | .ufenceWaitComplete p => Sys2Proof.Machine.execUfenceWaitComplete p s
  | .waitvSatisfied p lane => Sys2Proof.Machine.execWaitvSatisfied p lane s
  | .waitvTimeout p lane => Sys2Proof.Machine.execWaitvTimeout p lane s
  | .convto p => Sys2Proof.Machine.execConvto p s
  | .watchdog team => Sys2Proof.Machine.execWatchdog team s
  | .loadValueArrival p => Sys2Proof.Machine.execLoadValueArrival p s
  | .flexUnitGrant p => Sys2Proof.Machine.execFlexUnitGrant p s
  | .stageLevelUpdate team => Sys2Proof.Machine.execStageLevelUpdate team s
  | .faultBatchClose device => Sys2Proof.Machine.execFaultBatchClose device s
  | .contextSave team area => Sys2Proof.Machine.execContextSave team area s
  | .restore team tile => Sys2Proof.Machine.execRestore team tile s
  | .rotationConsideration cluster pairs => Sys2Proof.Machine.execRotationConsideration cluster pairs s
  | .dispatchExamination cluster => Sys2Proof.Machine.execDispatchExamination cluster s
  | .teamPlacement grid places => Sys2Proof.Machine.execTeamPlacement grid places s
  | .launchRecordTake q => Sys2Proof.Machine.execLaunchRecordTake q s
  | .gridDispatch device => Sys2Proof.Machine.execGridDispatch device s
  | .gridCompletion grid => Sys2Proof.Machine.execGridCompletion grid s
  | .queueTailWrite blk tail => Sys2Proof.Machine.execQueueTailWrite blk tail s
  | .registerWrite blk reg val => Sys2Proof.Machine.execRegisterWrite blk reg val s
  | .createContext desc => Sys2Proof.Machine.execCreateContext desc s
  | .destroyContext tag => Sys2Proof.Machine.execDestroyContext tag s
  | .assignQueue tag q => Sys2Proof.Machine.execAssignQueue tag q s
  | .invalidateTranslations tag start pages => Sys2Proof.Machine.execInvalidateTranslations tag start pages s
  | .resolveRange batch start pages ok => Sys2Proof.Machine.execResolveRange batch start pages ok s
  | .retireUnit u => Sys2Proof.Machine.execRetireUnit u s
  | .setPeerWindow tag window package turn base => Sys2Proof.Machine.execSetPeerWindow tag window package turn base s
  | .registerCommunicator tag number members => Sys2Proof.Machine.execRegisterCommunicator tag number members s
  | .resumeGroup tag cluster slot party => Sys2Proof.Machine.execResumeGroup tag cluster slot party s
  | .endGrid tag cluster slot status => Sys2Proof.Machine.execEndGrid tag cluster slot status s
  | .adminUndefined => Sys2Proof.Machine.execAdminUndefined s
  | .readShared home line a => Sys2Proof.Machine.execReadShared home line a s
  | .readOwn home line a write => Sys2Proof.Machine.execReadOwn home line a write s
  | .dirtyWriteBack home line a => Sys2Proof.Machine.execDirtyWriteBack home line a s
  | .cleanEvictionNotice home line a => Sys2Proof.Machine.execCleanEvictionNotice home line a s
  | .snoop home line a => Sys2Proof.Machine.execSnoop home line a s
  | .snoopAnswer home line a => Sys2Proof.Machine.execSnoopAnswer home line a s
  | .leaseEnd line core => Sys2Proof.Machine.execLeaseEnd line core s
  | .leaseReclaim line core => Sys2Proof.Machine.execLeaseReclaim line core s
  | .timingMessage die offset => Sys2Proof.Machine.execTimingMessage die offset s
  | .agentRejoin a => Sys2Proof.Machine.execAgentRejoin a s
  | .pageWalk cluster => Sys2Proof.Machine.execPageWalk cluster s
  | .bloomFilterSwap slice => Sys2Proof.Machine.execBloomFilterSwap slice s
  | .refresh channel computeBound => Sys2Proof.Machine.execRefresh channel computeBound s
  | .railControl die above => Sys2Proof.Machine.execRailControl die above s
  | .controlRampStep cluster slice c target => Sys2Proof.Machine.execControlRampStep cluster slice c target s
  | .thermalEmergency cluster slice => Sys2Proof.Machine.execThermalEmergency cluster slice s
  | .energyUpdate grid => Sys2Proof.Machine.execEnergyUpdate grid s
  | .dieGate die => Sys2Proof.Machine.execDieGate die s
  | .memoryDieGate mdie => Sys2Proof.Machine.execMemoryDieGate mdie s
  | .linkIdle link => Sys2Proof.Machine.execLinkIdle link s
  | .linkwake link => Sys2Proof.Machine.execLinkwake link s
  | .diedead die => Sys2Proof.Machine.execDiedead die s
  | .evictionUncorr line tag => Sys2Proof.Machine.execEvictionUncorr line tag s
  | .relocationUncorr cluster => Sys2Proof.Machine.execRelocationUncorr cluster s
  | .memoryIslandFailure mdie => Sys2Proof.Machine.execMemoryIslandFailure mdie s
  | .frameReceive f => Sys2Proof.Machine.execFrameReceive f s
  | .sendAck team id frame ok => Sys2Proof.Machine.execSendAck team id frame ok s
  | .trackedSendTimeout team id frame => Sys2Proof.Machine.execTrackedSendTimeout team id frame s
  | .collCompletion team id others => Sys2Proof.Machine.execCollCompletion team id others s
  | .collTimeout team id => Sys2Proof.Machine.execCollTimeout team id s
  | .hostApertureRead x n => Sys2Proof.Machine.execHostApertureRead x n s
  | .hostApertureWrite x bytes => Sys2Proof.Machine.execHostApertureWrite x bytes s
  | .hostAtomicop x op => Sys2Proof.Machine.execHostAtomicop x op s
  | .packageReset image valid => Sys2Proof.Machine.execPackageReset image valid s
  | .recoveryImageWrite image valid => Sys2Proof.Machine.execRecoveryImageWrite image valid s
  | .attestationRequest => Sys2Proof.Machine.execAttestationRequest s
  | .blackBoxRead n => Sys2Proof.Machine.execBlackBoxRead n s
  | .accscStart team id => Sys2Proof.Machine.execAccscStart team id s
  | .storePerformed p => Sys2Proof.Machine.execStorePerformed p s
  | .softError site => Sys2Proof.Machine.execSoftError site s
  | .powerCapSet cap ramp => Sys2Proof.Machine.execPowerCapSet cap ramp s
  | .clusterReset cluster => Sys2Proof.Machine.execClusterReset cluster s
  | .regenerationComplete image => Sys2Proof.Machine.execRegenerationComplete image s
  | .linkWakeComplete link => Sys2Proof.Machine.execLinkWakeComplete link s
  | .dieWakeComplete die => Sys2Proof.Machine.execDieWakeComplete die s
  | .sendFrameAccepted team id frame => Sys2Proof.Machine.execSendFrameAccepted team id frame s

end Sys2Proof.Machine
end

