-- ==== Sys2Proof/Machine/Issue.lean ====
section
/-!
DEFINITION. What a step does before an instruction executes: the agenda's next turn, time, issues with their buffered lanes (R59),
the quadrant arbiter (R136, R137), the operand collectors (R271), and sequencers (R139).
-/

namespace Sys2Proof.Machine

/-! ### Plans -/

/-- What a step comes to: an instruction that executes in a prepared state; a state with nothing left to execute; the issue of a party
whose context has raced (R316); or an issue of a group in which buffered lanes execute beside the broadcast instruction, if there
is one (R59): PCs with their lanes. -/
inductive Plan where
  | run (i : Instr) (s : State)
  | done (s : State)
  | raced
  | joint (t g : Nat) (bufs : List (BitVec 56 × BitVec 32)) (cast : Option (BitVec 56)) (s : State)
  deriving DecidableEq, Repr

/-- The PCs at which lanes outside the execution set run from their buffers, with those lanes (R59). -/
def State.bufferedParts (s : State) (t g : Nat) (slow : BitVec 32) (cast : Option (BitVec 56)) : List (BitVec 56 × BitVec 32) :=
  let y := (s.team t).group g
  let ls := (List.range 32).filter fun l => decide ((y.lane l).cond = .live) && decide (some (y.lane l).pc ≠ cast) && s.canBuffer t g l slow
  ((ls.map fun l => (y.lane l).pc).eraseDups).map fun pc => (pc, maskOf fun l => ls.contains l && decide ((y.lane l).pc = pc))

def quadrants : List Nat := [0, 1, 2, 3]

/-! ### Late accesses and what comes after them (R35, R147, R251, R307) -/

/-- An instruction of a group that program order does not put behind every late atomic of the group: one that reaches no memory, or an
access of no release, fence or sc order, which waits for an atomic on its own bytes by itself (R307). -/
def keepsLate (i : Instr) (w1 : Word) : Bool :=
  let weak (o : Order) : Bool := decide (o = .plain) || decide (o = .mk)
  localOp w1.toNat ||
    match i with
    | .ld m _ _ _ | .ldl m _ _ _ => decide (m.order ≠ .sc)
    | .uld m _ _ => decide (m.order ≠ .sc)
    | .st m _ _ _ | .stl m _ _ _ => weak m.order
    | .ust m _ _ => weak m.order
    | .atom x _ _ _ _ => weak x.order
    | .red x _ _ => weak x.order
    | _ => false

/-- Everything late of a party comes. -/
def State.arriveOf (s : State) (t : Nat) (p : Party) : State := s.arriveWhere fun x => x.of t p

/-- Between two states the party of a late access has entered or left its handler, or its stream has started or stopped. -/
def State.turns (s u : State) (x : LateLoad) : Bool :=
  match x.party with
  | .group g => decide (((s.team x.team).group g).handler ≠ ((u.team x.team).group g).handler)
  | q => decide (((s.team x.team).stream q).state ≠ ((u.team x.team).stream q).state)

/-- What is late comes before its party's registers are saved for a handler or copied for a stream (R147, R251): the state in which the
instruction executes. -/
def State.settled (s : State) (i : Instr) : State :=
  if s.lates.isEmpty then s
  else
    match exec i s with
    | .next u => s.arriveWhere (s.turns u)
    | _ => s

/-! ### Readiness of groups (R136, R151, R291) -/

/-- The group may not issue an instruction yet: it names an ungranted flexible unit, or asks for a rotation that has no tile. -/
def State.cannotIssue (s : State) (t g : Nat) (i : Instr) : Bool :=
  !((s.team t).unbacked g i).isEmpty ||
    (decide (i = .rotreq) && decide ((s.ctx (s.team t).ctx).rotation = rotationOnRequest) && (s.rotationTiles t).isEmpty)

/-- What a held instruction waits for is still so: executing again it would be held again (R136, R179, R285, R298, R341). -/
def State.heldStill (s : State) (p : PartyRef) (w : Wait) : Bool :=
  match exec w.instr (s.resumeAs p w) with
  | .next s1 => (s1.waitOf p).isSome
  | _ => false

/-- The issues in the operand collector of a quadrant. -/
def Team.collectorOf (x : Team) (q : Nat) : List Picked := Map.get [] x.collector q

/-- An issue of the group stands in the collector. -/
def Team.gathering (x : Team) (g : Nat) : Bool := (x.collectorOf (quadrantOf g)).any fun k => decide (k.group = g)

/-- The group is held back by nothing but its own lanes: it awaits neither an event, nor the driver, nor what holds its instruction. -/
def State.groupFree (s : State) (t g : Nat) : Bool :=
  let x := s.team t
  let y := x.group g
  decide (x.residency = .resident) && decide (g < x.nGroups) && !y.replayable && !y.suspended &&
    match y.wait with
    | some w => !waitsOn ⟨t, .group g⟩ w.instr && !s.cannotIssue t g w.instr && !s.heldStill ⟨t, .group g⟩ w
    | none => true

/-- The broadcast instruction of an issue cannot issue yet. -/
def State.castHeld (s : State) (t g : Nat) (cast : Option (BitVec 56)) : Bool :=
  match cast with
  | none => false
  | some pc => match s.groupLook t g pc with | .instr i _ _ => !(s.team t).beyondQuota g i && s.cannotIssue t g i | _ => false

/-- The broadcast PC of the group's next issue, where what stands there can issue. -/
def State.issueCast (s : State) (t g : Nat) (slow : BitVec 32) : Option (BitVec 56) :=
  let cast := s.castPc t g slow
  if s.castHeld t g cast then none else cast

/-- The group has something to issue: a broadcast instruction that can issue, or lanes that run from their buffers. -/
def State.groupHasIssue (s : State) (t g : Nat) (slow : BitVec 32) : Bool :=
  (s.issueCast t g slow).isSome || !(s.bufferedParts t g slow none).isEmpty

/-- The group could issue but for a yield. -/
def State.groupWants (s : State) (t g : Nat) (slow : BitVec 32) : Bool := s.groupFree t g && !(s.team t).gathering g && s.groupHasIssue t g slow

/-- The 64 clk of a yield are over, or there is none. -/
def State.yieldTime (s : State) (t g : Nat) : Bool :=
  match ((s.team t).group g).yielded with
  | none => true
  | some since => decide (since + 64 ≤ s.clkOf t)

/-- Another group of the quadrant is ready, whatever a yield of it that has not timed out. -/
def State.otherReady (s : State) (t g : Nat) : Bool :=
  ((s.team t).quadrant (quadrantOf g)).any fun h => decide (h ≠ g) && s.yieldTime t h && s.groupWants t h 0

/-- A yielded group is ready again after 64 clk, or when no other group of its quadrant is. -/
def State.yieldOver (s : State) (t g : Nat) : Bool := s.yieldTime t g || !s.otherReady t g

/-- A ready group. -/
def State.groupReady (s : State) (t g : Nat) (slow : BitVec 32) : Bool := s.groupWants t g slow && s.yieldOver t g

/-- The group's next issue is a uniform word. -/
def State.nextUniform (s : State) (t g : Nat) (slow : BitVec 32) : Bool :=
  match s.issueCast t g slow with
  | none => false
  | some pc =>
    match s.groupLook t g pc with
    | .instr _ w1 _ => w1.getLsbD 31
    | .trap _ w1 _ => w1.getLsbD 31
    | .wait => false

/-! ### The quadrant arbiter (R136, R137, R268, R269) -/

/-- The wait at which a group is starved. -/
def starveLimit : Nat := 60

def Group.starved (y : Group) : Bool := decide (starveLimit ≤ y.arbWait)

/-- R137: starved groups first, by their wait; then level, wait, index. -/
def Team.pickPrior (x : Team) (a b : Nat) : Bool :=
  let y := x.group a
  let z := x.group b
  let la := Map.get 1 x.levels y.role
  let lb := Map.get 1 x.levels z.role
  if y.starved ≠ z.starved then y.starved
  else if y.starved ∧ y.arbWait ≠ z.arbWait then decide (z.arbWait < y.arbWait)
  else if la ≠ lb then decide (lb < la)
  else decide (z.arbWait < y.arbWait) || (decide (z.arbWait = y.arbWait) && decide (a < b))

/-- Issue cycles at ratio m/8 among the `n` clk from clk `c` on. -/
def issueCycles (m c n : Nat) : Nat := (c + n) * m / 8 - c * m / 8

/-- The fewest clk from clk `c` on that hold `j` issue cycles. -/
def clkFor (m c j : Nat) : Nat := (8 * (c * m / 8 + j) + (m - 1)) / m - c

/-- The clock ratio of a team's slice. -/
def State.ratioOf (s : State) (t : Nat) : Nat := (s.slice (s.team t).cluster (s.team t).tile).ratio.now (s.clkOf t)

/-- The team's slice is in an issue cycle. -/
def State.inIssueCycle (s : State) (t : Nat) : Bool := isIssueCycle (s.ratioOf t) (s.clkOf t)

/-- The keys of `picks`. -/
def classKey (q : Nat) (uniform : Bool) : Nat := 2 * q + if uniform then 1 else 0
def groupKey (g : Nat) : Nat := 8 + g
def streamKey (p : Party) : Nat := if p = .matrix then 24 else 25

/-- Nothing has been picked under a key in this clk. -/
def State.unpicked (s : State) (t k : Nat) : Bool := decide (lookup? (s.team t).picks k ≠ some (s.clkOf t))

/-- Instructions that a collector holds at most. -/
def collectorPlaces : Nat := 4

/-- Lane instructions that gather their sources in a quadrant. -/
def Team.gatheringLanes (x : Team) (q : Nat) : Nat := (x.collectorOf q).countP fun k => !k.uniform

/-- The quadrant makes a pick of a class in this clk: lane picks while its collector has room (R271). -/
def State.picksNow (s : State) (t q : Nat) (uniform : Bool) : Bool :=
  s.inIssueCycle t && s.unpicked t (classKey q uniform) && (uniform || decide ((s.team t).gatheringLanes q < collectorPlaces))

/-- The group may be picked in a class. -/
def State.pickable (s : State) (t g : Nat) (uniform : Bool) (slow : BitVec 32) : Bool :=
  s.unpicked t (groupKey g) && s.groupReady t g slow && decide (s.nextUniform t g slow = uniform)

/-- The group that a quadrant picks, of those that are ready (R137, R272); `slow` is for group `g`. -/
def State.pickGroup (s : State) (t q : Nat) (uniform : Bool) (g : Nat) (slow : BitVec 32) : Option Nat :=
  let x := s.team t
  ((x.quadrant q).filter fun h => s.pickable t h uniform (if h = g then slow else 0)).foldl
    (fun b h => match b with | none => some h | some k => if x.pickPrior h k then some h else some k) none

/-! ### Issuing -/

/-- The window of a lane after a broadcast issue of `n` words at `a` (R57). Base advances by whole instructions, whose
lengths the fetched words give. -/
def State.slideBase (s : State) (t base limit : Nat) : Nat → Nat
  | 0 => base
  | fuel + 1 =>
      if limit ≤ base + 192 then base
      else
        match s.codeWord t base with
        | .ok (some w) => s.slideBase t (base + if hasSecond w.toNat then 8 else 4) limit fuel
        | _ => s.slideBase t (base + 4) limit fuel

def State.windowAfter (s : State) (t a n : Nat) (x : Lane) : Lane :=
  if x.winBase ≤ a ∧ a + 4 * n ≤ x.winEnd then x
  else if a = x.winEnd ∧ x.winBase < x.winEnd then { x with winBase := s.slideBase t x.winBase (a + 4 * n) 48, winEnd := a + 4 * n }
  else { x with winBase := a, winEnd := a + 4 * n }

/-- A group takes an issue slot: its wait for one ends, and so do the yields of the quadrant's other groups. -/
def Team.tookSlot (x : Team) (g clk : Nat) (uniform : Bool) : Team :=
  { x with
    picks := Map.put (Map.put x.picks (classKey (quadrantOf g) uniform) clk) (groupKey g) clk
    groups := x.groups.map fun e =>
      if e.1 = g then (e.1, { e.2 with arbWait := 0, yielded := none })
      else if quadrantOf e.1 = quadrantOf g then (e.1, { e.2 with yielded := none })
      else e }

/-- The issue of what stands at an address becomes current. -/
def State.fetchIssue (s : State) (t g : Nat) (lanes : BitVec 32) (pc : BitVec 56) (n : Nat) (w1 w2 : Word) : State :=
  ({ s with cur := ⟨t, .group g, lanes, pc, n, w1, w2⟩ } : State).fetched t pc.toNat

/-- A party issues (R260); another try of an instruction that is held is no new issue. -/
def Team.issued (x : Team) (w : Option Wait) (now : Nat) : Team := if w.isNone then { x with idleSince := now } else x

/-- The state in which the lanes of a mask execute what stands at an address. -/
def State.atIssue (s : State) (t g : Nat) (lanes : BitVec 32) (pc : BitVec 56) (n : Nat) (w1 w2 : Word) (broadcast : Bool) : State :=
  ((s.fetchIssue t g lanes pc n w1 w2).mapTeam t fun x => x.issued (x.group g).wait s.gtime).mapGroup t g fun y =>
    { y with
      wait := none
      lanes := mapLanes lanes (fun _ x => { (if broadcast then s.windowAfter t pc.toNat n x else x) with age := 0, owes := [] }) y.lanes }

/-- The lanes of a mask issue what stands at an address. A register beyond the role's quota and budget is ILLEGAL, an ungranted unit
holds the group (R128, R129), and so does a `rotreq` without a tile (R291). -/
def State.planAt (s : State) (t g : Nat) (pc : BitVec 56) (lanes : BitVec 32) (broadcast : Bool) : Plan :=
  match s.groupLook t g pc with
  | .wait => .done s
  | .trap code w1 w2 =>
      let s1 := s.atIssue t g lanes pc (Look.trap code w1 w2).len w1 w2 broadcast
      .done ((s1.arriveOf t (.group g)).trapAt code lanes (if code = trapACCESS ∨ code = trapMISALIGN then pc.toNat else 0))
  | .instr i w1 w2 =>
      let n := (Look.instr i w1 w2).len
      if (s.team t).beyondQuota g i then
        .done (((s.atIssue t g lanes pc n w1 w2 broadcast).arriveOf t (.group g)).trap { code := trapILLEGAL, lanes := lanes })
      else if s.cannotIssue t g i then .done ((s.fetchIssue t g lanes pc n w1 w2).hold i)
      else
        let s1 := s.atIssue t g lanes pc n w1 w2 broadcast
        .run i (if keepsLate i w1 then s1 else s1.performRmws t (.group g))

/-- The team's context has raced: nothing is promised of what its parties do (R315, R316). -/
def State.hasRaced (s : State) (t : Nat) : Bool := s.raced.contains (s.team t).ctx

/-- A raced context goes no further: where no other is there, the machine has stopped (R315, R316). -/
def State.planRaced (s : State) : Plan :=
  if s.ctxs.all fun c => s.raced.contains c.1 then .raced else .done s

/-- The lanes of an issue's buffered parts that can still run there. -/
def State.stillBuffered (s : State) (t g : Nat) (bufs : List (BitVec 56 × BitVec 32)) : List (BitVec 56 × BitVec 32) :=
  let can (l : Nat) (pc : BitVec 56) : Bool := decide ((((s.team t).group g).lane l).pc = pc) && s.canBuffer t g l 0
  (bufs.map fun b => (b.1, b.2 &&& maskOf fun l => can l b.1)).filter fun b => decide (b.2 ≠ 0)

/-- An issue executes: the broadcast instruction by its execution set, and the buffered lanes that were picked with it and can still
run. One whose group has waited too long at a convergent instruction gives way to CONVTO (R80). -/
def State.planExecute (s : State) (t g : Nat) (bufs : List (BitVec 56 × BitVec 32)) (cast : Option (BitVec 56)) : Plan :=
  if s.hasRaced t then s.planRaced
  else if s.lateArrivals t g ≠ [] then .run (.convto ⟨t, .group g⟩) s
  else
    match s.stillBuffered t g bufs, cast with
    | [], some pc => s.planAt t g pc (((s.team t).group g).lanesAt pc) true
    | [], none => .done s
    | b :: bs, c => .joint t g (b :: bs) c s

/-- The instructions of an issue. -/
def State.issueInstrs (s : State) (t g : Nat) (bufs : List (BitVec 56 × BitVec 32)) (cast : Option (BitVec 56)) : List Instr :=
  (bufs.map (fun b => b.1) ++ cast.toList).filterMap fun pc => match s.groupLook t g pc with | .instr i _ _ => some i | _ => none

/-- v registers that the instructions of an issue name, and the grants that it needs: one for each register read. Log 56. -/
def State.issueRegs (s : State) (t g : Nat) (bufs : List (BitVec 56 × BitVec 32)) (cast : Option (BitVec 56)) : List Nat × Nat :=
  let is := s.issueInstrs t g bufs cast
  (is.flatMap vRegsOf, (is.flatMap vReadsOf).eraseDups.length)

/-- Table 15.2, as reset leaves the step at 0. -/
def grantsOf (step : Nat) : Nat := [12, 9, 6, 4, 3].getD step 3

/-- Grants that a team's quadrants hand out in an issue cycle. -/
def State.grantsNow (s : State) (t : Nat) : Nat := grantsOf ((s.slice (s.team t).cluster (s.team t).tile).grant.now (s.clkOf t))

/-- Grants that a quadrant has still to hand out in the current clk. -/
def State.grantsLeft (s : State) (t q : Nat) : Nat :=
  match lookup? (s.team t).dealt q with
  | some d => if d.1 = s.clkOf t then s.grantsNow t - d.2 else s.grantsNow t
  | none => s.grantsNow t

/-- The oldest instruction of the collector holds all its grants. -/
def Team.gathered (x : Team) (q : Nat) : Bool := match x.collectorOf q with | k :: _ => decide (k.need = 0) | [] => false

/-- Grants are handed to the instructions of a collector, the oldest first. -/
def giveGrants : Nat → List Picked → List Picked
  | _, [] => []
  | n, k :: ks => { k with need := k.need - n } :: giveGrants (n - k.need) ks

/-- Grants that the instructions of a collector still need. -/
def needed (ks : List Picked) : Nat := (ks.map fun k => k.need).sum

/-- A quadrant hands out `n` grants, the last `n - old` of them in clk `now`. -/
def Team.deal (x : Team) (q n old now : Nat) : Team :=
  let used := min n (needed (x.collectorOf q)) - min old (needed (x.collectorOf q))
  let before := match lookup? x.dealt q with | some d => if d.1 = now then d.2 else 0 | none => 0
  { x with
    collector := Map.set [] x.collector q (giveGrants n (x.collectorOf q))
    dealt := if used = 0 then x.dealt else Map.put x.dealt q (now, before + used) }

/-- A picked issue enters the collector of its quadrant, which serves it as far as grants are left. -/
def State.gather (s : State) (t : Nat) (k : Picked) : State :=
  let q := quadrantOf k.group
  s.mapTeam t fun x => { x with collector := Map.put x.collector q (x.collectorOf q ++ [k]) }.deal q (s.grantsLeft t q) 0 (s.clkOf t)

/-- The oldest instruction of a collector leaves it and executes; one whose group may not issue any more is dropped. -/
def State.planLeave (s : State) (t q : Nat) : Plan :=
  match (s.team t).collectorOf q with
  | [] => .done s
  | k :: ks =>
    let s1 := s.mapTeam t fun x => { x with collector := Map.set [] x.collector q ks }
    if s1.groupFree t k.group then s1.planExecute t k.group k.bufs k.pc else .done s1

/-- A picked group issues: what needs no grant and is no lane instruction executes at once, and so does what is alone in the collector
once it has its grants; else the issue gathers its sources (R271). -/
def State.planPicked (s : State) (t g : Nat) (slow : BitVec 32) (uniform : Bool) : Plan :=
  let q := quadrantOf g
  let cast := s.issueCast t g slow
  let bufs := s.bufferedParts t g slow cast
  let r := s.issueRegs t g bufs cast
  let s1 := s.mapTeam t fun x => x.tookSlot g (s.clkOf t) uniform
  if r.2 = 0 ∧ uniform = true then s1.planExecute t g bufs cast
  else
    let s2 := s1.gather t ⟨g, cast, bufs, uniform, r.1, r.2⟩
    if (s2.team t).gathered q then s2.planLeave t q else .done s2

/-- An instruction of a team's quadrant leaves the collector in this clk (R268, R271). -/
def State.leavesNow (s : State) (t q : Nat) : Bool := s.inIssueCycle t && (s.team t).gathered q

/-- A quadrant makes a pick among its ready groups; `slow` is for group `g`. First, what has gathered its sources leaves the collector. -/
def State.planPick (s : State) (t q : Nat) (uniform : Bool) (g : Nat) (slow : BitVec 32) : Plan :=
  if s.leavesNow t q then s.planLeave t q
  else if s.picksNow t q uniform then
    match s.pickGroup t q uniform g slow with
    | some h => s.planPicked t h (if h = g then slow else 0) uniform
    | none => .done s
  else .done s

/-- The group's convergent instruction has waited too long: CONVTO comes before all else that the group does (R80). -/
def State.overdue (s : State) (t g : Nat) : Bool :=
  let y := (s.team t).group g
  decide ((s.team t).residency = .resident) && !y.replayable && !y.suspended && decide (s.lateArrivals t g ≠ [])

/-- The fetches of a group's live lanes that find the miss table full wait (R341). -/
def State.waitFetches (s : State) (t g : Nat) : State :=
  ((((s.team t).group g).lanes.filter fun l => decide (l.2.cond = .live)).map fun l => l.2.pc.toNat).eraseDups.foldl
    (fun s pc => if s.look t (.group g) pc = .wait then s.waitFetch t pc else s) s

/-- A group is asked to issue, so its quadrant picks in the class of its next issue. A stopped one looks for the driver's answer (R258). -/
def State.planGroup (s : State) (t g : Nat) (slow : BitVec 32) : Plan :=
  let y := (s.team t).group g
  if y.replayable ∧ y.fault.isSome then .done (s.answerGroup t g)
  else if s.hasRaced t then s.planRaced
  else if s.overdue t g then .run (.convto ⟨t, .group g⟩) s
  else
    match s.planPick t (quadrantOf g) (s.nextUniform t g slow) g slow with
    | .done s1 => .done (s1.waitFetches t g)
    | p => p

/-- The scoreboard of a sequencer holds every register of an instruction (R35, R139). -/
def Stream.sourcesReady (y : Stream) (i : Instr) : Bool := (sRegsOf i).all fun n => !y.spend.contains n

/-- A sequencer issues its next word, in an issue cycle and at most one in a clk (R139, R268). -/
def State.planStream (s : State) (t : Nat) (p : Party) : Plan :=
  let x := s.team t
  let y := x.stream p
  let free := match y.wait with | some w => !waitsOn ⟨t, p⟩ w.instr && !s.heldStill ⟨t, p⟩ w | none => true
  if x.residency ≠ .resident ∨ y.state ≠ .running ∨ y.failing.isSome = true ∨ free = false ∨ s.inIssueCycle t = false ∨ s.unpicked t (streamKey p) = false then .done s
  else if s.hasRaced t then s.planRaced
  else
    let pc := y.pc
    let k := s.look t p pc.toNat
    let at' (w1 w2 : Word) : State :=
      (({ s with cur := ⟨t, p, 1, pc, k.len, w1, w2⟩ } : State).fetched t pc.toNat).mapTeam t fun x =>
        { (x.issued y.wait s.gtime).setStream p { y with wait := none, lastPc := y.lastIssued, tried := pc.toNat } with
          picks := Map.put x.picks (streamKey p) (s.clkOf t) }
    match k with
    | .wait => .done (s.waitFetch t pc.toNat)
    | .trap code w1 w2 => .done (((at' w1 w2).arriveOf t p).trapAt code 0 (if code = trapACCESS ∨ code = trapMISALIGN then pc.toNat else 0))
    | .instr i w1 w2 => if y.sourcesReady i then .run i (at' w1 w2) else .done s

def State.planParty (s : State) (p : PartyRef) (slow : BitVec 32) : Plan :=
  match p.party with
  | .group g => s.planGroup p.team g slow
  | q => s.planStream p.team q

/-! ### Time (R73, R80, R268 to R272) -/

/-- Participants that stand at a convergent instruction have arrived (R77, R80). -/
def State.markArrivals (s : State) (t g : Nat) : Group :=
  let y := (s.team t).group g
  (List.range 32).foldl
    (fun z l =>
      let x := y.lane l
      if x.cond ≠ .live ∨ x.arrived.isSome = true ∨ x.waitv.isSome = true then z
      else
        match s.groupLook t g x.pc with
        | .instr i w1 w2 =>
            match convC i with
            | some c =>
                if (participants y c).getLsbD l then
                  z.setLane l { x with arrived := some ⟨s.clkOf t, i, ⟨t, .group g, y.lanesAt x.pc, x.pc, (Look.instr i w1 w2).len, w1, w2⟩⟩ }
                else z
            | none => z
        | _ => z) y

/-- Ages of waiting lanes and waits of ready groups grow by the issue cycles that pass. -/
def State.ageGroup (s : State) (t g n : Nat) : Group :=
  let y := s.markArrivals t g
  { y with
    arbWait := if s.groupReady t g 0 then y.arbWait + n else y.arbWait
    lanes := mapLanes (maskOf fun l => s.laneWaits t g l 0) (fun _ x => { x with age := x.age + n }) y.lanes }

/-- `n` clk pass for a team: waits and ages grow by the issue cycles among them, and the collectors hand out the grants of the issue
cycles that begin. -/
def State.ageTeam (s : State) (t n : Nat) : State :=
  let x := s.team t
  let m := s.ratioOf t
  let now := s.clkOf t
  if x.residency = .resident then
    let s1 := x.groupList.foldl (fun s' g => s'.mapGroup t g fun _ => s.ageGroup t g (issueCycles m now n)) s
    let k := issueCycles m (now + 1) n
    let g := s.grantsNow t
    s1.mapTeam t fun x => quadrants.foldl (fun x q => x.deal q (k * g) ((k - 1) * g) (now + n)) x
  else s

/-- Clk pass in a cluster; moves whose time is up are released. -/
def State.passClk (s : State) (c n : Nat) : State :=
  let now := Map.get 0 s.clk c
  let s1 := (s.teams.filter fun e => decide (e.2.cluster = c)).foldl (fun (s : State) e => s.ageTeam e.1 n) s
  ({ s1 with clk := Map.put s1.clk c (now + n) } : State).releaseDue c

/-- What comes before any clk passes in a cluster. -/
inductive Due where
  /-- a convergent instruction of a group has waited for 2^20 clk (R80) -/
  | late (t g : Nat)
  /-- an instruction in the collector of a quadrant holds all its grants (R271) -/
  | leave (t q : Nat)
  /-- a starved group can be picked in this clk (R137, R138) -/
  | pick (t q : Nat) (uniform : Bool)
  deriving DecidableEq, Repr

/-- What is due for a team; nothing for one whose context has raced. -/
def State.dueOf (s : State) (t : Nat) : Option Due :=
  let x := s.team t
  if x.residency ≠ .resident ∨ s.hasRaced t = true then none
  else
    match x.groupList.find? fun g => s.overdue t g with
    | some g => some (.late t g)
    | none =>
    match quadrants.find? fun q => s.leavesNow t q with
    | some q => some (.leave t q)
    | none =>
      x.groupList.findSome? fun g =>
        if (x.group g).starved then
          let u := s.nextUniform t g 0
          if s.picksNow t (quadrantOf g) u && s.pickable t g u 0 then some (.pick t (quadrantOf g) u) else none
        else none

/-- What is due in a cluster. -/
def State.dueIn (s : State) (c : Nat) : Option Due :=
  (s.teams.filter fun e => decide (e.2.cluster = c)).findSome? fun e => s.dueOf e.1

/-- The clk after which a lane's arrival is 2^20 clk old. -/
def Lane.clkToLate (x : Lane) (now : Nat) : Option Nat := x.arrived.map fun a => max 1 (a.since + 2 ^ 20 - now)

/-- The clk after which something may be due for a team. -/
def State.clkToDue (s : State) (t n : Nat) : List Nat :=
  let x := s.team t
  let m := s.ratioOf t
  let now := s.clkOf t
  if x.residency ≠ .resident ∨ s.hasRaced t = true then []
  else
    (x.groupList.flatMap fun g => (x.group g).lanes.filterMap fun l => l.2.clkToLate now) ++
    (x.groupList.filterMap fun g =>
      let w := (x.group g).arbWait
      if starveLimit < w + issueCycles m now n ∧ s.groupReady t g 0 = true then some (max 1 (clkFor m now (starveLimit - w))) else none) ++
    x.collector.filterMap fun e =>
      match e.2 with
      | k :: _ => some (clkFor m (now + 1) (max 1 ((k.need + s.grantsNow t - 1) / s.grantsNow t)))
      | [] => none

/-- The clk after which the ratio or the grant step of a slice changes (R270). -/
def Slice.clkToChange (x : Slice) (now : Nat) : List Nat := [x.ratio.since - now, x.grant.since - now].filter fun n => decide (n ≠ 0)

/-- How many of `n` clk may pass in a cluster before something is due there, or a ratio or grant step changes. -/
def State.mayPass (s : State) (c n : Nat) : Nat :=
  match s.dueIn c with
  | some _ => 0
  | none =>
    ((s.cluster c).slices.flatMap fun e => e.2.clkToChange (Map.get 0 s.clk c)).foldl min
      (((s.teams.filter fun e => decide (e.2.cluster = c)).flatMap fun e => s.clkToDue e.1 n).foldl min n)

/-- The clk of a turn pass, as far as nothing is due; what is left of them. -/
def State.passClks (s : State) : List (Nat × Nat) → State × List (Nat × Nat)
  | [] => (s, [])
  | (c, n) :: cs =>
      let k := s.mayPass c n
      if k < n then (if k = 0 then s else s.passClk c k, (c, n - k) :: cs) else (s.passClk c n).passClks cs

/-- One more step. -/
def State.tick (s : State) : State := { s with freeCtr := s.freeCtr + 1, late := false, victim := none }

/-- The time of a turn has passed, and with it leases. -/
def State.passNs (s : State) (n : Nat) : State := ({ s with gtime := s.gtime + n } : State).endLeases

/-! ### The agenda -/

/-- Clk until a team's next issue cycle. -/
def State.toIssueCycle (s : State) (t : Nat) : Nat :=
  nextIssueCycle (s.ratioOf t) (s.clkOf t) - s.clkOf t

/-- The turn of an empty agenda: the party in focus issues in its next issue cycle. Log 12. -/
def State.defaultTurn (s : State) : Turn := ⟨[((s.team s.focus.team).cluster, s.toIssueCycle s.focus.team)], 1, .issue s.focus 0⟩

/-- A move of the team in focus is over, and the loads of the party in focus have arrived. -/
def State.atFocus (s : State) : State :=
  ((s.releaseMove s.focus.team).arriveWhere fun x => x.of s.focus.team s.focus.party).clearPending s.focus

/-- A group that has nothing to issue but an instruction on an ungranted unit. -/
def State.wantsUnit (s : State) (p : PartyRef) : Bool :=
  p.party.isGroup && !(s.unitsWanted p.team p.party.groupNo).isEmpty && !s.groupHasIssue p.team p.party.groupNo 0

/-- The event of the opcode table happens. One that ends a group's wait is an execution of lanes or of a uniform word, so it falls in
an issue cycle (R268), and gives way to a CONVTO of the group (R80). -/
def State.planEvent (s : State) (i : Instr) : Plan :=
  match resumes i with
  | none => .run i s
  | some p =>
    if p.party.isGroup && s.overdue p.team p.party.groupNo then .run (.convto p) s
    else if !s.inIssueCycle p.team then .done s
    else .run i s

/-- With an empty agenda the party in focus goes on: the event that ends its wait, or its next issue. -/
def State.planFocus (s : State) : Plan :=
  let p := s.focus
  let s1 := s.atFocus
  if s1.wantsUnit p then .run (.flexUnitGrant p) s1
  else
    match s1.waitOf p with
    | some w =>
        match resumeEvent p w.instr with
        | some e => s1.planEvent e
        | none => s1.planParty p 0
    | none => s1.planParty p 0

/-- The plan of an act. -/
def State.planAct (s : State) : Act → Plan
  | .issue p slow => s.planParty p slow
  | .pick t q uniform => s.planPick t q uniform 16 0
  | .issueAs p slow late victim => { s with late := late, victim := victim }.planParty p slow
  | .release t => .done (s.releaseMove t)
  | .event i => s.planEvent i
  | .host h => .done (s.hostAct h)

def State.planDue (s : State) : Due → Plan
  | .late t g => .run (.convto ⟨t, .group g⟩) s
  | .leave t q => s.planLeave t q
  | .pick t q uniform => s.planPick t q uniform 16 0

/-- The plan of a turn. Where something is due before its time may pass, that is the step, and `left` of the turn stays. -/
def State.planTurn (s : State) (u : Turn) (left : List (Nat × Nat) → List Turn) (act : State → Plan) : Plan :=
  let r := s.tick.passClks u.clks
  match r.2 with
  | [] => act ({ r.1 with agenda := left [] }.passNs u.ns)
  | (c, n) :: cs =>
    let s1 : State := { r.1 with agenda := left ((c, n) :: cs) }
    match s1.dueIn c with
    | some d => s1.planDue d
    | none => .done s1

/-- The step's plan: the next turn of the agenda, or the party in focus. -/
def State.plan (s : State) : Plan :=
  match s.agenda with
  | [] => s.planTurn s.defaultTurn (fun _ => []) fun s => s.planFocus
  | u :: us => s.planTurn u (fun cs => if cs.isEmpty then us else { u with clks := cs } :: us) fun s => s.planAct u.act

/-! ### Placing an instruction for the next step -/

/-- Where a placed instruction stands: its virtual address and its physical address. -/
def placedVa : Nat := 0x4000000000
def placedPa : Nat := 0x4000000000

/-- A page on which it may be fetched. -/
def placedLeaf : Leaf := ⟨placedPa, 0, 0, 1, false, true, true, true⟩

/-- The group that executes it: its live lanes, or lane 0 where none is live, stand at it, and nothing holds them back. -/
def Group.placed (y : Group) : Group :=
  let live := y.liveMask
  { y with
    wait := none, yielded := none, replayable := false, fault := none, suspended := false, spend := []
    lanes := mapLanes (if live = 0 then 1 else live)
      (fun _ x => { x with
        pc := BitVec.ofNat 56 placedVa, cond := .live, winBase := 0, winEnd := 0, age := 0, arrived := none, waitv := none, pend := [] }) y.lanes }

/-- A stream running at it. -/
def Stream.placed (y : Stream) : Stream := { y with pc := BitVec.ofNat 56 placedVa, state := .running, wait := none, spend := [], failing := none }

/-- The party that may execute a word: a sequencer for the ops that only it executes. -/
def placedParty (w1 : Nat) : Party :=
  let op := w1 / 2 ^ 24 % 64
  if w1 / 2 ^ 31 % 2 = 0 then .group 0
  else if 0x20 ≤ op ∧ op ≤ 0x28 then .matrix
  else if 0x30 ≤ op ∧ op ≤ 0x3A then .copy
  else .group 0

/-- A resident team that can fetch it, and whose role backs every register. A group's issue has been picked and has its grants; a
sequencer has not issued in this clk. -/
def Team.placed (x : Team) (p : Party) : Team :=
  let x1 := { x with
    residency := .resident
    nGroups := max 1 x.nGroups
    roles := if x.roles.isEmpty then [(0, ⟨placedVa, 1, 28, 0⟩)] else x.roles
    tlb := coreTlbUse x.tlb (tlbKey 0 (pageOf placedVa)) placedLeaf }
  match p with
  | .group g =>
      { x1.setGroup g (x1.group g).placed with
        collector := Map.put x1.collector (quadrantOf g) [⟨g, some (BitVec.ofNat 56 placedVa), [], false, [], 0⟩] }
  | q => { x1.setStream q (x1.stream q).placed with picks := x1.picks.filter fun e => decide (e.1 ≠ streamKey q) }

/-- The words of an instruction: the bits above those given are zero. -/
def placedBytes (w : Nat) : List Byte := leBytes 8 w

/-- The team's slice runs at ratio 8/8, so that any clk is an issue cycle. -/
def State.fullSpeed (s : State) (t : Nat) : State :=
  let x := s.team t
  let c := s.cluster x.cluster
  s.setCluster x.cluster { c with slices := Map.put c.slices (x.tile / 32) { s.slice x.cluster x.tile with ratio := .steady 8 } }

def State.place (s : State) (w : Nat) : State :=
  let t := s.focus.team
  let p := placedParty (w % 2 ^ 32)
  let s1 := (s.fullSpeed t).mapTeam t fun x => x.placed p
  { s1.putBytes placedPa (placedBytes w) with
    agenda := [⟨[], 0, .issue ⟨t, p⟩ 0⟩]
    focus := ⟨t, p⟩
    raced := s1.raced.filter fun c => decide (c ≠ (s1.team t).ctx) }

end Sys2Proof.Machine
end

