-- ==== Sys2Proof/Machine/Joint.lean ====
section
/-!
DEFINITION. An issue in which lanes run from their loop buffers beside the broadcast instruction (R59, R81, R82, R106).
-/

namespace Sys2Proof.Machine

/-- The group has been stopped between two states: its handler has been entered, it is descheduled, or its grid has ended. -/
def State.stopped (s s1 : State) (t g : Nat) : Bool :=
  let y := (s.team t).group g
  let z := (s1.team t).group g
  decide (y.handler ≠ z.handler) || decide (y.replayable ≠ z.replayable) || decide ((s.team t).residency ≠ (s1.team t).residency)

/-- The state after a plan, and whether it stopped the group. -/
def Plan.result (p : Plan) (s : State) (t g : Nat) : State × Bool :=
  match p with
  | .run i s1 => match exec i (s1.settled i) with | .next s2 => (s2, s.stopped s2 t g) | _ => (s, true)
  | .done s1 => (s1, s.stopped s1 t g)
  | .raced | .joint _ _ _ _ _ => (s, false)

/-- Buffered lanes execute, those of one PC at a time; the parts that fail have no effect and are returned. -/
def State.runBuffers (s : State) (t g : Nat) : List (BitVec 56 × BitVec 32) → State × List (BitVec 56 × BitVec 32)
  | [] => (s, [])
  | b :: bs =>
      let r := (s.planAt t g b.1 b.2 false).result s t g
      if r.2 then let q := s.runBuffers t g bs; (q.1, b :: q.2) else r.1.runBuffers t g bs

/-- A failing buffered part raises its trap. DESIGN CHOICE, log 57: of several, the one at the PC of the lowest lane. -/
def State.raiseBuffer (s : State) (t g : Nat) : List (BitVec 56 × BitVec 32) → State
  | [] => s
  | b :: _ => ((s.planAt t g b.1 b.2 false).result s t g).1

/-- The joint issue: buffered lanes complete, then the broadcast instruction executes; its trap is the issue's, else a buffered
lane's. -/
def State.runJoint (s : State) (t g : Nat) (bufs : List (BitVec 56 × BitVec 32)) (cast : Option (BitVec 56)) : State :=
  let r := s.runBuffers t g bufs
  match cast with
  | none => r.1.raiseBuffer t g r.2
  | some pc =>
    let q := (r.1.planAt t g pc (((s.team t).group g).lanesAt pc) true).result r.1 t g
    if q.2 then q.1 else q.1.raiseBuffer t g r.2

end Sys2Proof.Machine
end

