-- ==== Sys2Proof/Machine/Step.lean ====
section
/-!
DEFINITION. One step of the machine, and the placing of an instruction for the next one.
-/

namespace Sys2Proof.Machine

/-- One step: the plan of the next turn, and the meaning of the instruction that it comes to, once what is late and must come before it
has come. -/
def step (s : State) : Host.Outcome State Fault Refusal :=
  match s.plan with
  | .run i t => exec i (t.settled i)
  | .done t => .next t
  | .raced => .fault .dataRace
  | .joint t g bufs cast s => .next (s.runJoint t g bufs cast)

/-- The state whose next step fetches and runs the instruction with these bits. -/
def State.withFetchWord (s : State) (_nbits w : Nat) : State := s.place w

end Sys2Proof.Machine
end

