-- ==== Sys2Proof/Safety.lean ====
section
/-!
DEFINITION. Safe runs: a run that meets no plain data race, and the invariant that every step keeps; and the words in
which claims say what an instruction writes and what it leaves alone.
-/

namespace Sys2Proof.Machine

/-- `k` steps from `s` end in `t`. -/
def Steps : Nat → State → State → Prop
  | 0, s, t => s = t
  | k + 1, s, t => ∃ u, step s = .next u ∧ Steps k u t

/-- A state from which no number of steps meets a fault or a refusal. -/
def Safe (s : State) : Prop := ∀ k t, Steps k s t → ∃ u, step t = .next u

/-- Memory is in its canonical form. -/
def State.Inv (s : State) : Prop := Memory.wf s.mem = true

/-! ### What stays -/

/-- Every byte of memory, of the scratchpads and of the private frames reads as before. -/
def sameBytes (s t : State) : Prop :=
  (∀ a, readMem t.mem a = readMem s.mem a) ∧
    ∀ u, (∀ o, Map.get 0 (t.team u).pad o = Map.get 0 (s.team u).pad o) ∧ ∀ k, lookup? (t.team u).priv k = lookup? (s.team u).priv k

/-- Lanes of the issuing group are all that may differ. -/
def onlyLanes (s t : State) : Prop := ∃ m, t = s.mapCurGroup fun y => { y with lanes := m }

/-- The issuing group is all that may differ. -/
def onlyGroup (s t : State) : Prop := ∃ y, t = s.mapCurGroup fun _ => y

/-- The issuing team is all that may differ. -/
def onlyTeam (s t : State) : Prop := ∃ x, t = s.setTeam s.cur.team x

/-- A team is all that may differ. -/
def onlyTeamOf (u : Nat) (s t : State) : Prop := ∃ x, t = s.setTeam u x

/-! ### What a lane reads -/

/-- The value of a 32-bit source in a lane. -/
def State.val (s : State) (l : Nat) (r : Reg) : Word := (src s.curGroup (s.curGroup.lane l) r).val

/-- The value of a 64-bit source in a lane. -/
def State.val64 (s : State) (l : Nat) (r : Reg) : DWord := (srcPair s.curGroup (s.curGroup.lane l) r).val

/-- No register of a list is poisoned in a lane. -/
def State.clean (s : State) (l : Nat) (rs : List Reg) : Prop := ∀ r ∈ rs, (src s.curGroup (s.curGroup.lane l) r).tag = none

/-- No register pair of a list is poisoned in a lane. -/
def State.clean64 (s : State) (l : Nat) (rs : List Reg) : Prop := ∀ r ∈ rs, (srcPair s.curGroup (s.curGroup.lane l) r).tag = none

/-- The lane executes under a true predicate that is not poisoned. -/
def State.active (s : State) (p : Pred) (l : Nat) : Prop :=
  s.cur.lanes.getLsbD l = true ∧ predOf (s.curGroup.lane l) p = clear true

/-- Every lane of the execution set has a predicate that is not poisoned, and some lane is active. -/
def State.cleanPred (s : State) (p : Pred) : Prop :=
  (∀ l, s.cur.lanes.getLsbD l = true → (predOf (s.curGroup.lane l) p).tag = none) ∧ ∃ l, l < 32 ∧ s.active p l

/-! ### What a lane writes -/

/-- Lane `l` moves past the instruction with v registers of its own written, and sticky flags set. -/
def laneV (s t : State) (l : Nat) (fl : BitVec 8) (regs : Nat → Option (Tagged Word)) : Prop :=
  let x := s.curGroup.lane l
  let z := t.curGroup.lane l
  z = { x with v := z.v, status := x.status ||| fl, pc := x.pc + BitVec.ofNat 56 (4 * s.cur.len) } ∧
    ∀ n, z.readV n = (regs n).getD (x.readV n)

/-- One register. -/
def one (d : Nat) (r : Tagged Word) : Nat → Option (Tagged Word) := fun n => if n = d then some r else none

/-- A pair, the low half in the first register. -/
def two (d : Nat) (r : DWord) : Nat → Option (Tagged Word) :=
  fun n => if n = d then some (clear (r.setWidth 32)) else if n = d + 1 then some (clear ((r >>> 32).setWidth 32)) else none

/-- Lane `l` moves past the instruction with k[d] written; k0 stays true. -/
def laneK (s t : State) (l : Nat) (d : BitVec 3) (fl : BitVec 8) (r : Bool) : Prop :=
  let x := s.curGroup.lane l
  let z := t.curGroup.lane l
  z = { x with k := z.k, status := x.status ||| fl, pc := x.pc + BitVec.ofNat 56 (4 * s.cur.len) } ∧
    ∀ n, z.readK n = if n = 0 then clear true else if n = d then clear r else x.readK n

/-- Lanes outside the execution set keep their state; lanes whose predicate is false only move on; memory is untouched. -/
def laneFrame (s t : State) (p : Pred) : Prop :=
  onlyLanes s t ∧ sameBytes s t ∧
    ∀ l, (s.cur.lanes.getLsbD l = false → t.curGroup.lane l = s.curGroup.lane l) ∧
      (s.cur.lanes.getLsbD l = true → predOf (s.curGroup.lane l) p = clear false →
        t.curGroup.lane l = (s.curGroup.lane l).advance s.cur.len)

/-- A lane instruction completes: frame, and result and flags in each active lane whose sources are clean. -/
def laneResult (i : Instr) (s : State) (p : Pred) (srcs : List Reg) (d : Nat) (f : Nat → Word × BitVec 8) : Prop :=
  ∃ t, exec i s = .next t ∧ laneFrame s t p ∧
    ∀ l, s.active p l → s.clean l srcs → laneV s t l (f l).2 (one d (clear (f l).1))

/-- The same, with a result and flags that a relation admits. -/
def laneGives (i : Instr) (s : State) (p : Pred) (srcs : List Reg) (d : Nat) (gives : Nat → Nat → BitVec 8 → Prop) : Prop :=
  ∃ t, exec i s = .next t ∧ laneFrame s t p ∧
    ∀ l, s.active p l → s.clean l srcs → ∃ (r : Nat) (fl : BitVec 8), gives l r fl ∧ laneV s t l fl (one d (clear (BitVec.ofNat 32 r)))

/-- The same with a mask destination. -/
def maskResult (i : Instr) (s : State) (p : Pred) (srcs : List Reg) (d : BitVec 3) (f : Nat → Bool × BitVec 8) : Prop :=
  ∃ t, exec i s = .next t ∧ laneFrame s t p ∧
    ∀ l, s.active p l → s.clean l srcs → laneK s t l d (f l).2 (f l).1

/-! ### What a party writes -/

/-- The PCs of the issue change by `f`, s registers by `regs` (s0 reads 0 whatever is written to it), and nothing else. -/
def partyMoved (s t : State) (f : BitVec 56 → BitVec 56) (regs : BitVec 5 → Option (Tagged DWord)) : Prop :=
  (∀ n, t.readS n = if n = 0 then clear 0 else (regs n).getD (s.readS n)) ∧ sameBytes s t ∧
    if s.cur.party.isGroup then
      (∃ m r, t = s.mapCurGroup fun y => { y with lanes := m, s := r }) ∧
        ∀ l, t.curGroup.lane l =
          if s.cur.lanes.getLsbD l then { s.curGroup.lane l with pc := f (s.curGroup.lane l).pc } else s.curGroup.lane l
    else ∃ r, t = s.mapCurStream fun y => { y with s := r, pc := f y.pc }

/-- The party moves past its instruction. -/
def movesOn (s t : State) (regs : BitVec 5 → Option (Tagged DWord)) : Prop :=
  partyMoved s t (fun pc => pc + BitVec.ofNat 56 (4 * s.cur.len)) regs

/-- No s register. -/
def noS : BitVec 5 → Option (Tagged DWord) := fun _ => none

/-- One s register. -/
def oneS (d : BitVec 5) (r : DWord) : BitVec 5 → Option (Tagged DWord) := fun n => if n = d then some (clear r) else none

/-- The party moves past its instruction: every lane of its execution set, or the sequencer. -/
def State.pastPc (s t : State) : Prop :=
  if s.cur.party.isGroup then
    ∀ l, (t.curGroup.lane l).pc =
      if s.cur.lanes.getLsbD l then (s.curGroup.lane l).pc + BitVec.ofNat 56 (4 * s.cur.len) else (s.curGroup.lane l).pc
  else t.curStream.pc = s.curStream.pc + BitVec.ofNat 56 (4 * s.cur.len)

/-! ### Accesses to memory -/

/-- The state in which an access is made: a release at cluster scope or wider has written mapped regions back (R158). -/
def State.released (s : State) (rel : Bool) : State := if rel then s.writeBackFirst else s

/-- A release has nothing to wait for: no write of the party is held for a slot that moves, and at cluster scope or wider (`wide`)
no write-back of the team's mapped regions fails, or waits for the miss table. -/
def State.mayRelease (s : State) (rel wide : Bool) : Prop :=
  (rel = true → s.heldOf s.curAgent = false) ∧
    (rel = true → wide = true → s.backWaits s.cur.team = false ∧ s.heldWriteBacks s.cur.team = [])

/-- An ordered access of the active lanes reaches beyond its team (R154). -/
def State.beyondTeam (s : State) (p : Pred) (spot : Nat → Spot) (sc : Scope) : Bool :=
  decide (actsAt ((lanesOf (activeMask s.curGroup s.cur.lanes p)).map spot) sc ≠ .team)

/-- No atomic of the issuing party has still to be performed. -/
def State.noRmws (s : State) : Prop := ∀ x ∈ s.lates, x.of s.cur.team s.cur.party = true → x.rmw = none

/-- Where an access of one lane, or of a party as a whole, lands: aligned, inside a window, translated, turned away by
nothing; for a write, outside weaves in compute mode or switching. No private line has to make way for it. -/
def State.lands (s : State) (g l n a : Nat) (r : Option Reached) (acc : Access) (ordered : Bool) (sc : Scope) (p : Spot) : Prop :=
  s.victim = none ∧ a % n = 0 ∧ ∃ q, r = some q ∧ s.translate s.cur.team g l n q acc = .ok p ∧ s.peerCode p ordered sc = none ∧
    s.sectorPoisoned p n = false ∧ (acc ≠ .read → s.inSwitch q = false ∧ s.inCompute q = false)

/-- The log holds no write. -/
def State.noWrites (s : State) : Prop := ∀ e ∈ s.log, e.wr = []

/-- Address `a` of memory is not among the `n` bytes of any of the spots. -/
def outside (a n : Nat) (ps : Nat → Option Spot) : Prop :=
  ∀ l k f, ps l = some (.mem k f) → a < k ∨ k + n ≤ a

/-- Offset `o` of team `u`'s scratchpad is not among the `n` bytes of any of the spots. -/
def outsidePad (u o n : Nat) (ps : Nat → Option Spot) : Prop :=
  ∀ l k, ps l = some (.pad u k) → o < k ∨ k + n ≤ o

/-- Key `k` of team `u`'s private bytes is not among the `n` bytes of any of the spots. -/
def outsidePriv (u k n : Nat) (ps : Nat → Option Spot) : Prop :=
  ∀ l i g h o, i < n → ps l = some (.priv u g h o) → privKey g h (o + i) ≠ k

def Spot.isPriv : Spot → Bool
  | .priv _ _ _ _ => true
  | _ => false

/-- An active lane reaches other than private memory: only then is an access ordered (R154). -/
def State.anyShared (s : State) (p : Pred) (spot : Nat → Spot) : Bool :=
  (List.range 32).any fun l => s.cur.lanes.getLsbD l && (predOf (s.curGroup.lane l) p).val && !(spot l).isPriv

/-- No mapped region lies on the line of an offset. -/
def Team.unmapped (x : Team) (o : Nat) : Prop := ∀ j, j / 128 = o / 128 → x.mapAt j = none

/-- A byte as it stands at a spot. -/
def State.byteAt (s : State) (p : Spot) (i : Nat) : Byte :=
  match p with
  | .mem k _ => readMem s.mem (k + i)
  | .pad m o => Map.get 0 (s.team m).pad (o + i)
  | .priv _ _ _ _ => s.newest p i

/-- A spot of memory, of a private frame, or of a scratchpad outside mapped regions whose weave is in storage mode. -/
def State.steady (s : State) (p : Spot) : Prop :=
  match p with
  | .pad m o => (s.team m).unmapped o ∧ (s.padWeave m o).mode = .storage
  | _ => True

/-- Memory outside the bytes that the issuing team's mapped regions are written back to; all of it where the team does not end. -/
def sameBut (s t : State) (ends : Bool) : Prop :=
  (∀ a, (∀ b ∈ s.backSpots s.cur.team, b.2.1 ≠ a) → readMem t.mem a = readMem s.mem a) ∧ (ends = false → t.mem = s.mem) ∧
    ∀ u, (∀ o, Map.get 0 (t.team u).pad o = Map.get 0 (s.team u).pad o) ∧ (u ≠ s.cur.team → t.team u = s.team u)

/-! ### Waits -/

/-- Party `r` of a team that runs waits in `j`, and issued it. -/
def State.waitsFor (s : State) (r : PartyRef) (w : Wait) (j : Instr) : Prop :=
  s.waitOf r = some w ∧ w.instr = j ∧ r = ⟨w.issue.team, w.issue.party⟩ ∧ (s.team r.team).residency = .resident

/-- `i` in state `s'` is `j` in state `s`: as an issue of `j`, or as the event that resumes a party waiting in `j`. -/
def runsAs (i : Instr) (s' : State) (j : Instr) (s : State) (resume : PartyRef → Instr) : Prop :=
  (i = j ∧ s' = s) ∨ ∃ r w, i = resume r ∧ s'.waitsFor r w j ∧ s = s'.resumeAs r w

/-- The issuing party waits in `i`; its PCs have not moved. -/
def waitsIn (s t : State) (i : Instr) : Prop := t.waitOf ⟨s.cur.team, s.cur.party⟩ = some ⟨i, s.cur, s.now⟩

/-- `i` in state `s'` is `j` in state `s` for a sequencer: as an issue of `j`, or as the event that ends its wait in `j`. -/
def runsAsStream (i : Instr) (s' : State) (j : Instr) (s : State) (p : Party) (resume : Nat → Instr) : Prop :=
  (i = j ∧ s' = s) ∨ ∃ n w, i = resume n ∧ s'.waitsFor ⟨n, p⟩ w j ∧ s = s'.resumeAs ⟨n, p⟩ w

/-- The same of a party that has waited in `j` since a clk, or issues it at that clk. -/
def runsSince (i : Instr) (s' : State) (j : Instr) (s : State) (resume : PartyRef → Instr) (since : Nat) : Prop :=
  (i = j ∧ s' = s ∧ since = s.now) ∨ ∃ r w, i = resume r ∧ s'.waitsFor r w j ∧ s = s'.resumeAs r w ∧ since = w.since

/-! ### The machine's turns -/

/-- The time of a turn passes with nothing due before; `us` is what is left of the agenda. -/
def State.timePasses (s : State) (u : Turn) (us : List Turn) (p : State) : Prop :=
  (s.tick.passClks u.clks).2 = [] ∧ p = ({ (s.tick.passClks u.clks).1 with agenda := us } : State).passNs u.ns

/-- The next step is a turn of party `q`, which starts in state `p`: the agenda names it, or it stands in focus, its loads
arrived, with no wait that an event ends. -/
def State.turnsTo (s : State) (q : PartyRef) (p : State) : Prop :=
  (∃ u us, s.agenda = u :: us ∧ u.act = .issue q 0 ∧ s.timePasses u us p) ∨
    ∃ p0, s.agenda = [] ∧ s.focus = q ∧ s.timePasses s.defaultTurn [] p0 ∧ p0.focus = q ∧ p = p0.atFocus ∧ p.wantsUnit q = false ∧
      ∀ w, p.waitOf q = some w → resumeEvent q w.instr = none

/-- The words of an instruction stand at an address, and decode to it, for a party that may execute it (R45, R48). -/
def State.holdsAt (s : State) (t : Nat) (p : Party) (pc : Nat) (i : Instr) (w1 w2 : Word) : Prop :=
  pc % 4 = 0 ∧ s.codeWord t pc = .ok (some w1) ∧ (if hasSecond w1.toNat then s.codeWord t (pc + 4) = .ok (some w2) else w2 = 0) ∧
    illOp w1.toNat = false ∧ streamAllows p w1.toNat = true ∧ decode w1.toNat w2.toNat = .ok i

/-- The oldest issue of a quadrant's collector is `k`, which holds all its grants, and it leaves for its group's execution in state `q`
(R271). -/
def State.leaves (p q : State) (t c : Nat) (k : Picked) : Prop :=
  k.need = 0 ∧ ∃ ks, (p.team t).collectorOf c = k :: ks ∧
    q = p.mapTeam t (fun x => { x with collector := Map.set [] x.collector c ks }) ∧ q.groupFree t k.group = true

/-- An issue of group `g` executes in this turn, in state `q`, with its buffered parts and its broadcast PC: it leaves the collector in an
issue cycle (R268, R271), or the quadrant picks the group (R136, R137) and the issue needs no grant and is no lane instruction, or has
its grants at once. -/
def State.executesNow (p q : State) (t g : Nat) (bufs : List (BitVec 56 × BitVec 32)) (cast : Option (BitVec 56)) : Prop :=
  let c := quadrantOf g
  let u := p.nextUniform t g 0
  let r := p.issueRegs t g bufs cast
  let s1 := p.mapTeam t fun x => x.tookSlot g (p.clkOf t) u
  let k : Picked := ⟨g, cast, bufs, u, r.1, r.2⟩
  p.inIssueCycle t = true ∧
    ((∃ u regs, p.leaves q t c ⟨g, cast, bufs, u, regs, 0⟩) ∨
      (p.team t).gathered c = false ∧ p.picksNow t c u = true ∧ p.pickGroup t c u g 0 = some g ∧ cast = p.issueCast t g 0 ∧
        bufs = p.bufferedParts t g 0 cast ∧
        (r.2 = 0 ∧ u = true ∧ q = s1 ∨
          (r.2 ≠ 0 ∨ u = false) ∧ (p.team t).collectorOf c = [] ∧ r.2 ≤ p.grantsLeft t c ∧
            (s1.gather t k).leaves q t c { k with need := 0 }))

/-! ### Traps -/

/-- What Table 11.2 has a record say of a trap raised by the current issue. -/
def State.describes (s : State) (i : TrapInfo) (r : Record) : Prop :=
  r.pc = s.cur.pc.toNat ∧ r.w1 = s.cur.w1 ∧ r.w2 = (if s.cur.len = 2 then s.cur.w2 else 0) ∧ r.code = BitVec.ofNat 8 i.code ∧
    r.party = s.cur.party.number ∧ r.index = BitVec.ofNat 8 i.index ∧ r.addr = i.addr ∧ r.rotgen = s.curTeam.rotgen ∧
    r.tile = s.curTeam.tile ∧ r.gtime = s.gtimeOf s.cur.team ∧
    (s.cur.party.isGroup = true →
      r.lanes = (if s.cur.w1.getLsbD 31 then s.cur.lanes else i.lanes) ∧
        (∀ n ∈ [28, 29, 30, 31], Map.get 0 r.savedS n = (s.curGroup.readS n).val) ∧
        ∀ l, l < 32 → (s.curGroup.lane l).cond = .live →
          Map.get 0 r.lanePc l =
            if s.cur.lanes.getLsbD l then s.cur.pc.toNat + (if i.past then 4 * s.cur.len else 0) else (s.curGroup.lane l).pc.toNat)

/-- A grid ends: its first status stays, each of its teams has ended, and every other team is as it was. -/
def gridEnded (s t : State) (n : Nat) (status : Word) : Prop :=
  (t.grid n).status = some ((s.grid n).status.getD status) ∧ (∀ e ∈ t.teams, e.2.grid = n → e.2.residency = .ended) ∧
    ∀ u, (s.team u).grid ≠ n → t.team u = s.team u

/-- Bytes that the device wrote stand from key `k` on, and every other byte reads as before. -/
def wroteBytes (s t : State) (k : Nat) (bs : List Byte) : Prop :=
  ∀ a, readMem t.mem a = if k ≤ a ∧ a < k + bs.length then bs.getD (a - k) 0 else readMem s.mem a

/-- A heavy fence of the issuing party has divided the events of every owner of its instance (R319): `m` stands for what precedes the
fence, `h` is the fence. Each event lies before the fence and has been performed, or lies behind `m`, as do all that the owner
makes from now on. -/
def heavyFenced (sc : Scope) (s t : State) : Prop :=
  ∃ m h, h ∈ t.log ∧ h.cls = .fenceHeavy ∧ h.scope = sc ∧ sameAgent h.agent s.curAgent = true ∧
    ∀ w ∈ s.ownersOf sc,
      (m ∈ ((t.team w.1).group w.2).fenced ∨ m ∈ ((t.team w.1).group w.2).fencedShared) ∧
      ∀ e ∈ s.log, sameAgent e.agent (s.agentOf w.1 w.2) = true →
        ∃ f ∈ t.log, f.id = e.id ∧
          (f.performed = true ∧ (e.id ∈ h.extra ∨ e.id ∈ h.extraShared) ∨ m ∈ f.extra ∨ m ∈ f.extraShared)

/-! ### Engines -/

/-- The matrix engine has received an instruction, with what it read; the stream has gone on. -/
def State.handedOver (s t : State) (i : Instr) (a b : Nat) : Prop :=
  sameBytes s t ∧ s.pastPc t ∧ (∀ n, t.readS n = s.readS n) ∧ t.curTeam.bankData = s.curTeam.bankData ∧ t.curTeam.slots = s.curTeam.slots ∧
    ∃ o, t.curTeam.engine = s.curTeam.retire.engine ++ [o] ∧ o.id = s.curTeam.nextOp ∧ o.instr = i ∧ o.issue = s.cur ∧ o.a = a ∧ o.b = b ∧
      o.chain = s.curTeam.matrix.chain ∧ o.phase = .issued ∧ o.rows = 0

/-- The engine has written the elements `els`, of those of the row in progress that it may, at least one where there is one; every
other element is as it was; once all of the row's are written the instruction goes on to the next row, or is over after the last. -/
def State.writesRow (s t : State) (team : Nat) (o : EngineOp) (els all : List Nat) : Prop :=
  let x := s.team team
  let y := t.team team
  let due (el : Nat) : Prop := el ∈ all ∧ el ∉ o.elems ∧ x.elemDue o el = true
  (∀ el ∈ els, due el) ∧ ((∃ el, due el) → els ≠ []) ∧
    (∀ b r c, r < 16 → c < 128 → r ≠ o.rows ∨ elemOf b c ∉ els → y.elem b r c = x.elem b r c) ∧
    ((∃ el ∈ all, el ∉ o.elems ∧ el ∉ els) → ∃ e, y.opOf o.id = some e ∧ e.rows = o.rows ∧ e.elems = o.elems ++ els) ∧
    ((∀ el ∈ all, el ∈ o.elems ∨ el ∈ els) →
      (∃ e, y.opOf o.id = some e ∧ e.rows = o.rows + 1 ∧ e.elems = []) ∨ o.rows = 15 ∧ ∀ e ∈ y.engine, e.id = o.id → e.phase = .done)

/-- The checks of R222 that do not concern an instruction's own fields have passed; `pages` is what the probe has found. -/
def State.copyReady (s : State) (x : CopyX) (regs : List Nat) (ranges : List (Nat × Nat × Access)) (pages : Map Leaf) : Prop :=
  s.cur.party = .copy ∧ (∀ r ∈ regs, (readSMap s.curStream.s r).tag = none) ∧ (∀ r ∈ ranges, s.inOneWindow s.cur.team r.1 r.2.1 = true) ∧
    (∀ o, tbOf x = some o → (s.padWeave s.cur.team o).mode = .storage) ∧ s.curTeam.flying.length < copyPlaces ∧
    s.probeRanges s.cur.team ranges [] = .ok pages ∧ ∀ e ∈ pages, s.peerRouteBad s.curTeam.ctx e.2 = false

/-- The copy's transaction barrier, if it has one, can be updated: its weave is in storage mode, and its slot does not move. -/
def State.barrierFree (s : State) (t : Nat) (c : Copy) : Prop := ∀ o, c.barrier = some o → s.steady (.pad t o) ∧ s.moving t = false

/-- A copy of so many counted sectors has joined the engine, or was over at once; the stream has gone on. -/
def State.copyStarted (s t : State) (i : Instr) (total : Nat) (f : Copy → Prop) : Prop :=
  (∀ a, readMem t.mem a = readMem s.mem a) ∧ s.pastPc t ∧ (∀ n, t.readS n = s.readS n) ∧
    if total = 0 then t.curTeam.copies = s.curTeam.copies
    else
      ∃ c, t.curTeam.copies = s.curTeam.copies ++ [c] ∧ c.id = s.curTeam.nextOp ∧ c.instr = i ∧ c.issue = s.cur ∧ c.total = total ∧
        c.done = [] ∧ c.complete = false ∧ f c

/-- The command at the head of the admin ring has ended with a status, which its entry holds; nothing else of memory changes. -/
def State.commandEnds (s t : State) (status : Nat) : Prop :=
  ∃ k, s.adminEntry = some k ∧ wroteBytes s t (k + 4) (leBytes 4 status) ∧
    (t.block 256).head = ((s.block 256).head + 1) % 2 ^ (s.block 256).size

/-- The same of a command that writes elsewhere too. -/
def State.commandOver (s t : State) (status : Nat) : Prop :=
  ∃ k, s.adminEntry = some k ∧ readBytes t.mem (k + 4) 4 = leBytes 4 status ∧
    (t.block 256).head = ((s.block 256).head + 1) % 2 ^ (s.block 256).size

/-- No entry of a map of translations, within a base, serves a page of a range. -/
def servesNone (m : Map Leaf) (base lo n : Nat) : Prop :=
  ∀ size first, size < 3 → first < 2 ^ 40 → lookup? m (base + size * 2 ^ 40 + first) ≠ none →
    first + pageBytes size / 2 ^ 18 ≤ lo ∨ lo + n ≤ first

/-- A completion event as it stands in memory: its state, its status, its time (R357). -/
def eventBytes (status : Nat) (time : Nat) : List Byte := leBytes 4 (if status = 0 then 2 else 3) ++ leBytes 4 status ++ leBytes 8 time

/-- A caching agent as it speaks now, in its present incarnation. -/
def State.sender (s : State) (a : CacheAgent) : Sender := ⟨a, Map.get 0 s.incarnations (agentUnit a)⟩

/-- Every lease of a die's cores is lost. -/
def leasesLost (d : Nat) (s t : State) : Prop :=
  ∀ line core l, s.leaseOf line core = some l → (s.team l.core).cluster / 2 = d → t.leaseOf line core = some { l with lost := true }

/-- An entry of a directory with no request in progress and no lease. -/
def DirEntry.idle (e : DirEntry) : Prop := e.queue = [] ∧ e.snoops = [] ∧ e.answers = [] ∧ e.leases = []

/-- An entry of a directory that names an agent nowhere. -/
def DirEntry.without (e : DirEntry) (a : CacheAgent) : Prop :=
  e.state ≠ .x a ∧ (∀ as, e.state = .s as → a ∉ as) ∧ (∀ r ∈ e.queue, r.agent ≠ a) ∧ a ∉ e.snoops ∧ ∀ x ∈ e.answers, x.1 ≠ a

/-! ### Floating-point numbers in the integers (R83, R84, R93 to R96)

A magnitude counts steps of the smallest subnormal, and an exact result counts steps of that step's square, so that sums and products
are integers. Infinity stands one step above the largest finite value. -/

/-- A format with infinities, by the widths of its exponent and fraction. -/
structure Binary where
  e : Nat
  m : Nat
  deriving DecidableEq, Repr

/-- FP32; FP16 or BF16. -/
def single : Binary := ⟨8, 23⟩
def halfOfType : HfType → Binary
  | .h16 => ⟨5, 10⟩
  | .bf16 => ⟨8, 7⟩

def Binary.exp (B : Binary) (x : Nat) : Nat := x / 2 ^ B.m % 2 ^ B.e
def Binary.frac (B : Binary) (x : Nat) : Nat := x % 2 ^ B.m
def Binary.neg (B : Binary) (x : Nat) : Bool := x.testBit (B.e + B.m)
def Binary.isNaN (B : Binary) (x : Nat) : Bool := decide (B.exp x = 2 ^ B.e - 1) && decide (B.frac x ≠ 0)
def Binary.isInf (B : Binary) (x : Nat) : Bool := decide (B.exp x = 2 ^ B.e - 1) && decide (B.frac x = 0)

/-- A signalling NaN: the top bit of its fraction is 0. -/
def Binary.isSignalling (B : Binary) (x : Nat) : Bool := B.isNaN x && decide (B.frac x < 2 ^ (B.m - 1))

def Binary.mag (B : Binary) (x : Nat) : Nat := if B.exp x = 0 then B.frac x else (2 ^ B.m + B.frac x) * 2 ^ (B.exp x - 1)
def Binary.val (B : Binary) (x : Nat) : Int := if B.neg x then -(B.mag x : Int) else B.mag x

/-- An encoding of a sign and a magnitude's encoding. -/
def Binary.signed (B : Binary) (neg : Bool) (x : Nat) : Nat := (if neg then 2 ^ (B.e + B.m) else 0) + x
def Binary.canonical (B : Binary) : Nat := (2 ^ B.e - 1) * 2 ^ B.m + 2 ^ (B.m - 1)
def Binary.inf (B : Binary) (neg : Bool) : Nat := B.signed neg ((2 ^ B.e - 1) * 2 ^ B.m)

/-- Steps of an exact result in one step of a magnitude. -/
def Binary.unit (B : Binary) : Nat := 2 ^ (2 ^ (B.e - 1) - 2 + B.m)

/-- An operand as it is read: under the flush bit a subnormal is the zero of its sign (R96). -/
def Binary.operand (B : Binary) (flush : Bool) (x : Nat) : Nat := if flush && decide (B.exp x = 0) then B.signed (B.neg x) 0 else x

/-- Where a mode takes a value between two others. -/
inductive Toward where
  | near | down | up
  deriving DecidableEq, Repr

def Rm.toward (rm : Rm) (neg : Bool) : Toward :=
  match rm with
  | .rne => .near
  | .rz => .down
  | .ru => if neg then .down else .up
  | .rd => if neg then .up else .down

/-- R93: `q` is the value that an exact magnitude `n` of a sign rounds to. The nearest is even on a tie, an overflow goes to infinity or to
the largest finite value as the mode says (Table 4.8). -/
def Binary.Rounds (B : Binary) (t : Toward) (neg : Bool) (n q : Nat) : Prop :=
  let off (w : Nat) : Nat := ((n : Int) - (B.mag w * B.unit : Nat)).natAbs
  q < 2 ^ (1 + B.e + B.m) ∧ B.neg q = neg ∧ B.isNaN q = false ∧
    ∀ w, w < 2 ^ (1 + B.e + B.m) → B.isNaN w = false →
      match t with
      | .near => off q ≤ off w ∧ (off q = off w → B.mag q ≠ B.mag w → q % 2 = 0)
      | .down => B.isInf q = false ∧ B.mag q * B.unit ≤ n ∧ (B.isInf w = false → B.mag w * B.unit ≤ n → B.mag w ≤ B.mag q)
      | .up => (n ≤ B.mag q * B.unit ∨ B.isInf q = true) ∧ (n ≤ B.mag w * B.unit → B.mag q ≤ B.mag w)

/-- The exact value exceeds the largest finite value once rounded with an unbounded exponent (R93, R94). -/
def Binary.Overflows (B : Binary) (t : Toward) (n : Nat) : Bool :=
  let big := 2 ^ B.m * 2 ^ (2 ^ B.e - 2)
  let last := 2 ^ (2 ^ B.e - 3)
  match t with
  | .near => decide ((2 * big - last) * B.unit ≤ 2 * n)
  | .down => decide (big * B.unit ≤ n)
  | .up => decide ((big - last) * B.unit < n)

/-- R95: below the smallest normal value once rounded with an unbounded exponent. -/
def Binary.Tiny (B : Binary) (t : Toward) (n : Nat) : Bool :=
  match t with
  | .near => decide (4 * n < (4 * 2 ^ B.m - 1) * B.unit)
  | .down => decide (n < 2 ^ B.m * B.unit)
  | .up => decide (2 * n ≤ (2 * 2 ^ B.m - 1) * B.unit)

/-- R93 to R96: the result and the flags of an exact value that is not zero: OF, UF, IX. -/
def Binary.Delivers (B : Binary) (rm : Rm) (flush : Bool) (x : Int) (r : Nat) (fl : BitVec 8) : Prop :=
  let neg := decide (x < 0)
  let t := Rm.toward rm neg
  let inexact : Bool := decide (B.mag r * B.unit ≠ x.natAbs) || B.isInf r
  ∃ q, B.Rounds t neg x.natAbs q ∧ r = (if flush && decide (B.mag q < 2 ^ B.m) then B.signed neg 0 else q) ∧
    fl = (if B.Overflows t x.natAbs then 4 else 0) ||| (if B.Tiny t x.natAbs && inexact then 8 else 0) ||| if inexact then 16 else 0

/-- The sum of an exact value, of a sign where it is zero, and an addend. -/
def Binary.Sums (B : Binary) (rm : Rm) (flush : Bool) (x : Int) (neg : Bool) (c r : Nat) (fl : BitVec 8) : Prop :=
  let y := x + B.val c * B.unit
  if y = 0 then r = B.signed (if neg = B.neg c then neg else decide (rm = .rd)) 0 ∧ fl = 0 else B.Delivers rm flush y r fl

/-- R114: `a + b`. -/
def Binary.Adds (B : Binary) (rm : Rm) (flush : Bool) (a b r : Nat) (fl : BitVec 8) : Prop :=
  let a := B.operand flush a
  let b := B.operand flush b
  if B.isNaN a || B.isNaN b then r = B.canonical ∧ fl = if B.isSignalling a || B.isSignalling b then 1 else 0
  else if B.isInf a && B.isInf b && decide (B.neg a ≠ B.neg b) then r = B.canonical ∧ fl = 1
  else if B.isInf a then r = a ∧ fl = 0
  else if B.isInf b then r = b ∧ fl = 0
  else B.Sums rm flush (B.val a * B.unit) (B.neg a) b r fl

/-- R114: `a - b`, the sum of `a` and `b` with its sign changed. -/
def Binary.Subtracts (B : Binary) (rm : Rm) (flush : Bool) (a b r : Nat) (fl : BitVec 8) : Prop :=
  B.Adds rm flush a (b ^^^ 2 ^ (B.e + B.m)) r fl

/-- A product of 0 and an infinity. -/
def Binary.zeroTimesInf (B : Binary) (a b : Nat) : Bool := (B.isInf a && decide (B.mag b = 0)) || (B.isInf b && decide (B.mag a = 0))

/-- R114: `a × b`. -/
def Binary.Multiplies (B : Binary) (rm : Rm) (flush : Bool) (a b r : Nat) (fl : BitVec 8) : Prop :=
  let a := B.operand flush a
  let b := B.operand flush b
  let neg := B.neg a != B.neg b
  if B.isNaN a || B.isNaN b then r = B.canonical ∧ fl = if B.isSignalling a || B.isSignalling b then 1 else 0
  else if B.zeroTimesInf a b then r = B.canonical ∧ fl = 1
  else if B.isInf a || B.isInf b then r = B.inf neg ∧ fl = 0
  else if B.val a * B.val b = 0 then r = B.signed neg 0 ∧ fl = 0
  else B.Delivers rm flush (B.val a * B.val b) r fl

/-- R114: `a × b + c`, rounded once. -/
def Binary.Fuses (B : Binary) (rm : Rm) (flush : Bool) (a b c r : Nat) (fl : BitVec 8) : Prop :=
  let a := B.operand flush a
  let b := B.operand flush b
  let c := B.operand flush c
  let neg := B.neg a != B.neg b
  let infinite := B.isInf a || B.isInf b
  if B.zeroTimesInf a b then r = B.canonical ∧ fl = 1
  else if B.isNaN a || B.isNaN b || B.isNaN c then
    r = B.canonical ∧ fl = if B.isSignalling a || B.isSignalling b || B.isSignalling c then 1 else 0
  else if infinite && B.isInf c && decide (neg ≠ B.neg c) then r = B.canonical ∧ fl = 1
  else if infinite then r = B.inf neg ∧ fl = 0
  else if B.isInf c then r = c ∧ fl = 0
  else B.Sums rm flush (B.val a * B.val b) neg c r fl

/-- The order of numbers that has −0 below +0. -/
def Binary.rank (B : Binary) (x : Nat) : Int := if B.neg x then -(B.mag x : Int) - 1 else B.mag x

/-- R115: the smaller or the larger of two, or the one that is a number. -/
def Binary.Chooses (B : Binary) (flush larger : Bool) (a b r : Nat) (fl : BitVec 8) : Prop :=
  let x := B.operand flush a
  let y := B.operand flush b
  fl = (if B.isSignalling a || B.isSignalling b then 1 else 0) ∧
    if B.isNaN x && B.isNaN y then r = B.canonical
    else if B.isNaN x then r = y
    else if B.isNaN y then r = x
    else (r = x ∨ r = y) ∧ if larger then B.rank x ≤ B.rank r ∧ B.rank y ≤ B.rank r else B.rank r ≤ B.rank x ∧ B.rank r ≤ B.rank y

/-- R120: the results of the two halves, each in its place, and the flags of both. -/
def onHalves (gives : Nat → Nat → BitVec 8 → Prop) (r : Nat) (fl : BitVec 8) : Prop :=
  ∃ x y fx fy, gives 0 x fx ∧ gives 1 y fy ∧ r = x + 2 ^ 16 * y ∧ fl = fx ||| fy

/-- A half of a word: the low one is number 0. -/
def half (w : Word) (n : Nat) : Nat := w.toNat / 2 ^ (16 * n) % 2 ^ 16

/-- R116 (Table 5.4): the comparison, and IV. -/
def Compares (op : FCmpOp) (flush : Bool) (a b : Nat) : Bool × BitVec 8 :=
  let x := single.operand flush a
  let y := single.operand flush b
  let un := single.isNaN x || single.isNaN y
  let signalling : BitVec 8 := if single.isSignalling x || single.isSignalling y then 1 else 0
  let any : BitVec 8 := if un then 1 else 0
  match op with
  | .eq => (!un && decide (single.val x = single.val y), signalling)
  | .ne => (un || decide (single.val x ≠ single.val y), signalling)
  | .lt => (!un && decide (single.val x < single.val y), any)
  | .le => (!un && decide (single.val x ≤ single.val y), any)
  | .gt => (!un && decide (single.val y < single.val x), any)
  | .ge => (!un && decide (single.val y ≤ single.val x), any)
  | .num => (!un, signalling)
  | .nan => (un, signalling)

/-- R116: the classes by number, each with what it says of an encoding. -/
def InClass (c x : Nat) : Prop :=
  match c with
  | 0 => single.isSignalling x = true
  | 1 => single.isNaN x = true ∧ single.isSignalling x = false
  | 2 => single.isInf x = true ∧ single.neg x = true
  | 3 => 0 < single.exp x ∧ single.exp x < 255 ∧ single.neg x = true
  | 4 => single.exp x = 0 ∧ single.frac x ≠ 0 ∧ single.neg x = true
  | 5 => x = 2 ^ 31
  | 6 => x = 0
  | 7 => single.exp x = 0 ∧ single.frac x ≠ 0 ∧ single.neg x = false
  | 8 => 0 < single.exp x ∧ single.exp x < 255 ∧ single.neg x = false
  | _ => single.isInf x = true ∧ single.neg x = false

/-! ### Tables that claims range over -/

/-- Table 5.1, in the integers: the register form, the literal form, and the result. -/
def kClass : List ((Nat → Reg → Reg → Instr) × (Nat → Reg → Word → Instr) × (Word → Word → Word)) :=
  [(.add, .addK, fun a b => BitVec.ofNat 32 (a.toNat + b.toNat)),
   (.sub, .subK, fun a b => BitVec.ofInt 32 (a.toInt - b.toInt)),
   (.mul, .mulK, fun a b => BitVec.ofNat 32 (a.toNat * b.toNat)),
   (.mulhiI, .mulhiIK, fun a b => BitVec.ofInt 32 (a.toInt * b.toInt / 2 ^ 32)),
   (.mulhiN, .mulhiNK, fun a b => BitVec.ofNat 32 (a.toNat * b.toNat / 2 ^ 32)),
   (.minI, .minIK, fun a b => BitVec.ofInt 32 (min a.toInt b.toInt)),
   (.maxI, .maxIK, fun a b => BitVec.ofInt 32 (max a.toInt b.toInt)),
   (.minN, .minNK, fun a b => BitVec.ofNat 32 (min a.toNat b.toNat)),
   (.maxN, .maxNK, fun a b => BitVec.ofNat 32 (max a.toNat b.toNat)),
   (.and, .andK, fun a b => a &&& b),
   (.or, .orK, fun a b => a ||| b),
   (.xor, .xorK, fun a b => a ^^^ b),
   (.andn, .andnK, fun a b => a &&& ~~~b),
   (.shl, .shlK, fun a b => BitVec.ofNat 32 (a.toNat * 2 ^ b.toNat)),
   (.shr, .shrK, fun a b => BitVec.ofNat 32 (a.toNat / 2 ^ b.toNat)),
   (.sra, .sraK, fun a b => BitVec.ofInt 32 (a.toInt / 2 ^ b.toNat))]

/-- Table 6.4, in the integers: the register form, the literal form, and the result. -/
def scalarTable : List ((BitVec 5 → BitVec 5 → BitVec 5 → BitVec 9 → Instr) × (BitVec 5 → BitVec 5 → Word → Instr) ×
    (DWord → DWord → DWord)) :=
  [(.uadd, .uaddK, fun a b => BitVec.ofNat 64 (a.toNat + b.toNat)),
   (.usub, .usubK, fun a b => BitVec.ofInt 64 (a.toInt - b.toInt)),
   (.umul, .umulK, fun a b => BitVec.ofNat 64 (a.toNat * b.toNat)),
   (.uand, .uandK, fun a b => a &&& b),
   (.uor, .uorK, fun a b => a ||| b),
   (.uxor, .uxorK, fun a b => a ^^^ b),
   (.ushl, .ushlK, fun a b => BitVec.ofNat 64 (a.toNat * 2 ^ b.toNat)),
   (.ushr, .ushrK, fun a b => BitVec.ofNat 64 (a.toNat / 2 ^ b.toNat)),
   (.usra, .usraK, fun a b => BitVec.ofInt 64 (a.toInt / 2 ^ b.toNat))]

/-- The registers that a `bitop` reads. -/
def BitOp.Reads (op : BitOp) (r : Reg) : Prop :=
  match op with
  | .popc a | .clz a | .ctz a | .brev a => r = a
  | .bfeI a b c | .bfeN a b c | .bfi a b c | .lop3 a b c _ | .prmt a b c | .fshL a b c | .fshR a b c => r = a ∨ r = b ∨ r = c

/-- Byte `i` of a word. -/
def byteOfWord (w : Word) (i : Nat) : Nat := w.toNat / 2 ^ (8 * i) % 256

/-- R111: byte `i` of the result `r` of a `prmt`, from the field that stands for it. -/
def permutedByte (a b c r : Word) (i : Nat) : Nat :=
  let f := c.toNat / 2 ^ (4 * i) % 16
  if f < 4 then byteOfWord a f
  else if f < 8 then byteOfWord b (f - 4)
  else if f < 12 then (if f - 8 < i ∧ 128 ≤ byteOfWord r (f - 8) then 0xFF else 0)
  else [0x00, 0xFF, 0x80, 0x7F].getD (f - 12) 0

/-- Table 5.2, bit by bit: what the result of a `bitop` holds, given the sources; byte by byte for `prmt`. -/
def BitOp.Gives (op : BitOp) (v : Reg → Word) (r : Word) : Prop :=
  match op with
  | .popc a => r.toNat = (List.range 32).countP fun i => (v a).getLsbD i
  | .clz a => r.toNat ≤ 32 ∧ (∀ i, 32 - r.toNat ≤ i → (v a).getLsbD i = false) ∧ (r.toNat < 32 → (v a).getLsbD (31 - r.toNat) = true)
  | .ctz a => r.toNat ≤ 32 ∧ (∀ i, i < r.toNat → (v a).getLsbD i = false) ∧ (r.toNat < 32 → (v a).getLsbD r.toNat = true)
  | .brev a => ∀ i, i < 32 → r.getLsbD i = (v a).getLsbD (31 - i)
  | .bfeI a b c =>
      let pos := (v b).toNat % 256
      let len := min ((v c).toNat % 256) 32
      ∀ i, i < 32 → r.getLsbD i = if len = 0 then false else (v a).getLsbD (min 31 (pos + min i (len - 1)))
  | .bfeN a b c =>
      let pos := (v b).toNat % 256
      let len := min ((v c).toNat % 256) 32
      ∀ i, i < 32 → r.getLsbD i = (decide (i < len) && (v a).getLsbD (pos + i))
  | .bfi a b c =>
      let pos := (v c).toNat % 256
      let len := min ((v c).toNat / 256 % 256) 32
      ∀ i, i < 32 → r.getLsbD i = if pos ≤ i ∧ i < pos + len then (v a).getLsbD (i - pos) else (v b).getLsbD i
  | .lop3 a b c t =>
      ∀ i, i < 32 → r.getLsbD i = t.getLsbD (((v a).getLsbD i).toNat + 2 * ((v b).getLsbD i).toNat + 4 * ((v c).getLsbD i).toNat)
  | .prmt a b c => ∀ i, i < 4 → byteOfWord r i = permutedByte (v a) (v b) (v c) r i
  | .fshL a b c => r = (((v a ++ v b) <<< min (v c).toNat 32) >>> 32).setWidth 32
  | .fshR a b c => r = ((v a ++ v b) >>> min (v c).toNat 32).setWidth 32

end Sys2Proof.Machine
end

