-- ==== Sys2Proof/Certificates/Slice0/Obligations.lean ====
section
/-!
DEFINITION. What is to be proved of the machine. Each statement's docstring names the rules of the spec it formalises.
-/

open Sys2Proof Sys2Proof.Machine

/-! ### Lane arithmetic (spec chapters 03 to 05) -/

/-- Table 5.1 (R107) and `mov` (R69): every K-class instruction and `mov` complete, in both forms; each lane of the execution
set receives the result in `d`, computed over the integers and reduced, and moves past the instruction. No other
register, flag or byte changes, and no other lane. -/
def Obligations.IntegerResult : Prop :=
  (∀ o ∈ kClass, ∀ (d : Nat) (a b : Reg) (s : State),
    ∃ t, exec (o.1 d a b) s = .next t ∧ laneFrame s t ⟨false, 0⟩ ∧
      ∀ l, s.cur.lanes.getLsbD l = true → s.clean l [a, b] → laneV s t l 0 (one d (clear (o.2.2 (s.val l a) (s.val l b))))) ∧
  (∀ o ∈ kClass, ∀ (d : Nat) (a : Reg) (lit : Word) (s : State),
    ∃ t, exec (o.2.1 d a lit) s = .next t ∧ laneFrame s t ⟨false, 0⟩ ∧
      ∀ l, s.cur.lanes.getLsbD l = true → s.clean l [a] → laneV s t l 0 (one d (clear (o.2.2 (s.val l a) lit)))) ∧
  (∀ (d : Nat) (b : Reg) (s : State),
    ∃ t, exec (.mov d b) s = .next t ∧ laneFrame s t ⟨false, 0⟩ ∧
      ∀ l, s.cur.lanes.getLsbD l = true → s.clean l [b] → laneV s t l 0 (one d (clear (s.val l b)))) ∧
  ∀ (d : Nat) (lit : Word) (s : State),
    ∃ t, exec (.movK d lit) s = .next t ∧ laneFrame s t ⟨false, 0⟩ ∧
      ∀ l, s.cur.lanes.getLsbD l = true → laneV s t l 0 (one d (clear lit))

/-- R54: a K-class instruction or `mov` that reads a poisoned register, in the register form or the literal form, writes zero with the
poison of the first poisoned source, sets no flag, and moves on; the literal form of `mov` reads no register, and its result is never
poisoned. No other lane, register or byte changes by it. -/
def Obligations.PoisonPropagates : Prop :=
  ∀ (d : Nat) (a b : Reg) (lit : Word) (s : State) (l : Nat) (g : Tag), s.cur.lanes.getLsbD l = true →
    let tagOf (r : Reg) : Option Tag := (src s.curGroup (s.curGroup.lane l) r).tag
    let poisons (i : Instr) : Prop :=
      ∃ t, exec i s = .next t ∧ laneFrame s t ⟨false, 0⟩ ∧ laneV s t l 0 (one d ⟨0, some ⟨g.idx, false⟩⟩)
    (∀ o ∈ kClass, (tagOf a = some g ∨ tagOf a = none ∧ tagOf b = some g → poisons (o.1 d a b)) ∧
      (tagOf a = some g → poisons (o.2.1 d a lit))) ∧
    (tagOf b = some g → poisons (.mov d b)) ∧
    ∃ t, exec (.movK d lit) s = .next t ∧ laneFrame s t ⟨false, 0⟩ ∧ laneV s t l 0 (one d (clear lit))

/-- R108, R112, R70, R123: `mad`, `idiv`, `sel` and `dot4` complete, with their results and the one flag that `dot4`
sets, and with their frame. -/
def Obligations.MultiplyDivideSelect : Prop :=
  (∀ d a b c p (s : State), laneResult (.mad d a b c p) s p [a, b, c] d fun l => (s.val l a * s.val l b + s.val l c, 0)) ∧
  (∀ d a b p (s : State), laneResult (.idiv .divI d a b p) s p [a, b] d fun l =>
    (if s.val l b = 0 then BitVec.ofNat 32 (2 ^ 32 - 1) else BitVec.ofInt 32 ((s.val l a).toInt.tdiv (s.val l b).toInt), 0)) ∧
  (∀ d a b p (s : State), laneResult (.idiv .divN d a b p) s p [a, b] d fun l =>
    (if s.val l b = 0 then BitVec.ofNat 32 (2 ^ 32 - 1) else s.val l a / s.val l b, 0)) ∧
  (∀ d a b p (s : State), laneResult (.idiv .remI d a b p) s p [a, b] d fun l =>
    (if s.val l b = 0 then s.val l a else BitVec.ofInt 32 ((s.val l a).toInt.tmod (s.val l b).toInt), 0)) ∧
  (∀ d a b p (s : State), laneResult (.idiv .remN d a b p) s p [a, b] d fun l =>
    (if s.val l b = 0 then s.val l a else s.val l a % s.val l b, 0)) ∧
  (∀ d a b c p (s : State),
    ∃ t, exec (.sel d a b c p) s = .next t ∧ laneFrame s t p ∧
      ∀ l, s.active p l → ((s.curGroup.lane l).readK c).tag = none →
        s.clean l [if ((s.curGroup.lane l).readK c).val then a else b] →
        laneV s t l 0 (one d (clear (if ((s.curGroup.lane l).readK c).val then s.val l a else s.val l b)))) ∧
  ∀ op sat d a b c p (s : State), laneResult (.dot4 op sat d a b c p) s p [a, b, c] d fun l =>
    let sum := dotSum op (s.val l a) (s.val l b) (s.val l c)
    let lo : Int := if op = .nn then 0 else -2 ^ 31
    let hi : Int := if op = .nn then 2 ^ 32 - 1 else 2 ^ 31 - 1
    (BitVec.ofInt 32 (if sat then max lo (min hi sum) else sum), if sat ∧ (sum < lo ∨ hi < sum) then 32 else 0)

/-- R109 to R111 (Table 5.2): `bitop` completes, with the bits of its result and its frame. -/
def Obligations.BitOpResult : Prop :=
  ∀ (op : BitOp) (d : Nat) (p : Pred) (s : State),
    ∃ t, exec (.bitop op d p) s = .next t ∧ laneFrame s t p ∧
      ∀ l, s.active p l → (∀ r, BitOp.Reads op r → s.clean l [r]) →
        ∃ w, BitOp.Gives op (s.val l) w ∧ laneV s t l 0 (one d (clear w))

/-- R113 (Table 5.3): `addr` completes; a 64-bit result goes to a pair of registers, low half first. -/
def Obligations.AddressResult : Prop :=
  ∀ (d : Nat) (a b c : Reg) (sh : BitVec 6) (p : Pred) (s : State),
    (∀ o ∈ [((.add64 a b : AddrOp), fun l => BitVec.ofNat 64 ((s.val64 l a).toNat + (s.val64 l b).toNat)),
            (.sub64 a b, fun l => BitVec.ofInt 64 ((s.val64 l a).toInt - (s.val64 l b).toInt))],
      ∃ t, exec (.addr o.1 d p) s = .next t ∧ laneFrame s t p ∧
        ∀ l, s.active p l → s.clean64 l [a, b] → laneV s t l 0 (two d (o.2 l))) ∧
    (∀ o ∈ [((.lea64 a b sh : AddrOp), fun l => BitVec.ofNat 64 ((s.val64 l a).toNat + (s.val l b).toNat * 2 ^ sh.toNat)),
            (.shl64 a b, fun l => BitVec.ofNat 64 ((s.val64 l a).toNat * 2 ^ (s.val l b).toNat)),
            (.shr64 a b, fun l => BitVec.ofNat 64 ((s.val64 l a).toNat / 2 ^ (s.val l b).toNat)),
            (.sra64 a b, fun l => BitVec.ofInt 64 ((s.val64 l a).toInt / 2 ^ (s.val l b).toNat))],
      ∃ t, exec (.addr o.1 d p) s = .next t ∧ laneFrame s t p ∧
        ∀ l, s.active p l → s.clean64 l [a] → s.clean l [b] → laneV s t l 0 (two d (o.2 l))) ∧
    (∀ o ∈ [((.madwI a b c : AddrOp), fun l => BitVec.ofInt 64 ((s.val l a).toInt * (s.val l b).toInt + (s.val64 l c).toInt)),
            (.madwN a b c, fun l => BitVec.ofNat 64 ((s.val l a).toNat * (s.val l b).toNat + (s.val64 l c).toNat))],
      ∃ t, exec (.addr o.1 d p) s = .next t ∧ laneFrame s t p ∧
        ∀ l, s.active p l → s.clean l [a, b] → s.clean64 l [c] → laneV s t l 0 (two d (o.2 l))) ∧
    laneResult (.addr (.lea a b sh) d p) s p [a, b] d fun l =>
      (BitVec.ofNat 32 ((s.val l a).toNat + (s.val l b).toNat * 2 ^ sh.toNat), 0)

/-- R71 (Table 3.7) and R116 (Table 5.4): `cmp` and `fcmp` complete; k[d] holds the comparison, of FP32 values as the integers that their
encodings count, or the class; k0 stays true, and nothing but the flags of `fcmp` changes beside it. -/
def Obligations.CompareResult : Prop :=
  (∀ (d : BitVec 3) (a b : Reg) (p : Pred) (s : State),
    ∀ o ∈ [(IntCmp.eq, fun x y : Word => decide (x.toNat = y.toNat)), (.ne, fun x y => decide (x.toNat ≠ y.toNat)),
           (.ltI, fun x y => decide (x.toInt < y.toInt)), (.leI, fun x y => decide (x.toInt ≤ y.toInt)),
           (.gtI, fun x y => decide (x.toInt > y.toInt)), (.geI, fun x y => decide (x.toInt ≥ y.toInt)),
           (.ltN, fun x y => decide (x.toNat < y.toNat)), (.leN, fun x y => decide (x.toNat ≤ y.toNat)),
           (.gtN, fun x y => decide (x.toNat > y.toNat)), (.geN, fun x y => decide (x.toNat ≥ y.toNat))],
      maskResult (.cmp (.cmp o.1 a b) d p) s p [a, b] d fun l => (o.2 (s.val l a) (s.val l b), 0)) ∧
  (∀ (d a b : BitVec 3) (p : Pred) (s : State),
    ∀ o ∈ [(CmpKind.kand a b, fun x y : Bool => x && y), (.kor a b, fun x y => x || y), (.kxor a b, fun x y => x ^^ y),
           (.knot a, fun x _ => !x)],
      ∃ t, exec (.cmp o.1 d p) s = .next t ∧ laneFrame s t p ∧
        ∀ l, s.active p l → ((s.curGroup.lane l).readK a).tag = none → ((s.curGroup.lane l).readK b).tag = none →
          laneK s t l d 0 (o.2 ((s.curGroup.lane l).readK a).val ((s.curGroup.lane l).readK b).val)) ∧
  (∀ (op : FCmpOp) (d : BitVec 3) (a b : Reg) (p : Pred) (s : State),
    maskResult (.fcmp (.cmp op a b) d p) s p [a, b] d fun l => Compares op s.flush (s.val l a).toNat (s.val l b).toNat) ∧
  ∀ (d : BitVec 3) (a : Reg) (m : BitVec 10) (p : Pred) (s : State),
    ∃ t, exec (.fcmp (.cls a m) d p) s = .next t ∧ laneFrame s t p ∧
      ∀ l, s.active p l → s.clean l [a] → ∃ c, c < 10 ∧ InClass c (s.val l a).toNat ∧ laneK s t l d 0 (m.getLsbD c)

/-- R114, R115, R120, R93 to R96: `fadd`, `fsub`, `fmul`, `ffma`, `fmin`, `fmax` and the halves of `hf2` complete; each active lane
receives the exact result, over the integers, rounded once by the mode, and sets the flags of its operation under the context's flush
bit; nothing else changes. R117, R121: `cvt` and `mufu` complete, with the result of the model's own conversion and function, the
value of `mufu` within its accuracy being the model's free choice (log 10). -/
def Obligations.FloatResult : Prop :=
  ∀ (d : Nat) (a b c : Reg) (p : Pred) (s : State),
    let x (r : Reg) (l : Nat) : Nat := (s.val l r).toNat
    let h (r : Reg) (l n : Nat) : Nat := half (s.val l r) n
    (∀ rm : Rm,
      laneGives (.fadd rm d a b p) s p [a, b] d (fun l => single.Adds rm s.flush (x a l) (x b l)) ∧
      laneGives (.fsub rm d a b p) s p [a, b] d (fun l => single.Subtracts rm s.flush (x a l) (x b l)) ∧
      laneGives (.fmul rm d a b p) s p [a, b] d (fun l => single.Multiplies rm s.flush (x a l) (x b l)) ∧
      laneGives (.ffma rm d a b c p) s p [a, b, c] d (fun l => single.Fuses rm s.flush (x a l) (x b l) (x c l)) ∧
      (∀ op inf, laneResult (.cvt op rm inf d a p) s p [a] d fun l => convert op rm inf s.flush (s.val l a)) ∧
      ∀ ty,
        let B := halfOfType ty
        laneGives (.hf2 (.add rm a b) ty d p) s p [a, b] d (fun l => onHalves fun n => B.Adds rm s.flush (h a l n) (h b l n)) ∧
        laneGives (.hf2 (.mul rm a b) ty d p) s p [a, b] d (fun l => onHalves fun n => B.Multiplies rm s.flush (h a l n) (h b l n)) ∧
        laneGives (.hf2 (.fma rm a b c) ty d p) s p [a, b, c] d fun l => onHalves fun n => B.Fuses rm s.flush (h a l n) (h b l n) (h c l n)) ∧
    laneGives (.fmin d a b p) s p [a, b] d (fun l => single.Chooses s.flush false (x a l) (x b l)) ∧
    laneGives (.fmax d a b p) s p [a, b] d (fun l => single.Chooses s.flush true (x a l) (x b l)) ∧
    (∀ ty,
      let B := halfOfType ty
      laneGives (.hf2 (.min a b) ty d p) s p [a, b] d (fun l => onHalves fun n => B.Chooses s.flush false (h a l n) (h b l n)) ∧
      laneGives (.hf2 (.max a b) ty d p) s p [a, b] d fun l => onHalves fun n => B.Chooses s.flush true (h a l n) (h b l n)) ∧
    ∀ op, laneResult (.mufu op d a p) s p [a] d fun l => (mufuRes op s.flush (s.val l a).toNat).word

/-! ### Lane control (spec chapter 03) -/

/-- R64, R65: a taken branch whose targets are aligned and inside the address space moves every active lane to its target,
`call` with the return address in v0 and v1; inactive lanes move on; nothing else changes. A target that is not a multiple of 4
raises MISALIGN, for the lanes whose targets fail, at the lowest one's target. -/
def Obligations.LaneBranches : Prop :=
  (∀ (disp : BitVec 24) (a : Reg) (p : Pred) (s : State),
     ∀ o ∈ [((.bra disp p : Instr), false, fun _ : Nat => (clear (s.cur.pc.setWidth 64 + disp.signExtend 64 * 4) : Tagged DWord)),
            (.call disp p, true, fun _ => clear (s.cur.pc.setWidth 64 + disp.signExtend 64 * 4)),
            (.brx a p, false, fun l => srcPair s.curGroup (s.curGroup.lane l) a),
            (.ret a p, false, fun l => srcPair s.curGroup (s.curGroup.lane l) a)],
       (∀ l, s.cur.lanes.getLsbD l = true → (predOf (s.curGroup.lane l) p).tag = none) →
       (∀ l, s.active p l → (o.2.2 l).tag = none ∧ (o.2.2 l).val.toNat % 4 = 0 ∧ (o.2.2 l).val.toNat < 2 ^ 56) →
       ∃ t, exec o.1 s = .next t ∧ laneFrame s t p ∧
         ∀ l, s.active p l →
           let x := s.curGroup.lane l
           let z := t.curGroup.lane l
           let back : DWord := s.cur.pc.setWidth 64 + BitVec.ofNat 64 (4 * s.cur.len)
           z = { x with v := z.v, pc := (o.2.2 l).val.setWidth 56 } ∧
             ∀ n, z.readV n = if o.2.1 then (two 0 back n).getD (x.readV n) else x.readV n) ∧
  (∀ (a : Reg) (p : Pred) (s : State) (l : Nat),
     (∀ k, s.cur.lanes.getLsbD k = true → (predOf (s.curGroup.lane k) p).tag = none) →
     (∀ k, s.active p k → (srcPair s.curGroup (s.curGroup.lane k) a).tag = none) →
     s.active p l → (s.val64 l a).toNat % 4 ≠ 0 → (∀ k, k < l → s.active p k → (s.val64 k a).toNat % 4 = 0) →
     ∃ mask, (∀ k, mask.getLsbD k = true ↔ s.active p k ∧ (s.val64 k a).toNat % 4 ≠ 0) ∧
       exec (.brx a p) s = .next (s.trap { code := trapMISALIGN, lanes := mask, addr := (s.val64 l a).toNat }) ∧
       exec (.ret a p) s = .next (s.trap { code := trapMISALIGN, lanes := mask, addr := (s.val64 l a).toNat }))

/-- R66, R67: `exit` ends its active lanes, which keep their registers and wait for nothing; the others move on. A team all
of whose groups have ended, and whose streams do not run, ends (R140); only the dirty bytes of its mapped regions reach memory then. -/
def Obligations.ExitEndsLanes : Prop :=
  ∀ (p : Pred) (s : State), (∀ l, s.cur.lanes.getLsbD l = true → (predOf (s.curGroup.lane l) p).tag = none) →
    ∃ t, exec (.exit p) s = .next t ∧ sameBut s t (t.curTeam.allEnded || decide (t.curTeam.residency = .ended)) ∧ t.cur = s.cur ∧
      (∀ l, s.cur.lanes.getLsbD l = false → t.curGroup.lane l = s.curGroup.lane l) ∧
      (∀ l, s.cur.lanes.getLsbD l = true → predOf (s.curGroup.lane l) p = clear false →
        t.curGroup.lane l = (s.curGroup.lane l).advance s.cur.len) ∧
      (∀ l, s.active p l →
        t.curGroup.lane l =
          { s.curGroup.lane l with
            cond := .exited, winBase := 0, winEnd := 0, age := 0, arrived := none, waitv := none, pend := [], uses := [], owes := [] }) ∧
      t.curTeam.residency =
        (if s.curTeam.residency = .resident ∧ t.curTeam.allEnded = true ∧ s.curTeam.matrix.state ≠ .running ∧
            s.curTeam.copy.state ≠ .running then .ended else s.curTeam.residency)

/-- R77 to R79: `shfl` and `vote` execute once every live participant has arrived, within 2^20 clk of the first (R80). `shfl` gives each active participant its source
lane's value, or 0 where the source is not a live participant; `vote` tells of the live participants whose mask is set. -/
def Obligations.ShuffleAndVote : Prop :=
  (∀ (op : ShflOp) (d : Nat) (a b : Reg) (c : BitVec 5) (p : Pred) (s : State),
     let y := s.curGroup
     let set := participants y c
     let part (j : Nat) : Prop := set.getLsbD j = true ∧ (y.lane j).cond = .live
     (∀ j, j < 32 → part j → s.cur.lanes.getLsbD j = true ∧ ∀ e, (y.lane j).arrived = some e → s.now < e.since + 2 ^ 20) →
     (y.readS c.toNat).tag = none →
     ∃ t, exec (.shfl op d a b c p) s = .next t ∧ onlyLanes s t ∧ sameBytes s t ∧
       ∀ l, s.active p l → set.getLsbD l = true → s.clean l [b] →
         let n := (s.val l b).toNat
         let j := match op with
           | .idx => n % 32
           | .up => if n ≤ l then l - n else l
           | .down => if l + n < 32 then l + n else l
           | .xor => l ^^^ (n % 32)
         let x := y.lane l
         let z := t.curGroup.lane l
         (part j → s.clean j [a] →
           z = { x with v := z.v, arrived := none, pc := x.pc + BitVec.ofNat 56 (4 * s.cur.len) } ∧
             ∀ k, z.readV k = if k = d then clear (s.val j a) else x.readV k) ∧
         (¬part j →
           z = { x with v := z.v, arrived := none, pc := x.pc + BitVec.ofNat 56 (4 * s.cur.len) } ∧
             ∀ k, z.readV k = if k = d then clear 0 else x.readV k)) ∧
  (∀ (a : BitVec 3) (c : BitVec 5) (p : Pred) (s : State) (dk : BitVec 3) (dv : Nat),
     let y := s.curGroup
     let set := participants y c
     let yes (j : Nat) : Prop := set.getLsbD j = true ∧ (y.lane j).cond = .live ∧ ((y.lane j).readK a).val = true
     (∀ j, j < 32 → set.getLsbD j = true → (y.lane j).cond = .live →
       s.cur.lanes.getLsbD j = true ∧ ((y.lane j).readK a).tag = none ∧ ∀ e, (y.lane j).arrived = some e → s.now < e.since + 2 ^ 20) →
     (y.readS c.toNat).tag = none →
     (∀ o ∈ [((.all dk : VoteOp), ∀ j, j < 32 → set.getLsbD j = true → yes j), (.any dk, ∃ j, j < 32 ∧ yes j),
             (.uni dk, (∀ j, j < 32 → set.getLsbD j = true → yes j) ∨ ∀ j, j < 32 → ¬yes j)],
       ∃ t, exec (.vote o.1 a c p) s = .next t ∧ onlyLanes s t ∧ sameBytes s t ∧
         ∀ l, s.active p l → set.getLsbD l = true →
           ∀ k, ((t.curGroup.lane l).readK k).tag = (if k = dk then none else ((y.lane l).readK k).tag) ∧
             (k ≠ 0 → k = dk → (((t.curGroup.lane l).readK k).val = true ↔ o.2)) ∧
             (k ≠ dk → (t.curGroup.lane l).readK k = (y.lane l).readK k)) ∧
     ∃ t, exec (.vote (.ballot dv) a c p) s = .next t ∧ onlyLanes s t ∧ sameBytes s t ∧
       ∀ l, s.active p l → set.getLsbD l = true →
         ∃ w : Word, (∀ j, j < 32 → (w.getLsbD j = true ↔ yes j)) ∧
           ∀ k, (t.curGroup.lane l).readV k = if k = dv then clear w else (y.lane l).readV k)

/-- R38, R46: a no-operation or a hint only moves its party on, in a group or a sequencer. That a uniform hint raises STREAM inside a matrix
chain, whose list of what it admits (R215) does not name it, is the model's reading of R215 beside R46, log 51. R230: the copy stream's `cpref`, whose address and length are not poisoned
and whose length is at most 2^32, moves on and changes no byte and no register. -/
def Obligations.NoOperations : Prop :=
  (∀ (x : BitVec 24) (w : Word) (s : State),
    ∀ i ∈ [Instr.nop x, .nopTwoWord x w, .hint x, .hintTwoWord x w, .unop x, .unopTwoWord x w],
      ∃ t, exec i s = .next t ∧ movesOn s t noS) ∧
  (∀ (x : BitVec 24) (w : Word) (s : State), ∀ i ∈ [Instr.uhint x, .uhintTwoWord x w],
    (¬(s.cur.party = .matrix ∧ s.curStream.chain ≠ .closed) → ∃ t, exec i s = .next t ∧ movesOn s t noS) ∧
    (s.cur.party = .matrix → s.curStream.chain ≠ .closed → exec i s = .next (s.trap { code := trapSTREAM }))) ∧
  ∀ (d b : BitVec 5) (s : State), s.cur.party = .copy → (s.readS d).tag = none → (s.readS b).tag = none → (s.readS d).val.toNat ≤ 2 ^ 32 →
    (∀ l ∈ linesOf (s.readS b).val.toNat (s.readS d).val.toNat, ∀ va, s.decodeGeneric s.cur.team l = some (.glob va) →
      s.find s.cur.team va .read ≠ .full) →
    ∃ t, exec (.cpref d b) s = .next t ∧ s.pastPc t ∧ sameBytes s t ∧ ∀ n, t.readS n = s.readS n

/-! ### The uniform set (spec chapter 06) -/

/-- R141 (Table 6.4): a scalar instruction, in both forms, writes its result over the integers, reduced to 64 bits, in s[d]
and moves its party on; s0 discards it; nothing else changes, in a group or in a sequencer. -/
def Obligations.ScalarResult : Prop :=
  (∀ o ∈ scalarTable, ∀ (d a b : BitVec 5) (imm : BitVec 9) (s : State), (s.readS a).tag = none → (s.readS b).tag = none →
    ∃ t, exec (o.1 d a b imm) s = .next t ∧
      movesOn s t (oneS d (o.2.2 (s.readS a).val ((s.readS b).val + imm.signExtend 64)))) ∧
  (∀ o ∈ scalarTable, ∀ (d a : BitVec 5) (lit : Word) (s : State), (s.readS a).tag = none →
    ∃ t, exec (o.2.1 d a lit) s = .next t ∧ movesOn s t (oneS d (o.2.2 (s.readS a).val (lit.signExtend 64)))) ∧
  (∀ (d b : BitVec 5) (imm : BitVec 9) (s : State), (s.readS b).tag = none →
    ∃ t, exec (.umov d b imm) s = .next t ∧ movesOn s t (oneS d ((s.readS b).val + imm.signExtend 64))) ∧
  ∀ (d : BitVec 5) (lit : Word) (s : State), ∃ t, exec (.umovK d lit) s = .next t ∧ movesOn s t (oneS d (lit.signExtend 64))

/-- R144: `ubra`, `ucall` and `uret` take their party to the target, `ucall` with the address after it in s[d]; a condition
that does not hold moves the party on. -/
def Obligations.UniformBranch : Prop :=
  ∀ (c : UCond) (d a : BitVec 5) (disp : BitVec 22) (s : State), (s.readS a).tag = none →
    let target : DWord := s.cur.pc.setWidth 64 + disp.signExtend 64 * 4
    let holds : Prop := match c with | .al => True | .z => (s.readS a).val = 0 | .nz => (s.readS a).val ≠ 0
    (holds → target.toNat % 4 = 0 → target.toNat < 2 ^ 56 →
      (∃ t, exec (.ubra c a disp) s = .next t ∧ partyMoved s t (fun _ => target.setWidth 56) noS) ∧
      ∃ t, exec (.ucall c d a disp) s = .next t ∧
        partyMoved s t (fun _ => target.setWidth 56) (oneS d (s.cur.pc.setWidth 64 + 8))) ∧
    (¬holds → (∃ t, exec (.ubra c a disp) s = .next t ∧ movesOn s t noS) ∧ ∃ t, exec (.ucall c d a disp) s = .next t ∧ movesOn s t noS) ∧
    ((s.readS a).val.toNat % 4 = 0 → (s.readS a).val.toNat < 2 ^ 56 →
      ∃ t, exec (.uret a) s = .next t ∧ partyMoved s t (fun _ => (s.readS a).val.setWidth 56) noS)

/-- R72, R73, R142, R143 (Table 3.8): `sreg`, `usreg` and `urd` complete with the value that the machine's state gives;
`sreg` of %status clears the lane's flags, `usreg` of %status keeps a group's and clears a sequencer's. -/
def Obligations.SpecialRegisterReads : Prop :=
  (∀ (d : Nat) (n : SReg) (s : State),
    ∃ t, exec (.sreg d n) s = .next t ∧ onlyLanes s t ∧ sameBytes s t ∧
      ∀ l,
        let x := s.curGroup.lane l
        let z := t.curGroup.lane l
        let v : DWord := match n with | .lane => BitVec.ofNat 64 l | .status => x.status.setWidth 64 | n => BitVec.ofNat 64 (s.special n)
        if s.cur.lanes.getLsbD l then
          z = { x with v := z.v, status := if n = .status then 0 else x.status, pc := x.pc + BitVec.ofNat 56 (4 * s.cur.len) } ∧
            ∀ k, z.readV k = ((if n.is64 then two d v else one d (clear (v.setWidth 32))) k).getD (x.readV k)
        else z = x) ∧
  (∀ (d : BitVec 5) (s : State),
    ∀ o ∈ [(SReg.grp, s.cur.party.number), (.role, if s.cur.party.isGroup then s.curGroup.role else s.curStream.role),
           (.teamX, s.curTeam.x), (.teamY, s.curTeam.y), (.teamZ, s.curTeam.z), (.gridX, (s.grid s.curTeam.grid).gx),
           (.gridY, (s.grid s.curTeam.grid).gy), (.gridZ, (s.grid s.curTeam.grid).gz), (.slot, s.curTeam.slot),
           (.tile, s.curTeam.tile), (.rotgen, s.curTeam.rotgen.toNat), (.cluster, s.logicalCluster s.cur.team),
           (.clk, Map.get 0 s.clk s.curTeam.cluster), (.gtime, s.gtimeOf s.cur.team),
           (.energy, (s.grid s.curTeam.grid).energy),
           (.mthr, (s.slice s.curTeam.cluster s.curTeam.tile).stepAt (Map.get 0 s.clk s.curTeam.cluster / 2)),
           (.rfq, (s.slice s.curTeam.cluster s.curTeam.tile).grant.now (Map.get 0 s.clk s.curTeam.cluster))],
      s.special o.1 = o.2 ∧ ∃ t, exec (.usreg d o.1) s = .next t ∧ movesOn s t (oneS d (BitVec.ofNat 64 o.2))) ∧
  (∀ (d : BitVec 5) (s : State), s.cur.party.isGroup = true →
    ∃ w : BitVec 8, (∀ i, w.getLsbD i = true ↔ ∃ l, l < 32 ∧ (s.curGroup.lane l).status.getLsbD i = true) ∧
      ∃ t, exec (.usreg d .status) s = .next t ∧ movesOn s t (oneS d (w.setWidth 64))) ∧
  (∀ (d : BitVec 5) (s : State), s.cur.party.isGroup = false →
    ∃ t, exec (.usreg d .status) s = .next t ∧ t.curStream.status = 0 ∧
      t.curStream.pc = s.curStream.pc + BitVec.ofNat 56 (4 * s.cur.len) ∧
      (d ≠ 0 → t.readS d = clear (s.curStream.status.setWidth 64)) ∧ sameBytes s t) ∧
  ∀ (d a : BitVec 5) (v : Nat) (imm : BitVec 9) (s : State), (s.readS a).tag = none →
    let x := s.curGroup.lane (((s.readS a).val + imm.signExtend 64).toNat % 32)
    (s.cur.party.isGroup = true → x.cond = .live → (x.readV v).tag = none →
      ∃ t, exec (.urd d a v imm) s = .next t ∧ movesOn s t (oneS d ((x.readV v).val.setWidth 64))) ∧
    (s.cur.party.isGroup = false ∨ x.cond ≠ .live → ∃ t, exec (.urd d a v imm) s = .next t ∧ movesOn s t (oneS d 0))

/-! ### Memory (spec chapter 07) -/

/-- R163 to R166: `ld` and `ldl` complete for every active lane whose access lands: `d` and the registers after it receive the
bytes read, extended by the width, and nothing else of the lane but its flags changes; no byte of memory changes, but for
what a release writes back. The bytes are those that stand there where no write is in the log (R312). A load whose value is late
(`late`; R35) leaves its registers as they are until it arrives. R174, R175, R259, R281: where a lane reads a poisoned sector the load
raises UNCORR; else the lanes whose translation fails receive a poisoned zero, indexed to one new entry of the poison table, and
their pages await the driver, or the load raises POISONOVF where the table is full. -/
def Obligations.LoadCompletes : Prop :=
  (∀ (m : MemX) (d : Nat) (a b : Reg) (s : State) (spot : Nat → Spot),
    let rel := decide (m.order = .sc) && s.anyShared m.pred spot
    let wide := s.beyondTeam m.pred spot m.scope
    let s0 := s.released (rel && wide)
    let n := Width.bytes m.width
    s.mayRelease rel wide → s.noRmws → s.cleanPred m.pred →
    (∀ l, s.active m.pred l → s.clean64 l [a] ∧ s.clean l [b] ∧
      let ad := laneAddr m (s.val64 l a) (s.val l b)
      s.lands s.cur.party.groupNo l n ad (s.decodeSpace s.cur.team m.space ad) .read (decide (m.order ≠ .plain)) m.scope (spot l)) →
    ∀ i ∈ [Instr.ld m d a b, .ldl m d a b],
      ∃ t, exec i s = .next t ∧ t.cur = s.cur ∧ (∀ k, readMem t.mem k = readMem s0.mem k) ∧
        (∀ l, s.cur.lanes.getLsbD l = false → t.curGroup.lane l = s.curGroup.lane l) ∧
        (∀ l, s.cur.lanes.getLsbD l = true → predOf (s.curGroup.lane l) m.pred = clear false →
          t.curGroup.lane l = (s.curGroup.lane l).advance s.cur.len) ∧
        ∀ l, s.active m.pred l →
          let x := s.curGroup.lane l
          let z := t.curGroup.lane l
          z = { x with v := z.v, status := z.status, pend := z.pend, uses := z.uses, pc := x.pc + BitVec.ofNat 56 (4 * s.cur.len) } ∧
            (∀ k, k < d ∨ d + Width.regs m.width ≤ k → z.readV k = x.readV k) ∧
            (s.mayBeLate (spot l) = true →
              (∀ k, z.readV k = x.readV k) ∧ ∀ k, d ≤ k → k < d + Width.regs m.width → k ∈ z.pend) ∧
            (s.late = false → ∃ bs : List Byte, bs.length = n ∧
              (s.steady (spot l) → s0.noWrites → bs = (List.range n).map (s0.byteAt (spot l))) ∧
              ∀ k, d ≤ k → k < d + Width.regs m.width → z.readV k = clear ((loadWords m.width bs).getD (k - d) 0))) ∧
  ∀ (m : MemX) (d : Nat) (a b : Reg) (s : State) (q : Nat → Reached),
    let n := Width.bytes m.width
    let ad (l : Nat) : Nat := laneAddr m (s.val64 l a) (s.val l b)
    let tr (l : Nat) : Trans := s.translate s.cur.team s.cur.party.groupNo l n (q l) .read
    let fails (l : Nat) : Prop := ∃ va c w, tr l = .fail va c w
    let bad (l : Nat) : Prop := ∃ p, tr l = .ok p ∧ s.sectorPoisoned p n = true
    let traps (i : Instr) (code : Nat) (at' : Nat → Prop) : Prop :=
      ∃ info, info.code = code ∧ (∀ l, info.lanes.getLsbD l = true ↔ s.active m.pred l ∧ at' l) ∧ exec i s = .next (s.trap info)
    s.victim = none → s.noRmws → m.order ≠ .sc → s.cleanPred m.pred →
    (∀ l, s.active m.pred l → s.clean64 l [a] ∧ s.clean l [b] ∧ ad l % n = 0 ∧ s.decodeSpace s.cur.team m.space (ad l) = some (q l) ∧
      (fails l ∨ ∃ p, tr l = .ok p ∧ s.peerCode p (decide (m.order ≠ .plain)) m.scope = none)) →
    ∀ i ∈ [Instr.ld m d a b, .ldl m d a b],
      ((∃ l, s.active m.pred l ∧ bad l) → traps i 0x0D bad) ∧
      ((∀ l, s.active m.pred l → ¬bad l) → (∃ l, s.active m.pred l ∧ fails l) →
        (s.curGroup.prune.freeEntry = none → traps i 0x11 fails) ∧
        ∀ e, s.curGroup.prune.freeEntry = some e →
          ∃ t x, exec i s = .next t ∧ (∀ k, readMem t.mem k = readMem s.mem k) ∧ s.pastPc t ∧ lookup? t.curGroup.poison e = some x ∧
            x.spent = false ∧ x.pc = s.cur.pc ∧ x.w1 = s.cur.w1 ∧ (∀ l, x.lanes.getLsbD l = true ↔ s.active m.pred l ∧ fails l) ∧
            ∀ l, s.active m.pred l → fails l → Map.get 0 x.addrs l = ad l ∧
              (∀ k, d ≤ k → k < d + Width.regs m.width → (t.curGroup.lane l).readV k = ⟨0, some ⟨BitVec.ofNat 3 e, true⟩⟩) ∧
              ∀ va c w, tr l = .fail va c w → t.awaited s.curTeam.ctx (pageOf va) = true)

/-- R163 to R167: `st` and `stl` complete for every active lane whose access lands. The bytes that a lane stores are its data, lowest first,
unless a higher lane stores the byte too, and stand there unless the slot moves, in whose relocation buffer they are held (R297); every byte
of memory, of a private frame and of a scratchpad outside mapped regions reads as before outside the bytes stored. No register changes.
R165, R225, R256, R281: where the translation of a lane fails, outside handler mode, nothing is stored: the record is written, and the group
is descheduled until the driver has answered for the pages; where a lane stores to a poisoned sector that the lanes together do not cover,
the store raises UNCORR. That the lanes of a store together may cover a poisoned sector is the model's reading (log 45). -/
def Obligations.StoreCompletes : Prop :=
  (∀ (m : MemX) (d a b : Reg) (s : State) (spot : Nat → Spot),
    let rel := (decide (m.order = .ar) || decide (m.order = .sc)) && s.anyShared m.pred spot
    let wide := s.beyondTeam m.pred spot m.scope
    let s0 := s.released (rel && wide)
    let n := Width.bytes m.width
    let data (l : Nat) : Tagged (List Byte) := storeData s.curGroup (s.curGroup.lane l) m.width d
    let at' (l : Nat) : Option Spot :=
      if s.cur.lanes.getLsbD l && (predOf (s.curGroup.lane l) m.pred).val && !s.storeHeld (spot l) then some (spot l) else none
    s.mayRelease rel wide → s.noRmws → s.cleanPred m.pred →
    (∀ l, s.active m.pred l → storeTags s.curGroup (s.curGroup.lane l) m d a b = [] ∧
      let ad := laneAddr m (s.val64 l a) (s.val l b)
      s.lands s.cur.party.groupNo l n ad (s.decodeSpace s.cur.team m.space ad) .write (decide (m.order ≠ .plain)) m.scope (spot l)) →
    s.roomFor ((lanesOf (activeMask s.curGroup s.cur.lanes m.pred)).map spot) n = true →
    ∀ i ∈ [Instr.st m d a b, .stl m d a b],
      ∃ t, exec i s = .next t ∧ t.cur = s.cur ∧
        (∀ l, t.curGroup.lane l =
          if s.cur.lanes.getLsbD l then (s.curGroup.lane l).advance s.cur.len else s.curGroup.lane l) ∧
        (∀ k, outside k n at' → readMem t.mem k = readMem s0.mem k) ∧
        (∀ u o, outsidePad u o n at' → (s.team u).unmapped o → Map.get 0 (t.team u).pad o = Map.get 0 (s.team u).pad o) ∧
        (∀ u k, outsidePriv u k n at' → lookup? (t.team u).priv k = lookup? (s.team u).priv k) ∧
        ∀ l i, at' l = some (spot l) → l < 32 → i < n → (∀ h, s.active m.pred h → (spot h).isPriv = (spot l).isPriv) →
          (∀ h j, l < h → s.active m.pred h → j < n → s.spotKey (spot h) j ≠ s.spotKey (spot l) i) →
          t.newest (spot l) i = (data l).val.getD i 0) ∧
  ∀ (m : MemX) (d a b : Reg) (s : State) (q : Nat → Reached) (spot : Nat → Spot),
    let n := Width.bytes m.width
    let ad (l : Nat) : Nat := laneAddr m (s.val64 l a) (s.val l b)
    let tr (l : Nat) : Trans := s.translate s.cur.team s.cur.party.groupNo l n (q l) .write
    let fails (l : Nat) : Prop := ∃ va c w, tr l = .fail va c w
    let at' := s.recordAddr s.cur.team s.cur.party.number
    let bad (l : Nat) : Prop := ∃ i, i < n ∧ s.poisonedAt (spot l) i = true ∧
      ∃ j, j < 32 ∧ ∀ h k, s.active m.pred h → k < n → s.spotKey (spot h) k ≠ s.spotKey (spot l) i / 32 * 32 + j
    s.victim = none → s.cleanPred m.pred →
    (∀ l, s.active m.pred l → storeTags s.curGroup (s.curGroup.lane l) m d a b = [] ∧ ad l % n = 0 ∧
      s.decodeSpace s.cur.team m.space (ad l) = some (q l) ∧ s.inSwitch (q l) = false ∧ s.inCompute (q l) = false) →
    ∀ i ∈ [Instr.st m d a b, .stl m d a b],
      (s.cur.party.isGroup = true → s.curGroup.handler = false → (∃ l, s.active m.pred l ∧ fails l) →
        (∀ r, ∃ s1, s.writeRecord s.cur.team s.cur.party.number r = .ok s1) →
        ∃ t f r, exec i s = .next t ∧ t.curGroup.replayable = true ∧ t.curGroup.fault = some f ∧ f.kind = .store ∧ f.instr = i ∧ f.issue = s.cur ∧
          t.curGroup.record = some r ∧ r.code = 5 ∧ r.flags = 3 ∧ r.index = 0xFF ∧ (∀ l, t.curGroup.lane l = s.curGroup.lane l) ∧
          (∀ k, s.devKey s.curTeam.ctx at' .write = .ok k → at' % 2 ^ 18 + 384 ≤ 2 ^ 18 → wroteBytes s t k (recordBytes r)) ∧
          ∀ l va c w, s.active m.pred l → tr l = .fail va c w → pageOf va ∈ f.pages ∧ t.awaited s.curTeam.ctx (pageOf va) = true) ∧
      ((∀ l, s.active m.pred l → tr l = .ok (spot l) ∧ s.peerCode (spot l) (decide (m.order ≠ .plain)) m.scope = none) →
        (∃ l, s.active m.pred l ∧ bad l) →
        ∃ info, info.code = 0x0D ∧ (∀ l, info.lanes.getLsbD l = true ↔ s.active m.pred l ∧ bad l) ∧ exec i s = .next (s.trap info))

/-- R145: `uld` and `ust` complete, in a group or a sequencer, where the access lands: s[d] receives the bytes read, extended
by the width; the bytes at the address receive the low bytes of s[d], and every other byte reads as before. -/
def Obligations.UniformMemory : Prop :=
  ∀ (m : UMemX) (d a : BitVec 5) (s : State) (p : Spot), (s.readS a).tag = none →
    let n := Width.bytes m.width
    let ad := ((s.readS a).val + m.off.signExtend 64).toNat
    let wide := decide (actsAt [p] m.scope ≠ .team)
    s.noRmws →
    (let rel := decide (m.order = .sc)
     let s0 := s.released (rel && wide)
     s.mayRelease rel wide →
     s.lands 0 0 n ad (uniformReach s m.space ad) .read (decide (m.order ≠ .plain)) m.scope p →
     ∃ t, exec (.uld m d a) s = .next t ∧ t.cur = s.cur ∧ s.pastPc t ∧ (∀ k, readMem t.mem k = readMem s0.mem k) ∧
       (∀ r, r ≠ d → t.readS r = s.readS r) ∧
       (s.mayBeLate p = true → t.readS d = s.readS d) ∧
       (s.late = false → ∃ bs : List Byte, bs.length = n ∧
         (s.steady p → s0.noWrites → bs = (List.range n).map (s0.byteAt p)) ∧
         t.readS d = if d = 0 then clear 0 else clear (uldValue m.width bs))) ∧
    (let rel := decide (m.order = .ar) || decide (m.order = .sc)
     let s0 := s.released (rel && wide)
     let at' (_ : Nat) : Option Spot := if s.storeHeld p then none else some p
     (s.readS d).tag = none → s.mayRelease rel wide → s.roomFor [p] n = true →
     s.lands 0 0 n ad (uniformReach s m.space ad) .write (decide (m.order ≠ .plain)) m.scope p →
     ∃ t, exec (.ust m d a) s = .next t ∧ t.cur = s.cur ∧ s.pastPc t ∧ (∀ r, t.readS r = s.readS r) ∧
       (∀ k, outside k n at' → readMem t.mem k = readMem s0.mem k) ∧
       (∀ u o, outsidePad u o n at' → (s.team u).unmapped o → Map.get 0 (t.team u).pad o = Map.get 0 (s.team u).pad o) ∧
       ∀ i, s.storeHeld p = false → i < n → t.newest p i = BitVec.ofNat 8 ((s.readS d).val.toNat / 2 ^ (8 * i)))

/-- R168 to R171: `atom` and `red` complete for active lanes whose accesses land where their operation is placed. With one
active lane and no write in the log, the operation's result stands there (Table 7.6) and, for `atom`, `d` holds the old value;
every other byte of memory, of a private frame and of a scratchpad outside mapped regions reads as before. One that is late (R35, R312)
stands among the late accesses with its operation, its registers as they were and its destination pending. -/
def Obligations.AtomicCompletes : Prop :=
  ∀ (x : AtomX) (d : Nat) (a b c : Reg) (s : State) (spot : Nat → Spot),
    let rel := (decide (x.order = .ar) || decide (x.order = .sc)) && s.anyShared x.pred spot
    let wide := s.beyondTeam x.pred spot x.scope
    let s0 := s.released (rel && wide)
    let n := if x.wide64 then 8 else 4
    let at' (l : Nat) : Option Spot := if s.cur.lanes.getLsbD l && (predOf (s.curGroup.lane l) x.pred).val then some (spot l) else none
    let opd (l : Nat) (r : Reg) : Nat := if x.wide64 then (s.val64 l r).toNat else (s.val l r).toNat
    s.mayRelease rel wide → s.noRmws → s.cleanPred x.pred →
    (∀ l r, s.active x.pred l → r ∈ [b, c] → (atomSrc s.curGroup (s.curGroup.lane l) x.wide64 r).tag = none) →
    (∀ l, s.active x.pred l → s.clean64 l [a] ∧
      let ad := (s.val64 l a + x.off.signExtend 64).toNat
      s.lands s.cur.party.groupNo l n ad (s.decodeGeneric s.cur.team ad) .atomic false x.scope (spot l) ∧
        ∀ k f, x.op = .prog → spot l = .mem k f → s.sectorPoisoned (.mem (k / 128 * 128) f) 128 = false) →
    ∀ o ∈ [((.atom x d a b c : Instr), false), (.red x b a, true)],
      (∀ l, s.active x.pred l → s.placementBad o.2 x (spot l) = false) →
      ∃ t, exec o.1 s = .next t ∧ t.cur = s.cur ∧
        (∀ l, s.cur.lanes.getLsbD l = false → t.curGroup.lane l = s.curGroup.lane l) ∧
        (∀ l, s.cur.lanes.getLsbD l = true → predOf (s.curGroup.lane l) x.pred = clear false →
          t.curGroup.lane l = (s.curGroup.lane l).advance s.cur.len) ∧
        (∀ k, outside k n at' → readMem t.mem k = readMem s0.mem k) ∧
        (∀ u q, outsidePad u q n at' → (s.team u).unmapped q → Map.get 0 (t.team u).pad q = Map.get 0 (s.team u).pad q) ∧
        (∀ u k, outsidePriv u k n at' → lookup? (t.team u).priv k = lookup? (s.team u).priv k) ∧
        (∀ l, s.active x.pred l → s.mayDefer x (spot l) = true →
          (∃ q ∈ t.lates, ∃ r, q.lane = some l ∧ q.rmw = some r ∧ r.issue = s.cur ∧ r.op = x ∧ r.spot = spot l ∧ r.ret = !o.2) ∧
            (∀ j, (t.curGroup.lane l).readV j = (s.curGroup.lane l).readV j) ∧
            (o.2 = false → d ∈ (t.curGroup.lane l).pend)) ∧
        ∀ l, s.active x.pred l → (∀ h, s.active x.pred h → h = l) → s.mayDefer x (spot l) = false → s.steady (spot l) → s0.noWrites →
          let old := leValue ((List.range n).map (s0.byteAt (spot l)))
          let new := s0.atomResult x.op x.wide64 old (opd l b) (if x.op.usesC then opd l c else 0)
          (x.op.usesC = true → o.2 = false) →
          (∀ i, i < n → t.newest (spot l) i = BitVec.ofNat 8 (new.1 / 2 ^ (8 * i))) ∧
            ∀ j, (t.curGroup.lane l).readV j =
              if o.2 then (s.curGroup.lane l).readV j
              else if j = d then clear (BitVec.ofNat 32 new.2)
              else if x.wide64 = true ∧ j = d + 1 then clear (BitVec.ofNat 32 (new.2 / 2 ^ 32))
              else (s.curGroup.lane l).readV j

/-- R74 to R76: `waitv` loads a word in each active lane that does not wait in it already. A lane whose value satisfies the condition
leaves with it; the others stay, with what they wait for. A waiting lane leaves when a later load satisfies it, or with its last
value when its timeout has passed. -/
def Obligations.WaitOnValue : Prop :=
  (∀ (cond : WaitCond) (sc : Scope) (acq : Bool) (d : Nat) (a b c : Reg) (p : Pred) (s : State) (spot : Nat → Spot),
    s.cleanPred p → s.noWrites →
    (∀ l, s.active p l → (s.curGroup.lane l).waitv = none → s.clean64 l [a] ∧ s.clean l [b, c] ∧ s.steady (spot l) ∧
      s.lands s.cur.party.groupNo l 4 (s.val64 l a).toNat (s.decodeGeneric s.cur.team (s.val64 l a).toNat) .read true sc (spot l)) →
    ∃ t, exec (.waitv cond sc acq d a b c p) s = .next t ∧ (∀ k, readMem t.mem k = readMem s.mem k) ∧
      (∀ l, s.cur.lanes.getLsbD l = false ∨ (s.curGroup.lane l).waitv ≠ none → t.curGroup.lane l = s.curGroup.lane l) ∧
      (∀ l, s.cur.lanes.getLsbD l = true → (s.curGroup.lane l).waitv = none → predOf (s.curGroup.lane l) p = clear false →
        t.curGroup.lane l = (s.curGroup.lane l).advance s.cur.len) ∧
      ∀ l, s.active p l → (s.curGroup.lane l).waitv = none →
        let x := s.curGroup.lane l
        let z := t.curGroup.lane l
        let w : Word := BitVec.ofNat 32 (leValue ((List.range 4).map (s.byteAt (spot l))))
        (waitSat cond w (s.val l b) = true →
          z = { x with v := z.v, waitv := none, pc := x.pc + BitVec.ofNat 56 (4 * s.cur.len) } ∧
            ∀ k, z.readV k = if k = d then clear w else x.readV k) ∧
        (waitSat cond w (s.val l b) = false →
          z = { x with waitv := some ⟨s.now, w, .waitv cond sc acq d a b c p, s.cur, (s.val64 l a).toNat, s.val l b, s.val l c⟩ })) ∧
  (∀ (p : PartyRef) (l d : Nat) (cond : WaitCond) (sc : Scope) (acq : Bool) (a b c : Reg) (pr : Pred) (s : State) (w : WaitvState)
      (sp : Spot), l < 32 →
    s.waitingLane p l = some w → w.instr = .waitv cond sc acq d a b c pr → w.issue.team = p.team → w.issue.party = p.party →
    let u := { s with cur := { w.issue with lanes := BitVec.ofNat 32 (2 ^ l) } }
    u.noWrites → u.steady sp → u.lands p.party.groupNo l 4 w.addr (u.decodeGeneric p.team w.addr) .read true sc sp →
    let v : Word := BitVec.ofNat 32 (leValue ((List.range 4).map (u.byteAt sp)))
    waitSat cond v w.b = true →
    ∃ t, exec (.waitvSatisfied p l) s = .next t ∧ (∀ k, readMem t.mem k = readMem s.mem k) ∧
      let x := ((s.team p.team).group p.party.groupNo).lane l
      let z := ((t.team p.team).group p.party.groupNo).lane l
      z = { x with v := z.v, waitv := none, pc := x.pc + BitVec.ofNat 56 (4 * w.issue.len) } ∧
        ∀ k, z.readV k = if k = d then clear v else x.readV k) ∧
  ∀ (p : PartyRef) (l d : Nat) (cond : WaitCond) (sc : Scope) (acq : Bool) (a b c : Reg) (pr : Pred) (s : State) (w : WaitvState),
    s.waitingLane p l = some w → w.instr = .waitv cond sc acq d a b c pr → w.issue.team = p.team → w.issue.party = p.party →
    w.timeout ≠ 0 → w.timeout.toNat ≤ s.clkOf p.team - w.start →
    ∃ t, exec (.waitvTimeout p l) s = .next t ∧ sameBytes s t ∧
      let x := ((s.team p.team).group p.party.groupNo).lane l
      let z := ((t.team p.team).group p.party.groupNo).lane l
      z = { x with v := z.v, waitv := none, pc := x.pc + BitVec.ofNat 56 (4 * w.issue.len) } ∧
        ∀ k, z.readV k = if k = d then clear w.last else x.readV k

/-- R172, R173, R319, R360: each fence completes at once, with or without a predicate, where its release has nothing to wait for: the
party moves on and no register changes. An acquire beyond team scope drops the shared lines of L1; a release performs the party's
stores; at cluster scope or wider it writes mapped regions back; `fence.light` makes its group an owner at the scope; `fence.heavy`
divides the events of every owner of its instance at a point of each. A sequencer executes those without a predicate. That the heavy
fence waits for no owner, since each point falls within its step, is the model's reading (log 39). -/
def Obligations.FenceCompletes : Prop :=
  (∀ (sc : Scope) (p : Pred) (s : State), s.cleanPred p → s.cur.party.isGroup = true →
    ∀ o ∈ [(Instr.fenceAcq sc p, true, false, false), (.ufenceAcq sc, true, false, false), (.fenceRel sc p, false, true, false),
           (.ufenceRel sc, false, true, false), (.fenceSc sc p, true, true, false), (.ufenceSc sc, true, true, false),
           (.fenceLight sc p, false, false, true), (.ufenceLight sc, false, false, true), (.fenceHeavy sc p, true, true, false),
           (.ufenceHeavy sc, true, true, false)],
      (o.2.2.1 = true → s.mayRelease true (decide (sc ≠ .team))) →
      ∃ t, exec o.1 s = .next t ∧
        (∀ l, t.curGroup.lane l = if s.cur.lanes.getLsbD l then (s.curGroup.lane l).advance s.cur.len else s.curGroup.lane l) ∧
        (∀ n, t.readS n = s.readS n) ∧
        (o.2.1 = true → sc ≠ .team → ∀ e ∈ t.curTeam.l1, e.2 = .own) ∧
        (o.2.2.1 = true → ∀ e ∈ s.log, sameAgent e.agent s.curAgent = true → ∃ f ∈ t.log, f.id = e.id ∧ f.performed = true) ∧
        (o.2.2.1 = true → sc ≠ .team → t.curTeam.dirty = []) ∧
        (o.2.2.1 = false → sameBytes s t) ∧
        (o.2.2.2 = true → ∃ r, t.curGroup.light = some r ∧ Scope.rank sc ≤ Scope.rank r) ∧
        (o.1 = .fenceHeavy sc p ∨ o.1 = .ufenceHeavy sc → heavyFenced sc s t)) ∧
  ∀ (sc : Scope) (s : State), s.cur.party.isGroup = false →
    ∀ o ∈ [(Instr.ufenceAcq sc, false), (.ufenceRel sc, true), (.ufenceSc sc, true), (.ufenceLight sc, false), (.ufenceHeavy sc, true)],
      (o.2 = true → s.mayRelease true (decide (sc ≠ .team))) →
      ∃ t, exec o.1 s = .next t ∧ s.pastPc t ∧ (∀ n, t.readS n = s.readS n) ∧
        (o.2 = true → ∀ e ∈ s.log, sameAgent e.agent s.curAgent = true → ∃ f ∈ t.log, f.id = e.id ∧ f.performed = true) ∧
        (o.1 = .ufenceHeavy sc → heavyFenced sc s t)

/-! ### Queues, slots, banks (spec chapters 06, 08, 09) -/

/-- R129, R132, R133: `qpush` appends the active lanes' values to a queue with room, and `qpop` takes the oldest entry; each does so
when it issues, or when a wait for room or for an entry ends, its flexible units granted. No byte of memory changes, and no other queue. -/
def Obligations.StageQueueMoves : Prop :=
  ∀ (q : BitVec 3) (p : Pred) (s s' : State) (i : Instr), s.cleanPred p → s.cur.party.isGroup = true →
    let x := s.curTeam.queue q.toNat
    (∀ d, runsAs i s' (.qpush q d p) s .qpushResume → s.curTeam.unbacked s.cur.party.groupNo (.qpush q d p) = [] → x.depth ≠ 0 → x.producer = s.curGroup.role → x.entries.length < x.depth →
      (∀ l, s.active p l → s.clean l [d]) →
      ∃ t e, exec i s' = .next t ∧ sameBytes s t ∧ s.pastPc t ∧ t.curTeam.queue q.toNat = { x with entries := x.entries ++ [e] } ∧
        (∀ r, r ≠ q.toNat → t.curTeam.queue r = s.curTeam.queue r) ∧
        ∀ l, l < 32 → (s.active p l → Map.get 0 e l = s.val l d) ∧ (¬s.active p l → Map.get 0 e l = 0)) ∧
    ∀ d e es, runsAs i s' (.qpop q d p) s .qpopResume → s.curTeam.unbacked s.cur.party.groupNo (.qpop q d p) = [] → x.depth ≠ 0 → x.consumer = s.curGroup.role → x.entries = e :: es →
      ∃ t, exec i s' = .next t ∧ sameBytes s t ∧ t.curTeam.queue q.toNat = { x with entries := es } ∧
        (∀ r, r ≠ q.toNat → t.curTeam.queue r = s.curTeam.queue r) ∧
        (∀ l, s.cur.lanes.getLsbD l = false → t.curGroup.lane l = s.curGroup.lane l) ∧
        (∀ l, s.cur.lanes.getLsbD l = true → predOf (s.curGroup.lane l) p = clear false →
          t.curGroup.lane l = (s.curGroup.lane l).advance s.cur.len) ∧
        ∀ l, s.active p l → laneV s t l 0 (one d (clear (Map.get 0 e l)))

/-- R199 to R203: `mpush` deposits four rows in an empty quarter of a slot, when it issues or when its wait ends; rows of the
other quarters stay, and no byte of memory changes. R206: `mpull` reads one element of a held bank in each active lane. -/
def Obligations.SlotsAndPulls : Prop :=
  (∀ (slot : BitVec 3) (j : BitVec 2) (d a c : Reg) (p : Pred) (s s' : State) (i : Instr) (f : Elem),
    runsAs i s' (.mpush slot j d a c p) s .mpushResume → s.curTeam.unbacked s.cur.party.groupNo (.mpush slot j d a c p) = [] →
    s.cur.party.isGroup = true → s.cleanPred p →
    (∀ l, s.active p l → s.clean l [d, a, c]) →
    let act := activeMask s.curGroup s.cur.lanes p
    let v := s.curTeam.slotAt slot.toNat
    let fw := s.val ((lanesOf act).headD 0) c
    s.mpushCheck slot.toNat c act = none → v.filled.getLsbD j.toNat = false → Elem.ofWord fw.toNat = some f →
    ∃ t, exec i s' = .next t ∧ sameBytes s t ∧ s.pastPc t ∧
      let w := t.curTeam.slotAt slot.toNat
      w.filled = v.filled ||| BitVec.ofNat 4 (2 ^ j.toNat) ∧ w.fw = fw ∧ w.broken = v.broken ∧
        ∀ r, r < 16 → w.row r = if r / 4 = j.toNat then (pushedRow f s.curGroup d a act fw.toNat (r % 4)).1 else v.row r) ∧
  ∀ (d : Nat) (a : BitVec 5) (off row : BitVec 4) (cb : BitVec 2) (p : Pred) (s : State), s.cleanPred p →
    (s.readS a).tag = none → s.curTeam.banksHeld ((s.readS a).val.toNat % 16 + off.toNat) 1 = true →
    ∃ t, exec (.mpull d a off row cb p) s = .next t ∧ laneFrame s t p ∧
      ∀ l, s.active p l →
        laneV s t l 0 (one d (clear (s.curTeam.elem ((s.readS a).val.toNat % 16 + off.toNat) row.toNat (32 * cb.toNat + l))))

/-- R205: `accalloc` takes the lowest run of free banks, sets their elements to +0 and tells the first in s[d]; `accfree`
gives held banks back. Each does so when it issues or when its wait ends; other banks and their elements stay. -/
def Obligations.BanksAllocated : Prop :=
  ∀ (d a n : BitVec 5) (off : BitVec 4) (s s' : State) (i : Instr) (b : Nat), 1 ≤ n.toNat → b + n.toNat ≤ 16 →
    let inRun (k : Nat) : Prop := b ≤ k ∧ k < b + n.toNat
    let zeroed (t : State) : Prop :=
      ∀ k r c, k < 16 → r < 16 → c < 128 →
        (inRun k → t.curTeam.elem k r c = 0) ∧ (¬inRun k → t.curTeam.elem k r c = s.curTeam.elem k r c)
    (runsAs i s' (.accalloc d n) s .accallocResume → (∀ k, inRun k → s.curTeam.bankFree k = true) →
      (∀ c, c < b → ∃ k, c ≤ k ∧ k < c + n.toNat ∧ s.curTeam.bankFree k = false) →
      ∃ t, exec i s' = .next t ∧ sameBytes s t ∧ s.pastPc t ∧ zeroed t ∧
        (∀ k, k < 16 → (t.curTeam.bankFree k = true ↔ s.curTeam.bankFree k = true ∧ ¬inRun k)) ∧
        ∀ r, t.readS r = if r = 0 then clear 0 else if r = d then clear (BitVec.ofNat 64 b) else s.readS r) ∧
    (runsAs i s' (.accfree a off n) s .accfreeResume → (s.readS a).val.toNat % 16 + off.toNat = b →
      (∀ k, inRun k → s.curTeam.bankFree k = false) → s.curTeam.banksNamed b n.toNat = false →
      ∃ t, exec i s' = .next t ∧ sameBytes s t ∧ s.pastPc t ∧ zeroed t ∧
        (∀ k, k < 16 → (t.curTeam.bankFree k = true ↔ s.curTeam.bankFree k = true ∨ inRun k)) ∧ ∀ r, t.readS r = s.readS r)

/-- R209: `tdesc` reads the 32 bytes of a tile descriptor and keeps them under its handle. -/
def Obligations.TileDescriptorRead : Prop :=
  ∀ (h : BitVec 4) (a : BitVec 5) (off : BitVec 22) (s : State) (spot : Nat → Spot), (s.readS a).tag = none → s.noWrites →
    let va := ((s.readS a).val + off.signExtend 64).toNat
    (∀ i, i < 4 → s.steady (spot i) ∧
      s.lands s.cur.party.groupNo i 8 (va + 8 * i) (uniformReach s .gen (va + 8 * i)) .read false .fab (spot i)) →
    let d := leValue ((List.range 4).flatMap fun i => (List.range 8).map (s.byteAt (spot i)))
    tileReserved d = false → (Tile.ofNat d).fmt < 8 → (Tile.ofNat d).rowBytes ≤ (Tile.ofNat d).pitch →
    ∃ t, exec (.tdesc h a off) s = .next t ∧ (∀ k, readMem t.mem k = readMem s.mem k) ∧ s.pastPc t ∧
      lookup? t.curTeam.handles h.toNat = some (BitVec.ofNat 256 d) ∧ (∀ r, t.readS r = s.readS r) ∧
      ∀ g, g ≠ h.toNat → lookup? t.curTeam.handles g = lookup? s.curTeam.handles g

/-! ### Barriers (spec chapter 10) -/

/-- R243 to R247: arrivals, drops and `init` of a group or a sequencer change a named barrier as their rules say; the phase completes
when nothing is pending, and releases the token of every party that is pending or waits there, with the phase's arrivals; `bar.count`
reads it. A wait completes, when it issues or when its party looks again, once the party's token is released or nothing is expected, and
uses the token up; a `sync` whose arrival completes the phase completes at once. A sequencer's `ubar` acts once its earlier arrivals at
the barrier have. No byte of memory changes. -/
def Obligations.NamedBarriers : Prop :=
  (∀ (b : BitVec 4) (p : Pred) (d : Nat) (n : BitVec 12) (s : State),
     let v := s.curTeam.bar b.toNat
     let me := s.cur.party.number
     let lanes := (List.range 32).countP fun l => s.cur.lanes.getLsbD l && (predOf (s.curGroup.lane l) p).val
     let released (k : Token) (evs : List Nat) : Token := if k = .pending ∨ k = .waiting then .released evs else k
     let arrives (i : Instr) (c : Nat) : Prop := c ≤ v.pending →
       ∃ t, exec i s = .next t ∧ sameBytes s t ∧ s.pastPc t ∧
         let w := t.curTeam.bar b.toNat
         let mine (q : Nat) : Token := if q = me then .pending else s.curTeam.token q b.toNat
         w.expected = v.expected ∧
           if v.pending = c then
             w.phase = v.phase + 1 ∧ w.pending = v.expected ∧ w.arrivals = [] ∧
               ∃ evs, (∀ e ∈ v.arrivals, e ∈ evs) ∧ ∀ q, t.curTeam.token q b.toNat = released (mine q) evs
           else w.phase = v.phase ∧ w.pending = v.pending - c ∧ ∀ q, t.curTeam.token q b.toNat = mine q
     let drops (i : Instr) (c : Nat) : Prop := c ≤ v.pending → c ≤ v.expected →
       ∃ t, exec i s = .next t ∧ sameBytes s t ∧ s.pastPc t ∧
         let w := t.curTeam.bar b.toNat
         w.expected = v.expected - c ∧
           if v.pending = c then
             w.phase = v.phase + 1 ∧ w.pending = v.expected - c ∧
               ∀ q, t.curTeam.token q b.toNat = released (s.curTeam.token q b.toNat) v.arrivals
           else w.phase = v.phase ∧ w.pending = v.pending - c ∧ ∀ q, t.curTeam.token q b.toNat = s.curTeam.token q b.toNat
     (s.cleanPred p → s.cur.party.isGroup = true →
       arrives (.barArrive b p) lanes ∧ drops (.barDrop b p) lanes ∧
       ∃ t, exec (.barCount d b p) s = .next t ∧ laneFrame s t p ∧
         ∀ l, s.active p l →
           laneV s t l 0 (one d (clear (BitVec.ofNat 32 (v.pending + v.expected * 2 ^ 16 + v.phase.toNat * 2 ^ 28))))) ∧
     (s.barBehind b.toNat = false →
       arrives (.ubarArrive b) 1 ∧ drops (.ubarDrop b) 1 ∧
       ∃ t, exec (.ubarInit b n) s = .next t ∧ sameBytes s t ∧ s.pastPc t ∧
         t.curTeam.bar b.toNat = { v with expected := n.toNat, pending := n.toNat } ∧ t.curTeam.tokens = s.curTeam.tokens)) ∧
  ∀ (b : BitVec 4) (p : Pred) (s s' : State) (i : Instr),
     let v := s.curTeam.bar b.toNat
     let me := s.cur.party.number
     let lanes := (List.range 32).countP fun l => s.cur.lanes.getLsbD l && (predOf (s.curGroup.lane l) p).val
     let waits (j : Instr) : Prop := runsAs i s' j s .barWaitComplete →
       ((∃ evs, s.curTeam.token me b.toNat = .released evs) ∨ v.expected = 0) →
       ∃ t, exec i s' = .next t ∧ sameBytes s t ∧ s.pastPc t ∧ t.curTeam.token me b.toNat = .none ∧ t.curTeam.bar b.toNat = v
     let syncs (j : Instr) (c : Nat) : Prop := c = v.pending →
       ∃ t, exec j s = .next t ∧ sameBytes s t ∧ s.pastPc t ∧ t.curTeam.token me b.toNat = .none ∧
         (t.curTeam.bar b.toNat).phase = v.phase + 1 ∧ (t.curTeam.bar b.toNat).pending = v.expected
     (s.cur.party.isGroup = true → s.cleanPred p → waits (.barWait b p) ∧ syncs (.barSync b p) lanes) ∧
     (s.barBehind b.toNat = false → waits (.ubarWait b) ∧ syncs (.ubarSync b) 1)

/-- R237 to R241: `txb` on one barrier of the scratchpad, by all its active lanes, and `utxb`, of a group or a sequencer, update it as
one step: `init`, arrivals, pending sectors; the phase completes when neither an arrival nor a sector is pending. Bytes outside the
barrier's 16 stay, but for what an arrival, a release at cluster scope, writes back. A wait completes, when it issues or when its
party looks again, once every barrier has left the phase waited for, and drops the shared lines of L1, as an acquire at cluster
scope; a test tells each lane. -/
def Obligations.TransactionBarriers : Prop :=
  (∀ (a b : Reg) (p : Pred) (sa sb : BitVec 5) (off : BitVec 22) (s : State) (m o top : Nat),
     let lanes := (List.range 32).filter fun l => s.cur.lanes.getLsbD l && (predOf (s.curGroup.lane l) p).val
     let ua := ((s.readS sa).val + off.signExtend 64).toNat
     let old := s.txb m o
     let at' (l ad : Nat) : Prop := s.lands s.cur.party.groupNo l 16 ad (s.decodeGeneric s.cur.team ad) .atomic false .fab (.pad m o)
     let sum : Int := (lanes.map fun l => (s.val l b).toInt).sum
     let good (c : Nat) : Prop := 1 ≤ c ∧ c < 2 ^ 20
     let becomes (i : Instr) (arrives : Bool) (new : Txb) : Prop :=
       s.mayRelease arrives true →
       ∃ t, exec i s = .next t ∧ s.pastPc t ∧ (∀ k, readMem t.mem k = readMem (s.released arrives).mem k) ∧ t.txb m o = new.settle ∧
         ∀ u q, u ≠ m ∨ q < o ∨ o + 16 ≤ q → Map.get 0 (t.team u).pad q = Map.get 0 (s.team u).pad q
     (s.team m).mapAt o = none →
     (s.cur.party.isGroup = true → s.cleanPred p → s.active p top → (∀ l, s.active p l → l ≤ top) →
       (∀ l, s.active p l → s.clean64 l [a] ∧ s.clean l [b] ∧ at' l (s.val64 l a).toNat) →
       ((∀ l, s.active p l → good (s.val l b).toNat) → becomes (.txbInit a b p) false ⟨0, (s.val top b).toNat, (s.val top b).toNat, 0, 0, 0⟩) ∧
       (lanes.length ≤ old.pending → becomes (.txbArrive a p) true { old with pending := old.pending - lanes.length }) ∧
       becomes (.txbExpect a b p) false (old.addSectors sum) ∧
       (lanes.length ≤ old.pending → becomes (.txbArrivex a b p) true { old.addSectors sum with pending := old.pending - lanes.length })) ∧
     ((s.readS sa).tag = none → (s.readS sb).tag = none → at' 0 ua →
       (good (s.readS sb).val.toNat → becomes (.utxbInit sa sb off) false ⟨0, (s.readS sb).val.toNat, (s.readS sb).val.toNat, 0, 0, 0⟩) ∧
       (1 ≤ old.pending → becomes (.utxbArrive sa off) true { old with pending := old.pending - 1 }) ∧
       becomes (.utxbExpect sa sb off) false (old.addSectors (s.readS sb).val.toInt))) ∧
  (∀ (d : BitVec 3) (a b : Reg) (p : Pred) (sa sb : BitVec 5) (off : BitVec 22) (s s' : State) (i : Instr) (team bar : Nat → Nat),
     let lands (l ad : Nat) : Prop :=
       s.lands s.cur.party.groupNo l 16 ad (s.decodeGeneric s.cur.team ad) .atomic false .fab (.pad (team l) (bar l)) ∧
         (s.team (team l)).mapAt (bar l) = none
     let left (l phase : Nat) : Bool := decide ((s.txb (team l) (bar l)).phase ≠ phase % 16)
     let ua := ((s.readS sa).val + off.signExtend 64).toNat
     (s.cur.party.isGroup = true → s.cleanPred p → (∀ l, s.active p l → s.clean64 l [a] ∧ s.clean l [b] ∧ lands l (s.val64 l a).toNat) →
       (runsAs i s' (.txbWait a b p) s .txbWaitComplete → (∀ l, s.active p l → left l (s.val l b).toNat = true) →
         ∃ t, exec i s' = .next t ∧ sameBytes s t ∧ s.pastPc t ∧ ∀ e ∈ t.curTeam.l1, e.2 = .own) ∧
       ∃ t, exec (.txbTest d a b p) s = .next t ∧ sameBytes s t ∧ s.pastPc t ∧
         ∀ l, s.active p l → laneK s t l d 0 (left l (s.val l b).toNat)) ∧
     (runsAs i s' (.utxbWait sa sb off) s .txbWaitComplete → (s.readS sa).tag = none → (s.readS sb).tag = none → lands 0 ua →
       left 0 (s.readS sb).val.toNat = true → ∃ t, exec i s' = .next t ∧ sameBytes s t ∧ s.pastPc t ∧ ∀ e ∈ t.curTeam.l1, e.2 = .own))

/-! ### The machine as a whole (spec chapters 01, 02, 03, 06) -/

/-- R41, R43 (Tables 2.1 to 2.11): for every well-formed instruction, the decoder reads back from its words the instruction,
with every operand at every value that the encoding admits; a second word follows where the L bit says so. -/
def Obligations.InstructionRoundTrip : Prop :=
  ∀ (i : Instr) (c : Code), i.wellFormed = true → encode i = some c →
    decode c.w1 (c.w2.getD 0) = .ok i ∧ c.w1 < 2 ^ 32 ∧ c.w2.getD 0 < 2 ^ 32 ∧
      ((∀ w, i ≠ .undefinedOpcode w) → c.w2.isSome = hasSecond c.w1)

/-- R45, R48, R57, R59, R62: where the words at the broadcast PC of the group that executes in this turn decode to an instruction, and
every v register that it names is backed, the step is the instruction's meaning in the lanes at that PC, once what is late and must come before it has
come (R307). Fetching moves no PC and changes no register and, where nothing late is performed first, no byte. Where lanes run from
their loop buffers, the step is the joint issue of them and of the broadcast instruction, if there is one. -/
def Obligations.StepRunsGroupWord : Prop :=
  ∀ (s p q : State) (t g : Nat) (bufs : List (BitVec 56 × BitVec 32)) (cast : Option (BitVec 56)), s.turnsTo ⟨t, .group g⟩ p →
    ((p.team t).group g).replayable = false → p.lateArrivals t g = [] → p.hasRaced t = false → p.executesNow q t g bufs cast →
    let y := (p.team t).group g
    (∀ (i : Instr) (w1 w2 : Word) (pc : BitVec 56), cast = some pc → q.stillBuffered t g bufs = [] →
      q.holdsAt t (.group g) pc.toNat i w1 w2 → (q.team t).beyondQuota g i = false → q.cannotIssue t g i = false →
      ∃ r, step s = exec i (r.settled i) ∧ r.cur = ⟨t, .group g, y.lanesAt pc, pc, if hasSecond w1.toNat then 2 else 1, w1, w2⟩ ∧
        (p.lates = [] → r.settled i = r) ∧
        (keepsLate i w1 = true ∨ (∀ x ∈ p.lates, x.of t (.group g) = true → x.rmw = none) →
          sameBytes p r ∧ r.log = p.log ∧ (∀ k, r.readS k = y.readS k.toNat) ∧
            ∀ k, let x := y.lane k
              let z := r.curGroup.lane k
              z.pc = x.pc ∧ z.v = x.v ∧ z.k = x.k ∧ z.status = x.status ∧ z.cond = x.cond)) ∧
    ∀ bs, q.stillBuffered t g bufs = bs → bs ≠ [] → step s = .next (q.runJoint t g bs cast)

/-- R45, R48, R139, R268: where the words at a running sequencer's PC decode to an instruction that it may execute, in an issue cycle
in which it has not issued and with its sources ready, the step is the instruction's meaning. An event of the agenda, or a release, is
the step as it stands once the turn's time has passed; one that ends a party's wait falls in an issue cycle, and gives way to a CONVTO
of its group (R80, R268). -/
def Obligations.StepRunsStreamWord : Prop :=
  (∀ (s p : State) (t : Nat) (q : Party) (i : Instr) (w1 w2 : Word), q = .matrix ∨ q = .copy → s.turnsTo ⟨t, q⟩ p →
    (p.team t).residency = .resident → ((p.team t).stream q).state = .running → ((p.team t).stream q).failing = none →
    (∀ w, ((p.team t).stream q).wait = some w → waitsOn ⟨t, q⟩ w.instr = false ∧ p.heldStill ⟨t, q⟩ w = false) →
    p.inIssueCycle t = true → p.unpicked t (streamKey q) = true → p.hasRaced t = false → ((p.team t).stream q).sourcesReady i = true →
    p.holdsAt t q ((p.team t).stream q).pc.toNat i w1 w2 →
    let y := (p.team t).stream q
    ∃ r, step s = exec i (r.settled i) ∧ (p.lates = [] → r.settled i = r) ∧
      r.cur = ⟨t, q, 1, y.pc, if hasSecond w1.toNat then 2 else 1, w1, w2⟩ ∧ sameBytes p r ∧ r.log = p.log ∧
      r.curStream = { y with wait := none, lastPc := y.lastIssued, tried := y.pc.toNat }) ∧
  ∀ (s p : State) (u : Turn) (us : List Turn), s.agenda = u :: us → s.timePasses u us p →
    (∀ i, u.act = .event i → resumes i = none → step s = exec i (p.settled i)) ∧
    (∀ i r, u.act = .event i → resumes i = some r →
      (r.party.isGroup = true → p.overdue r.team r.party.groupNo = false) → p.inIssueCycle r.team = true → step s = exec i (p.settled i)) ∧
    (∀ i r, u.act = .event i → resumes i = some r → r.party.isGroup = true → p.overdue r.team r.party.groupNo = true →
      step s = exec (.convto r) (p.settled (.convto r))) ∧
    (∀ h, u.act = .host h → step s = .next (p.hostAct h)) ∧ ∀ t, u.act = .release t → step s = .next (p.releaseMove t)

/-- Every step keeps memory in its canonical form: addresses strictly rise, and no byte that reads as the default is listed. -/
def Obligations.StepKeepsMemoryForm : Prop := ∀ s t : State, s.Inv → step s = .next t → t.Inv

/-- The machine after reset has its memory in canonical form. -/
def Obligations.ResetHasMemoryForm : Prop := State.reset.Inv

/-- R267, R335, R365, R367, R370, R371, R382: right after reset the clocks stand at zero, no context and no team is there, no
link is in low power and no die gated, dead or drifted; a slice runs at ratio 8/8 with the grant and the matrix step at 0; no register
block is enabled (R381, Table 24.5). That clocks, contexts, teams, links, dies and slices start so is the model's choice (log 4), and
so are memory that reads as zero throughout (log 3) and the cap and the ramp limit (log 15). -/
def Obligations.ResetState : Prop :=
  let s := State.reset
  s.gtime = 0 ∧ (∀ c, Map.get 0 s.clk c = 0) ∧ (∀ t, (s.team t).residency = .absent) ∧ (∀ t, s.hasCtx t = false) ∧
    (∀ a, readMem s.mem a = 0) ∧ (∀ l, (s.link l).low = false) ∧
    (∀ d, (s.die d).gated = false ∧ (s.die d).dead = false ∧ (s.die d).drifted = false ∧ (s.die d).setPoint = 36) ∧
    (∀ c k, Map.get Slice.reset (s.cluster c).slices k = ⟨.steady 8, .steady 0, .steady 0⟩) ∧ (∀ b, (s.block b).enable = false) ∧
    s.pkg.cap = 1800 ∧ s.pkg.ramp = 50

/-! ### Traps and the handler (spec chapter 11) -/

/-- R68, R37, R249 to R251: a trap of a group outside handler mode, with a handler, writes the record (Table 11.2) to the group's place in
the trap area and enters the handler: s28 and s29, handler mode, the PCs of the live lanes. Nothing else changes but those bytes, and the
tokens that the group's abandoned waits at barriers have left (R247). `brk` with an active lane and a word of an undefined op are such
traps. The model's choices: the lanes that the record of a uniform trap names, its execution set (log 22), and that a poisoned sector of the
record keeps its bit (log 66). -/
def Obligations.TrapEntersHandler : Prop :=
  (∀ (i : TrapInfo) (s s1 : State), s.cur.party.isGroup = true → s.curGroup.handler = false → s.curCtx.handler ≠ 0 → i.origin = none →
    let at' := s.recordAddr s.cur.team s.cur.party.number
    s.writeRecord s.cur.team s.cur.party.number (s.recordOf i) = .ok s1 →
    let t := s.trap i
    ∃ r, s.describes i r ∧ r.flags = i.flags ∧ t.curGroup.record = some r ∧
      (∀ k, s.devKey s.curTeam.ctx at' .write = .ok k → at' % 2 ^ 18 + 384 ≤ 2 ^ 18 → wroteBytes s t k (recordBytes r)) ∧
      (∃ m lg tk y, t = (({ s with mem := m, log := lg } : State).mapCurTeam fun x => { x with tokens := tk }).mapCurGroup fun _ => y) ∧
      (∀ q b, b < 16 → t.curTeam.token q b ≠ .waiting ∨ q ≠ s.cur.party.number) ∧
      (∀ q b, b < 16 → q ≠ s.cur.party.number ∨ s.curTeam.token q b ≠ .waiting → t.curTeam.token q b = s.curTeam.token q b) ∧
      t.curGroup.handler = true ∧ t.curGroup.replayable = false ∧ t.curGroup.wait = none ∧
      (∀ n : BitVec 5, t.readS n =
        if n = 28 then clear (BitVec.ofNat 64 at') else if n = 29 then clear (BitVec.ofNat 64 i.code) else s.readS n) ∧
      ∀ l, l < 32 →
        t.curGroup.lane l =
          if (s.curGroup.lane l).cond = .live then
            { s.curGroup.lane l with pc := BitVec.ofNat 56 s.curCtx.handler, winBase := 0, winEnd := 0, waitv := none, arrived := none }
          else s.curGroup.lane l) ∧
  (∀ (code : BitVec 7) (p : Pred) (s : State), let act := activeMask s.curGroup s.cur.lanes p
    exec (.brk code p) s =
      .next (if act = 0 then s.advance else s.trap { code := 0x80 + code.toNat, lanes := act, past := true })) ∧
  ∀ (w : Word) (s : State), exec (.undefinedOpcode w) s = .next (s.trap { code := 1, lanes := s.cur.lanes })

/-- R252, R264, R254: a trap of a group in handler mode ends its grid with 0xFFFF_FF00 and the code; one without a handler ends
it with the code; `tkill` ends it with the low half of s[A]. The first status of a grid stays (R255). -/
def Obligations.TrapEndsGrid : Prop :=
  (∀ (i : TrapInfo) (s s1 : State) (r : Record), s.cur.party.isGroup = true → s.curGroup.handler = true →
    r = s.recordOf { i with flags := i.flags ||| recDouble } → s.writeRecord s.cur.team s.cur.party.number r = .ok s1 →
    r.flags = i.flags ||| 8 ∧ r.code = BitVec.ofNat 8 i.code ∧ (s.trap i).mem = s1.mem ∧
      gridEnded s (s.trap i) s.curTeam.grid (BitVec.ofNat 32 (0xFFFFFF00 + i.code))) ∧
  (∀ (i : TrapInfo) (s s1 : State), s.cur.party.isGroup = true → s.curGroup.handler = false → s.curCtx.handler = 0 →
    s.writeRecord s.cur.team s.cur.party.number (s.recordOf i) = .ok s1 →
    (∀ n ∈ [28, 29, 30, 31], Map.get 0 (s.recordOf i).savedS n = (s.curGroup.readS n).val) ∧ (s.trap i).mem = s1.mem ∧
      gridEnded s (s.trap i) s.curTeam.grid (BitVec.ofNat 32 i.code)) ∧
  ∀ (a : BitVec 5) (s : State), s.cur.party.isGroup = true → s.curGroup.handler = true →
    ∃ t, exec (.tkill a) s = .next t ∧ gridEnded s t s.curTeam.grid ((s.readS a).val.setWidth 32) ∧ t.mem = s.mem

/-- R254: in handler mode `tret` reads the record at s28 with plain loads and takes s28 to s31 and the PCs of the live lanes from it;
it leaves handler mode. `tsusp` suspends its group. Outside handler mode `tret`, `tkill` and `tsusp` raise PRIV. -/
def Obligations.HandlerInstructions : Prop :=
  (∀ (s : State) (spot : Nat → Spot), s.cur.party.isGroup = true → s.curGroup.handler = true → s.noWrites →
    let a := (s.readS 28).val.toNat
    let g := s.cur.party.groupNo
    let s0 := s.performOwn .team
    a % 8 = 0 →
    (∀ i, i < 48 → s0.recordUnit s.cur.team g (a + 8 * i) = .ok (spot i) ∧ s0.peerCode (spot i) false .team = none ∧
      s0.sectorPoisoned (spot i) 8 = false ∧ s.steady (spot i)) →
    let word (o : Nat) : DWord := BitVec.ofNat 64 (leValue ((List.range 8).map (s.byteAt (spot (o / 8)))))
    ∃ t, exec .tret s = .next t ∧ sameBytes s t ∧ (∀ h, h ≠ g → t.curTeam.group h = s.curTeam.group h) ∧
      t.curGroup.handler = false ∧ t.curGroup.suspended = false ∧
      (∀ n : BitVec 5, t.readS n = if 28 ≤ n.toNat then clear (word (8 * n.toNat - 176)) else s.readS n) ∧
      ∀ l, l < 32 →
        t.curGroup.lane l =
          if (s.curGroup.lane l).cond = .live then
            { s.curGroup.lane l with pc := (word (0x80 + 8 * l)).setWidth 56, waitv := none, arrived := none }
          else s.curGroup.lane l) ∧
  (∀ s : State, s.cur.party.isGroup = true → s.curGroup.handler = true →
    exec .tsusp s =
      .next (s.setTeam s.cur.team (s.curTeam.setGroup s.cur.party.groupNo
        { s.curGroup with suspended := true, wait := some ⟨.tsusp, s.cur, s.now⟩ }))) ∧
  ∀ (a : BitVec 5) (s : State), s.curGroup.handler = false → ∀ i ∈ [Instr.tret, .tkill a, .tsusp],
    exec i s = .next (s.trap { code := 3, lanes := s.cur.lanes })

/-- R80: CONVTO is raised at a convergent instruction whose first arrival is 2^20 clk old, for the live participants that have
not arrived, as the event and where the instruction itself issues with such an arrival. Of two such instructions the event takes
the lowest late lane's: the model's choice, log 50. R260: the watchdog raises WATCHDOG at the waiting instruction of every party of its team that waits, and
nowhere else. -/
def Obligations.TimeoutTraps : Prop :=
  (∀ (p : PartyRef) (s : State) (l : Nat) (a : Arrival) (c : BitVec 5),
    let y := (s.team p.team).group p.party.groupNo
    let late (k : Nat) (b : Arrival) : Prop := (y.lane k).cond = .live ∧ (y.lane k).arrived = some b ∧ 2 ^ 20 ≤ s.clkOf p.team - b.since
    l < 32 → late l a → (∀ k b, k < l → ¬late k b) → convC a.instr = some c →
    ∃ here mask : BitVec 32,
      (∀ k, here.getLsbD k = true ↔ k < 32 ∧ (y.lane k).cond = .live ∧ (y.lane k).pc = a.issue.pc) ∧
      (∀ k, mask.getLsbD k = true ↔
        k < 32 ∧ (participants y c).getLsbD k = true ∧ (y.lane k).cond = .live ∧ (y.lane k).pc ≠ a.issue.pc) ∧
      exec (.convto p) s = .next (({ s with cur := { a.issue with lanes := here } } : State).trap { code := 0xB, lanes := mask })) ∧
  (∀ (i : Instr) (c : BitVec 5) (s : State) (l : Nat) (a : Arrival), s.cur.party.isGroup = true → convC i = some c →
    s.cur.lanes.getLsbD l = true → (participants s.curGroup c).getLsbD l = true →
    (s.curGroup.lane l).cond = .live → (s.curGroup.lane l).arrived = some a → 2 ^ 20 ≤ s.now - a.since →
    ∃ mask : BitVec 32,
      (∀ k, mask.getLsbD k = true ↔ k < 32 ∧ (participants s.curGroup c).getLsbD k = true ∧ (s.curGroup.lane k).cond = .live ∧
        s.cur.lanes.getLsbD k = false) ∧
      exec i s = .next (s.trap { code := 0xB, lanes := mask })) ∧
  ∀ (team : Nat) (s : State), s.watchdogDue team = true →
    exec (.watchdog team) s =
      .next (parties.foldl (fun u p => u.watchParty team p) (s.setTeam team { s.team team with idleSince := s.gtime })) ∧
    ∀ (u : State) (g : Nat) (q : Party), (u.team team).residency = .resident →
      (∀ i, ((u.team team).group g).watchedIssue = some i →
        u.watchParty team (.group g) = ({ u with cur := i } : State).trap { code := 0x10, lanes := i.lanes }) ∧
      (((u.team team).group g).watchedIssue = none → u.watchParty team (.group g) = u) ∧
      (q = .matrix ∨ q = .copy →
        (∀ w, u.waitOf ⟨team, q⟩ = some w → u.watchParty team q = ({ u with cur := w.issue } : State).streamTrap { code := 0x10 }) ∧
        (u.waitOf ⟨team, q⟩ = none → u.watchParty team q = u))

/-- R253: a trap of a sequencer stops the stream with the code and the record. R218: at an error found after a matrix instruction
issued, what had started stays in the engine and the rest leaves it; the matrix stream stops with the deferred trap once what had started
has completed, at once where nothing had. -/
def Obligations.StreamTrapStops : Prop :=
  (∀ (i : TrapInfo) (s s1 : State), s.cur.party ≠ .group s.cur.party.groupNo → i.origin = none →
    s.writeRecord s.cur.team s.cur.party.number (s.recordOf i) = .ok s1 →
    let t := s.trap i
    t.cur = s.cur ∧ ∃ r, s.describes i r ∧ r.flags = i.flags ∧
      t.curStream = { s.curStream with state := .stopped (BitVec.ofNat 8 i.code), wait := none, record := some r } ∧
      (s.curTeam.allEnded = false → t.curTeam.residency = s.curTeam.residency) ∧ t.mem = s1.mem ∧
      ∀ u, u ≠ s.cur.team → t.team u = s.team u) ∧
  (∀ (team id code : Nat) (o : EngineOp) (s s1 : State), (s.team team).opOf id = some o → o.phase ≠ .done →
    (s.team team).residency = .resident → s.deferredCode team o = some code →
    let x := s.team team
    x.matrix.state = .running → x.matrix.failing = none →
    let kept := x.engine.filter fun e => decide (e.id ≠ o.id) && (decide (e.id < o.id) || e.begun)
    let mask := completedMask (x.engine.filter fun e => decide (o.id < e.id))
    let u : State := { s.setTeam team { x with engine := kept } with cur := { o.issue with team := team, party := .matrix } }
    let i : TrapInfo := { code := code, flags := 32, lastIssued := x.matrix.lastIssued, completed := mask }
    u.writeRecord team 16 (u.recordOf i) = .ok s1 →
    ∃ t, exec (.deferredTrap team id) s = .next t ∧ (t.team team).engine = kept ∧ (t.team team).bankData = x.bankData ∧
      ((∃ e ∈ kept, e.phase ≠ .done) → t.mem = s.mem ∧ (t.team team).matrix = { x.matrix with failing := some ⟨o.issue, code, mask⟩ }) ∧
      ((∀ e ∈ kept, e.phase = .done) → t.mem = s1.mem ∧ (t.team team).matrix.state = .stopped (BitVec.ofNat 8 code) ∧
        (t.team team).matrix.failing = none ∧
        ∃ r, (t.team team).matrix.record = some r ∧ u.describes i r ∧ r.flags = 32 ∧ r.lastIssued = x.matrix.lastIssued)) ∧
  ∀ (team id : Nat) (o : EngineOp) (m : MmaX) (a : BitVec 5) (f : Failing) (s s1 : State), (s.team team).opOf id = some o →
    o.phase ≠ .done → o.instr = .mma m a → 16 ≤ o.rows → (s.team team).residency = .resident → (s.team team).matrix.failing = some f →
    (∀ e ∈ (s.team team).engine, e.id ≠ id → e.phase = .done) →
    let u : State := { s with cur := { f.issue with team := team, party := .matrix } }
    let i : TrapInfo := { code := f.code, flags := 32, lastIssued := (s.team team).matrix.lastIssued, completed := f.completed }
    u.writeRecord team 16 (u.recordOf i) = .ok s1 →
    ∃ t, exec (.mmaCompletion team id) s = .next t ∧ t.mem = s1.mem ∧ (t.team team).matrix.state = .stopped (BitVec.ofNat 8 f.code) ∧
      ∃ r, (t.team team).matrix.record = some r ∧ u.describes i r ∧ r.flags = 32 ∧ r.completed = f.completed

/-! ### Teams, registers, rotation (spec chapters 06, 16) -/

/-- R147, R148, R253: `fork` starts the streams that it names, with the group's s registers and role, or raises STREAM where one is running
or ended; `rdv` completes once no stream runs, when it issues or when its wait ends, raises a stopped stream's code, the matrix stream's
first, and waits while a stream runs. That the bits of a target above the address space are cut off is the model's choice (log 52). -/
def Obligations.ForkAndJoin : Prop :=
  (∀ (mdisp : BitVec 22) (cdisp : BitVec 24) (s : State), s.cur.party.isGroup = true →
    let x := s.curTeam
    let busy (y : Stream) : Prop := y.state = .running ∨ y.state = .ended
    ((mdisp ≠ 0 ∧ busy x.matrix ∨ cdisp ≠ 0 ∧ busy x.copy) →
      exec (.fork mdisp cdisp) s = .next (s.trap { code := 2, lanes := s.cur.lanes })) ∧
    ((mdisp ≠ 0 → ¬busy x.matrix) → (cdisp ≠ 0 → ¬busy x.copy) →
      ∃ t, exec (.fork mdisp cdisp) s = .next t ∧ sameBytes s t ∧ s.pastPc t ∧ (∀ n, t.readS n = s.readS n) ∧
        ∀ o ∈ [(decide (mdisp = 0), mdisp.signExtend 64, x.matrix, t.curTeam.matrix),
               (decide (cdisp = 0), cdisp.signExtend 64, x.copy, t.curTeam.copy)],
          if o.1 then o.2.2.2 = o.2.2.1
          else
            let z := o.2.2.2
            z.state = .running ∧ z.pc = (s.cur.pc.setWidth 64 + o.2.1 * 4).setWidth 56 ∧ z.s = s.curGroup.s ∧ z.role = s.curGroup.role ∧
              z.status = 0 ∧ z.chain = .closed ∧ z.wait = none)) ∧
  ∀ (i : Instr) (s' s : State), runsAs i s' .rdv s .rdvComplete → s.cur.party.isGroup = true →
    let x := s.curTeam
    (x.matrix.code = none → x.copy.code = none →
      (x.matrix.state ≠ .running → x.copy.state ≠ .running →
        ∃ t, exec i s' = .next t ∧ sameBytes s t ∧ s.pastPc t ∧ (∀ n, t.readS n = s.readS n) ∧
          t.curTeam.matrix = (if x.matrix.state = .ended then { x.matrix with state := .idle } else x.matrix) ∧
          t.curTeam.copy = (if x.copy.state = .ended then { x.copy with state := .idle } else x.copy)) ∧
      (x.matrix.state = .running ∨ x.copy.state = .running → ∃ t, exec i s' = .next t ∧ waitsIn s t .rdv)) ∧
    ∀ c r y, (x.matrix.code = some c ∧ y = x.matrix ∨ x.matrix.code = none ∧ x.copy.code = some c ∧ y = x.copy) → y.record = some r →
      exec i s' = .next (s.trap { code := c.toNat, flags := 16 ||| (r.flags &&& 32), origin := some (r.pc, r.w1, r.w2),
                                  lastIssued := r.lastIssued, completed := r.completed })

/-- R149, R151, R266: `regq` sets the demand within the budget, releases granted units from the quota and demand on, whose registers then
read 0, but for those that an instruction not yet complete still uses, and tells the granted units in s[d]; `yield` marks its group. Both go
on and change nothing else. That a unit whose release is still to come does not count as granted is the model's choice (log 67). -/
def Obligations.RegistersAndYield : Prop :=
  (∀ (d n : BitVec 5) (rd : Bool) (s : State), s.cur.party.isGroup = true →
    let g := s.cur.party.groupNo
    let dem := min n.toNat (s.curTeam.budget g)
    let lo := s.curTeam.quota g + dem
    ∃ t, exec (.regq d rd n) s = .next t ∧ sameBytes s t ∧ onlyGroup s t ∧ s.pastPc t ∧
      t.curGroup.demand = (if rd then s.curGroup.demand else dem) ∧
      (∀ u, u < 28 → t.curGroup.granted.getLsbD u = (s.curGroup.granted.getLsbD u && (rd || decide (u < lo)))) ∧
      (∀ k, t.readS k = if k = 0 then clear 0 else if k = d
        then clear (BitVec.ofNat 64 ((List.range 28).countP fun u => t.curGroup.granted.getLsbD u)) else s.readS k) ∧
      let used (u : Nat) : Bool := s.curGroup.granted.getLsbD u && s.curTeam.unitBusy g u
      (∀ u, u < 28 → t.curGroup.releasing.getLsbD u = (s.curGroup.releasing.getLsbD u || (!rd && decide (lo ≤ u) && used u))) ∧
      ∀ l k, (t.curGroup.lane l).readV k = if rd || decide (k < 8 * lo) || used (k / 8) then (s.curGroup.lane l).readV k else clear 0) ∧
  ∀ s : State, s.cur.party.isGroup = true →
    ∃ t, exec .yield s = .next t ∧ sameBytes s t ∧ t.curGroup.yielded = some s.now ∧ (∀ n, t.readS n = s.readS n) ∧
      (∃ m, t = s.mapCurGroup fun y => { y with lanes := m, yielded := some s.now }) ∧
      ∀ l, t.curGroup.lane l = if s.cur.lanes.getLsbD l then (s.curGroup.lane l).advance s.cur.len else s.curGroup.lane l

/-- R129, R130: a waiting group receives a unit from its quadrant's free pool, or one that another group has held for 256
clk, whose registers go to the spill area of the team's save area where it has one. R35, R279, R135: loads on their way arrive, one that is late with the bytes that stand where nothing has been written, the oldest buffered store is performed, and every 16 clk each role takes
its level. But for the spill area none of it changes a byte of memory. -/
def Obligations.CoreEvents : Prop :=
  (∀ (t g u : Nat) (us : List Nat) (w : Wait) (s : State), s.waitOf ⟨t, .group g⟩ = some w →
    let x := (s.team t).settle
    x.unbacked g w.instr = u :: us → x.residency = .resident → (x.group g).releasing.getLsbD u = false →
    (0 < x.freePool (quadrantOf g) ∨ x.lent g (s.clkOf t) ≠ []) →
    ∃ z, exec (.flexUnitGrant ⟨t, .group g⟩) s = .next z ∧
      ((z.team t).group g).granted.getLsbD u = (decide (u < 28) || (x.group g).granted.getLsbD u) ∧
      (0 < x.freePool (quadrantOf g) ∨ x.area = none → z.mem = s.mem ∧ onlyTeamOf t s z) ∧
      ∀ a v, x.freePool (quadrantOf g) = 0 → x.area = some a → pickLent (x.lent g (s.clkOf t)) = some v → v.group < 16 →
        (∀ k, k < a + 0x40000 ∨ a + 0xB0000 ≤ k → readMem z.mem k = readMem s.mem k) ∧
          ∀ i l, i < 8 → l < 32 → ((x.group v.group).lane l).cond ≠ .never →
            readBytes z.mem (spillAt a v.group (8 * v.unit + i) l) 4 =
              leBytes 4 (((x.group v.group).lane l).readV (8 * v.unit + i)).val.toNat) ∧
  (∀ (t g : Nat) (s : State), (∀ x ∈ s.lates, x.of t (.group g) = false) →
    ∃ z, exec (.loadValueArrival ⟨t, .group g⟩) s = .next z ∧ z.mem = s.mem ∧ onlyTeamOf t s z ∧
      ((z.team t).group g).spend = [] ∧
      ∀ l, l < 32 → ((z.team t).group g).lane l = { ((s.team t).group g).lane l with pend := [] }) ∧
  (∀ (t g l : Nat) (x : LateLoad) (s : State), s.lates.filter (fun x => x.of t (.group g)) = [x] → x.lane = some l → x.rmw = none → s.noWrites →
    let bs := x.units.flatMap fun u => match eventOf s.log u with | some f => f.rd.map s.byteOfKey | none => []
    let ws := loadWords x.width bs
    ∃ z, exec (.loadValueArrival ⟨t, .group g⟩) s = .next z ∧ sameBytes s z ∧ z.lates = s.lates.filter (fun y => decide (y ≠ x)) ∧
      ∀ n, (((z.team t).group g).lane l).readV n =
        if x.dest ≤ n ∧ n < x.dest + ws.length then clear (ws.getD (n - x.dest) 0) else (((s.team t).group g).lane l).readV n) ∧
  (∀ (p : PartyRef) (s : State) (e : MEvent) (newer older : List MEvent), s.log = newer ++ e :: older →
    let mine (f : MEvent) : Prop := sameAgent f.agent (s.agentOf p.team p.party.number) = true ∧ f.performed = false ∧ f.wr ≠ []
    ((s.team p.team).residency ≠ .ended ∨ (s.grid (s.team p.team).grid).status = none) →
    mine e → (∀ f ∈ older, ¬mine f) → (∀ f ∈ newer ++ older, f.id ≠ e.id) →
    exec (.storePerformed p) s = .next { s with log := newer ++ { e with performed := true } :: older }) ∧
  ∀ (t : Nat) (s : State), 16 ≤ s.clkOf t - (s.team t).levelTime →
    exec (.stageLevelUpdate t) s =
      .next (s.setTeam t { s.team t with levels := (s.team t).roles.map (fun e => (e.1, (s.team t).levelOf e.1)), levelTime := s.clkOf t })

/-- R150, R291, R293, R301: `rotreq` is a no-operation unless the context rotates on request; then its team moves to another tile that
may be a destination, exchanged with a team there; its slot's moving bit is set until the release, which counts up %rotgen. R290: the
controller's pairs move as the governor names them. A rotation keeps PCs and registers. -/
def Obligations.Rotation : Prop :=
  (∀ s : State, s.curCtx.rotation ≠ 6 → ∃ t, exec .rotreq s = .next t ∧ movesOn s t noS) ∧
  (∀ s : State, s.cur.party.isGroup = true → s.curCtx.rotation = 6 → s.partnerOk s.cur.team = true →
    (∃ i, i < 192 ∧ i ≠ s.curTeam.tile ∧ s.destOk s.cur.team i = true) →
    (∀ u w, ((s.team u).weave w).mode.switching = false) → (∀ u, (s.team u).matrix.failing = none) → s.lates = [] → s.curGroup.releasing = 0 →
    (∀ i, i ≠ s.curTeam.tile → s.tileTeam s.curTeam.cluster i ≠ some s.cur.team) →
    ∃ t, exec .rotreq s = .next t ∧ t.cur = s.cur ∧ s.pastPc t ∧ t.curTeam.rotgen = s.curTeam.rotgen ∧
      t.curTeam.tile ≠ s.curTeam.tile ∧ s.destOk s.cur.team t.curTeam.tile = true ∧
      t.curTeam.residency = .moving (s.tileTeam s.curTeam.cluster t.curTeam.tile) ∧
      (∃ e, lookup? (t.cluster s.curTeam.cluster).reloc t.curTeam.tile = some e ∧ e.moving = some s.now ∧ e.team = s.cur.team ∧
        e.slot = s.curTeam.slot ∧ e.ctx = s.curTeam.ctx) ∧
      (∀ u, s.tileTeam s.curTeam.cluster t.curTeam.tile = some u →
        (t.team u).tile = s.curTeam.tile ∧ (t.team u).residency = .moving (some s.cur.team)) ∧
      (∀ n, t.readS n = s.readS n) ∧
      ∀ l, (t.curGroup.lane l).v = (s.curGroup.lane l).v ∧ (t.curGroup.lane l).k = (s.curGroup.lane l).k ∧
        (t.curGroup.lane l).status = (s.curGroup.lane l).status) ∧
  (∀ (t : Nat) (s : State), (s.team t).residency = .moving none → (∀ h ∈ (s.cluster (s.team t).cluster).buffer, h.team ≠ t) →
    let z := s.releaseMove t
    (z.team t).residency = .resident ∧ (z.team t).rotgen = (s.team t).rotgen + 1 ∧ (z.team t).lastRotated = s.gtime ∧
      (z.team t).groups = (s.team t).groups ∧ (z.team t).tile = (s.team t).tile ∧ z.mem = s.mem ∧
      ∀ e ∈ (z.cluster (s.team t).cluster).reloc, e.2.team = t → e.2.moving = none) ∧
  ∀ (c a b t : Nat) (s : State), (s.cluster c).considered + 250000 ≤ s.gtime → s.pairsOk c [(a, b)] = true → s.tileTeam c a = some t →
    exec (.rotationConsideration c [(a, b)]) s = .next ((s.setCluster c { s.cluster c with considered := s.gtime }).rotate t b)

/-! ### Weaves (spec chapter 08) -/

/-- R181, R182, R179: `wmode` acts when it issues or at its switch point, once nothing that it waits for is left. A weave in the
mode already takes width, kind and scales at once; else the weave switches for 24 or 8 clk, and `wmode` completes when the
switch ends, with the weave in the mode. No byte of memory changes. -/
def Obligations.WeaveModes : Prop :=
  (∀ (w : BitVec 2) (n : BitVec 3) (bin1 keep : Bool) (i : Instr) (s' s : State) (since : Nat), s.chained = false →
    let v := s.curTeam.weave w.toNat
    s'.wmodeReady s.cur.team s.cur.party w.toNat since = true →
    let new : Weave := { v with n := if bin1 then 1 else n.toNat + 1, bin1 := bin1, scales := if keep then v.scales else [] }
    (runsSince i s' (.wmodeComp w n bin1 keep) s .wmodeSwitchPoint since →
      (v.mode = .compute → ∃ t, exec i s' = .next t ∧ sameBytes s t ∧ s.pastPc t ∧ t.curTeam.weave w.toNat = new) ∧
      (v.mode = .storage → ∃ t, exec i s' = .next t ∧ sameBytes s t ∧ waitsIn s t (.weaveSwitchEnd s.cur.team w) ∧
        t.curTeam.weave w.toNat = { new with mode := .toCompute (s.now + 24) })) ∧
    (runsSince i s' (.wmodeStore w) s .wmodeSwitchPoint since →
      (v.mode = .storage → ∃ t, exec i s' = .next t ∧ sameBytes s t ∧ s.pastPc t ∧ t.curTeam.weave w.toNat = v) ∧
      (v.mode = .compute → ∃ t, exec i s' = .next t ∧ sameBytes s t ∧ waitsIn s t (.weaveSwitchEnd s.cur.team w) ∧
        t.curTeam.weave w.toNat = { v with mode := .toStorage (s.now + 8) }))) ∧
  ∀ (team : Nat) (w : BitVec 2) (p : Party) (v : Wait) (x : Weave) (s : State), x = (s.team team).weave w.toNat → p ∈ parties →
    s.waitOf ⟨team, p⟩ = some v → v.instr = .weaveSwitchEnd team w → v.issue.team = team → v.issue.party = p →
    (∀ q ∈ parties, q ≠ p → ∀ z, s.waitOf ⟨team, q⟩ = some z → ∀ k, z.instr ≠ .weaveSwitchEnd k w) →
    (∀ m, x.mode = .toCompute m ∨ x.mode = .toStorage m → m ≤ s.clkOf team) → x.mode.switching = true →
    ∃ t, exec (.weaveSwitchEnd team w) s = .next t ∧ sameBytes s t ∧ (s.resumeAs ⟨team, p⟩ v).pastPc t ∧ t.waitOf ⟨team, p⟩ = none ∧
      (t.team team).weave w.toNat = { x with mode := match x.mode with | .toCompute _ => .compute | _ => .storage } ∧
      ∀ u, u ≠ team → t.team u = s.team u

/-! ### Launches from a group (spec chapter 23) -/

/-- R359, R360: `launch` reads the 128-byte record after a release at fab scope; where the queue has room the record joins it
and s[D] is 0, else s[D] is 1. `ufence.wait` completes, when it issues or when its party looks again, once the event's state
is 2 or 3, with the event's status in s[D]; else it waits. -/
def Obligations.LaunchAndWait : Prop :=
  (∀ (d a : BitVec 5) (q : BitVec 8) (off : BitVec 22) (s : State) (p : Spot), s.cur.party.isGroup = true → (s.readS a).tag = none →
    let va := ((s.readS a).val + off.signExtend 64).toNat
    let hq := s.curCtx.hwQueue q.toNat
    let s0 := (s.released true).fenceRelOp .fab
    s.mayRelease true true → q.toNat < queueCount s.curCtx.mode → (s.hostQueue hq).owner = some s.curTeam.ctx →
    s.steady p → s0.lands 0 0 128 va (uniformReach s .gen va) .read false .fab p →
    ∃ t, exec (.launch d a q off) s = .next t ∧ s.pastPc t ∧ (∀ k, readMem t.mem k = readMem s0.mem k) ∧
      (∀ r, t.readS r = if r = 0 then clear 0 else if r = d then clear (if s.queueFull hq then 1 else 0) else s.readS r) ∧
      (s.queueFull hq = true → t.hostQueue hq = s.hostQueue hq) ∧
      (s.queueFull hq = false → ∃ bs ev, bs.length = 128 ∧
        (let h := s.hostQueue hq
        t.hostQueue hq = { h with records := h.records ++ [⟨bs, ev⟩], since := if h.head = none ∧ h.records = [] then s.gtime else h.since }) ∧
        (s0.noWrites → bs = (List.range 128).map (s0.byteAt p)))) ∧
  ∀ (d a : BitVec 5) (s s' : State) (i : Instr) (p : Spot), runsAs i s' (.ufenceWait d a) s .ufenceWaitComplete →
    s.cur.party.isGroup = true → (s.readS a).tag = none → s.noWrites → s.steady p →
    let va := (s.readS a).val.toNat
    va % 16 = 0 → s.lands 0 0 8 va (uniformReach s .gen va) .read false .fab p →
    let state := leValue ((List.range 4).map (s.byteAt p))
    let status := leValue ((List.range 4).map fun i => s.byteAt p (4 + i))
    (2 ≤ state → ∃ t, exec i s' = .next t ∧ sameBytes s t ∧ s.pastPc t ∧
      (∀ e ∈ t.curTeam.l1, e.2 = .own) ∧
      ∀ r, t.readS r = if r = 0 then clear 0 else if r = d then clear (BitVec.ofNat 64 status) else s.readS r) ∧
    (state < 2 → ∃ t, exec i s' = .next t ∧ sameBytes s t ∧ waitsIn s t (.ufenceWait d a))

/-! ### The matrix stream (spec chapter 09) -/

/-- R196, R210 to R218: a matrix instruction whose checks pass is handed to the engine with what it read, and the stream goes
on; a chain opens and closes. -/
def Obligations.MatrixIssue : Prop :=
  ∀ s : State, s.cur.party = .matrix → (s.curTeam.engine.filter fun o => decide (o.phase ≠ .done)).length < 32 →
    let x := s.curTeam
    let passes (i : Instr) (a b : Nat) : Prop := ∃ t, exec i s = .next t ∧ s.handedOver t i a b
    let bank (a : BitVec 5) (off : BitVec 4) : Nat := (s.readS a).val.toNat % 16 + off.toNat
    (∀ (m : MmaX) (a : BitVec 5),
      let ws := (List.range 4).filter fun i => m.mask.getLsbD i
      let v := x.weave (ws.headD 0)
      (s.readS a).tag = none → x.banksHeld (bank a m.off) (ws.length * (x.mmaBanksIssue m).toNat) = true → 1 ≤ x.mmaBanksIssue m →
      (∀ w ∈ ws, x.wloadOn w = false ∧ (x.weave w).mode = .compute ∧ (x.weave w).n = v.n ∧ (x.weave w).bin1 = v.bin1) →
      128 * m.cb.toNat < weaveCols v.n →
      (∀ p ∈ mmaSlots m, x.slotReady p = true ∧ (x.slotAt p).broken = false) → s.mmaSlotsOk m ws = true →
      passes (.mma m a) (s.readS a).val.toNat 0) ∧
    (∀ (b : BitVec 4), x.matrix.chain = .closed → passes (.marrive b) 0 0) ∧
    (∀ (a : BitVec 5) (off : BitVec 4) (n : BitVec 5), x.matrix.chain = .closed → (s.readS a).tag = none →
      x.banksHeld (bank a off) n.toNat = true →
      passes (.accz a off n) (s.readS a).val.toNat 0 ∧
      ∀ (b : BitVec 5) (imm : BitVec 22) (o : Nat), (s.readS b).tag = none →
        let fa := ((s.readS b).val + imm.signExtend 64).toNat
        s.decodeGeneric s.cur.team fa = some (.pad s.cur.team o) → o + 64 ≤ 2 ^ 19 → fa % 4 = 0 →
        (∀ w ∈ weavesOf o 64, (x.weave w).mode = .storage) → (∃ pages, s.probeRange s.cur.team .read (fa, 64) [] = .ok pages) →
        passes (.accsc a off n b imm) (s.readS a).val.toNat o) ∧
    (∀ (h : BitVec 4) (w : BitVec 2) (g0 : BitVec 5) (c0 : BitVec 10) (d : BitVec 256) (pages : Map Leaf), x.matrix.chain = .closed →
      lookup? x.handles h.toNat = some d →
      let t := Tile.ofNat d.toNat
      g0.toNat + t.segs ≤ 32 → c0.toNat + t.cols ≤ weaveCols t.elemBits → s.probeAll s.cur.team .read t.ranges [] = .ok pages →
      passes (.wload h w g0 c0) 0 0) ∧
    (x.matrix.chain = .closed → ∀ o ∈ [((.mchainBegin : Instr), Chain.unordered), (.mchainBeginOrdered, .ordered)],
      exec o.1 s = .next (s.setTeam s.cur.team { x with matrix := { x.matrix with chain := o.2, pc := x.matrix.pc + BitVec.ofNat 56 (4 * s.cur.len) } })) ∧
    (x.matrix.chain ≠ .closed → (∀ o ∈ x.engine, o.phase = .done ∨ o.chain = .closed) →
      exec .mchainEnd s = .next (s.setTeam s.cur.team { x with matrix := { x.matrix with chain := .closed, pc := x.matrix.pc + BitVec.ofNat 56 (4 * s.cur.len) } }))

/-- R217, R246: `mwait` and `mend` complete, when they issue or when their wait ends, once every earlier matrix instruction has;
`mend` ends the stream. The arrival of `marrive` counts once everything before it has completed. -/
def Obligations.MatrixStreamWaits : Prop :=
  (∀ (i : Instr) (s' s : State), s.cur.party = .matrix → s.curTeam.matrix.chain = .closed → s.curTeam.matrix.failing = none →
    (∀ o ∈ s.curTeam.engine, o.phase = .done) →
    (runsAsStream i s' .mwait s .matrix .mwaitComplete →
      ∃ t, exec i s' = .next t ∧ sameBytes s t ∧ s.pastPc t ∧ (∀ n, t.readS n = s.readS n) ∧
        t.curStream = { s.curStream with pc := s.curStream.pc + BitVec.ofNat 56 (4 * s.cur.len) }) ∧
    (runsAsStream i s' .mend s .matrix .mendComplete →
      ∃ t, exec i s' = .next t ∧ sameBut s t (s.curTeam.allEnded || decide (s.curTeam.residency = .ended)) ∧ s.pastPc t ∧
        (∀ n, t.readS n = s.readS n) ∧ t.curTeam.matrix.state = .ended ∧
        (s.curTeam.allEnded = false → t.curTeam.residency = s.curTeam.residency))) ∧
  ∀ (team id : Nat) (o : EngineOp) (b : BitVec 4) (s : State), (s.team team).opOf id = some o → o.instr = .marrive b → o.phase ≠ .done →
    (s.team team).residency = .resident → (s.team team).matrix.failing = none → (∀ e ∈ (s.team team).engine, e.id < id → e.phase = .done) →
    let v := (s.team team).bar b.toNat
    1 ≤ v.pending →
    ∃ t, exec (.marriveArrival team id) s = .next t ∧ sameBytes s t ∧
      (∀ e ∈ (t.team team).engine, e.id = id → e.phase = .done) ∧
      let w := (t.team team).bar b.toNat
      w.expected = v.expected ∧
        if v.pending = 1 then w.phase = v.phase + 1 ∧ w.pending = v.expected else w.phase = v.phase ∧ w.pending = v.pending - 1

/-- R197, R206, R212, R213, R191, R193, R194, R216: an issued `mma` whose turn has come makes its passes, each the block integers of one row
on one segment of every selected weave; once a row's passes are made, the engine writes elements of the row, each by the row's terms, and no
other element. After 16 rows it completes, and its slots are empty unless it holds them (R199). R214: `accz` sets the elements of its banks
to +0, and `accsc` multiplies each by its row's factor, which it has read at its start. That at RPT 7 all passes come before the first
element, and that the elements of a row are written in an order that is left free, is the model's reconciling of R189 and R213 (log 36); the
error of a conversion at RPT 0 to 3 is a free value (log 11). -/
def Obligations.MatrixExecution : Prop :=
  (∀ (team id : Nat) (o : EngineOp) (m : MmaX) (a : BitVec 5) (s : State), (s.team team).opOf id = some o → o.instr = .mma m a →
    o.phase ≠ .done → (s.team team).residency = .resident →
    let x := s.team team
    let ws := (List.range 4).filter fun i => m.mask.getLsbD i
    let nb := (x.mmaBanksNow m).toNat
    let b0 := o.a % 16 + m.off.toNat
    let c0 := 128 * m.cb.toNat
    let cols := min (weaveCols (x.weave (ws.headD 0)).n) (c0 + 128 * nb) - c0
    let segs := m.g.toNat + 1
    (o.rows < 16 → x.mmaDue o = true → o.seg < mmaPassesBefore m o.rows → s.passTimeOver team o m = true → x.mmaUncorr o m = false →
      ∃ t e, exec (.mmaExecution team id) s = .next t ∧ t.mem = s.mem ∧ onlyTeamOf team s t ∧ (t.team team).pad = x.pad ∧
        (t.team team).slots = x.slots ∧ (t.team team).bankData = x.bankData ∧ (t.team team).opOf id = some e ∧
        e.seg = o.seg + 1 ∧ e.rows = o.rows ∧ e.elems = o.elems ∧
        let r := o.seg / segs
        let k := o.seg % segs
        let g := m.g0.toNat + k
        let sl := o.acts.getD k Slot.zero
        ∀ w ∈ ws, ∀ j, j < cols →
          Map.get 0 e.blocks (blockKey r k w (c0 + j)) =
            blockInt m.rpt.toNat ((((s.freeCtr * 4 + w) * 16 + r) * 32 + g) * 1024 + (c0 + j)) (actBin1 sl.fw.toNat) (actBits sl.fw.toNat)
              (sl.row r) (x.weave w).bin1 (x.weave w).n fun p => x.weightPlane (decide (m.rpt ≠ 7)) w (x.weave w).n g (c0 + j) p) ∧
    (o.rows < 16 → x.mmaDue o = true → mmaPassesBefore m o.rows ≤ o.seg →
      ∃ t els, exec (.mmaExecution team id) s = .next t ∧ t.mem = s.mem ∧ onlyTeamOf team s t ∧ (t.team team).pad = x.pad ∧
        (t.team team).slots = x.slots ∧ s.writesRow t team o els (x.mmaElems o m) ∧
        ∀ i j, i < ws.length → j < cols → elemOf (b0 + i * nb + j / 128) (j % 128) ∈ els →
          (t.team team).elem (b0 + i * nb + j / 128) o.rows (j % 128) =
            BitVec.ofNat 32 (accumulate (s.ctx x.ctx).flush (x.elem (b0 + i * nb + j / 128) o.rows (j % 128)).toNat
              ((List.range segs).map fun k =>
                termOf (Map.get 0 o.blocks (blockKey o.rows k (ws.getD i 0) (c0 + j))) ((o.acts.getD k Slot.zero).row o.rows)
                  (Map.get 0x007F (x.weave (ws.getD i 0)).scales (1024 * (m.g0.toNat + k) + (c0 + j))))).bits) ∧
    (16 ≤ o.rows → x.matrix.failing = none →
      ∃ t, exec (.mmaCompletion team id) s = .next t ∧ t.mem = s.mem ∧ onlyTeamOf team s t ∧ (t.team team).bankData = x.bankData ∧
        (∀ e ∈ (t.team team).engine, e.id = id → e.phase = .done) ∧
        ∀ p, (t.team team).slotAt p =
          if m.hold = false ∧ p ∈ mmaSlots m then { x.slotAt p with filled := 0, broken := false } else x.slotAt p)) ∧
  ∀ (team id : Nat) (o : EngineOp) (a n : BitVec 5) (off : BitVec 4) (s : State), (s.team team).opOf id = some o → o.phase ≠ .done →
    (s.team team).residency = .resident → (s.team team).matrix.failing = none →
    let x := s.team team
    let starts (blocks : Nat → Int → Prop) : Prop :=
      ∃ t e, exec (.accscStart team id) s = .next t ∧ (∀ k, readMem t.mem k = readMem s.mem k) ∧ (t.team team).pad = x.pad ∧
        (t.team team).bankData = x.bankData ∧ (t.team team).opOf id = some e ∧ e.phase = .started ∧ e.rows = o.rows ∧
        ∀ r, r < 16 → blocks r (Map.get 0 e.blocks r)
    let writes (f : Word → Word) : Prop :=
      ∃ t els, exec (.accscStart team id) s = .next t ∧ t.mem = s.mem ∧ onlyTeamOf team s t ∧ (t.team team).pad = x.pad ∧
        s.writesRow t team o els (x.bankElems o) ∧
        (∀ el, el ∈ x.bankElems o ↔ o.a % 16 + off.toNat ≤ el / 128 ∧ el / 128 < o.a % 16 + off.toNat + n.toNat) ∧
        ∀ el ∈ els, (t.team team).elem (el / 128) o.rows (el % 128) = f (x.elem (el / 128) o.rows (el % 128))
    (o.instr = .accz a off n → (o.phase = .issued → x.accDue o = true → starts fun _ _ => True) ∧ (o.phase = .started → o.rows < 16 → writes fun _ => 0)) ∧
    ∀ b imm, o.instr = .accsc a off n b imm →
      (o.phase = .issued → x.accDue o = true → s.noWrites → (∀ i, i < 64 → s.steady (.pad team (o.b + i))) →
        s.sectorPoisoned (.pad team o.b) 64 = false → (∀ w ∈ weavesOf o.b 64, (x.weave w).mode = .storage) →
        starts fun r v => v = (leValue ((List.range 4).map fun i => Map.get 0 x.pad (o.b + 4 * r + i)) : Int)) ∧
      (o.phase = .started → o.rows < 16 →
        writes fun old => BitVec.ofNat 32 (floatMul fp32 .rne (s.ctx x.ctx).flush old.toNat (Map.get 0 o.blocks o.rows).toNat).bits)

/-- R210, R211, R179, R180: a `wload` whose turn has come switches its weave to storage, reads the tile block by block and writes the
cells of each row of the block, sets the weave's width and kind and switches it to compute, and completes when that switch has
ended. Memory reads as before; where no mapped region lies, cells other than those of the row's column do too. That a block is read
whole before its cells are written is the model's choice, log 47. -/
def Obligations.WloadStages : Prop :=
  ∀ (team id : Nat) (o : EngineOp) (h : BitVec 4) (w : BitVec 2) (gg : BitVec 5) (c0 : BitVec 10) (s : State),
    (s.team team).opOf id = some o → o.instr = .wload h w gg c0 → o.phase ≠ .done → (s.team team).residency = .resident →
    let x := s.team team
    let v := x.weave w.toNat
    let d := Tile.ofNat o.handle.toNat
    let g := o.rows / 33 / d.cols
    let c := o.rows / 33 % d.cols
    let n := d.elemBits
    let col := c0.toNat + c
    let i := Instr.wloadCompletion team id
    gg.toNat + d.segs ≤ 32 → c0.toNat + d.cols ≤ weaveCols n →
    v.mode.switching = false → s.wloadWaits team id w.toNat = false → x.matrix.failing = none →
    (o.phase = .moved → ∃ t, exec i s = .next t ∧ t.mem = s.mem ∧ onlyTeamOf team s t ∧
      (t.team team).weaves = x.weaves ∧ ∀ e ∈ (t.team team).engine, e.id = id → e.phase = .done) ∧
    (o.phase ≠ .moved → v.mode = .compute → ∃ t, exec i s = .next t ∧ t.mem = s.mem ∧ (t.team team).pad = x.pad ∧
      (t.team team).weave w.toNat = { v with mode := .toStorage (s.clkOf team + 8) } ∧
      ∀ e ∈ (t.team team).engine, e.id = id → e.phase = .started) ∧
    (o.phase ≠ .moved → v.mode = .storage → d.segs ≤ g →
      ∃ t, exec i s = .next t ∧ t.mem = s.mem ∧ (t.team team).pad = x.pad ∧
        (t.team team).weave w.toNat = { v with mode := .toCompute (s.clkOf team + 24), n := n, bin1 := decide (d.fmt = 1) } ∧
        (t.team team).bankData = x.bankData ∧ ∀ e ∈ (t.team team).engine, e.id = id → e.phase = .moved) ∧
    (o.phase ≠ .moved → v.mode = .storage → g < d.segs → o.rows % 33 = 0 →
      ∀ q, (∀ r ∈ d.blockRanges g c, s.engineHeld team o.pages r.1 r.2 = false ∧ s.enginePoisoned team o.pages r.1 r.2 = false) →
        s.readRanges (s.engineKind team o .cluster []) team o.pages (d.blockRanges g c) = some q →
        let b := d.blockOf c q.2.1
        ∃ t e, exec i s = .next t ∧ (∀ a, readMem t.mem a = readMem s.mem a) ∧ (t.team team).opOf id = some e ∧ e.rows = o.rows + 1 ∧
          (∀ r, r < 32 → Map.get 0 e.blocks r = weightOf d.elem (b.1.q.getD r 0)) ∧
          ∀ k, Map.get 0x007F ((t.team team).weave w.toNat).scales k =
            if k = 1024 * (gg.toNat + g) + col then BitVec.ofNat 16 (wrapInt 8 b.1.shift * 256 + b.2) else Map.get 0x007F v.scales k) ∧
    (o.phase ≠ .moved → v.mode = .storage → g < d.segs → ∀ r, o.rows % 33 = r + 1 →
      let base := w.toNat * 0x20000 + 128 * (32 * (gg.toNat + g) + r)
      (∀ j, j < 128 → x.unmapped (base + j)) →
      ∃ t e, exec i s = .next t ∧ (∀ a, readMem t.mem a = readMem s.mem a) ∧ (t.team team).opOf id = some e ∧ e.rows = o.rows + 1 ∧
        ∀ a k, k < 8 →
          (Map.get 0 (t.team team).pad a).getLsbD k =
            if base ≤ a ∧ a < base + 128 ∧ n * col ≤ 8 * (a - base) + k ∧ 8 * (a - base) + k < n * (col + 1)
            then (wrapInt 8 (Map.get 0 o.blocks r)).testBit (8 * (a - base) + k - n * col)
            else (Map.get 0 x.pad a).getLsbD k)

/-! ### The copy stream (spec chapters 10, 24) -/

/-- R220, R222, R223, R228 to R234: `bcopy`, `bcopyr`, `bcopymc`, `gather` and `scatter` complete wherever their checks pass: each joins
the engine with what it read and its count of sectors, or is over at once where it has none, and the stream goes on. `cpref`
goes on and changes no byte and no register. -/
def Obligations.CopyIssue : Prop :=
  ∀ (x : CopyX) (d a b : BitVec 5) (s : State) (pages : Map Leaf),
    let v (n : Nat) : Nat := s.sNat n
    let r := d.toNat
    let da := v a.toNat
    let sa := v b.toNat
    (s.cur.party = .copy → (readSMap s.curStream.s r).tag = none → (readSMap s.curStream.s b.toNat).tag = none → v r ≤ 2 ^ 32 →
      (∀ l ∈ linesOf sa (v r), ∀ va, s.decodeGeneric s.cur.team l = some (.glob va) → s.find s.cur.team va .read ≠ .full) →
      ∃ t, exec (.cpref d b) s = .next t ∧ s.pastPc t ∧ sameBytes s t ∧ ∀ n, t.readS n = s.readS n) ∧
    (v r ≤ 2 ^ 32 → v r % 16 = 0 → da % 16 = 0 → sa % 16 = 0 →
      s.copyReady x [r, a.toNat, b.toNat] [(sa, v r, .read), (da, v r, .write)] pages →
      ∃ t, exec (.bcopy x d a b) s = .next t ∧ s.copyStarted t (.bcopy x d a b) (sectors da (v r)) fun c => c.d = v r ∧ c.a = da ∧ c.b = sa) ∧
    (∀ (h : BitVec 4) (e : BitVec 256), lookup? s.curTeam.handles h.toNat = some e →
      let t := Tile.ofNat e.toNat
      let pitch := if d = 0 then t.rowBytes else v r
      (pitch = 0 ∨ t.rowBytes ≤ pitch) → t.base % 16 = 0 → t.pitch % 16 = 0 → da % 16 = 0 → pitch % 16 = 0 →
      s.copyReady x [r, a.toNat]
        ((List.range t.rows).flatMap fun k => [(t.base + k * t.pitch, t.rowBytes, .read), (da + k * pitch, t.rowBytes, .write)]) pages →
      ∃ z, exec (.bcopyr x d a h) s = .next z ∧
        s.copyStarted z (.bcopyr x d a h) (tileSectors da pitch t.rowBytes t.rows) fun c => c.d = pitch ∧ c.a = da ∧ c.handle = e) ∧
    (∀ len : BitVec 9,
      let n := (len.toNat + 1) * 128
      let mask := v r + v (r + 1) * 2 ^ 64 + v (r + 2) * 2 ^ 128
      (∃ g, s.decodeGeneric s.cur.team sa = some (.glob g)) →
      (∀ i, i < 192 → mask.testBit i = true → s.curTeam.gang ≠ none ∧ s.member s.cur.team i ≠ none) →
      da + n ≤ 0x80000 → da % 128 = 0 → sa % 128 = 0 →
      s.copyReady x [r, r + 1, r + 2, a.toNat, b.toNat] (if mask = 0 then [] else [(sa, n, .read)]) pages →
      ∃ t, exec (.bcopymc x d a b len) s = .next t ∧
        s.copyStarted t (.bcopymc x d a b len) ((List.range 192).countP (fun i => mask.testBit i) * sectors da n)
          fun c => c.d = v r ∧ c.d1 = v (r + 1) ∧ c.d2 = v (r + 2) ∧ c.a = da ∧ c.b = sa) ∧
    let list := v r
    let n := v (r + 1) % 2 ^ 16
    let rb := v (r + 1) / 2 ^ 16 % 2 ^ 16 * 32
    let bound := v (r + 1) / 2 ^ 32
    let bm := v (r + 2)
    list % 4 = 0 → bm % 4 = 0 → 0 < n → n ≤ 4096 → 0 < rb → rb ≤ 32768 * 32 → da % 32 = 0 → sa % 32 = 0 →
    ∀ trap : Bool,
      (trap = true → s.noWrites ∧ ∀ i, i < n →
        (∀ j, j < 4 → ∃ p, s.engineSpot s.cur.team pages (list + 4 * i + j) = some p ∧ s.spotHeld p = false) ∧
        ∃ p, s.engineSpot s.cur.team pages (list + 4 * i) = some p ∧ s.steady p ∧ s.sectorPoisoned p 4 = false ∧
          leValue ((List.range 4).map (s.byteAt p)) < bound) →
      ∀ o ∈ [((.gather x d a b trap : Instr), sa, da, Access.read, Access.write), (.scatter x d a b trap, da, sa, .write, .read)],
        s.copyReady x [r, r + 1, r + 2, a.toNat, b.toNat]
          ([(list, 4 * n, .read), (o.2.1, bound * rb, o.2.2.2.1), (o.2.2.1, n * rb, o.2.2.2.2)] ++
            if bm = 0 then [] else [(bm, (n + 31) / 32 * 4, .write)]) pages →
        ∃ t, exec o.1 s = .next t ∧
          s.copyStarted t o.1 (n * (rb / 32)) fun c => c.d = list ∧ c.d1 = v (r + 1) ∧ c.d2 = bm ∧ c.a = da ∧ c.b = sa

/-- R223, R224, R238, R235: a counted sector of a `bcopy` or `bcopyr` between pages moves its bytes and no other, and is counted
once in the copy and in its transaction barrier. A copy whose every sector is counted completes. `cwait` and `cend` complete,
when they issue or when their wait ends, once every copy of the stream has; `cend` ends the stream. `carrive` takes its place
among the copies, and its arrival counts once those before it have completed. -/
def Obligations.CopyProgress : Prop :=
  ((∀ (team id k n da sa K J : Nat) (c : Copy) (f g : Leaf) (s : State), (s.team team).copyOf id = some c → c.complete = false →
     (∃ x d a b h, c.instr = .bcopy x d a b ∨ c.instr = .bcopyr x d a h) → k < c.total → c.done.contains k = false →
     c.piece k = some ⟨some da, n, .addr sa⟩ → 0 < n → n ≤ 32 →
     s.engineSpot team c.pages da = some (.mem K f) → (∀ i, i < n → s.engineSpot team c.pages (sa + i) = some (.mem (J + i) g)) →
     s.enginePoisoned team c.pages sa n = false → (n < 32 → s.sectorPoisoned (.mem K f) n = false) → s.noWrites →
     s.engineHeld team c.pages sa n = false → s.leaseHeld none K n f = false → s.pinStalls team c k = false →
     s.barrierFree team c → s.inBuffer team id k = false →
     ∃ t z, exec (.copySectorWrite team id k) s = .next t ∧ wroteBytes s t K (readBytes s.mem J n) ∧
       (t.team team).copyOf id = some z ∧ z.done = k :: c.done ∧ z.complete = false ∧
       (∀ o, c.barrier = some o → t.txb team o = ((s.txb team o).addSectors (-1)).settle) ∧
       (c.barrier = none → ∀ u q, Map.get 0 (t.team u).pad q = Map.get 0 (s.team u).pad q)) ∧
   ∀ (team id : Nat) (c : Copy) (s : State), (s.team team).copyOf id = some c → c.finished = true → c.complete = false →
     ∃ t, exec (.copyCompletion team id) s = .next t ∧ t.mem = s.mem ∧ onlyTeamOf team s t ∧ (t.team team).pad = (s.team team).pad ∧
       (t.team team).copyOf id = some { c with complete := true } ∧ (t.team team).idleSince = s.gtime) ∧
  ((∀ (i : Instr) (s' s : State), s.cur.party = .copy → (∀ c ∈ s.curTeam.copies, c.complete = true) →
     (runsAsStream i s' .cwait s .copy .cwaitComplete →
       ∃ t, exec i s' = .next t ∧ sameBytes s t ∧ s.pastPc t ∧ (∀ n, t.readS n = s.readS n) ∧ t.curTeam.copies = []) ∧
     (runsAsStream i s' .cend s .copy .cendComplete →
       ∃ t, exec i s' = .next t ∧ sameBut s t (s.curTeam.allEnded || decide (s.curTeam.residency = .ended)) ∧ s.pastPc t ∧
         (∀ n, t.readS n = s.readS n) ∧ t.curTeam.copies = [] ∧ t.curTeam.copy.state = .ended ∧ (s.curTeam.allEnded = false → t.curTeam.residency = s.curTeam.residency))) ∧
   (∀ (b : BitVec 4) (s : State), s.cur.party = .copy →
     ∃ t c, exec (.carrive b) s = .next t ∧ sameBytes s t ∧ s.pastPc t ∧ t.curTeam.copies = s.curTeam.copies ++ [c] ∧
       c.instr = .carrive b ∧ c.id = s.curTeam.nextOp ∧ c.complete = false) ∧
   ∀ (team id : Nat) (c : Copy) (b : BitVec 4) (s : State), (s.team team).copyOf id = some c → c.instr = .carrive b → c.complete = false →
     (s.team team).residency = .resident →
     (∀ e ∈ (s.team team).copies, e.id < id → e.complete = true) →
     let v := (s.team team).bar b.toNat
     1 ≤ v.pending →
     ∃ t, exec (.carriveArrival team id) s = .next t ∧ sameBytes s t ∧ (t.team team).copyOf id = some { c with complete := true } ∧
       let w := (t.team team).bar b.toNat
       w.expected = v.expected ∧
         if v.pending = 1 then w.phase = v.phase + 1 ∧ w.pending = v.expected else w.phase = v.phase ∧ w.pending = v.pending - 1)

/-- R376, R372, R377: a `send` whose checks pass completes and its copy joins the engine. Its frames leave in order, each once, after
those of the stream's earlier sends by its path; an acknowledgement, or 1 ms without one, ends a tracked frame, and a failure
puts a ROUTE record on its way. A frame that reaches this package writes its bytes and no other, and a tracked one is answered; one
for another package, of another kind or context is dropped and logged. The model's choices: a `post` frame stands at its destination
as it is accepted, and an acknowledgement's payload is one byte, 0 (log 27); where a path ends, and the way back (log 24). -/
def Obligations.FramesAndSends : Prop :=
  (∀ (x : CopyX) (d a b : BitVec 5) (tracked : Bool) (s : State) (pages : Map Leaf),
    let n := s.sNat (d.toNat + 1)
    let turn := s.sNat d.toNat
    let da := s.sNat a.toNat
    let sa := s.sNat b.toNat
    n ≤ 2 ^ 20 → s.pkg.routeBad turn = false → s.pkg.retiredPackages.contains (Config.cabling turn) = false →
    da % 16 = 0 → sa % 16 = 0 → n % 16 = 0 → (n = 0 ∨ s.isGlobal da = true ∧ s.isGlobal (da + n - 1) = true) →
    s.copyReady x [d.toNat, d.toNat + 1, a.toNat, b.toNat] [(sa, n, .read)] pages →
    ∃ t, exec (.send x tracked d a b) s = .next t ∧
      s.copyStarted t (.send x tracked d a b) (sectors sa n) fun c => c.d = turn ∧ c.d1 = n ∧ c.a = da ∧ c.b = sa) ∧
  (∀ (team id : Nat) (c : Copy) (x : CopyX) (tracked : Bool) (d a b : BitVec 5) (s : State) (q : State × List Byte × List Nat × Nat),
    (s.team team).copyOf id = some c → c.instr = .send x tracked d a b → c.complete = false →
    let k := c.accepted.length
    k < frames c.d1 → (s.team team).sendsBefore c = false → s.frameHeld team c k = false → s.barrierFree team c →
    s.readFrame team c k = some q →
    ∃ t f z, exec (.sendFrameAccepted team id k) s = .next t ∧
      (∀ i, (∀ j, j < f.payload.length → i ≠ peerKey f.ctx f.dst (f.addr + j)) → readMem t.mem i = readMem s.mem i) ∧
      (tracked = false → f.poison = [] →
        (∀ j, j < f.payload.length → Map.get false s.memPoison (peerKey f.ctx f.dst (f.addr + j) / 32) = false) →
        ∀ j, j < f.payload.length → readMem t.mem (peerKey f.ctx f.dst (f.addr + j)) = f.payload.getD j 0) ∧
      t.pkg.sent = s.pkg.sent ++ [f] ∧ f.ctx = (s.team team).ctx ∧ f.src = s.pkg.index ∧ f.dst = Config.cabling c.d ∧
      f.kind = (if tracked then 1 else 0) ∧ f.addr = c.a + 512 * k ∧ f.seq = k ∧ f.turn = c.d ∧ f.path = c.d ∧ f.stream = some team ∧
      f.send = id ∧ f.flits = (f.payload.length + 63) / 64 ∧
      f.payload = q.2.1 ∧ f.poison = q.2.2.1 ∧ f.payload.length = min c.d1 (512 * (k + 1)) - 512 * k ∧
      (t.team team).copyOf id = some z ∧ z.accepted = c.accepted ++ [k]) ∧
  (∀ (team id k : Nat) (c : Copy) (f : Frame) (s : State), (s.team team).copyOf id = some c → c.awaits k = true →
    (s.block 257).enable = false → s.barrierFree team c → s.frameSent team id k = some f →
    let acks (i : Instr) (ok : Bool) : Prop :=
      ∃ t z, exec i s = .next t ∧ (t.team team).copyOf id = some z ∧
        (∀ q, ok = false ∨ (∀ j, j < f.payload.length → q ≠ peerKey f.ctx f.dst (f.addr + j)) → readMem t.mem q = readMem s.mem q) ∧
        z.acked = c.acked ++ [k] ∧
        t.faultOut = if ok then s.faultOut
          else s.faultOut ++ [⟨(c.a + 512 * k) / 2 ^ 18 * 2 ^ 18, 1, (s.team team).ctx, 0xF, 2, 0, 0⟩]
    (∀ ok, (ok = false → c.landed.contains k = false) → acks (.sendAck team id k ok) ok) ∧
    (Map.get 0 c.sentAt k + 1000000 ≤ s.gtime → acks (.trackedSendTimeout team id k) false)) ∧
  ∀ (f : Frame) (s : State), frameArrives f = true →
    (f.dst ≠ s.pkg.index ∨ 8 ≤ f.kind ∨ lookup? s.ctxs f.ctx = none →
      ∃ detail, exec (.frameReceive f) s = .next (s.logBox 0x31 f.src detail)) ∧
    ∀ (l : Leaf), f.dst = s.pkg.index → lookup? s.ctxs f.ctx ≠ none → f.kind = 0 ∨ f.kind = 1 → f.payload ≠ [] → f.poison = [] →
      s.heldBefore f = none → s.frameWaits f = false →
      let K := s.physKey f.ctx l f.addr
      f.addr % 2 ^ 18 + f.payload.length ≤ 2 ^ 18 →
      (∀ i, i < f.payload.length → Map.get false s.memPoison ((K + i) / 32) = false ∧ s.unreachable (K + i) = false) →
      (∀ m, (∀ a, a < K ∨ K + f.payload.length ≤ a → readMem m a = readMem s.mem a) → ∀ i, i < f.payload.length →
        walk m f.ctx (s.ctx f.ctx) (f.addr + i) .write = .ok l) →
      ∃ t, exec (.frameReceive f) s = .next t ∧ wroteBytes s t K f.payload ∧ t.teams = s.teams ∧
        (f.kind = 0 → t.pkg.sent = s.pkg.sent) ∧
        (f.kind = 1 → ∃ g, t.pkg.sent = s.pkg.sent ++ [g] ∧ g.ctx = f.ctx ∧ g.src = s.pkg.index ∧ g.dst = f.src ∧ g.kind = 5 ∧
          g.addr = f.addr ∧ g.seq = f.seq ∧ g.payload = [0] ∧ g.path = Config.returnPath (f.src * 2 ^ 64 + f.path))

/-- R378, R379, R322: a `coll` whose descriptor can be read and whose checks pass completes and its copy joins the engine. The
collective completes at a rank with outcome 0 and the result of its table in its receive buffer, and in those of the other ranks here, once
every contribution is there and all agree; with outcome 2 where a member is lost, with outcome 3 after the watchdog interval; no other
byte of memory changes. -/
def Obligations.Collectives : Prop :=
  (∀ (x : CopyX) (a : BitVec 5) (op : CollOp) (ty : CollType) (rd : CollRed) (s : State) (pages pages1 : Map Leaf) (ms : List Member)
      (q : State × SectorData), (readSMap s.curStream.s a.toNat).tag = none →
    let da := s.sNat a.toNat
    let i := Instr.coll x op ty rd a
    let e := CollDesc.ofBytes q.2.bytes
    let sb := collSend op ms.length e.rank e.root (e.count * collElem ty)
    let rb := collRecv op ms.length (e.count * collElem ty)
    da % 64 = 0 → (s.isGlobal da = true ∨ ∃ o, s.decodeGeneric s.cur.team da = some (.pad s.cur.team o)) →
    s.inOneWindow s.cur.team da 64 = true → s.probeRange s.cur.team .read (da, 64) [] = .ok pages →
    s.engineHeld s.cur.team pages da 64 = false → s.enginePoisoned s.cur.team pages da 64 = false →
    s.engineSector s.cur.team (s.newCopy i pages) da 64 = some q →
    e.reserved = false → e.count ≤ 2 ^ 24 → lookup? s.pkg.comms (commKey s.curTeam.ctx e.group) = some ms →
    ms[e.rank]? = some (s.memberOf s.cur.team) → (op = .bcast → e.root < ms.length) → s.commRouteBad s.curTeam.ctx ms = false →
    e.send % 32 = 0 → e.recv % 32 = 0 →
    q.1.copyReady x [a.toNat] [(e.send, sb, .read), (e.recv, rb, .write), (da + 0x38, 4, .write)] pages1 →
    ∃ t, exec i s = .next t ∧
      s.copyStarted t i 1 fun c => c.a = da ∧ c.b = e.recv ∧ c.d = e.send ∧ c.d1 = sb ∧ c.d2 = rb ∧ c.group = e.group ∧ c.rank = e.rank ∧
        c.root = e.root ∧ c.count = e.count) ∧
  ∀ (team id k : Nat) (c : Copy) (x : CopyX) (op : CollOp) (ty : CollType) (rd : CollRed) (a : BitVec 5) (f : Leaf) (s : State)
      (others : List Contribution), (s.team team).copyOf id = some c → c.instr = .coll x op ty rd a → c.complete = false → c.data = [] →
    (∀ i, i < 4 → s.engineSpot team c.pages (c.a + 0x38 + i) = some (.mem (k + i) f)) → s.sectorPoisoned (.mem k f) 4 = false →
    s.barrierFree team c → s.collHeld team c 0 = false →
    let ctx := (s.team team).ctx
    let ms := (lookup? s.pkg.comms (commKey ctx c.group)).getD []
    let done (t : State) : Prop := ∃ z, (t.team team).copyOf id = some z ∧ z.complete = true
    ((∃ m ∈ ms, s.memberLost ctx m = true) ∨ s.lostAfar ms others = true →
      ∃ t, exec (.collCompletion team id others) s = .next t ∧ done t ∧ wroteBytes s t k [2, 0, 0, 0]) ∧
    (c.issuedAt + (s.ctx ctx).watchdog * 1000000 < s.gtime →
      ∃ t, exec (.collTimeout team id) s = .next t ∧ done t ∧
        wroteBytes s t k [if ms.any (s.memberLost ctx) then 2 else 3, 0, 0, 0]) ∧
    ∀ (s1 : State) (xs : List Share) (R : Nat → Nat), (∀ m ∈ ms, s.memberLost ctx m = false) → s.lostAfar ms others = false →
      ms.length ≤ 2 ^ 16 → (s.collRelease ctx c ms).shares ctx c others 0 ms = some (s1, xs) →
      (∀ y ∈ xs, y.parts = (op, ty, rd) ∧ y.count = c.count ∧ y.poison = 0) →
      let ps := s.partners ctx c ms
      let res (q : Nat × Copy) : List Byte :=
        (collResult op ty rd (s.ctx ctx).flush (commKey ctx c.group) q.2.rank q.2.root q.2.count (xs.map fun y => y.value)).1
      let apart (p q : Nat × Copy) : Prop := R p.1 + (res p).length ≤ R q.1 ∨ R q.1 + (res q).length ≤ R p.1
      (team, c) ∈ ps → ps.Pairwise apart → (∀ d, (s.die d).drifted = false ∧ (s.die d).dead = false) →
      (∀ q ∈ ps, q.2.complete = false ∧ q.2.done = [] ∧ s.barrierFree q.1 q.2 ∧ s.collHeld q.1 q.2 (res q).length = false ∧
        (k + 4 ≤ R q.1 ∨ R q.1 + (res q).length ≤ k) ∧
        ∀ i, i < (res q).length → (∃ h, s.engineSpot q.1 q.2.pages (q.2.b + i) = some (.mem (R q.1 + i) h)) ∧
          Map.get false s.memPoison ((R q.1 + i) / 32) = false) →
      ∃ t, exec (.collCompletion team id others) s = .next t ∧ done t ∧ (∀ i, i < 4 → readMem t.mem (k + i) = 0) ∧
        (∀ q ∈ ps, ∀ i, i < (res q).length → readMem t.mem (R q.1 + i) = (res q).getD i 0) ∧
        ∀ a, (a < k ∨ k + 4 ≤ a) → (∀ q ∈ ps, a < R q.1 ∨ R q.1 + (res q).length ≤ a) → readMem t.mem a = readMem s.mem a

/-! ### Encodings (spec chapter 02) -/

/-- Words worked out in the spec, from chapters 02 to 24, decode to the instructions for which they stand; a word of an undefined
op is that, and one outside its op's class does not decode. -/
def Obligations.DecodeKnownWords : Prop :=
  let k0 : Pred := ⟨false, 0⟩
  decode 0x0000_0000 0 = .ok (.nop 0) ∧ decode 0x0504_0506 0 = .ok (.mulhiN 4 (.v 5) (.v 6)) ∧
  decode 0x4F01_0200 0x0000_0003 = .ok (.shlK 1 (.v 2) 3) ∧
  decode 0x5201_0203 0x01C1_00F8 = .ok (.bitop (.lop3 (.v 2) (.v 3) (.v 4) 0xF8) 1 k0) ∧
  decode 0x70FF_FFFA 0xB000_0000 = .ok (.bra (-6) ⟨true, 3⟩) ∧
  decode 0x5805_0102 0x0000_0001 = .ok (.fadd .rz 5 (.v 1) (.v 2) k0) ∧
  decode 0x6308_E107 0x54C1_02C0 = .ok (.ld ⟨⟨false, 5⟩, .b32, .glob, .selfinv, .plain, .team, 2, false, 704⟩ 8 (.s 1) (.v 7)) ∧
  decode 0x6501_E203 0x0914_0804 = .ok (.atom ⟨k0, .cas, false, .ar, .wide, 4⟩ 1 (.s 2) (.v 3) (.v 4)) ∧
  decode 0x8118_4005 0 = .ok (.uadd 3 1 0 5) ∧ decode 0xC118_4000 0x0000_03E8 = .ok (.uaddK 3 1 1000) ∧
  decode 0xD020_0005 0x0000_0003 = .ok (.urd 4 0 3 5) ∧ decode 0xD228_0002 0x0080_0000 = .ok (.regq 5 false 2) ∧
  decode 0xD401_4C00 0x0080_0100 = .ok (.utxbExpect 5 6 0x100) ∧ decode 0x9500_009E 0 = .ok (.wmodeComp 2 3 false true) ∧
  decode 0x6904_0500 0x0001_800A = .ok (.mpush 2 1 (.v 4) (.v 5) (.v 6) k0) ∧
  decode 0xE301_00F2 0x0020_1468 = .ok (.mma ⟨0xF, 2, true, 0, 0, 2, 4, 3, 8⟩ 4) ∧
  decode 0xD929_8003 0x0000_0000 = .ok (.launch 5 6 3 0) ∧
  decode 0xF841_4C00 0x0006_0010 = .ok (.send ⟨.selfinv, false, 0x10⟩ true 8 5 6) ∧
  decode 0xF701_800C 0x0002_0010 = .ok (.coll ⟨.selfinv, false, 0x10⟩ .allreduce .f32 .add 6) ∧
  decode 0xA700_0000 0 = .ok (.undefinedOpcode 0xA700_0000) ∧ decode 0x4101_0201 0x0000_0007 = .error .wordClass

/-! ### Translation (spec chapter 20) -/

/-- R341 to R344: a walk answers the oldest miss, in the TLBs of every team that it serves or in the fault filter, and frees its entry for
the misses that wait, in order; a closed batch goes out as sorted ranges that cover its records; an invalidation drops its range from every
TLB at once and ends when nothing uses it; a resolve answers its pages, clears their filters, and resumes the group that waited on them
alone. The model's choices: one sequence of batches for the package, whose records beyond 64 open the next batch at once, and an
invalidation that drops at once (log 29); ring indices modulo the size of the ring (log 28). A resolve is stated for one group that waits
with a store and whose poison table is empty. -/
def Obligations.TranslationEvents : Prop :=
  (∀ (c : Nat) (m : Miss) (rest : List Miss) (s : State), (s.cluster c).misses = m :: rest →
    let waiting := (s.cluster c).waiters
    ∃ t, exec (.pageWalk c) s = .next t ∧ sameBytes s t ∧ (waiting = [] → (t.cluster c).misses = rest) ∧
      (waiting ≠ [] → rest.length < missTableSize → ∃ us, us ≠ [] ∧ waiting = us ++ (t.cluster c).waiters) ∧
      (∀ f, s.missResult c m = .ok f →
        lookup? (t.cluster c).tlb (ctxBase m.ctx + tlbKey f.size m.page) = some f ∧
          ∀ u ∈ m.teams, lookup? (t.team u).tlb (tlbKey f.size m.page) = some f) ∧
      ∀ e, s.missResult c m = .error e →
        t.teams = s.teams ∧ (waiting = [] → lookup? (t.cluster c).filter (ctxBase m.ctx + m.page) = some e)) ∧
  (∀ (device : Nat) (s : State), let b := Map.get Batch.empty s.batches device
    b.records ≠ [] → (64 ≤ b.records.length ∨ b.opened + 2000 ≤ s.gtime) → (s.block 257).enable = false →
    ∃ t n rs, exec (.faultBatchClose device) s = .next t ∧ sameBytes s t ∧ (∀ e ∈ s.batches, e.2.seq < n) ∧ t.faultOut = s.faultOut ++ rs ∧
      (∀ q ∈ rs, q.batch = n) ∧ rs.Pairwise (fun p q => p.ctx < q.ctx ∨ p.ctx = q.ctx ∧ p.start ≤ q.start) ∧
      (∀ ctx page cause, (∃ r ∈ b.records.take 64, r.ctx = ctx ∧ r.page = page ∧ r.cause = cause) ↔
        ∃ q ∈ rs, q.ctx = ctx ∧ q.cause = cause ∧ q.start ≤ page * 2 ^ 18 ∧ page * 2 ^ 18 < q.start + q.pages * 2 ^ 18) ∧
      let z := Map.get Batch.empty t.batches device
      z.records = b.records.drop 64 ∧ z.seq = n ∧ z.delivered = b.delivered ++ (b.records.take 64).map fun r => (n, r)) ∧
  (∀ (tag start n : Nat) (s : State), s.adminOp = some 4 → s.hasCtx tag = true → start % 2 ^ 18 = 0 →
    let lo := start / 2 ^ 18
    ∃ t, exec (.invalidateTranslations tag start n) s = .next t ∧
      (∀ u, (s.team u).ctx = tag → servesNone (t.team u).tlb 0 lo n) ∧ (∀ c, servesNone (t.cluster c).tlb (ctxBase tag) lo n) ∧
      if s.rangeUsers tag lo n = true ∨ s.buffered tag = true then t.mem = s.mem ∧ t.blocks = s.blocks else s.commandEnds t 0) ∧
  ∀ (batch start n tag page u g : Nat) (ok : Bool) (s : State), s.adminOp = some 5 → start % 2 ^ 18 = 0 →
    let lo := start / 2 ^ 18
    let inRange (p : Nat) : Prop := lo ≤ p ∧ p < lo + n
    (∃ e ∈ s.batches, ∃ d ∈ e.2.delivered, d.1 = batch ∧ d.2.ctx = tag ∧ d.2.page = page ∧ inRange page) → page < 2 ^ 44 →
    ∃ t, exec (.resolveRange batch start n ok) s = .next t ∧ s.commandOver t 0 ∧
      (∀ e ∈ t.batches, ∀ d ∈ e.2.delivered, ¬(d.1 = batch ∧ inRange d.2.page)) ∧
      ((∀ e ∈ s.batches, ∀ d ∈ e.2.delivered, d.1 = batch → inRange d.2.page → d.2.ctx = tag) → ok = true →
        (s.faultedGroups tag = [] → ∀ c, lookup? (t.cluster c).filter (ctxBase tag + page) = none) ∧
        ∀ f, s.faultedGroups tag = [(u, g)] → let y := (s.team u).group g
          y.fault = some f → f.kind = .store → f.failed = false → y.poison = [] → (s.team u).residency = .resident →
          (∀ x ∈ s.lates, x.of u (.group g) = false) →
          (∀ e ∈ s.batches, (∀ r ∈ e.2.records, r.ctx = tag → r.page ∉ f.pages) ∧
            ∀ d ∈ e.2.delivered, d.2.ctx = tag → d.2.page ∈ f.pages → d.1 = batch ∧ inRange d.2.page) →
          (t.team u).group g = { y with replayable := false, fault := none })

/-! ### Teams and grids (spec chapters 11, 15, 23) -/

/-- R126, R261 to R263, R361, R362: placement makes the next team or gang of a grid at the front of what waits, with its groups at their
entries; an examination that is due halts gangs whose quantum has passed; a save writes a halted team to its area and no further; a restore
takes the scratchpad and the count of rotations from the area and stands the team on its tile. That a placed team's scratchpad
holds zeros is the model's choice (log 5), and so is that a save area lies in device memory at an address of its own (log 33). -/
def Obligations.TeamLife : Prop :=
  (∀ (n : Nat) (ps : List Place) (s : State), let g := s.grid n
    let k := if g.gang ≤ 1 then 1 else min g.gang (g.total - g.placed)
    g.dispatched = true → g.completed = false → g.status = none → g.placed < g.total → ps.length = k → s.placesOk g.ctx ps = true →
    (∀ p ∈ ps, (s.die (p.cluster / 2)).dead = false ∧ (s.die (p.cluster / 2)).gated = false ∧
      s.isFront p.cluster (s.effective g.ctx g.priority g.headSince) g.headSince = true) →
    ∃ (t : State) (u : Nat → Nat), exec (.teamPlacement n ps) s = .next t ∧ t.mem = s.mem ∧ (t.grid n).placed = g.placed + k ∧
      (∀ v, (∀ i, i < k → v ≠ u i) → t.team v = s.team v) ∧
      ∀ i p, ps[i]? = some p → s.team (u i) = Team.absent ∧
        let x := t.team (u i)
        x.ctx = g.ctx ∧ x.grid = n ∧ x.x = (g.placed + i) % g.gx ∧ x.y = (g.placed + i) / g.gx % g.gy ∧
          x.z = (g.placed + i) / (g.gx * g.gy) ∧ x.cluster = p.cluster ∧ x.slot = p.slot ∧ x.tile = p.tile ∧ x.area = some p.area ∧ x.rotgen = 0 ∧
          x.residency = .resident ∧ x.maps = g.maps ∧ (∀ a, Map.get 0 x.pad a = 0) ∧ x.matrix.state = .idle ∧ x.copy.state = .idle ∧
          ∀ j l, j < g.nGroups → l < 32 → let y := x.group j
            y.role = roleOf g.roles j ∧ (y.lane l).cond = (if 32 * j + l < g.laneCount then .live else .never) ∧
              (32 * j + l < g.laneCount → (y.lane l).pc = BitVec.ofNat 56 (Map.get ⟨0, 0, 0, 0⟩ g.roles y.role).entry) ∧
              (∀ r, (y.lane l).readV r = clear 0) ∧
              ∀ r, y.readS r = clear (if r = 1 then BitVec.ofNat 64 g.dataBase else if r = 2 then BitVec.ofNat 64 g.args
                else if r = 3 then BitVec.ofNat 64 g.laneCount else 0)) ∧
  (∀ (c : Nat) (w : Waiter) (s : State), frontWaiter (s.waiters c) = some w → (s.cluster c).examined + 20000 ≤ s.gtime →
    (∀ u p, (s.team u).residency ≠ .moving p) → s.lates = [] → (∀ u, (s.team u).matrix.failing = none) →
    ∃ t, exec (.dispatchExamination c) s = .next t ∧ t.mem = s.mem ∧ (t.cluster c).examined = s.gtime ∧
      (∀ u, (t.team u).residency ≠ (s.team u).residency →
        (s.team u).residency = .resident ∧ (t.team u).residency = .halted ∧ ∃ v ∈ s.teamsIn c, s.quantumOver v = true ∧ u ∈ s.gangOf v) ∧
      (w.need ≤ s.comingFree c → t.teams = s.teams) ∧
      ∀ v, s.comingFree c < w.need → s.evictFirst ((s.teamsIn c).filter s.quantumOver) = some v →
        ∀ u ∈ s.gangOf v, (s.team u).residency = .resident → (t.team u).residency = .halted) ∧
  (∀ (n area : Nat) (s : State), let x := s.team n
    x.residency = .halted → s.copiesOver n = true → area % 0x10000 = 0 → area + 0x190000 ≤ 2 ^ 39 → x.priv = [] → x.dirty = [] →
    x.nGroups ≤ 16 → (∀ g, x.quota g + x.budget g ≤ 28) →
    ∃ t, exec (.contextSave n area) s = .next t ∧ (t.team n).residency = .saved area ∧
      (∀ a, a < area ∨ area + 0x190000 ≤ a → readMem t.mem a = readMem s.mem a) ∧
      (∀ o, o < 0x80000 → readMem t.mem (area + 0x110000 + o) = Map.get 0 x.pad o) ∧ ∀ u, u ≠ n → t.team u = s.team u) ∧
  ∀ (n tile area : Nat) (s : State), let x := s.team n
    x.residency = .saved area → x.gang = none → tile < 192 → s.tileTeam x.cluster tile = none → (s.cluster x.cluster).stopped = false →
    (s.die (x.cluster / 2)).dead = false → (s.die (x.cluster / 2)).gated = false →
    s.isFront x.cluster (s.effective x.ctx (s.grid x.grid).priority (s.gangSince n)) (s.gangSince n) = true →
    ∃ t, exec (.restore n tile) s = .next t ∧ let z := t.team n
      (z.residency = .resident ∨ z.residency = .ended) ∧ z.tile = tile ∧ z.cluster = x.cluster ∧ z.grid = x.grid ∧ z.tlb = [] ∧ z.l1 = [] ∧
      z.rotgen = BitVec.ofNat 32 (leValue (readBytes s.mem (area + 0x18) 4)) + 1 ∧
      ∀ o, o < 0x80000 → Map.get 0 z.pad o = readMem s.mem (area + 0x110000 + o)

/-- R355 to R357, R323: the record at the head of a queue makes its event pending and, if it passes the checks, stands as a grid
at the head; a record with a bad field completes with 0xFFFF_FC00. Of the grids that may go, the one of highest priority, longest
at its head, of the lowest queue is dispatched, or completes with 0xFFFF_FD00 for a failed dependence and with 0xFFFF_FB08 and the die's
number where its context maps a failed memory die (R384). A grid whose teams have
ended signals its event. -/
def Obligations.GridLife : Prop :=
  (∀ (q tag k since : Nat) (r : LaunchRec) (rest : List LaunchRec) (s : State), s.hostQueue q = ⟨some tag, r :: rest, none, since⟩ →
    let ev := fieldAt r.bytes 0x28 8
    let s1 := s.pendEvent tag ev
    (s.devKey tag ev .write = .ok k → ev % 2 ^ 18 + 4 ≤ 2 ^ 18 → wroteBytes s s1 k [1, 0, 0, 0]) ∧
    (∀ ds maps, launchOk r.bytes = true → s1.devRead tag (fieldAt r.bytes 0 8) 128 = .ok ds → kernelOk ds = true →
      launchFits (s1.ctx tag) r.bytes ds = true → s1.launchMaps tag r.bytes = some maps →
      ∃ t n, exec (.launchRecordTake q) s = .next t ∧ t.mem = s1.mem ∧ lookup? s.grids n = none ∧
        t.hostQueue q = ⟨some tag, rest, some n, since⟩ ∧ t.grid n = s.gridOf tag q r ds maps ∧ ∀ m, m ≠ n → t.grid m = s.grid m) ∧
    (launchOk r.bytes = false → s1.devKey tag ev .write = .ok k →
      ∃ t, exec (.launchRecordTake q) s = .next t ∧ wroteBytes s1 t k (eventBytes 0xFFFF_FC00 s.gtime) ∧
        t.hostQueue q = ⟨some tag, rest, none, s.gtime⟩ ∧ t.grids = s.grids)) ∧
  (∀ (q n k : Nat) (s : State), let g := s.grid n
    let device := (s.ctx g.ctx).deviceKey
    q < 256 → s.eligible q = some (q, n) →
    (∀ r m, r < 256 → s.eligible r = some (r, m) → r ≠ q →
      let h := s.grid m
      h.priority < g.priority ∨ h.priority = g.priority ∧ (g.headSince < h.headSince ∨ g.headSince = h.headSince ∧ q < r)) →
    (∀ a ∈ g.deps, ∃ k, s.devKey g.ctx a .read = .ok k) →
    (∀ d, d ≠ device → exec (.gridDispatch d) s = .next s) ∧
    ((∀ a ∈ g.deps, s.depState g.ctx a ≠ 3) → s.failedUnder g.ctx = none →
      ∃ t, exec (.gridDispatch device) s = .next t ∧ t.mem = s.mem ∧ (t.hostQueue q).head = none ∧
        (∃ ev, t.grid n = { g with dispatched := true, headSince := s.gtime, launchEv := ev }) ∧ ∀ m, m ≠ n → t.grid m = s.grid m) ∧
    ((∃ a ∈ g.deps, s.depState g.ctx a = 3) → s.devKey g.ctx g.event .write = .ok k →
      ∃ t, exec (.gridDispatch device) s = .next t ∧ wroteBytes s t k (eventBytes 0xFFFF_FD00 s.gtime) ∧
        (t.hostQueue q).head = none ∧ t.grid n = { g with completed := true, status := some 0xFFFF_FD00 }) ∧
    ∀ d, (∀ a ∈ g.deps, s.depState g.ctx a ≠ 3) → s.failedUnder g.ctx = some d → s.devKey g.ctx g.event .write = .ok k →
      ∃ t, exec (.gridDispatch device) s = .next t ∧ wroteBytes s t k (eventBytes (0xFFFF_FB08 + d) s.gtime) ∧
        (t.hostQueue q).head = none ∧ t.grid n = { g with completed := true, status := some (BitVec.ofNat 32 (0xFFFF_FB08 + d)) }) ∧
  ∀ (n k : Nat) (s : State), let g := s.grid n
    g.dispatched = true → g.completed = false → g.total ≤ g.ended → (∀ u ∈ s.teamsOf n, (s.team u).flying = [] ∧ (s.team u).dirty = []) →
    s.devKey g.ctx g.event .write = .ok k →
    let status : Word := match g.status with | some v => v | none => g.discarded.getD 0
    ∃ t, exec (.gridCompletion n) s = .next t ∧ wroteBytes s t k (eventBytes status.toNat s.gtime) ∧
      t.grid n = { g with completed := true } ∧ ∀ m, m ≠ n → t.grid m = s.grid m

/-! ### The driver (spec chapters 23, 24) -/

/-- R349, R355, R374, R375, R379, R381, R254, R255 (Tables 24.5, 24.6): a tail write hands over the records that it covers, and the other
registers take legal values; a command that is next takes effect and ends with status 0, or is rejected with 1: CREATE_CONTEXT,
DESTROY_CONTEXT, ASSIGN_QUEUE, the retirement of a port, SET_PEER_WINDOW, REGISTER_COMMUNICATOR, RESUME_GROUP, END_GRID, and undefined commands
(commands 4 and 5 are in TranslationEvents). The model's choices: where a command's status stands and that its operands come with the event
(log 28), the answers in corners that the spec leaves open (log 29), and which images a retirement holds (log 55). -/
def Obligations.DriverCommands : Prop :=
  (∀ (b : QueueBlock) (tail : Word) (s : State), let n := blockOf b
    let x := s.block n
    let cut := tail.toNat % 2 ^ x.size
    (x.enable = false → exec (.queueTailWrite b tail) s = .next s) ∧
    (x.enable = true → s.pkg.verified = true → (∀ q, b = .host q → q < 256) →
      ∃ t, exec (.queueTailWrite b tail) s = .next t ∧ sameBytes s t ∧ (t.block n).tail = cut ∧ (t.block n).base = x.base ∧
        ((∀ q, b ≠ .host q) → t.hostQueues = s.hostQueues ∧ (t.block n).head = x.head) ∧
        ∀ q, b = .host q → (t.block q).head = cut ∧ (t.hostQueue q).owner = (s.hostQueue q).owner ∧
          ((t.hostQueue q).records.map fun r => r.bytes) = ((s.hostQueue q).records.map fun r => r.bytes) ++
            (List.range ((cut + 2 ^ x.size - x.head) % 2 ^ x.size)).map fun i =>
              readBytes s.mem (ringKey (x.base + 128 * ((x.head + i) % 2 ^ x.size))) 128)) ∧
  (∀ (b : QueueBlock) (v : DWord) (s : State), let n := blockOf b
    let x := s.block n
    s.pkg.verified = true → (∀ q, b = .host q → q < 256) →
    (v.toNat % 128 = 0 → exec (.registerWrite b .base v) s = .next (s.setBlock n { x with base := v.toNat })) ∧
    (v.toNat % 128 ≠ 0 → exec (.registerWrite b .base v) s = .next s) ∧
    (v.toNat < 2 ^ 11 → exec (.registerWrite b .vector v) s = .next (s.setBlock n { x with vector := v.toNat })) ∧
    exec (.registerWrite b .head v) s = .next s ∧
    ∀ (on : Bool) (size : Nat), 4 ≤ size → size ≤ 16 → v.toNat = (if on then 2 ^ 31 else 0) + size → s.faultOut = [] →
      ∃ t, exec (.registerWrite b .size v) s = .next t ∧ sameBytes s t ∧ t.block n = { x with enable := on, size := size }) ∧
  (∀ (desc : Nat) (s : State), s.adminOp = some 1 →
    let bs := readBytes s.mem (ringKey desc) 64
    let tag := fieldAt bs 0 2
    (s.descriptorOk bs = true → s.routinesOk (fieldAt bs 0x20 8) = true → s.hasCtx tag = false → (∀ e ∈ s.memDies, e.2.failed = false) →
      ∃ t, exec (.createContext desc) s = .next t ∧ s.commandEnds t 0 ∧ s.teams = t.teams ∧ (∀ c, c ≠ tag → t.ctx c = s.ctx c) ∧
        ∃ c, lookup? t.ctxs tag = some c ∧ c.mode = fieldAt bs 2 1 % 4 ∧ c.device = fieldAt bs 2 1 / 4 % 8 ∧ c.rotation = fieldAt bs 2 1 / 32 ∧
          (c.flush = true ↔ fieldAt bs 3 1 = 1) ∧ c.watchdog = (if fieldAt bs 4 4 = 0 then 100 else fieldAt bs 4 4) ∧
          c.root = fieldAt bs 8 8 ∧ c.handler = fieldAt bs 0x10 8 ∧ c.trapBase = fieldAt bs 0x18 8 ∧ c.routines = fieldAt bs 0x20 8 ∧
          c.quantum = (if fieldAt bs 0x28 4 = 0 then 200 else fieldAt bs 0x28 4) ∧ c.privBase = fieldAt bs 0x30 8 ∧ c.windows = []) ∧
    ((s.descriptorOk bs = false ∨ s.hasCtx tag = true) →
      ∃ t, exec (.createContext desc) s = .next t ∧ s.commandEnds t 1 ∧ t.ctxs = s.ctxs)) ∧
  (∀ (tag : Nat) (s : State), s.adminOp = some 2 → s.hasCtx tag = true →
    ∃ t, exec (.destroyContext tag) s = .next t ∧ s.commandOver t 0 ∧ t.hasCtx tag = false ∧
      (∀ n ∈ s.openGrids tag, (t.grid n).completed = true ∧ ∀ e ∈ t.teams, e.2.grid = n → e.2.residency = .ended) ∧
      (∀ q, (t.hostQueue q).owner ≠ some tag) ∧ ∀ c, c ≠ tag → t.ctx c = s.ctx c) ∧
  (∀ (tag q : Nat) (s : State), s.adminOp = some 3 → s.hasCtx tag = true →
    let n := queueCount (s.ctx tag).mode
    let own := (s.hostQueue q).owner
    let good := (s.ctx tag).device * n ≤ q ∧ q < ((s.ctx tag).device + 1) * n ∧ (own = none ∨ own = some tag)
    ∃ t, exec (.assignQueue tag q) s = .next t ∧
      (good → s.commandEnds t 0 ∧ t.hostQueue q = { s.hostQueue q with owner := some tag }) ∧
      (¬good → s.commandEnds t 1 ∧ t.hostQueues = s.hostQueues)) ∧
  (∀ (p ctx image : Nat) (s : State),
    (s.adminOp = some 6 → p < 16 →
      ∃ t, exec (.retireUnit (.port p)) s = .next t ∧ s.commandEnds t 0 ∧ t.pkg.retiredPorts = p :: s.pkg.retiredPorts ∧
        (∀ turn, bitsOf turn 59 56 = p → t.pkg.routeBad turn = true) ∧ ∀ g, s.hasCtx g.ctx = true → t.imageHeld g = true) ∧
    ∃ t, exec (.regenerationComplete ⟨ctx, image⟩) s = .next t ∧ sameBytes s t ∧
      ∀ g, t.imageHeld g = (s.imageHeld g && !(decide (g.ctx = ctx) && decide (g.dataBase = image)))) ∧
  (∀ (tag w package base : Nat) (turn : DWord) (s : State), s.adminOp = some 7 → s.hasCtx tag = true → w < 64 → package < 512 →
    ∃ t, exec (.setPeerWindow tag w package turn base) s = .next t ∧ s.commandEnds t 0 ∧
      lookup? (t.ctx tag).windows w = some ⟨package, turn, base⟩ ∧ ∀ v, v ≠ w → lookup? (t.ctx tag).windows v = lookup? (s.ctx tag).windows v) ∧
  (∀ (tag number : Nat) (ms : List Member) (s : State), s.adminOp = some 8 → s.hasCtx tag = true → number < 2 ^ 32 → ms ≠ [] →
    ms.length ≤ 2 ^ 16 → (∀ m ∈ ms, m.package < 512) →
    ∃ t, exec (.registerCommunicator tag number ms) s = .next t ∧ s.commandEnds t 0 ∧ lookup? t.pkg.comms (commKey tag number) = some ms) ∧
  (∀ (tag cluster slot g u : Nat) (w : Wait) (spot : Nat → Spot) (s : State), s.adminOp = some 9 → s.teamAt tag cluster slot = some u →
    let y := (s.team u).group g
    let a := (y.readS 28).val.toNat
    let s0 : State := { s with cur := w.issue }
    y.suspended = true → (s.team u).residency = .resident → y.wait = some w → a % 8 = 0 → s.noWrites →
    (∀ i, i < 48 → s0.recordUnit u g (a + 8 * i) = .ok (spot i) ∧
      ({ s with cur := { w.issue with team := u } } : State).peerCode (spot i) false .team = none ∧
      s0.sectorPoisoned (spot i) 8 = false ∧ s.steady (spot i)) →
    ∃ t, exec (.resumeGroup tag cluster slot (.group g)) s = .next t ∧ s.commandEnds t 0 ∧
      let z := (t.team u).group g
      z.handler = false ∧ z.suspended = false ∧ z.wait = none ∧
      ∀ l, l < 32 → (y.lane l).cond = .live →
        (z.lane l).pc = BitVec.ofNat 56 (leValue ((List.range 8).map (s.byteAt (spot (16 + l)))))) ∧
  (∀ (tag cluster slot u : Nat) (status : Word) (s : State), s.adminOp = some 0xA → s.teamAt tag cluster slot = some u →
    ∃ t, exec (.endGrid tag cluster slot status) s = .next t ∧ s.commandEnds t 0 ∧ gridEnded s t (s.team u).grid status) ∧
  ∀ (op : Nat) (s : State), s.adminOp = some op → op = 0 ∨ 0x0B ≤ op →
    ∃ t, exec .adminUndefined s = .next t ∧ s.commandEnds t 1 ∧ t.ctxs = s.ctxs ∧ t.teams = s.teams

/-! ### Lines and time (spec chapter 20) -/

/-- R329, R330, R332 to R336, R370: a request for which a link on its way must wake starts the wake; any other is granted at
once where nothing conflicts with it, else it snoops those that do; a snooped agent answers, and its answer or a crossing write-back
lets the request through; a line leaves its agent; a message of an old incarnation changes nothing; a lease ends by its holder's own
time, or is reclaimed from a lost holder with the sectors of its unmerged bytes poisoned; a timing message sets a die's offset, drift
and resynchronisation, and a drifted die loses its leases; a rejoining agent is named nowhere, and the lines that it held in X are
poisoned. No byte of memory changes. Which links a request crosses, and that a line is asked for at the directory of its page, are the
model's choices (log 30); so is what a read shared from the holder of X is granted (log 70). -/
def Obligations.LinesAndTime : Prop :=
  (∀ (home : HomeDir) (line c : Nat) (own write : Bool) (s : State), let a := CacheAgent.l2 c
    let e := s.dirEntry home line
    let ls := s.linksOf home a line
    s.speaks home a = true → s.homeFits home a line = true → s.hasWay c line = true → e.idle → line < 2 ^ 48 →
    (∀ k ∈ (s.cluster c).waysOf line, k < 2 ^ 48) →
    let i := if own then Instr.readOwn home line (s.sender a) write else .readShared home line (s.sender a)
    ((∃ l ∈ ls, (s.link l).low = true) → exec i s = .next (s.wakeLinks ls)) ∧
    ((∀ l ∈ ls, (s.link l).low = false) → ∃ t, exec i s = .next t ∧ sameBytes s t ∧
      let z := t.dirEntry home line
      let got (st : DirState) (x : L2State) : Prop := z.state = st ∧ z.queue = [] ∧ z.snoops = [] ∧ t.holds a line = x
      let waits (as : List CacheAgent) : Prop := z.state = e.state ∧ z.queue = [⟨a, own, own && write⟩] ∧ z.snoops = as
      let top := if own && write then L2State.m else .e
      match e.state with
      | .i => got (.x a) top
      | .x h => if h = a then got (.x a) (if own then top else if s.holds a line = .m then .m else .e) else waits [h]
      | .s as =>
          if own then (let bs := as.filter fun b => decide (b ≠ a); if bs = [] then got (.x a) top else waits bs)
          else got (.s (if a ∈ as then as else as ++ [a])) .s)) ∧
  (∀ (home : HomeDir) (line c d : Nat) (own write keeps : Bool) (s : State), let a := CacheAgent.l2 c
    let r : DirReq := ⟨.l2 d, own, write⟩
    let e := s.dirEntry home line
    d ≠ c → e.state = .x a → e.queue = [r] → e.leases = [] →
    let through (t : State) (keeps : Bool) : Prop := sameBytes s t ∧ let z := t.dirEntry home line
      z.queue = [] ∧ z.snoops = [] ∧ z.answers = [] ∧ z.state = if own then .x r.agent else if keeps then .s [a, r.agent] else .s [r.agent]
    (e.snoops = [a] → e.answers = [] →
      (s.speaks home a = true → s.holds a line = .m →
        ∃ t, exec (.dirtyWriteBack home line (s.sender a)) s = .next t ∧ through t false ∧ a ∈ (t.dirEntry home line).crossed) ∧
      (home = .hub → (s.link (c / 2)).low = true → exec (.snoop home line a) s = .next (s.wakeLinks [c / 2])) ∧
      ((home = .hub → (s.link (c / 2)).low = false) → s.holds a line ≠ .i →
        ∃ t, exec (.snoop home line a) s = .next t ∧ sameBytes s t ∧ t.holds a line = (if own then .i else .s) ∧
          (t.dirEntry home line).snoops = [] ∧ (t.dirEntry home line).answers = [(a, !own)])) ∧
    (e.snoops = [] → e.answers = [(a, keeps)] → ∃ t, exec (.snoopAnswer home line (s.sender a)) s = .next t ∧ through t keeps)) ∧
  (∀ (home : HomeDir) (line c : Nat) (s : State), let a := CacheAgent.l2 c
    let e := s.dirEntry home line
    s.speaks home a = true →
    (e.state = .x a → a ∉ e.snoops → s.holds a line = .m →
      ∃ t, exec (.dirtyWriteBack home line (s.sender a)) s = .next t ∧ sameBytes s t ∧ t.holds a line = .i ∧ (t.dirEntry home line).state = .i) ∧
    (s.holds a line ≠ .m → ∃ t, exec (.cleanEvictionNotice home line (s.sender a)) s = .next t ∧ sameBytes s t ∧ t.holds a line = .i ∧
      let z := (t.dirEntry home line).state
      z ≠ .x a ∧ (∀ as, z = .s as → a ∉ as) ∧ ∀ b, b ≠ a → (e.state = .x b → z = .x b) ∧ ∀ as, e.state = .s as → b ∈ as → ∃ bs, z = .s bs ∧ b ∈ bs)) ∧
  (∀ (home : HomeDir) (line : Nat) (a : Sender) (write : Bool) (s : State), a.inc ≠ Map.get 0 s.incarnations (agentUnit a.agent) →
    ∀ i ∈ [Instr.readShared home line a, .readOwn home line a write, .dirtyWriteBack home line a, .cleanEvictionNotice home line a,
      .snoopAnswer home line a], exec i s = .next s) ∧
  (∀ (line core : Nat) (l : Lease) (s : State), s.leaseOf line core = some l → (s.dirEntry .hub line).queue = [] →
    let now := (s.leaseDie l).reading s.gtime
    (s.leaseLost l = false → now < l.ends → exec (.leaseEnd line core) s = .next s) ∧
    (s.leaseLost l = false → l.ends ≤ now →
      ∃ t, exec (.leaseEnd line core) s = .next t ∧ sameBytes s t ∧ t.leaseOf line core = none ∧ t.memPoison = s.memPoison) ∧
    (s.leaseLost l = true → s.gtime < l.ends + 4000 → exec (.leaseReclaim line core) s = .next s) ∧
    (s.leaseLost l = true → l.ends + 4000 ≤ s.gtime →
      ∃ t, exec (.leaseReclaim line core) s = .next t ∧ sameBytes s t ∧ t.leaseOf line core = none ∧
        ∀ k, Map.get false t.memPoison k = (Map.get false s.memPoison k || l.dirty.any fun o => decide ((128 * line + o) / 32 = k)))) ∧
  (∀ (d : Nat) (o : Int) (s : State), let x := s.die d
    x.gated = false → x.dead = false →
    (x.lastTiming + 4000 ≤ s.gtime →
      ∃ t, exec (.timingMessage d none) s = .next t ∧ sameBytes s t ∧ t.die d = { x with drifted := true } ∧ leasesLost d s t) ∧
    (x.lastTiming + 1000 ≤ s.gtime → ∃ t, exec (.timingMessage d (some o)) s = .next t ∧ sameBytes s t ∧ let z := t.die d
      z.reading s.gtime ≥ x.reading s.gtime ∧ z.lastTiming = s.gtime ∧ (z.drifted = true → leasesLost d s t) ∧
        if x.resync then z.offset = 0 ∧ z.resync = false ∧ z.drifted = false
        else z.offset = o ∧ (z.resync = true ↔ 250 < o.natAbs) ∧
          (z.drifted = true ↔ 4000 < o.natAbs ∨ x.drifted = true ∧ 250 < o.natAbs))) ∧
  ∀ (a : CacheAgent) (s : State),
    ∃ t, exec (.agentRejoin a) s = .next t ∧ sameBytes s t ∧
      Map.get 0 t.incarnations (agentUnit a) = Map.get 0 s.incarnations (agentUnit a) + 1 ∧
      (∀ home line, (t.dirEntry home line).without a) ∧
      (∀ home line i, line < 2 ^ 48 → (s.dirEntry home line).state = .x a → i < 4 → Map.get false t.memPoison (4 * line + i) = true) ∧
      ((s.die (agentDie a)).dead = true → (∀ b ∈ agentsOf (agentDie a), b ≠ a → b ∈ (s.die (agentDie a)).rejoined) →
        (t.die (agentDie a)).dead = false)

/-! ### Power and failures (spec chapters 15, 20, 23) -/

/-- R353, R354, R270, R275, R364 to R367: filters swap after 64 µs; every 100 µs a rail moves one 5 mV step by the corrected-error rate
against its set point, and no lower than the floor while a weave of its die computes; a slice control that has kept its value for 1 µs
moves one step towards its target, a ratio or grant step from the next issue cycle and a matrix step from the next multiple of 8 ac on
(R275), in the governor's order (R364), and an emergency puts all three at their lowest; %energy grows each 1 µs; caps and ramps within
their limits are taken. The energy measured is a free value (log 13); the refresh allowance, and where the order of R364 holds a control,
are the model's choices (logs 31, 45). -/
def Obligations.PowerControls : Prop :=
  (∀ (k : Nat) (s : State), let b := Map.get Bloom.reset s.blooms k
    k < 16 → b.swapped + 64000 ≤ s.gtime → ∃ t, exec (.bloomFilterSwap k) s = .next t ∧ sameBytes s t ∧
      Map.get Bloom.reset t.blooms k = ⟨0, b.current, s.gtime⟩) ∧
  (∀ (ch : Nat) (s : State), exec (.refresh ch false) s = .next s ∧
    ∃ t, exec (.refresh ch true) s = .next t ∧ sameBytes s t ∧ Map.get 0 t.pkg.refresh ch < 8) ∧
  (∀ (d : Nat) (r : RailReading) (s : State), let x := s.die d
    let aim := if 30 ≤ r.setPoint ∧ r.setPoint ≤ 40 then r.setPoint else x.setPoint
    let want :=
      if s.gtime < x.nominalUntil then x.rail
      else if r.bits < x.corrected * 2 ^ aim then x.rail + 1
      else if x.corrected * 2 ^ aim < r.bits then x.rail - 1
      else x.rail
    (s.gtime < x.railAt + 100000 → exec (.railControl d r) s = .next s) ∧
    (x.railAt + 100000 ≤ s.gtime → ∃ t, exec (.railControl d r) s = .next t ∧ sameBytes s t ∧ (∀ e, e ≠ d → t.die e = s.die e) ∧
      t.die d = { x with
        rail := if s.dieComputes d = true ∧ want < 0 then 0 else want, railAt := s.gtime, corrected := 0, setPoint := aim })) ∧
  (∀ (c k target : Nat) (ctl : SliceControl) (s : State), let x := Map.get Slice.reset (s.cluster c).slices k
    let v := x.control ctl
    let n := Map.get 0 s.clk c
    let m := x.ratio.now n
    k < 6 → SliceControl.lo ctl ≤ target → target ≤ SliceControl.hi ctl →
    ((ctl = .grant ∧ v.target < target ∧ x.matrix.target ≠ 7 ∨ ctl = .ratio ∧ target < v.target ∧ (x.matrix.target ≠ 7 ∨ x.grant.target ≠ 4) ∨
        ctl = .matrix ∧ target < v.target ∧ (x.grant.target ≠ 0 ∨ x.ratio.target ≠ 8) ∨ ctl = .grant ∧ target < v.target ∧ x.ratio.target ≠ 8) →
      exec (.controlRampStep c k ctl target) s = .next s) ∧
    (x.admits ctl target = true →
      ∃ t, exec (.controlRampStep c k ctl target) s = .next t ∧ sameBytes s t ∧
        let z := Map.get Slice.reset (t.cluster c).slices k
        (z.control ctl).target = target ∧ (∀ o, o ≠ ctl → z.control o = x.control o) ∧
        if s.gtime < v.changed + 1000 ∨ v.val = target then z.control ctl = { v with target := target }
        else
          (z.control ctl).changed = s.gtime ∧ (z.control ctl).val = (if v.val < target then v.val + 1 else v.val - 1) ∧
          (4 ≤ m → m ≤ 8 → ∃ b, (∀ cycle, v.since ≤ cycle → (z.control ctl).now cycle = if cycle < b then v.val else (z.control ctl).val) ∧
            if ctl = .matrix then b = 8 * (n / 2 / 8 + 1)
            else n < b ∧ isIssueCycle m b = true ∧ ∀ j, n < j → j < b → isIssueCycle m j = false))) ∧
  (∀ (c k : Nat) (s : State), let x := Map.get Slice.reset (s.cluster c).slices k
    let n := Map.get 0 s.clk c
    k < 6 → 4 ≤ x.ratio.now n → x.ratio.now n ≤ 8 → ∃ t, exec (.thermalEmergency c k) s = .next t ∧ sameBytes s t ∧
      let z := Map.get Slice.reset (t.cluster c).slices k
      (∀ cycle, n + 2 ≤ cycle → z.ratio.now cycle = 4 ∧ z.grant.now cycle = 4) ∧ ∀ ac, 8 * (n / 2 / 8 + 1) ≤ ac → z.stepAt ac = 7) ∧
  (∀ (n : Nat) (s : State), let g := s.grid n
    g.dispatched = true → g.completed = false → g.energyAt + 1000 ≤ s.gtime →
    ∃ t w, exec (.energyUpdate n) s = .next t ∧ t.grid n = { g with energy := g.energy + w, energyAt := s.gtime } ∧ t.teams = s.teams) ∧
  ∀ (cap ramp : Nat) (s : State), ∃ t, exec (.powerCapSet cap ramp) s = .next t ∧ sameBytes s t ∧
    t.pkg.cap = (if 900 ≤ cap ∧ cap ≤ 1800 then cap else s.pkg.cap) ∧ t.pkg.ramp = if 10 ≤ ramp ∧ ramp ≤ 200 then ramp else s.pkg.ramp

/-- R288, R345, R368 to R371, R384, R367, R190, R225, R281 (Table 15.6): an idle die is gated, named by no directory, and wakes; links go
low and wake; a die that never answered is dead, and its grids end with 0xFFFF_FB00 and its number, first statuses kept; a relocation
error stops its cluster and ends its grids until the driver resets it; a memory island that fails ends the grids of the contexts
that map it, and a memory die that never answers takes its island with it (log 30); a dirty line that leaves a cache with an error
poisons its sectors and is reported, a clean one is fetched again; errors in stored bits poison their sectors. That the record of an
eviction names one page, that of the line's virtual address under the tag, is the model's choice (log 41). -/
def Obligations.DiesLinksFailures : Prop :=
  (∀ (d : Nat) (s : State), let x := s.die d
    (d < 8 → x.gated = false → x.dead = false → s.dieInUse d = false →
      ∃ t, exec (.dieGate d) s = .next t ∧ sameBytes s t ∧ t.die d = { x with gated := true, waking := false } ∧
        ∀ a ∈ agentsOf d, ∀ home line, (t.dirEntry home line).without a) ∧
    (x.gated = true → x.waking = true → exec (.dieWakeComplete d) s = .next (s.setDie d { x with gated := false, waking := false })) ∧
    (d < 4 → (s.memDie d).failed = false → ∃ t, exec (.memoryDieGate d) s = .next t ∧ sameBytes s t ∧ (t.memDie d).gated = true)) ∧
  (∀ (l k : Nat) (s : State), let x := s.link l
    (l < 12 → x.low = false → x.lastUse + 10000 ≤ s.gtime → ∃ t, exec (.linkIdle l) s = .next t ∧ sameBytes s t ∧ (t.link l).low = true) ∧
    (x.waking = some k → k + 4000 ≤ s.gtime → ∃ t, exec (.linkwake l) s = .next t ∧ sameBytes s t ∧
      (t.link l).waking = some s.gtime ∧ (t.link l).first = x.first ∧ t.pkg.blackBox.getLast? = some ⟨s.gtime, 0x21, l, []⟩) ∧
    (x.low = true → x.waking = some k → ∃ t, exec (.linkWakeComplete l) s = .next t ∧ sameBytes s t ∧
      (t.link l).low = false ∧ (t.link l).waking = none)) ∧
  (∀ (d k : Nat) (s : State), d < 8 → (s.die d).gated = false → (s.die d).dead = false → (s.link d).waking = some k →
    (s.link d).first + 100000 ≤ s.gtime →
    ∃ t, exec (.diedead d) s = .next t ∧ t.mem = s.mem ∧ (t.die d).dead = true ∧ t.pkg.blackBox.getLast? = some ⟨s.gtime, 0x22, d, []⟩ ∧
      (∀ u, u ∈ s.teamsIn (2 * d) ∨ u ∈ s.teamsIn (2 * d + 1) →
        (t.grid (s.team u).grid).status = some ((s.grid (s.team u).grid).status.getD (BitVec.ofNat 32 (0xFFFF_FB00 + d))) ∧
          ∀ e ∈ t.teams, e.2.grid = (s.team u).grid → e.2.residency = .ended) ∧
      ∀ a ∈ agentsOf d, ∀ home line, (t.dirEntry home line).without a) ∧
  (∀ (m k : Nat) (s : State), let d := 8 + m
    m < 4 → (s.die d).dead = false → (s.link d).waking = some k → (s.link d).first + 100000 ≤ s.gtime →
    ∃ t, exec (.diedead d) s = .next t ∧ t.mem = s.mem ∧ (t.die d).dead = true ∧ (t.memDie m).failed = true ∧
      t.pkg.blackBox.getLast? = some ⟨s.gtime, 0x22, d, []⟩ ∧
      ∀ e ∈ s.ctxs, e.2.onMemDie m = true → mapsDevice s.mem e.1 e.2 = true → ∀ n ∈ s.openGrids e.1,
        (t.grid n).status = some ((s.grid n).status.getD (BitVec.ofNat 32 (0xFFFF_FB00 + d)))) ∧
  (∀ (c : Nat) (s : State),
    (∃ t, exec (.relocationUncorr c) s = .next t ∧ t.mem = s.mem ∧ (t.cluster c).stopped = true ∧
      (t.die (c / 2)).rail = (s.die (c / 2)).nominal ∧
      ∀ u ∈ s.teamsIn c, let n := (s.team u).grid
        (∀ e ∈ t.teams, e.2.grid = n → e.2.residency = .ended) ∧
          ∃ v ∈ s.teamsIn c, (s.team v).grid = n ∧
            (t.grid n).status = some ((s.grid n).status.getD (BitVec.ofNat 32 (0xFFFF_FE00 + s.logicalCluster v)))) ∧
    exec (.clusterReset c) s = .next (s.setCluster c { s.cluster c with stopped := false })) ∧
  (∀ (m : Nat) (s : State), m < 4 →
    ∃ t, exec (.memoryIslandFailure m) s = .next t ∧ t.mem = s.mem ∧ (t.memDie m).failed = true ∧
      ∀ e ∈ s.ctxs, e.2.onMemDie m = true → mapsDevice s.mem e.1 e.2 = true → ∀ n ∈ s.openGrids e.1,
        (t.grid n).status = some ((s.grid n).status.getD (BitVec.ofNat 32 (0xFFFF_FB00 + 8 + m)))) ∧
  (∀ (x : EvictedLine) (tag : Nat) (s : State),
    (s.cachedDirty x = none → exec (.evictionUncorr x tag) s = .next s) ∧
    (s.cachedDirty x = some true → s.mapsTo tag x.va x.line = true → (s.block 257).enable = false →
      (∀ c, x.cluster = some c → s.asking c x.line = false) →
      ∃ t, exec (.evictionUncorr x tag) s = .next t ∧ sameBytes s t ∧ t.cachedDirty x = none ∧
        (t.die (s.errorDie x)).rail = (s.die (s.errorDie x)).nominal ∧
        (∀ k, Map.get false t.memPoison k = (Map.get false s.memPoison k || decide (k / 4 = x.line))) ∧
        ∃ r, t.faultOut = s.faultOut ++ [r] ∧ r.ctx = tag ∧ r.cause = 0xD ∧ r.pages = 1 ∧ r.waiting = 0 ∧
          r.start ≤ x.va ∧ x.va < r.start + 2 ^ 18) ∧
    (s.cachedDirty x = some false → ∃ t, exec (.evictionUncorr x tag) s = .next t ∧ sameBytes s t ∧ t.memPoison = s.memPoison ∧
      t.faultOut = s.faultOut ∧ (t.die (s.errorDie x)).errors = (s.die (s.errorDie x)).errors + 1)) ∧
  ∀ (u o b k d : Nat) (s : State),
    (o < 0x80000 → ∃ t, exec (.softError (.weave u o b)) s = .next t ∧ sameBytes s t ∧
      ∀ j, Map.get false (t.team u).flips j = (Map.get false (s.team u).flips j ^^ decide (j = 8 * o + b % 8))) ∧
    (k < 0x4000 → ∃ t, exec (.softError (.weaveSector u k)) s = .next t ∧ sameBytes s t ∧ Map.get false (t.team u).padPoison k = true) ∧
    (∃ t, exec (.softError (.memorySector k)) s = .next t ∧ sameBytes s t ∧ Map.get false t.memPoison k = true) ∧
    ∃ t, exec (.softError (.corrected d)) s = .next t ∧ sameBytes s t ∧ (t.die d).corrected = (s.die d).corrected + 1

/-! ### The host (spec chapter 24) -/

/-- R380, R382, R383, R387: the aperture reads and writes the bytes of device memory, and an AtomicOp replaces its operand and answers
with the old value; a read of a poisoned sector is answered with zeros and the EP bit and recorded, a write that covers such a
sector clears its bit, and any other write to it is dropped and recorded. A reset with a valid image clears the machine but for memory and
the black box; without one the device takes only a recovery image. The measurement is the SHA-384 of the image; its signature is a free
value (log 20). Model's choices: a reset keeps and measures the image that it boots (log 15), a device without an image serves nothing
else of the host (log 32), the bytes of a black box record, and the recovery image only while none is verified (log 41). -/
def Obligations.HostAccess : Prop :=
  (∀ (thread pa n : Nat) (s : State), s.apertureOk pa n = true → s.hostWaits pa n = false →
    ((∀ i, i < n → Map.get false s.memPoison ((pa + i) / 32) = false) → s.noWrites →
      ∃ t, exec (.hostApertureRead ⟨thread, pa⟩ n) s = .next t ∧ sameBytes s t ∧ t.pkg.reply = ⟨readBytes s.mem pa n, false⟩) ∧
    ((∃ i, i < n ∧ Map.get false s.memPoison ((pa + i) / 32) = true) →
      ∃ t, exec (.hostApertureRead ⟨thread, pa⟩ n) s = .next t ∧ sameBytes s t ∧ t.pkg.reply = ⟨List.replicate n 0, true⟩ ∧ t.pkg.aer = s.pkg.aer + 1)) ∧
  (∀ (thread pa : Nat) (bs : List Byte) (s : State), s.apertureOk pa bs.length = true → s.hostWaits pa bs.length = false →
    pa % 32 + bs.length ≤ 32 →
    Map.get false s.memPoison (pa / 32) = true →
    (bs.length = 32 → ∃ t, exec (.hostApertureWrite ⟨thread, pa⟩ bs) s = .next t ∧ wroteBytes s t pa bs ∧
      ∀ k, Map.get false t.memPoison k = (Map.get false s.memPoison k && decide (k ≠ pa / 32))) ∧
    (bs.length < 32 → ∃ t, exec (.hostApertureWrite ⟨thread, pa⟩ bs) s = .next t ∧ sameBytes s t ∧ t.memPoison = s.memPoison ∧
      t.pkg.aer = s.pkg.aer + 1)) ∧
  (∀ (thread pa : Nat) (bs : List Byte) (s : State), s.apertureOk pa bs.length = true → s.hostWaits pa bs.length = false →
    (∀ i, i < bs.length → Map.get false s.memPoison ((pa + i) / 32) = false) →
    ∃ t, exec (.hostApertureWrite ⟨thread, pa⟩ bs) s = .next t ∧ wroteBytes s t pa bs ∧ t.teams = s.teams) ∧
  (∀ (thread pa : Nat) (op : HostAtomic) (s : State), let n := HostAtomic.size op
    HostAtomic.ok op = true → pa % n = 0 → s.apertureOk pa n = true → s.hostWaits pa n = false →
    (∀ i, i < n → Map.get false s.memPoison ((pa + i) / 32) = false) → s.noWrites →
    let old := leValue (readBytes s.mem pa n)
    let new := match op with
      | .fetchAdd _ v => old + v
      | .swap _ v => v
      | .cas _ x v => if old = x % 2 ^ (8 * n) then v else old
    ∃ t, exec (.hostAtomicop ⟨thread, pa⟩ op) s = .next t ∧ wroteBytes s t pa (leBytes n new) ∧ t.teams = s.teams ∧ t.pkg.reply = ⟨leBytes n old, false⟩) ∧
  (∀ (image : List Byte) (s : State),
    (∃ t, exec (.packageReset image true) s = .next t ∧ t.mem = s.mem ∧ t.memPoison = s.memPoison ∧ t.teams = [] ∧ t.ctxs = [] ∧ t.gtime = 0 ∧
      t.clk = [] ∧ t.pkg.verified = true ∧ t.pkg.image = image ∧ t.pkg.measurement = sha384 image ∧ t.pkg.blackBox = s.pkg.blackBox ∧ t.pkg.retiredPorts = [] ∧
      (∀ b, (t.block b).enable = false)) ∧
    (∃ t, exec (.packageReset image false) s = .next t ∧ t.mem = s.mem ∧ t.teams = [] ∧ t.pkg.verified = false ∧
      t.pkg.blackBox.getLast? = some ⟨0, 0x41, 0, []⟩) ∧
    (s.pkg.verified = true → ∀ v, exec (.recoveryImageWrite image v) s = .next s) ∧
    (s.pkg.verified = false → ∃ t, exec (.recoveryImageWrite image true) s = .next t ∧ sameBytes s t ∧ t.pkg.verified = true ∧ t.pkg.image = image ∧
      t.pkg.measurement = sha384 image)) ∧
  ∀ s : State,
    (s.pkg.verified = true → ∃ t sig, exec .attestationRequest s = .next t ∧ sameBytes s t ∧ sig.length = 96 ∧
      t.pkg.reply = ⟨(leBytes 48 s.pkg.measurement).reverse ++ sig, false⟩) ∧
    ∀ (i : Nat) (r : BoxRec), s.pkg.blackBox[i]? = some r →
      ∃ t tail, exec (.blackBoxRead i) s = .next t ∧ sameBytes s t ∧ tail.length = 48 ∧
        t.pkg.reply = ⟨leBytes 8 r.gtime ++ leBytes 4 r.cls ++ leBytes 4 r.unit ++ tail, false⟩
end

