-- ==== Sys2Proof/Laws/Maps.lean ====
section
/-!
SUPPORT. The laws of finite maps and of memory: a read after a write, and the canonical form.
-/

namespace Sys2Proof

/-! ### Reading after writing -/

theorem Map.get_erase_same {α : Type} (d : α) (m : Map α) (k : Nat) : Map.get d (Map.erase m k) k = d := by
  induction m with
  | nil => rfl
  | cons e m ih =>
    by_cases h : e.1 = k
    · simp [Map.erase, h, ih]
    · simp [Map.erase, h, Map.get, ih]

theorem Map.get_erase_other {α : Type} (d : α) (m : Map α) {k j : Nat} (h : j ≠ k) :
    Map.get d (Map.erase m k) j = Map.get d m j := by
  induction m with
  | nil => rfl
  | cons e m ih =>
    by_cases hk : e.1 = k
    · have : e.1 ≠ j := fun hj => h (hj ▸ hk)
      simp [Map.erase, hk, Map.get, ih, Ne.symm h]
    · simp [Map.erase, hk, Map.get, ih]

theorem Map.get_insert_other {α : Type} (d v : α) (m : Map α) {k j : Nat} (h : j ≠ k) :
    Map.get d (Map.insert k v m) j = Map.get d m j := by
  induction m with
  | nil => simp [Map.insert, Map.get, Ne.symm h]
  | cons e m ih =>
    by_cases hk : k < e.1
    · simp [Map.insert, hk, Map.get, Ne.symm h]
    · simp [Map.insert, hk, Map.get, ih]

theorem Map.get_insert_same {α : Type} (d v : α) (m : Map α) (k : Nat) (h : ∀ e ∈ m, e.1 ≠ k) :
    Map.get d (Map.insert k v m) k = v := by
  induction m with
  | nil => simp [Map.insert, Map.get]
  | cons e m ih =>
    have he : e.1 ≠ k := h e (List.mem_cons_self ..)
    by_cases hk : k < e.1
    · simp [Map.insert, hk, Map.get]
    · simp [Map.insert, hk, Map.get, he, ih (fun x hx => h x (List.mem_cons_of_mem _ hx))]

theorem Map.erase_ne {α : Type} (m : Map α) (k : Nat) : ∀ e ∈ Map.erase m k, e.1 ≠ k := by
  induction m with
  | nil => simp [Map.erase]
  | cons e m ih =>
    intro x hx
    by_cases hk : e.1 = k
    · exact ih x (by simpa [Map.erase, hk] using hx)
    · rcases List.mem_cons.1 (by simpa [Map.erase, hk] using hx) with rfl | hm
      · exact hk
      · exact ih x hm

@[simp] theorem Map.get_put_same {α : Type} (d : α) (m : Map α) (k : Nat) (v : α) : Map.get d (Map.put m k v) k = v :=
  Map.get_insert_same d v _ k (Map.erase_ne m k)

theorem Map.get_put_other {α : Type} (d : α) (m : Map α) {k j : Nat} (v : α) (h : j ≠ k) :
    Map.get d (Map.put m k v) j = Map.get d m j := by
  rw [Map.put, Map.get_insert_other d v _ h, Map.get_erase_other d m h]

theorem Map.get_put {α : Type} (d : α) (m : Map α) (k j : Nat) (v : α) :
    Map.get d (Map.put m k v) j = if j = k then v else Map.get d m j := by
  split
  · next h => rw [h, Map.get_put_same]
  · next h => exact Map.get_put_other d m v h

@[simp] theorem Map.get_set_same {α : Type} [DecidableEq α] (d : α) (m : Map α) (k : Nat) (v : α) :
    Map.get d (Map.set d m k v) k = v := by
  unfold Map.set
  split
  · next h => rw [Map.get_erase_same, h]
  · exact Map.get_put_same d m k v

theorem Map.get_set_other {α : Type} [DecidableEq α] (d : α) (m : Map α) {k j : Nat} (v : α) (h : j ≠ k) :
    Map.get d (Map.set d m k v) j = Map.get d m j := by
  unfold Map.set
  split
  · exact Map.get_erase_other d m h
  · exact Map.get_put_other d m v h

theorem Map.get_set {α : Type} [DecidableEq α] (d : α) (m : Map α) (k j : Nat) (v : α) :
    Map.get d (Map.set d m k v) j = if j = k then v else Map.get d m j := by
  split
  · next h => rw [h, Map.get_set_same]
  · next h => exact Map.get_set_other d m v h

/-! ### The canonical form -/

theorem Map.wfFrom_mono {α : Type} [DecidableEq α] (d : α) {lo hi : Nat} (h : lo ≤ hi) (m : Map α) :
    Map.wfFrom d hi m = true → Map.wfFrom d lo m = true := by
  cases m with
  | nil => simp [Map.wfFrom]
  | cons e m =>
    simp only [Map.wfFrom, Bool.and_eq_true, decide_eq_true_eq]
    exact fun ⟨⟨h1, h2⟩, h3⟩ => ⟨⟨Nat.le_trans h h1, h2⟩, h3⟩

theorem Map.wfFrom_erase {α : Type} [DecidableEq α] (d : α) (k : Nat) (m : Map α) (lo : Nat) :
    Map.wfFrom d lo m = true → Map.wfFrom d lo (Map.erase m k) = true := by
  induction m generalizing lo with
  | nil => simp [Map.erase]
  | cons e m ih =>
    simp only [Map.wfFrom, Bool.and_eq_true, decide_eq_true_eq]
    rintro ⟨⟨h1, h2⟩, h3⟩
    by_cases hk : e.1 = k
    · simpa [Map.erase, hk] using Map.wfFrom_mono d (by omega) _ (ih (e.1 + 1) h3)
    · simp [Map.erase, hk, Map.wfFrom, h1, h2, ih (e.1 + 1) h3]

theorem Map.wfFrom_insert {α : Type} [DecidableEq α] (d : α) (k : Nat) (v : α) (hv : v ≠ d) (m : Map α) (lo : Nat)
    (hlo : lo ≤ k) (hne : ∀ e ∈ m, e.1 ≠ k) :
    Map.wfFrom d lo m = true → Map.wfFrom d lo (Map.insert k v m) = true := by
  induction m generalizing lo with
  | nil => simp [Map.insert, Map.wfFrom, hlo, hv]
  | cons e m ih =>
    simp only [Map.wfFrom, Bool.and_eq_true, decide_eq_true_eq]
    rintro ⟨⟨h1, h2⟩, h3⟩
    have he : e.1 ≠ k := hne e (List.mem_cons_self ..)
    by_cases hk : k < e.1
    · simp [Map.insert, hk, Map.wfFrom, hlo, hv, h2, h3] <;> omega
    · have := ih (e.1 + 1) (by omega) (fun x hx => hne x (List.mem_cons_of_mem _ hx)) h3
      simp [Map.insert, hk, Map.wfFrom, h1, h2, this]

theorem Map.wf_set {α : Type} [DecidableEq α] (d : α) (m : Map α) (k : Nat) (v : α) :
    Map.wf d m = true → Map.wf d (Map.set d m k v) = true := by
  intro h
  unfold Map.set
  split
  · exact Map.wfFrom_erase d k m 0 h
  · next hv => exact Map.wfFrom_insert d k v hv _ 0 (Nat.zero_le _) (Map.erase_ne m k) (Map.wfFrom_erase d k m 0 h)

end Sys2Proof

namespace Sys2Proof.Machine

/-! ### Memory -/

@[simp] theorem readMem_writeMem_same (m : List Host.Cell) (k : Nat) (b : Byte) : readMem (writeMem m k b) k = b :=
  Map.get_set_same _ _ _ _

theorem readMem_writeMem_other (m : List Host.Cell) {k j : Nat} (b : Byte) (h : j ≠ k) :
    readMem (writeMem m k b) j = readMem m j := Map.get_set_other _ _ _ h

theorem wf_writeMem (m : List Host.Cell) (k : Nat) (b : Byte) (h : Memory.wf m = true) : Memory.wf (writeMem m k b) = true :=
  Map.wf_set _ _ _ _ h

theorem wf_writeBytes (bs : List Byte) (m : List Host.Cell) (k : Nat) (h : Memory.wf m = true) :
    Memory.wf (writeBytes m k bs) = true := by
  induction bs generalizing m k with
  | nil => exact h
  | cons b bs ih => exact ih _ _ (wf_writeMem m k b h)

theorem readMem_writeBytes_before (bs : List Byte) (m : List Host.Cell) (k j : Nat) (h : j < k) :
    readMem (writeBytes m k bs) j = readMem m j := by
  induction bs generalizing m k with
  | nil => rfl
  | cons b bs ih => rw [writeBytes, ih _ _ (by omega), readMem_writeMem_other _ _ (by omega)]

/-- A byte after a write of bytes: the one written there, or the one before. -/
theorem readMem_writeBytes (bs : List Byte) (m : List Host.Cell) (k j : Nat) :
    readMem (writeBytes m k bs) j = if k ≤ j ∧ j < k + bs.length then bs.getD (j - k) 0 else readMem m j := by
  induction bs generalizing m k with
  | nil =>
    rw [if_neg (fun h => by simp at h; omega)]
    rfl
  | cons b bs ih =>
    rw [writeBytes, ih]
    by_cases hj : j = k
    · subst hj
      rw [if_neg (by omega), if_pos ⟨Nat.le_refl _, by simp⟩, readMem_writeMem_same]
      simp
    · rw [readMem_writeMem_other _ _ hj]
      by_cases hc : k + 1 ≤ j ∧ j < k + 1 + bs.length
      · rw [if_pos hc, if_pos ⟨by omega, by simp only [List.length_cons]; omega⟩]
        obtain ⟨i, rfl⟩ : ∃ i, j = k + 1 + i := ⟨j - (k + 1), by omega⟩
        have h1 : k + 1 + i - (k + 1) = i := by omega
        have h2 : k + 1 + i - k = i + 1 := by omega
        rw [h1, h2]
        simp
      · rw [if_neg hc, if_neg (fun h => hc ⟨by omega, by have := h.2; simp only [List.length_cons] at this; omega⟩)]

end Sys2Proof.Machine
end

