-- ==== Sys2Proof/Laws/State.lean ====
section
/-!
SUPPORT. What each update of the state leaves of each field: one lemma per field and update, and the laws of the accessors.
-/

namespace Sys2Proof.Machine


/-! ### setTeam -/

@[simp] theorem State.setTeam_agenda (s : State) (t : Nat) (x : Team) : (s.setTeam t x).agenda = s.agenda := rfl
@[simp] theorem State.setTeam_cur (s : State) (t : Nat) (x : Team) : (s.setTeam t x).cur = s.cur := rfl
@[simp] theorem State.setTeam_focus (s : State) (t : Nat) (x : Team) : (s.setTeam t x).focus = s.focus := rfl
@[simp] theorem State.setTeam_freeCtr (s : State) (t : Nat) (x : Team) : (s.setTeam t x).freeCtr = s.freeCtr := rfl
@[simp] theorem State.setTeam_clk (s : State) (t : Nat) (x : Team) : (s.setTeam t x).clk = s.clk := rfl
@[simp] theorem State.setTeam_gtime (s : State) (t : Nat) (x : Team) : (s.setTeam t x).gtime = s.gtime := rfl
@[simp] theorem State.setTeam_ctxs (s : State) (t : Nat) (x : Team) : (s.setTeam t x).ctxs = s.ctxs := rfl
@[simp] theorem State.setTeam_clusters (s : State) (t : Nat) (x : Team) : (s.setTeam t x).clusters = s.clusters := rfl
@[simp] theorem State.setTeam_mem (s : State) (t : Nat) (x : Team) : (s.setTeam t x).mem = s.mem := rfl
@[simp] theorem State.setTeam_memPoison (s : State) (t : Nat) (x : Team) : (s.setTeam t x).memPoison = s.memPoison := rfl
@[simp] theorem State.setTeam_log (s : State) (t : Nat) (x : Team) : (s.setTeam t x).log = s.log := rfl
@[simp] theorem State.setTeam_grids (s : State) (t : Nat) (x : Team) : (s.setTeam t x).grids = s.grids := rfl
@[simp] theorem State.setTeam_batches (s : State) (t : Nat) (x : Team) : (s.setTeam t x).batches = s.batches := rfl
@[simp] theorem State.setTeam_faultOut (s : State) (t : Nat) (x : Team) : (s.setTeam t x).faultOut = s.faultOut := rfl
@[simp] theorem State.setTeam_dies (s : State) (t : Nat) (x : Team) : (s.setTeam t x).dies = s.dies := rfl
@[simp] theorem State.setTeam_memDies (s : State) (t : Nat) (x : Team) : (s.setTeam t x).memDies = s.memDies := rfl
@[simp] theorem State.setTeam_links (s : State) (t : Nat) (x : Team) : (s.setTeam t x).links = s.links := rfl
@[simp] theorem State.setTeam_blooms (s : State) (t : Nat) (x : Team) : (s.setTeam t x).blooms = s.blooms := rfl
@[simp] theorem State.setTeam_msc (s : State) (t : Nat) (x : Team) : (s.setTeam t x).msc = s.msc := rfl
@[simp] theorem State.setTeam_dir (s : State) (t : Nat) (x : Team) : (s.setTeam t x).dir = s.dir := rfl
@[simp] theorem State.setTeam_l2 (s : State) (t : Nat) (x : Team) : (s.setTeam t x).l2 = s.l2 := rfl
@[simp] theorem State.setTeam_words (s : State) (t : Nat) (x : Team) : (s.setTeam t x).words = s.words := rfl
@[simp] theorem State.setTeam_incarnations (s : State) (t : Nat) (x : Team) : (s.setTeam t x).incarnations = s.incarnations := rfl
@[simp] theorem State.setTeam_blocks (s : State) (t : Nat) (x : Team) : (s.setTeam t x).blocks = s.blocks := rfl
@[simp] theorem State.setTeam_hostQueues (s : State) (t : Nat) (x : Team) : (s.setTeam t x).hostQueues = s.hostQueues := rfl
@[simp] theorem State.setTeam_launchCache (s : State) (t : Nat) (x : Team) : (s.setTeam t x).launchCache = s.launchCache := rfl
@[simp] theorem State.setTeam_pointers (s : State) (t : Nat) (x : Team) : (s.setTeam t x).pointers = s.pointers := rfl
@[simp] theorem State.setTeam_pkg (s : State) (t : Nat) (x : Team) : (s.setTeam t x).pkg = s.pkg := rfl
@[simp] theorem State.setTeam_lates (s : State) (t : Nat) (x : Team) : (s.setTeam t x).lates = s.lates := rfl
@[simp] theorem State.setTeam_late (s : State) (t : Nat) (x : Team) : (s.setTeam t x).late = s.late := rfl
@[simp] theorem State.setTeam_victim (s : State) (t : Nat) (x : Team) : (s.setTeam t x).victim = s.victim := rfl
@[simp] theorem State.setTeam_raced (s : State) (t : Nat) (x : Team) : (s.setTeam t x).raced = s.raced := rfl

/-! ### mapTeam -/

@[simp] theorem State.mapTeam_agenda (s : State) (t : Nat) (f : Team → Team) : (s.mapTeam t f).agenda = s.agenda := rfl
@[simp] theorem State.mapTeam_cur (s : State) (t : Nat) (f : Team → Team) : (s.mapTeam t f).cur = s.cur := rfl
@[simp] theorem State.mapTeam_focus (s : State) (t : Nat) (f : Team → Team) : (s.mapTeam t f).focus = s.focus := rfl
@[simp] theorem State.mapTeam_freeCtr (s : State) (t : Nat) (f : Team → Team) : (s.mapTeam t f).freeCtr = s.freeCtr := rfl
@[simp] theorem State.mapTeam_clk (s : State) (t : Nat) (f : Team → Team) : (s.mapTeam t f).clk = s.clk := rfl
@[simp] theorem State.mapTeam_gtime (s : State) (t : Nat) (f : Team → Team) : (s.mapTeam t f).gtime = s.gtime := rfl
@[simp] theorem State.mapTeam_ctxs (s : State) (t : Nat) (f : Team → Team) : (s.mapTeam t f).ctxs = s.ctxs := rfl
@[simp] theorem State.mapTeam_clusters (s : State) (t : Nat) (f : Team → Team) : (s.mapTeam t f).clusters = s.clusters := rfl
@[simp] theorem State.mapTeam_mem (s : State) (t : Nat) (f : Team → Team) : (s.mapTeam t f).mem = s.mem := rfl
@[simp] theorem State.mapTeam_memPoison (s : State) (t : Nat) (f : Team → Team) : (s.mapTeam t f).memPoison = s.memPoison := rfl
@[simp] theorem State.mapTeam_log (s : State) (t : Nat) (f : Team → Team) : (s.mapTeam t f).log = s.log := rfl
@[simp] theorem State.mapTeam_grids (s : State) (t : Nat) (f : Team → Team) : (s.mapTeam t f).grids = s.grids := rfl
@[simp] theorem State.mapTeam_batches (s : State) (t : Nat) (f : Team → Team) : (s.mapTeam t f).batches = s.batches := rfl
@[simp] theorem State.mapTeam_faultOut (s : State) (t : Nat) (f : Team → Team) : (s.mapTeam t f).faultOut = s.faultOut := rfl
@[simp] theorem State.mapTeam_dies (s : State) (t : Nat) (f : Team → Team) : (s.mapTeam t f).dies = s.dies := rfl
@[simp] theorem State.mapTeam_memDies (s : State) (t : Nat) (f : Team → Team) : (s.mapTeam t f).memDies = s.memDies := rfl
@[simp] theorem State.mapTeam_links (s : State) (t : Nat) (f : Team → Team) : (s.mapTeam t f).links = s.links := rfl
@[simp] theorem State.mapTeam_blooms (s : State) (t : Nat) (f : Team → Team) : (s.mapTeam t f).blooms = s.blooms := rfl
@[simp] theorem State.mapTeam_msc (s : State) (t : Nat) (f : Team → Team) : (s.mapTeam t f).msc = s.msc := rfl
@[simp] theorem State.mapTeam_dir (s : State) (t : Nat) (f : Team → Team) : (s.mapTeam t f).dir = s.dir := rfl
@[simp] theorem State.mapTeam_l2 (s : State) (t : Nat) (f : Team → Team) : (s.mapTeam t f).l2 = s.l2 := rfl
@[simp] theorem State.mapTeam_words (s : State) (t : Nat) (f : Team → Team) : (s.mapTeam t f).words = s.words := rfl
@[simp] theorem State.mapTeam_incarnations (s : State) (t : Nat) (f : Team → Team) : (s.mapTeam t f).incarnations = s.incarnations := rfl
@[simp] theorem State.mapTeam_blocks (s : State) (t : Nat) (f : Team → Team) : (s.mapTeam t f).blocks = s.blocks := rfl
@[simp] theorem State.mapTeam_hostQueues (s : State) (t : Nat) (f : Team → Team) : (s.mapTeam t f).hostQueues = s.hostQueues := rfl
@[simp] theorem State.mapTeam_launchCache (s : State) (t : Nat) (f : Team → Team) : (s.mapTeam t f).launchCache = s.launchCache := rfl
@[simp] theorem State.mapTeam_pointers (s : State) (t : Nat) (f : Team → Team) : (s.mapTeam t f).pointers = s.pointers := rfl
@[simp] theorem State.mapTeam_pkg (s : State) (t : Nat) (f : Team → Team) : (s.mapTeam t f).pkg = s.pkg := rfl
@[simp] theorem State.mapTeam_lates (s : State) (t : Nat) (f : Team → Team) : (s.mapTeam t f).lates = s.lates := rfl
@[simp] theorem State.mapTeam_late (s : State) (t : Nat) (f : Team → Team) : (s.mapTeam t f).late = s.late := rfl
@[simp] theorem State.mapTeam_victim (s : State) (t : Nat) (f : Team → Team) : (s.mapTeam t f).victim = s.victim := rfl
@[simp] theorem State.mapTeam_raced (s : State) (t : Nat) (f : Team → Team) : (s.mapTeam t f).raced = s.raced := rfl

/-! ### setCluster -/

@[simp] theorem State.setCluster_agenda (s : State) (c : Nat) (x : Cluster) : (s.setCluster c x).agenda = s.agenda := rfl
@[simp] theorem State.setCluster_cur (s : State) (c : Nat) (x : Cluster) : (s.setCluster c x).cur = s.cur := rfl
@[simp] theorem State.setCluster_focus (s : State) (c : Nat) (x : Cluster) : (s.setCluster c x).focus = s.focus := rfl
@[simp] theorem State.setCluster_freeCtr (s : State) (c : Nat) (x : Cluster) : (s.setCluster c x).freeCtr = s.freeCtr := rfl
@[simp] theorem State.setCluster_clk (s : State) (c : Nat) (x : Cluster) : (s.setCluster c x).clk = s.clk := rfl
@[simp] theorem State.setCluster_gtime (s : State) (c : Nat) (x : Cluster) : (s.setCluster c x).gtime = s.gtime := rfl
@[simp] theorem State.setCluster_teams (s : State) (c : Nat) (x : Cluster) : (s.setCluster c x).teams = s.teams := rfl
@[simp] theorem State.setCluster_ctxs (s : State) (c : Nat) (x : Cluster) : (s.setCluster c x).ctxs = s.ctxs := rfl
@[simp] theorem State.setCluster_mem (s : State) (c : Nat) (x : Cluster) : (s.setCluster c x).mem = s.mem := rfl
@[simp] theorem State.setCluster_memPoison (s : State) (c : Nat) (x : Cluster) : (s.setCluster c x).memPoison = s.memPoison := rfl
@[simp] theorem State.setCluster_log (s : State) (c : Nat) (x : Cluster) : (s.setCluster c x).log = s.log := rfl
@[simp] theorem State.setCluster_grids (s : State) (c : Nat) (x : Cluster) : (s.setCluster c x).grids = s.grids := rfl
@[simp] theorem State.setCluster_batches (s : State) (c : Nat) (x : Cluster) : (s.setCluster c x).batches = s.batches := rfl
@[simp] theorem State.setCluster_faultOut (s : State) (c : Nat) (x : Cluster) : (s.setCluster c x).faultOut = s.faultOut := rfl
@[simp] theorem State.setCluster_dies (s : State) (c : Nat) (x : Cluster) : (s.setCluster c x).dies = s.dies := rfl
@[simp] theorem State.setCluster_memDies (s : State) (c : Nat) (x : Cluster) : (s.setCluster c x).memDies = s.memDies := rfl
@[simp] theorem State.setCluster_links (s : State) (c : Nat) (x : Cluster) : (s.setCluster c x).links = s.links := rfl
@[simp] theorem State.setCluster_blooms (s : State) (c : Nat) (x : Cluster) : (s.setCluster c x).blooms = s.blooms := rfl
@[simp] theorem State.setCluster_msc (s : State) (c : Nat) (x : Cluster) : (s.setCluster c x).msc = s.msc := rfl
@[simp] theorem State.setCluster_dir (s : State) (c : Nat) (x : Cluster) : (s.setCluster c x).dir = s.dir := rfl
@[simp] theorem State.setCluster_l2 (s : State) (c : Nat) (x : Cluster) : (s.setCluster c x).l2 = s.l2 := rfl
@[simp] theorem State.setCluster_words (s : State) (c : Nat) (x : Cluster) : (s.setCluster c x).words = s.words := rfl
@[simp] theorem State.setCluster_incarnations (s : State) (c : Nat) (x : Cluster) : (s.setCluster c x).incarnations = s.incarnations := rfl
@[simp] theorem State.setCluster_blocks (s : State) (c : Nat) (x : Cluster) : (s.setCluster c x).blocks = s.blocks := rfl
@[simp] theorem State.setCluster_hostQueues (s : State) (c : Nat) (x : Cluster) : (s.setCluster c x).hostQueues = s.hostQueues := rfl
@[simp] theorem State.setCluster_launchCache (s : State) (c : Nat) (x : Cluster) : (s.setCluster c x).launchCache = s.launchCache := rfl
@[simp] theorem State.setCluster_pointers (s : State) (c : Nat) (x : Cluster) : (s.setCluster c x).pointers = s.pointers := rfl
@[simp] theorem State.setCluster_pkg (s : State) (c : Nat) (x : Cluster) : (s.setCluster c x).pkg = s.pkg := rfl
@[simp] theorem State.setCluster_lates (s : State) (c : Nat) (x : Cluster) : (s.setCluster c x).lates = s.lates := rfl
@[simp] theorem State.setCluster_late (s : State) (c : Nat) (x : Cluster) : (s.setCluster c x).late = s.late := rfl
@[simp] theorem State.setCluster_victim (s : State) (c : Nat) (x : Cluster) : (s.setCluster c x).victim = s.victim := rfl
@[simp] theorem State.setCluster_raced (s : State) (c : Nat) (x : Cluster) : (s.setCluster c x).raced = s.raced := rfl

/-! ### setDie -/

@[simp] theorem State.setDie_agenda (s : State) (d : Nat) (x : Die) : (s.setDie d x).agenda = s.agenda := rfl
@[simp] theorem State.setDie_cur (s : State) (d : Nat) (x : Die) : (s.setDie d x).cur = s.cur := rfl
@[simp] theorem State.setDie_focus (s : State) (d : Nat) (x : Die) : (s.setDie d x).focus = s.focus := rfl
@[simp] theorem State.setDie_freeCtr (s : State) (d : Nat) (x : Die) : (s.setDie d x).freeCtr = s.freeCtr := rfl
@[simp] theorem State.setDie_clk (s : State) (d : Nat) (x : Die) : (s.setDie d x).clk = s.clk := rfl
@[simp] theorem State.setDie_gtime (s : State) (d : Nat) (x : Die) : (s.setDie d x).gtime = s.gtime := rfl
@[simp] theorem State.setDie_teams (s : State) (d : Nat) (x : Die) : (s.setDie d x).teams = s.teams := rfl
@[simp] theorem State.setDie_ctxs (s : State) (d : Nat) (x : Die) : (s.setDie d x).ctxs = s.ctxs := rfl
@[simp] theorem State.setDie_clusters (s : State) (d : Nat) (x : Die) : (s.setDie d x).clusters = s.clusters := rfl
@[simp] theorem State.setDie_mem (s : State) (d : Nat) (x : Die) : (s.setDie d x).mem = s.mem := rfl
@[simp] theorem State.setDie_memPoison (s : State) (d : Nat) (x : Die) : (s.setDie d x).memPoison = s.memPoison := rfl
@[simp] theorem State.setDie_log (s : State) (d : Nat) (x : Die) : (s.setDie d x).log = s.log := rfl
@[simp] theorem State.setDie_grids (s : State) (d : Nat) (x : Die) : (s.setDie d x).grids = s.grids := rfl
@[simp] theorem State.setDie_batches (s : State) (d : Nat) (x : Die) : (s.setDie d x).batches = s.batches := rfl
@[simp] theorem State.setDie_faultOut (s : State) (d : Nat) (x : Die) : (s.setDie d x).faultOut = s.faultOut := rfl
@[simp] theorem State.setDie_memDies (s : State) (d : Nat) (x : Die) : (s.setDie d x).memDies = s.memDies := rfl
@[simp] theorem State.setDie_links (s : State) (d : Nat) (x : Die) : (s.setDie d x).links = s.links := rfl
@[simp] theorem State.setDie_blooms (s : State) (d : Nat) (x : Die) : (s.setDie d x).blooms = s.blooms := rfl
@[simp] theorem State.setDie_msc (s : State) (d : Nat) (x : Die) : (s.setDie d x).msc = s.msc := rfl
@[simp] theorem State.setDie_dir (s : State) (d : Nat) (x : Die) : (s.setDie d x).dir = s.dir := rfl
@[simp] theorem State.setDie_l2 (s : State) (d : Nat) (x : Die) : (s.setDie d x).l2 = s.l2 := rfl
@[simp] theorem State.setDie_words (s : State) (d : Nat) (x : Die) : (s.setDie d x).words = s.words := rfl
@[simp] theorem State.setDie_incarnations (s : State) (d : Nat) (x : Die) : (s.setDie d x).incarnations = s.incarnations := rfl
@[simp] theorem State.setDie_blocks (s : State) (d : Nat) (x : Die) : (s.setDie d x).blocks = s.blocks := rfl
@[simp] theorem State.setDie_hostQueues (s : State) (d : Nat) (x : Die) : (s.setDie d x).hostQueues = s.hostQueues := rfl
@[simp] theorem State.setDie_launchCache (s : State) (d : Nat) (x : Die) : (s.setDie d x).launchCache = s.launchCache := rfl
@[simp] theorem State.setDie_pointers (s : State) (d : Nat) (x : Die) : (s.setDie d x).pointers = s.pointers := rfl
@[simp] theorem State.setDie_pkg (s : State) (d : Nat) (x : Die) : (s.setDie d x).pkg = s.pkg := rfl
@[simp] theorem State.setDie_lates (s : State) (d : Nat) (x : Die) : (s.setDie d x).lates = s.lates := rfl
@[simp] theorem State.setDie_late (s : State) (d : Nat) (x : Die) : (s.setDie d x).late = s.late := rfl
@[simp] theorem State.setDie_victim (s : State) (d : Nat) (x : Die) : (s.setDie d x).victim = s.victim := rfl
@[simp] theorem State.setDie_raced (s : State) (d : Nat) (x : Die) : (s.setDie d x).raced = s.raced := rfl

/-! ### setGrid -/

@[simp] theorem State.setGrid_agenda (s : State) (n : Nat) (x : Grid) : (s.setGrid n x).agenda = s.agenda := rfl
@[simp] theorem State.setGrid_cur (s : State) (n : Nat) (x : Grid) : (s.setGrid n x).cur = s.cur := rfl
@[simp] theorem State.setGrid_focus (s : State) (n : Nat) (x : Grid) : (s.setGrid n x).focus = s.focus := rfl
@[simp] theorem State.setGrid_freeCtr (s : State) (n : Nat) (x : Grid) : (s.setGrid n x).freeCtr = s.freeCtr := rfl
@[simp] theorem State.setGrid_clk (s : State) (n : Nat) (x : Grid) : (s.setGrid n x).clk = s.clk := rfl
@[simp] theorem State.setGrid_gtime (s : State) (n : Nat) (x : Grid) : (s.setGrid n x).gtime = s.gtime := rfl
@[simp] theorem State.setGrid_teams (s : State) (n : Nat) (x : Grid) : (s.setGrid n x).teams = s.teams := rfl
@[simp] theorem State.setGrid_ctxs (s : State) (n : Nat) (x : Grid) : (s.setGrid n x).ctxs = s.ctxs := rfl
@[simp] theorem State.setGrid_clusters (s : State) (n : Nat) (x : Grid) : (s.setGrid n x).clusters = s.clusters := rfl
@[simp] theorem State.setGrid_mem (s : State) (n : Nat) (x : Grid) : (s.setGrid n x).mem = s.mem := rfl
@[simp] theorem State.setGrid_memPoison (s : State) (n : Nat) (x : Grid) : (s.setGrid n x).memPoison = s.memPoison := rfl
@[simp] theorem State.setGrid_log (s : State) (n : Nat) (x : Grid) : (s.setGrid n x).log = s.log := rfl
@[simp] theorem State.setGrid_batches (s : State) (n : Nat) (x : Grid) : (s.setGrid n x).batches = s.batches := rfl
@[simp] theorem State.setGrid_faultOut (s : State) (n : Nat) (x : Grid) : (s.setGrid n x).faultOut = s.faultOut := rfl
@[simp] theorem State.setGrid_dies (s : State) (n : Nat) (x : Grid) : (s.setGrid n x).dies = s.dies := rfl
@[simp] theorem State.setGrid_memDies (s : State) (n : Nat) (x : Grid) : (s.setGrid n x).memDies = s.memDies := rfl
@[simp] theorem State.setGrid_links (s : State) (n : Nat) (x : Grid) : (s.setGrid n x).links = s.links := rfl
@[simp] theorem State.setGrid_blooms (s : State) (n : Nat) (x : Grid) : (s.setGrid n x).blooms = s.blooms := rfl
@[simp] theorem State.setGrid_msc (s : State) (n : Nat) (x : Grid) : (s.setGrid n x).msc = s.msc := rfl
@[simp] theorem State.setGrid_dir (s : State) (n : Nat) (x : Grid) : (s.setGrid n x).dir = s.dir := rfl
@[simp] theorem State.setGrid_l2 (s : State) (n : Nat) (x : Grid) : (s.setGrid n x).l2 = s.l2 := rfl
@[simp] theorem State.setGrid_words (s : State) (n : Nat) (x : Grid) : (s.setGrid n x).words = s.words := rfl
@[simp] theorem State.setGrid_incarnations (s : State) (n : Nat) (x : Grid) : (s.setGrid n x).incarnations = s.incarnations := rfl
@[simp] theorem State.setGrid_blocks (s : State) (n : Nat) (x : Grid) : (s.setGrid n x).blocks = s.blocks := rfl
@[simp] theorem State.setGrid_hostQueues (s : State) (n : Nat) (x : Grid) : (s.setGrid n x).hostQueues = s.hostQueues := rfl
@[simp] theorem State.setGrid_launchCache (s : State) (n : Nat) (x : Grid) : (s.setGrid n x).launchCache = s.launchCache := rfl
@[simp] theorem State.setGrid_pointers (s : State) (n : Nat) (x : Grid) : (s.setGrid n x).pointers = s.pointers := rfl
@[simp] theorem State.setGrid_pkg (s : State) (n : Nat) (x : Grid) : (s.setGrid n x).pkg = s.pkg := rfl
@[simp] theorem State.setGrid_lates (s : State) (n : Nat) (x : Grid) : (s.setGrid n x).lates = s.lates := rfl
@[simp] theorem State.setGrid_late (s : State) (n : Nat) (x : Grid) : (s.setGrid n x).late = s.late := rfl
@[simp] theorem State.setGrid_victim (s : State) (n : Nat) (x : Grid) : (s.setGrid n x).victim = s.victim := rfl
@[simp] theorem State.setGrid_raced (s : State) (n : Nat) (x : Grid) : (s.setGrid n x).raced = s.raced := rfl

/-! ### setBlock -/

@[simp] theorem State.setBlock_agenda (s : State) (b : Nat) (x : QueueRegs) : (s.setBlock b x).agenda = s.agenda := rfl
@[simp] theorem State.setBlock_cur (s : State) (b : Nat) (x : QueueRegs) : (s.setBlock b x).cur = s.cur := rfl
@[simp] theorem State.setBlock_focus (s : State) (b : Nat) (x : QueueRegs) : (s.setBlock b x).focus = s.focus := rfl
@[simp] theorem State.setBlock_freeCtr (s : State) (b : Nat) (x : QueueRegs) : (s.setBlock b x).freeCtr = s.freeCtr := rfl
@[simp] theorem State.setBlock_clk (s : State) (b : Nat) (x : QueueRegs) : (s.setBlock b x).clk = s.clk := rfl
@[simp] theorem State.setBlock_gtime (s : State) (b : Nat) (x : QueueRegs) : (s.setBlock b x).gtime = s.gtime := rfl
@[simp] theorem State.setBlock_teams (s : State) (b : Nat) (x : QueueRegs) : (s.setBlock b x).teams = s.teams := rfl
@[simp] theorem State.setBlock_ctxs (s : State) (b : Nat) (x : QueueRegs) : (s.setBlock b x).ctxs = s.ctxs := rfl
@[simp] theorem State.setBlock_clusters (s : State) (b : Nat) (x : QueueRegs) : (s.setBlock b x).clusters = s.clusters := rfl
@[simp] theorem State.setBlock_mem (s : State) (b : Nat) (x : QueueRegs) : (s.setBlock b x).mem = s.mem := rfl
@[simp] theorem State.setBlock_memPoison (s : State) (b : Nat) (x : QueueRegs) : (s.setBlock b x).memPoison = s.memPoison := rfl
@[simp] theorem State.setBlock_log (s : State) (b : Nat) (x : QueueRegs) : (s.setBlock b x).log = s.log := rfl
@[simp] theorem State.setBlock_grids (s : State) (b : Nat) (x : QueueRegs) : (s.setBlock b x).grids = s.grids := rfl
@[simp] theorem State.setBlock_batches (s : State) (b : Nat) (x : QueueRegs) : (s.setBlock b x).batches = s.batches := rfl
@[simp] theorem State.setBlock_faultOut (s : State) (b : Nat) (x : QueueRegs) : (s.setBlock b x).faultOut = s.faultOut := rfl
@[simp] theorem State.setBlock_dies (s : State) (b : Nat) (x : QueueRegs) : (s.setBlock b x).dies = s.dies := rfl
@[simp] theorem State.setBlock_memDies (s : State) (b : Nat) (x : QueueRegs) : (s.setBlock b x).memDies = s.memDies := rfl
@[simp] theorem State.setBlock_links (s : State) (b : Nat) (x : QueueRegs) : (s.setBlock b x).links = s.links := rfl
@[simp] theorem State.setBlock_blooms (s : State) (b : Nat) (x : QueueRegs) : (s.setBlock b x).blooms = s.blooms := rfl
@[simp] theorem State.setBlock_msc (s : State) (b : Nat) (x : QueueRegs) : (s.setBlock b x).msc = s.msc := rfl
@[simp] theorem State.setBlock_dir (s : State) (b : Nat) (x : QueueRegs) : (s.setBlock b x).dir = s.dir := rfl
@[simp] theorem State.setBlock_l2 (s : State) (b : Nat) (x : QueueRegs) : (s.setBlock b x).l2 = s.l2 := rfl
@[simp] theorem State.setBlock_words (s : State) (b : Nat) (x : QueueRegs) : (s.setBlock b x).words = s.words := rfl
@[simp] theorem State.setBlock_incarnations (s : State) (b : Nat) (x : QueueRegs) : (s.setBlock b x).incarnations = s.incarnations := rfl
@[simp] theorem State.setBlock_hostQueues (s : State) (b : Nat) (x : QueueRegs) : (s.setBlock b x).hostQueues = s.hostQueues := rfl
@[simp] theorem State.setBlock_launchCache (s : State) (b : Nat) (x : QueueRegs) : (s.setBlock b x).launchCache = s.launchCache := rfl
@[simp] theorem State.setBlock_pointers (s : State) (b : Nat) (x : QueueRegs) : (s.setBlock b x).pointers = s.pointers := rfl
@[simp] theorem State.setBlock_pkg (s : State) (b : Nat) (x : QueueRegs) : (s.setBlock b x).pkg = s.pkg := rfl
@[simp] theorem State.setBlock_lates (s : State) (b : Nat) (x : QueueRegs) : (s.setBlock b x).lates = s.lates := rfl
@[simp] theorem State.setBlock_late (s : State) (b : Nat) (x : QueueRegs) : (s.setBlock b x).late = s.late := rfl
@[simp] theorem State.setBlock_victim (s : State) (b : Nat) (x : QueueRegs) : (s.setBlock b x).victim = s.victim := rfl
@[simp] theorem State.setBlock_raced (s : State) (b : Nat) (x : QueueRegs) : (s.setBlock b x).raced = s.raced := rfl

/-! ### setHostQueue -/

@[simp] theorem State.setHostQueue_agenda (s : State) (q : Nat) (x : HostQueue) : (s.setHostQueue q x).agenda = s.agenda := rfl
@[simp] theorem State.setHostQueue_cur (s : State) (q : Nat) (x : HostQueue) : (s.setHostQueue q x).cur = s.cur := rfl
@[simp] theorem State.setHostQueue_focus (s : State) (q : Nat) (x : HostQueue) : (s.setHostQueue q x).focus = s.focus := rfl
@[simp] theorem State.setHostQueue_freeCtr (s : State) (q : Nat) (x : HostQueue) : (s.setHostQueue q x).freeCtr = s.freeCtr := rfl
@[simp] theorem State.setHostQueue_clk (s : State) (q : Nat) (x : HostQueue) : (s.setHostQueue q x).clk = s.clk := rfl
@[simp] theorem State.setHostQueue_gtime (s : State) (q : Nat) (x : HostQueue) : (s.setHostQueue q x).gtime = s.gtime := rfl
@[simp] theorem State.setHostQueue_teams (s : State) (q : Nat) (x : HostQueue) : (s.setHostQueue q x).teams = s.teams := rfl
@[simp] theorem State.setHostQueue_ctxs (s : State) (q : Nat) (x : HostQueue) : (s.setHostQueue q x).ctxs = s.ctxs := rfl
@[simp] theorem State.setHostQueue_clusters (s : State) (q : Nat) (x : HostQueue) : (s.setHostQueue q x).clusters = s.clusters := rfl
@[simp] theorem State.setHostQueue_mem (s : State) (q : Nat) (x : HostQueue) : (s.setHostQueue q x).mem = s.mem := rfl
@[simp] theorem State.setHostQueue_memPoison (s : State) (q : Nat) (x : HostQueue) : (s.setHostQueue q x).memPoison = s.memPoison := rfl
@[simp] theorem State.setHostQueue_log (s : State) (q : Nat) (x : HostQueue) : (s.setHostQueue q x).log = s.log := rfl
@[simp] theorem State.setHostQueue_grids (s : State) (q : Nat) (x : HostQueue) : (s.setHostQueue q x).grids = s.grids := rfl
@[simp] theorem State.setHostQueue_batches (s : State) (q : Nat) (x : HostQueue) : (s.setHostQueue q x).batches = s.batches := rfl
@[simp] theorem State.setHostQueue_faultOut (s : State) (q : Nat) (x : HostQueue) : (s.setHostQueue q x).faultOut = s.faultOut := rfl
@[simp] theorem State.setHostQueue_dies (s : State) (q : Nat) (x : HostQueue) : (s.setHostQueue q x).dies = s.dies := rfl
@[simp] theorem State.setHostQueue_memDies (s : State) (q : Nat) (x : HostQueue) : (s.setHostQueue q x).memDies = s.memDies := rfl
@[simp] theorem State.setHostQueue_links (s : State) (q : Nat) (x : HostQueue) : (s.setHostQueue q x).links = s.links := rfl
@[simp] theorem State.setHostQueue_blooms (s : State) (q : Nat) (x : HostQueue) : (s.setHostQueue q x).blooms = s.blooms := rfl
@[simp] theorem State.setHostQueue_msc (s : State) (q : Nat) (x : HostQueue) : (s.setHostQueue q x).msc = s.msc := rfl
@[simp] theorem State.setHostQueue_dir (s : State) (q : Nat) (x : HostQueue) : (s.setHostQueue q x).dir = s.dir := rfl
@[simp] theorem State.setHostQueue_l2 (s : State) (q : Nat) (x : HostQueue) : (s.setHostQueue q x).l2 = s.l2 := rfl
@[simp] theorem State.setHostQueue_words (s : State) (q : Nat) (x : HostQueue) : (s.setHostQueue q x).words = s.words := rfl
@[simp] theorem State.setHostQueue_incarnations (s : State) (q : Nat) (x : HostQueue) : (s.setHostQueue q x).incarnations = s.incarnations := rfl
@[simp] theorem State.setHostQueue_blocks (s : State) (q : Nat) (x : HostQueue) : (s.setHostQueue q x).blocks = s.blocks := rfl
@[simp] theorem State.setHostQueue_launchCache (s : State) (q : Nat) (x : HostQueue) : (s.setHostQueue q x).launchCache = s.launchCache := rfl
@[simp] theorem State.setHostQueue_pointers (s : State) (q : Nat) (x : HostQueue) : (s.setHostQueue q x).pointers = s.pointers := rfl
@[simp] theorem State.setHostQueue_pkg (s : State) (q : Nat) (x : HostQueue) : (s.setHostQueue q x).pkg = s.pkg := rfl
@[simp] theorem State.setHostQueue_lates (s : State) (q : Nat) (x : HostQueue) : (s.setHostQueue q x).lates = s.lates := rfl
@[simp] theorem State.setHostQueue_late (s : State) (q : Nat) (x : HostQueue) : (s.setHostQueue q x).late = s.late := rfl
@[simp] theorem State.setHostQueue_victim (s : State) (q : Nat) (x : HostQueue) : (s.setHostQueue q x).victim = s.victim := rfl
@[simp] theorem State.setHostQueue_raced (s : State) (q : Nat) (x : HostQueue) : (s.setHostQueue q x).raced = s.raced := rfl

/-! ### setLink -/

@[simp] theorem State.setLink_agenda (s : State) (l : Nat) (x : Link) : (s.setLink l x).agenda = s.agenda := rfl
@[simp] theorem State.setLink_cur (s : State) (l : Nat) (x : Link) : (s.setLink l x).cur = s.cur := rfl
@[simp] theorem State.setLink_focus (s : State) (l : Nat) (x : Link) : (s.setLink l x).focus = s.focus := rfl
@[simp] theorem State.setLink_freeCtr (s : State) (l : Nat) (x : Link) : (s.setLink l x).freeCtr = s.freeCtr := rfl
@[simp] theorem State.setLink_clk (s : State) (l : Nat) (x : Link) : (s.setLink l x).clk = s.clk := rfl
@[simp] theorem State.setLink_gtime (s : State) (l : Nat) (x : Link) : (s.setLink l x).gtime = s.gtime := rfl
@[simp] theorem State.setLink_teams (s : State) (l : Nat) (x : Link) : (s.setLink l x).teams = s.teams := rfl
@[simp] theorem State.setLink_ctxs (s : State) (l : Nat) (x : Link) : (s.setLink l x).ctxs = s.ctxs := rfl
@[simp] theorem State.setLink_clusters (s : State) (l : Nat) (x : Link) : (s.setLink l x).clusters = s.clusters := rfl
@[simp] theorem State.setLink_mem (s : State) (l : Nat) (x : Link) : (s.setLink l x).mem = s.mem := rfl
@[simp] theorem State.setLink_memPoison (s : State) (l : Nat) (x : Link) : (s.setLink l x).memPoison = s.memPoison := rfl
@[simp] theorem State.setLink_log (s : State) (l : Nat) (x : Link) : (s.setLink l x).log = s.log := rfl
@[simp] theorem State.setLink_grids (s : State) (l : Nat) (x : Link) : (s.setLink l x).grids = s.grids := rfl
@[simp] theorem State.setLink_batches (s : State) (l : Nat) (x : Link) : (s.setLink l x).batches = s.batches := rfl
@[simp] theorem State.setLink_faultOut (s : State) (l : Nat) (x : Link) : (s.setLink l x).faultOut = s.faultOut := rfl
@[simp] theorem State.setLink_dies (s : State) (l : Nat) (x : Link) : (s.setLink l x).dies = s.dies := rfl
@[simp] theorem State.setLink_memDies (s : State) (l : Nat) (x : Link) : (s.setLink l x).memDies = s.memDies := rfl
@[simp] theorem State.setLink_blooms (s : State) (l : Nat) (x : Link) : (s.setLink l x).blooms = s.blooms := rfl
@[simp] theorem State.setLink_msc (s : State) (l : Nat) (x : Link) : (s.setLink l x).msc = s.msc := rfl
@[simp] theorem State.setLink_dir (s : State) (l : Nat) (x : Link) : (s.setLink l x).dir = s.dir := rfl
@[simp] theorem State.setLink_l2 (s : State) (l : Nat) (x : Link) : (s.setLink l x).l2 = s.l2 := rfl
@[simp] theorem State.setLink_words (s : State) (l : Nat) (x : Link) : (s.setLink l x).words = s.words := rfl
@[simp] theorem State.setLink_incarnations (s : State) (l : Nat) (x : Link) : (s.setLink l x).incarnations = s.incarnations := rfl
@[simp] theorem State.setLink_blocks (s : State) (l : Nat) (x : Link) : (s.setLink l x).blocks = s.blocks := rfl
@[simp] theorem State.setLink_hostQueues (s : State) (l : Nat) (x : Link) : (s.setLink l x).hostQueues = s.hostQueues := rfl
@[simp] theorem State.setLink_launchCache (s : State) (l : Nat) (x : Link) : (s.setLink l x).launchCache = s.launchCache := rfl
@[simp] theorem State.setLink_pointers (s : State) (l : Nat) (x : Link) : (s.setLink l x).pointers = s.pointers := rfl
@[simp] theorem State.setLink_pkg (s : State) (l : Nat) (x : Link) : (s.setLink l x).pkg = s.pkg := rfl
@[simp] theorem State.setLink_lates (s : State) (l : Nat) (x : Link) : (s.setLink l x).lates = s.lates := rfl
@[simp] theorem State.setLink_late (s : State) (l : Nat) (x : Link) : (s.setLink l x).late = s.late := rfl
@[simp] theorem State.setLink_victim (s : State) (l : Nat) (x : Link) : (s.setLink l x).victim = s.victim := rfl
@[simp] theorem State.setLink_raced (s : State) (l : Nat) (x : Link) : (s.setLink l x).raced = s.raced := rfl

/-! ### mapGroup -/

@[simp] theorem State.mapGroup_agenda (s : State) (t g : Nat) (f : Group → Group) : (s.mapGroup t g f).agenda = s.agenda := rfl
@[simp] theorem State.mapGroup_cur (s : State) (t g : Nat) (f : Group → Group) : (s.mapGroup t g f).cur = s.cur := rfl
@[simp] theorem State.mapGroup_focus (s : State) (t g : Nat) (f : Group → Group) : (s.mapGroup t g f).focus = s.focus := rfl
@[simp] theorem State.mapGroup_freeCtr (s : State) (t g : Nat) (f : Group → Group) : (s.mapGroup t g f).freeCtr = s.freeCtr := rfl
@[simp] theorem State.mapGroup_clk (s : State) (t g : Nat) (f : Group → Group) : (s.mapGroup t g f).clk = s.clk := rfl
@[simp] theorem State.mapGroup_gtime (s : State) (t g : Nat) (f : Group → Group) : (s.mapGroup t g f).gtime = s.gtime := rfl
@[simp] theorem State.mapGroup_ctxs (s : State) (t g : Nat) (f : Group → Group) : (s.mapGroup t g f).ctxs = s.ctxs := rfl
@[simp] theorem State.mapGroup_clusters (s : State) (t g : Nat) (f : Group → Group) : (s.mapGroup t g f).clusters = s.clusters := rfl
@[simp] theorem State.mapGroup_mem (s : State) (t g : Nat) (f : Group → Group) : (s.mapGroup t g f).mem = s.mem := rfl
@[simp] theorem State.mapGroup_memPoison (s : State) (t g : Nat) (f : Group → Group) : (s.mapGroup t g f).memPoison = s.memPoison := rfl
@[simp] theorem State.mapGroup_log (s : State) (t g : Nat) (f : Group → Group) : (s.mapGroup t g f).log = s.log := rfl
@[simp] theorem State.mapGroup_grids (s : State) (t g : Nat) (f : Group → Group) : (s.mapGroup t g f).grids = s.grids := rfl
@[simp] theorem State.mapGroup_batches (s : State) (t g : Nat) (f : Group → Group) : (s.mapGroup t g f).batches = s.batches := rfl
@[simp] theorem State.mapGroup_faultOut (s : State) (t g : Nat) (f : Group → Group) : (s.mapGroup t g f).faultOut = s.faultOut := rfl
@[simp] theorem State.mapGroup_dies (s : State) (t g : Nat) (f : Group → Group) : (s.mapGroup t g f).dies = s.dies := rfl
@[simp] theorem State.mapGroup_memDies (s : State) (t g : Nat) (f : Group → Group) : (s.mapGroup t g f).memDies = s.memDies := rfl
@[simp] theorem State.mapGroup_links (s : State) (t g : Nat) (f : Group → Group) : (s.mapGroup t g f).links = s.links := rfl
@[simp] theorem State.mapGroup_blooms (s : State) (t g : Nat) (f : Group → Group) : (s.mapGroup t g f).blooms = s.blooms := rfl
@[simp] theorem State.mapGroup_msc (s : State) (t g : Nat) (f : Group → Group) : (s.mapGroup t g f).msc = s.msc := rfl
@[simp] theorem State.mapGroup_dir (s : State) (t g : Nat) (f : Group → Group) : (s.mapGroup t g f).dir = s.dir := rfl
@[simp] theorem State.mapGroup_l2 (s : State) (t g : Nat) (f : Group → Group) : (s.mapGroup t g f).l2 = s.l2 := rfl
@[simp] theorem State.mapGroup_words (s : State) (t g : Nat) (f : Group → Group) : (s.mapGroup t g f).words = s.words := rfl
@[simp] theorem State.mapGroup_incarnations (s : State) (t g : Nat) (f : Group → Group) : (s.mapGroup t g f).incarnations = s.incarnations := rfl
@[simp] theorem State.mapGroup_blocks (s : State) (t g : Nat) (f : Group → Group) : (s.mapGroup t g f).blocks = s.blocks := rfl
@[simp] theorem State.mapGroup_hostQueues (s : State) (t g : Nat) (f : Group → Group) : (s.mapGroup t g f).hostQueues = s.hostQueues := rfl
@[simp] theorem State.mapGroup_launchCache (s : State) (t g : Nat) (f : Group → Group) : (s.mapGroup t g f).launchCache = s.launchCache := rfl
@[simp] theorem State.mapGroup_pointers (s : State) (t g : Nat) (f : Group → Group) : (s.mapGroup t g f).pointers = s.pointers := rfl
@[simp] theorem State.mapGroup_pkg (s : State) (t g : Nat) (f : Group → Group) : (s.mapGroup t g f).pkg = s.pkg := rfl
@[simp] theorem State.mapGroup_lates (s : State) (t g : Nat) (f : Group → Group) : (s.mapGroup t g f).lates = s.lates := rfl
@[simp] theorem State.mapGroup_late (s : State) (t g : Nat) (f : Group → Group) : (s.mapGroup t g f).late = s.late := rfl
@[simp] theorem State.mapGroup_victim (s : State) (t g : Nat) (f : Group → Group) : (s.mapGroup t g f).victim = s.victim := rfl
@[simp] theorem State.mapGroup_raced (s : State) (t g : Nat) (f : Group → Group) : (s.mapGroup t g f).raced = s.raced := rfl

/-! ### mapCurTeam -/

@[simp] theorem State.mapCurTeam_agenda (s : State) (f : Team → Team) : (s.mapCurTeam f).agenda = s.agenda := rfl
@[simp] theorem State.mapCurTeam_cur (s : State) (f : Team → Team) : (s.mapCurTeam f).cur = s.cur := rfl
@[simp] theorem State.mapCurTeam_focus (s : State) (f : Team → Team) : (s.mapCurTeam f).focus = s.focus := rfl
@[simp] theorem State.mapCurTeam_freeCtr (s : State) (f : Team → Team) : (s.mapCurTeam f).freeCtr = s.freeCtr := rfl
@[simp] theorem State.mapCurTeam_clk (s : State) (f : Team → Team) : (s.mapCurTeam f).clk = s.clk := rfl
@[simp] theorem State.mapCurTeam_gtime (s : State) (f : Team → Team) : (s.mapCurTeam f).gtime = s.gtime := rfl
@[simp] theorem State.mapCurTeam_ctxs (s : State) (f : Team → Team) : (s.mapCurTeam f).ctxs = s.ctxs := rfl
@[simp] theorem State.mapCurTeam_clusters (s : State) (f : Team → Team) : (s.mapCurTeam f).clusters = s.clusters := rfl
@[simp] theorem State.mapCurTeam_mem (s : State) (f : Team → Team) : (s.mapCurTeam f).mem = s.mem := rfl
@[simp] theorem State.mapCurTeam_memPoison (s : State) (f : Team → Team) : (s.mapCurTeam f).memPoison = s.memPoison := rfl
@[simp] theorem State.mapCurTeam_log (s : State) (f : Team → Team) : (s.mapCurTeam f).log = s.log := rfl
@[simp] theorem State.mapCurTeam_grids (s : State) (f : Team → Team) : (s.mapCurTeam f).grids = s.grids := rfl
@[simp] theorem State.mapCurTeam_batches (s : State) (f : Team → Team) : (s.mapCurTeam f).batches = s.batches := rfl
@[simp] theorem State.mapCurTeam_faultOut (s : State) (f : Team → Team) : (s.mapCurTeam f).faultOut = s.faultOut := rfl
@[simp] theorem State.mapCurTeam_dies (s : State) (f : Team → Team) : (s.mapCurTeam f).dies = s.dies := rfl
@[simp] theorem State.mapCurTeam_memDies (s : State) (f : Team → Team) : (s.mapCurTeam f).memDies = s.memDies := rfl
@[simp] theorem State.mapCurTeam_links (s : State) (f : Team → Team) : (s.mapCurTeam f).links = s.links := rfl
@[simp] theorem State.mapCurTeam_blooms (s : State) (f : Team → Team) : (s.mapCurTeam f).blooms = s.blooms := rfl
@[simp] theorem State.mapCurTeam_msc (s : State) (f : Team → Team) : (s.mapCurTeam f).msc = s.msc := rfl
@[simp] theorem State.mapCurTeam_dir (s : State) (f : Team → Team) : (s.mapCurTeam f).dir = s.dir := rfl
@[simp] theorem State.mapCurTeam_l2 (s : State) (f : Team → Team) : (s.mapCurTeam f).l2 = s.l2 := rfl
@[simp] theorem State.mapCurTeam_words (s : State) (f : Team → Team) : (s.mapCurTeam f).words = s.words := rfl
@[simp] theorem State.mapCurTeam_incarnations (s : State) (f : Team → Team) : (s.mapCurTeam f).incarnations = s.incarnations := rfl
@[simp] theorem State.mapCurTeam_blocks (s : State) (f : Team → Team) : (s.mapCurTeam f).blocks = s.blocks := rfl
@[simp] theorem State.mapCurTeam_hostQueues (s : State) (f : Team → Team) : (s.mapCurTeam f).hostQueues = s.hostQueues := rfl
@[simp] theorem State.mapCurTeam_launchCache (s : State) (f : Team → Team) : (s.mapCurTeam f).launchCache = s.launchCache := rfl
@[simp] theorem State.mapCurTeam_pointers (s : State) (f : Team → Team) : (s.mapCurTeam f).pointers = s.pointers := rfl
@[simp] theorem State.mapCurTeam_pkg (s : State) (f : Team → Team) : (s.mapCurTeam f).pkg = s.pkg := rfl
@[simp] theorem State.mapCurTeam_lates (s : State) (f : Team → Team) : (s.mapCurTeam f).lates = s.lates := rfl
@[simp] theorem State.mapCurTeam_late (s : State) (f : Team → Team) : (s.mapCurTeam f).late = s.late := rfl
@[simp] theorem State.mapCurTeam_victim (s : State) (f : Team → Team) : (s.mapCurTeam f).victim = s.victim := rfl
@[simp] theorem State.mapCurTeam_raced (s : State) (f : Team → Team) : (s.mapCurTeam f).raced = s.raced := rfl

/-! ### mapCurGroup -/

@[simp] theorem State.mapCurGroup_agenda (s : State) (f : Group → Group) : (s.mapCurGroup f).agenda = s.agenda := rfl
@[simp] theorem State.mapCurGroup_cur (s : State) (f : Group → Group) : (s.mapCurGroup f).cur = s.cur := rfl
@[simp] theorem State.mapCurGroup_focus (s : State) (f : Group → Group) : (s.mapCurGroup f).focus = s.focus := rfl
@[simp] theorem State.mapCurGroup_freeCtr (s : State) (f : Group → Group) : (s.mapCurGroup f).freeCtr = s.freeCtr := rfl
@[simp] theorem State.mapCurGroup_clk (s : State) (f : Group → Group) : (s.mapCurGroup f).clk = s.clk := rfl
@[simp] theorem State.mapCurGroup_gtime (s : State) (f : Group → Group) : (s.mapCurGroup f).gtime = s.gtime := rfl
@[simp] theorem State.mapCurGroup_ctxs (s : State) (f : Group → Group) : (s.mapCurGroup f).ctxs = s.ctxs := rfl
@[simp] theorem State.mapCurGroup_clusters (s : State) (f : Group → Group) : (s.mapCurGroup f).clusters = s.clusters := rfl
@[simp] theorem State.mapCurGroup_mem (s : State) (f : Group → Group) : (s.mapCurGroup f).mem = s.mem := rfl
@[simp] theorem State.mapCurGroup_memPoison (s : State) (f : Group → Group) : (s.mapCurGroup f).memPoison = s.memPoison := rfl
@[simp] theorem State.mapCurGroup_log (s : State) (f : Group → Group) : (s.mapCurGroup f).log = s.log := rfl
@[simp] theorem State.mapCurGroup_grids (s : State) (f : Group → Group) : (s.mapCurGroup f).grids = s.grids := rfl
@[simp] theorem State.mapCurGroup_batches (s : State) (f : Group → Group) : (s.mapCurGroup f).batches = s.batches := rfl
@[simp] theorem State.mapCurGroup_faultOut (s : State) (f : Group → Group) : (s.mapCurGroup f).faultOut = s.faultOut := rfl
@[simp] theorem State.mapCurGroup_dies (s : State) (f : Group → Group) : (s.mapCurGroup f).dies = s.dies := rfl
@[simp] theorem State.mapCurGroup_memDies (s : State) (f : Group → Group) : (s.mapCurGroup f).memDies = s.memDies := rfl
@[simp] theorem State.mapCurGroup_links (s : State) (f : Group → Group) : (s.mapCurGroup f).links = s.links := rfl
@[simp] theorem State.mapCurGroup_blooms (s : State) (f : Group → Group) : (s.mapCurGroup f).blooms = s.blooms := rfl
@[simp] theorem State.mapCurGroup_msc (s : State) (f : Group → Group) : (s.mapCurGroup f).msc = s.msc := rfl
@[simp] theorem State.mapCurGroup_dir (s : State) (f : Group → Group) : (s.mapCurGroup f).dir = s.dir := rfl
@[simp] theorem State.mapCurGroup_l2 (s : State) (f : Group → Group) : (s.mapCurGroup f).l2 = s.l2 := rfl
@[simp] theorem State.mapCurGroup_words (s : State) (f : Group → Group) : (s.mapCurGroup f).words = s.words := rfl
@[simp] theorem State.mapCurGroup_incarnations (s : State) (f : Group → Group) : (s.mapCurGroup f).incarnations = s.incarnations := rfl
@[simp] theorem State.mapCurGroup_blocks (s : State) (f : Group → Group) : (s.mapCurGroup f).blocks = s.blocks := rfl
@[simp] theorem State.mapCurGroup_hostQueues (s : State) (f : Group → Group) : (s.mapCurGroup f).hostQueues = s.hostQueues := rfl
@[simp] theorem State.mapCurGroup_launchCache (s : State) (f : Group → Group) : (s.mapCurGroup f).launchCache = s.launchCache := rfl
@[simp] theorem State.mapCurGroup_pointers (s : State) (f : Group → Group) : (s.mapCurGroup f).pointers = s.pointers := rfl
@[simp] theorem State.mapCurGroup_pkg (s : State) (f : Group → Group) : (s.mapCurGroup f).pkg = s.pkg := rfl
@[simp] theorem State.mapCurGroup_lates (s : State) (f : Group → Group) : (s.mapCurGroup f).lates = s.lates := rfl
@[simp] theorem State.mapCurGroup_late (s : State) (f : Group → Group) : (s.mapCurGroup f).late = s.late := rfl
@[simp] theorem State.mapCurGroup_victim (s : State) (f : Group → Group) : (s.mapCurGroup f).victim = s.victim := rfl
@[simp] theorem State.mapCurGroup_raced (s : State) (f : Group → Group) : (s.mapCurGroup f).raced = s.raced := rfl

/-! ### mapCurStream -/

@[simp] theorem State.mapCurStream_agenda (s : State) (f : Stream → Stream) : (s.mapCurStream f).agenda = s.agenda := rfl
@[simp] theorem State.mapCurStream_cur (s : State) (f : Stream → Stream) : (s.mapCurStream f).cur = s.cur := rfl
@[simp] theorem State.mapCurStream_focus (s : State) (f : Stream → Stream) : (s.mapCurStream f).focus = s.focus := rfl
@[simp] theorem State.mapCurStream_freeCtr (s : State) (f : Stream → Stream) : (s.mapCurStream f).freeCtr = s.freeCtr := rfl
@[simp] theorem State.mapCurStream_clk (s : State) (f : Stream → Stream) : (s.mapCurStream f).clk = s.clk := rfl
@[simp] theorem State.mapCurStream_gtime (s : State) (f : Stream → Stream) : (s.mapCurStream f).gtime = s.gtime := rfl
@[simp] theorem State.mapCurStream_ctxs (s : State) (f : Stream → Stream) : (s.mapCurStream f).ctxs = s.ctxs := rfl
@[simp] theorem State.mapCurStream_clusters (s : State) (f : Stream → Stream) : (s.mapCurStream f).clusters = s.clusters := rfl
@[simp] theorem State.mapCurStream_mem (s : State) (f : Stream → Stream) : (s.mapCurStream f).mem = s.mem := rfl
@[simp] theorem State.mapCurStream_memPoison (s : State) (f : Stream → Stream) : (s.mapCurStream f).memPoison = s.memPoison := rfl
@[simp] theorem State.mapCurStream_log (s : State) (f : Stream → Stream) : (s.mapCurStream f).log = s.log := rfl
@[simp] theorem State.mapCurStream_grids (s : State) (f : Stream → Stream) : (s.mapCurStream f).grids = s.grids := rfl
@[simp] theorem State.mapCurStream_batches (s : State) (f : Stream → Stream) : (s.mapCurStream f).batches = s.batches := rfl
@[simp] theorem State.mapCurStream_faultOut (s : State) (f : Stream → Stream) : (s.mapCurStream f).faultOut = s.faultOut := rfl
@[simp] theorem State.mapCurStream_dies (s : State) (f : Stream → Stream) : (s.mapCurStream f).dies = s.dies := rfl
@[simp] theorem State.mapCurStream_memDies (s : State) (f : Stream → Stream) : (s.mapCurStream f).memDies = s.memDies := rfl
@[simp] theorem State.mapCurStream_links (s : State) (f : Stream → Stream) : (s.mapCurStream f).links = s.links := rfl
@[simp] theorem State.mapCurStream_blooms (s : State) (f : Stream → Stream) : (s.mapCurStream f).blooms = s.blooms := rfl
@[simp] theorem State.mapCurStream_msc (s : State) (f : Stream → Stream) : (s.mapCurStream f).msc = s.msc := rfl
@[simp] theorem State.mapCurStream_dir (s : State) (f : Stream → Stream) : (s.mapCurStream f).dir = s.dir := rfl
@[simp] theorem State.mapCurStream_l2 (s : State) (f : Stream → Stream) : (s.mapCurStream f).l2 = s.l2 := rfl
@[simp] theorem State.mapCurStream_words (s : State) (f : Stream → Stream) : (s.mapCurStream f).words = s.words := rfl
@[simp] theorem State.mapCurStream_incarnations (s : State) (f : Stream → Stream) : (s.mapCurStream f).incarnations = s.incarnations := rfl
@[simp] theorem State.mapCurStream_blocks (s : State) (f : Stream → Stream) : (s.mapCurStream f).blocks = s.blocks := rfl
@[simp] theorem State.mapCurStream_hostQueues (s : State) (f : Stream → Stream) : (s.mapCurStream f).hostQueues = s.hostQueues := rfl
@[simp] theorem State.mapCurStream_launchCache (s : State) (f : Stream → Stream) : (s.mapCurStream f).launchCache = s.launchCache := rfl
@[simp] theorem State.mapCurStream_pointers (s : State) (f : Stream → Stream) : (s.mapCurStream f).pointers = s.pointers := rfl
@[simp] theorem State.mapCurStream_pkg (s : State) (f : Stream → Stream) : (s.mapCurStream f).pkg = s.pkg := rfl
@[simp] theorem State.mapCurStream_lates (s : State) (f : Stream → Stream) : (s.mapCurStream f).lates = s.lates := rfl
@[simp] theorem State.mapCurStream_late (s : State) (f : Stream → Stream) : (s.mapCurStream f).late = s.late := rfl
@[simp] theorem State.mapCurStream_victim (s : State) (f : Stream → Stream) : (s.mapCurStream f).victim = s.victim := rfl
@[simp] theorem State.mapCurStream_raced (s : State) (f : Stream → Stream) : (s.mapCurStream f).raced = s.raced := rfl

/-! ### onLanes -/

@[simp] theorem State.onLanes_agenda (s : State) (f : Group → Nat → Lane → Lane) : (s.onLanes f).agenda = s.agenda := rfl
@[simp] theorem State.onLanes_cur (s : State) (f : Group → Nat → Lane → Lane) : (s.onLanes f).cur = s.cur := rfl
@[simp] theorem State.onLanes_focus (s : State) (f : Group → Nat → Lane → Lane) : (s.onLanes f).focus = s.focus := rfl
@[simp] theorem State.onLanes_freeCtr (s : State) (f : Group → Nat → Lane → Lane) : (s.onLanes f).freeCtr = s.freeCtr := rfl
@[simp] theorem State.onLanes_clk (s : State) (f : Group → Nat → Lane → Lane) : (s.onLanes f).clk = s.clk := rfl
@[simp] theorem State.onLanes_gtime (s : State) (f : Group → Nat → Lane → Lane) : (s.onLanes f).gtime = s.gtime := rfl
@[simp] theorem State.onLanes_ctxs (s : State) (f : Group → Nat → Lane → Lane) : (s.onLanes f).ctxs = s.ctxs := rfl
@[simp] theorem State.onLanes_clusters (s : State) (f : Group → Nat → Lane → Lane) : (s.onLanes f).clusters = s.clusters := rfl
@[simp] theorem State.onLanes_mem (s : State) (f : Group → Nat → Lane → Lane) : (s.onLanes f).mem = s.mem := rfl
@[simp] theorem State.onLanes_memPoison (s : State) (f : Group → Nat → Lane → Lane) : (s.onLanes f).memPoison = s.memPoison := rfl
@[simp] theorem State.onLanes_log (s : State) (f : Group → Nat → Lane → Lane) : (s.onLanes f).log = s.log := rfl
@[simp] theorem State.onLanes_grids (s : State) (f : Group → Nat → Lane → Lane) : (s.onLanes f).grids = s.grids := rfl
@[simp] theorem State.onLanes_batches (s : State) (f : Group → Nat → Lane → Lane) : (s.onLanes f).batches = s.batches := rfl
@[simp] theorem State.onLanes_faultOut (s : State) (f : Group → Nat → Lane → Lane) : (s.onLanes f).faultOut = s.faultOut := rfl
@[simp] theorem State.onLanes_dies (s : State) (f : Group → Nat → Lane → Lane) : (s.onLanes f).dies = s.dies := rfl
@[simp] theorem State.onLanes_memDies (s : State) (f : Group → Nat → Lane → Lane) : (s.onLanes f).memDies = s.memDies := rfl
@[simp] theorem State.onLanes_links (s : State) (f : Group → Nat → Lane → Lane) : (s.onLanes f).links = s.links := rfl
@[simp] theorem State.onLanes_blooms (s : State) (f : Group → Nat → Lane → Lane) : (s.onLanes f).blooms = s.blooms := rfl
@[simp] theorem State.onLanes_msc (s : State) (f : Group → Nat → Lane → Lane) : (s.onLanes f).msc = s.msc := rfl
@[simp] theorem State.onLanes_dir (s : State) (f : Group → Nat → Lane → Lane) : (s.onLanes f).dir = s.dir := rfl
@[simp] theorem State.onLanes_l2 (s : State) (f : Group → Nat → Lane → Lane) : (s.onLanes f).l2 = s.l2 := rfl
@[simp] theorem State.onLanes_words (s : State) (f : Group → Nat → Lane → Lane) : (s.onLanes f).words = s.words := rfl
@[simp] theorem State.onLanes_incarnations (s : State) (f : Group → Nat → Lane → Lane) : (s.onLanes f).incarnations = s.incarnations := rfl
@[simp] theorem State.onLanes_blocks (s : State) (f : Group → Nat → Lane → Lane) : (s.onLanes f).blocks = s.blocks := rfl
@[simp] theorem State.onLanes_hostQueues (s : State) (f : Group → Nat → Lane → Lane) : (s.onLanes f).hostQueues = s.hostQueues := rfl
@[simp] theorem State.onLanes_launchCache (s : State) (f : Group → Nat → Lane → Lane) : (s.onLanes f).launchCache = s.launchCache := rfl
@[simp] theorem State.onLanes_pointers (s : State) (f : Group → Nat → Lane → Lane) : (s.onLanes f).pointers = s.pointers := rfl
@[simp] theorem State.onLanes_pkg (s : State) (f : Group → Nat → Lane → Lane) : (s.onLanes f).pkg = s.pkg := rfl
@[simp] theorem State.onLanes_lates (s : State) (f : Group → Nat → Lane → Lane) : (s.onLanes f).lates = s.lates := rfl
@[simp] theorem State.onLanes_late (s : State) (f : Group → Nat → Lane → Lane) : (s.onLanes f).late = s.late := rfl
@[simp] theorem State.onLanes_victim (s : State) (f : Group → Nat → Lane → Lane) : (s.onLanes f).victim = s.victim := rfl
@[simp] theorem State.onLanes_raced (s : State) (f : Group → Nat → Lane → Lane) : (s.onLanes f).raced = s.raced := rfl

/-! ### Teams and groups -/

@[simp] theorem Team.setGroup_ctx (x : Team) (g : Nat) (y : Group) : (x.setGroup g y).ctx = x.ctx := rfl
@[simp] theorem Team.setGroup_grid (x : Team) (g : Nat) (y : Group) : (x.setGroup g y).grid = x.grid := rfl
@[simp] theorem Team.setGroup_x (x : Team) (g : Nat) (y : Group) : (x.setGroup g y).x = x.x := rfl
@[simp] theorem Team.setGroup_y (x : Team) (g : Nat) (y : Group) : (x.setGroup g y).y = x.y := rfl
@[simp] theorem Team.setGroup_z (x : Team) (g : Nat) (y : Group) : (x.setGroup g y).z = x.z := rfl
@[simp] theorem Team.setGroup_laneCount (x : Team) (g : Nat) (y : Group) : (x.setGroup g y).laneCount = x.laneCount := rfl
@[simp] theorem Team.setGroup_privSize (x : Team) (g : Nat) (y : Group) : (x.setGroup g y).privSize = x.privSize := rfl
@[simp] theorem Team.setGroup_nGroups (x : Team) (g : Nat) (y : Group) : (x.setGroup g y).nGroups = x.nGroups := rfl
@[simp] theorem Team.setGroup_roles (x : Team) (g : Nat) (y : Group) : (x.setGroup g y).roles = x.roles := rfl
@[simp] theorem Team.setGroup_cluster (x : Team) (g : Nat) (y : Group) : (x.setGroup g y).cluster = x.cluster := rfl
@[simp] theorem Team.setGroup_slot (x : Team) (g : Nat) (y : Group) : (x.setGroup g y).slot = x.slot := rfl
@[simp] theorem Team.setGroup_tile (x : Team) (g : Nat) (y : Group) : (x.setGroup g y).tile = x.tile := rfl
@[simp] theorem Team.setGroup_rotgen (x : Team) (g : Nat) (y : Group) : (x.setGroup g y).rotgen = x.rotgen := rfl
@[simp] theorem Team.setGroup_gang (x : Team) (g : Nat) (y : Group) : (x.setGroup g y).gang = x.gang := rfl
@[simp] theorem Team.setGroup_residency (x : Team) (g : Nat) (y : Group) : (x.setGroup g y).residency = x.residency := rfl
@[simp] theorem Team.setGroup_matrix (x : Team) (g : Nat) (y : Group) : (x.setGroup g y).matrix = x.matrix := rfl
@[simp] theorem Team.setGroup_copy (x : Team) (g : Nat) (y : Group) : (x.setGroup g y).copy = x.copy := rfl
@[simp] theorem Team.setGroup_pad (x : Team) (g : Nat) (y : Group) : (x.setGroup g y).pad = x.pad := rfl
@[simp] theorem Team.setGroup_padPoison (x : Team) (g : Nat) (y : Group) : (x.setGroup g y).padPoison = x.padPoison := rfl
@[simp] theorem Team.setGroup_weaves (x : Team) (g : Nat) (y : Group) : (x.setGroup g y).weaves = x.weaves := rfl
@[simp] theorem Team.setGroup_slots (x : Team) (g : Nat) (y : Group) : (x.setGroup g y).slots = x.slots := rfl
@[simp] theorem Team.setGroup_banks (x : Team) (g : Nat) (y : Group) : (x.setGroup g y).banks = x.banks := rfl
@[simp] theorem Team.setGroup_bankData (x : Team) (g : Nat) (y : Group) : (x.setGroup g y).bankData = x.bankData := rfl
@[simp] theorem Team.setGroup_handles (x : Team) (g : Nat) (y : Group) : (x.setGroup g y).handles = x.handles := rfl
@[simp] theorem Team.setGroup_engine (x : Team) (g : Nat) (y : Group) : (x.setGroup g y).engine = x.engine := rfl
@[simp] theorem Team.setGroup_copies (x : Team) (g : Nat) (y : Group) : (x.setGroup g y).copies = x.copies := rfl
@[simp] theorem Team.setGroup_bars (x : Team) (g : Nat) (y : Group) : (x.setGroup g y).bars = x.bars := rfl
@[simp] theorem Team.setGroup_tokens (x : Team) (g : Nat) (y : Group) : (x.setGroup g y).tokens = x.tokens := rfl
@[simp] theorem Team.setGroup_queues (x : Team) (g : Nat) (y : Group) : (x.setGroup g y).queues = x.queues := rfl
@[simp] theorem Team.setGroup_maps (x : Team) (g : Nat) (y : Group) : (x.setGroup g y).maps = x.maps := rfl
@[simp] theorem Team.setGroup_filled (x : Team) (g : Nat) (y : Group) : (x.setGroup g y).filled = x.filled := rfl
@[simp] theorem Team.setGroup_dirty (x : Team) (g : Nat) (y : Group) : (x.setGroup g y).dirty = x.dirty := rfl
@[simp] theorem Team.setGroup_priv (x : Team) (g : Nat) (y : Group) : (x.setGroup g y).priv = x.priv := rfl
@[simp] theorem Team.setGroup_residentSince (x : Team) (g : Nat) (y : Group) : (x.setGroup g y).residentSince = x.residentSince := rfl
@[simp] theorem Team.setGroup_lastRotated (x : Team) (g : Nat) (y : Group) : (x.setGroup g y).lastRotated = x.lastRotated := rfl
@[simp] theorem Team.setGroup_idleSince (x : Team) (g : Nat) (y : Group) : (x.setGroup g y).idleSince = x.idleSince := rfl
@[simp] theorem Team.setGroup_waitingSince (x : Team) (g : Nat) (y : Group) : (x.setGroup g y).waitingSince = x.waitingSince := rfl
@[simp] theorem Team.setGroup_frozenAt (x : Team) (g : Nat) (y : Group) : (x.setGroup g y).frozenAt = x.frozenAt := rfl
@[simp] theorem Team.setGroup_collector (x : Team) (g : Nat) (y : Group) : (x.setGroup g y).collector = x.collector := rfl
@[simp] theorem Team.setGroup_picks (x : Team) (g : Nat) (y : Group) : (x.setGroup g y).picks = x.picks := rfl
@[simp] theorem Team.setGroup_acDone (x : Team) (g : Nat) (y : Group) : (x.setGroup g y).acDone = x.acDone := rfl
@[simp] theorem Team.setGroup_flips (x : Team) (g : Nat) (y : Group) : (x.setGroup g y).flips = x.flips := rfl
@[simp] theorem Team.setGroup_nextOp (x : Team) (g : Nat) (y : Group) : (x.setGroup g y).nextOp = x.nextOp := rfl
@[simp] theorem Team.setGroup_txbArrivals (x : Team) (g : Nat) (y : Group) : (x.setGroup g y).txbArrivals = x.txbArrivals := rfl
@[simp] theorem Team.setGroup_txbHistory (x : Team) (g : Nat) (y : Group) : (x.setGroup g y).txbHistory = x.txbHistory := rfl
@[simp] theorem Team.setGroup_levels (x : Team) (g : Nat) (y : Group) : (x.setGroup g y).levels = x.levels := rfl
@[simp] theorem Team.setGroup_levelTime (x : Team) (g : Nat) (y : Group) : (x.setGroup g y).levelTime = x.levelTime := rfl
@[simp] theorem Team.setGroup_privFilled (x : Team) (g : Nat) (y : Group) : (x.setGroup g y).privFilled = x.privFilled := rfl
@[simp] theorem Team.setGroup_l1 (x : Team) (g : Nat) (y : Group) : (x.setGroup g y).l1 = x.l1 := rfl
@[simp] theorem Team.setGroup_tlb (x : Team) (g : Nat) (y : Group) : (x.setGroup g y).tlb = x.tlb := rfl
@[simp] theorem Team.setGroup_discarded (x : Team) (g : Nat) (y : Group) : (x.setGroup g y).discarded = x.discarded := rfl
@[simp] theorem Team.setGroup_launchEv (x : Team) (g : Nat) (y : Group) : (x.setGroup g y).launchEv = x.launchEv := rfl

/-! ### Accessors -/

@[simp] theorem State.team_setTeam_same (s : State) (t : Nat) (x : Team) : (s.setTeam t x).team t = x := Map.get_put_same _ _ _ _

theorem State.team_setTeam_other (s : State) {t u : Nat} (x : Team) (h : u ≠ t) : (s.setTeam t x).team u = s.team u :=
  Map.get_put_other _ _ _ h

@[simp] theorem State.team_mapTeam_same (s : State) (t : Nat) (f : Team → Team) : (s.mapTeam t f).team t = f (s.team t) :=
  Map.get_put_same _ _ _ _

theorem State.team_mapTeam_other (s : State) {t u : Nat} (f : Team → Team) (h : u ≠ t) : (s.mapTeam t f).team u = s.team u :=
  Map.get_put_other _ _ _ h

@[simp] theorem Team.group_setGroup_same (x : Team) (g : Nat) (y : Group) : (x.setGroup g y).group g = y := Map.get_put_same _ _ _ _

theorem Team.group_setGroup_other (x : Team) {g h : Nat} (y : Group) (n : h ≠ g) : (x.setGroup g y).group h = x.group h :=
  Map.get_put_other _ _ _ n

@[simp] theorem Group.lane_setLane_same (y : Group) (l : Nat) (x : Lane) : (y.setLane l x).lane l = x := Map.get_put_same _ _ _ _

theorem Group.lane_setLane_other (y : Group) {l k : Nat} (x : Lane) (h : k ≠ l) : (y.setLane l x).lane k = y.lane k :=
  Map.get_put_other _ _ _ h

@[simp] theorem State.curGroup_mapCurGroup (s : State) (f : Group → Group) : (s.mapCurGroup f).curGroup = f s.curGroup := by
  simp [State.mapCurGroup, State.mapGroup, State.curGroup, State.curTeam]

@[simp] theorem State.grid_setGrid_same (s : State) (n : Nat) (x : Grid) : (s.setGrid n x).grid n = x := Map.get_put_same _ _ _ _

@[simp] theorem State.cluster_setCluster_same (s : State) (c : Nat) (x : Cluster) : (s.setCluster c x).cluster c = x :=
  Map.get_put_same _ _ _ _

@[simp] theorem State.die_setDie_same (s : State) (d : Nat) (x : Die) : (s.setDie d x).die d = x := Map.get_put_same _ _ _ _

@[simp] theorem State.block_setBlock_same (s : State) (b : Nat) (x : QueueRegs) : (s.setBlock b x).block b = x := Map.get_put_same _ _ _ _

/-! ### The lanes of a mask -/

/-- A fold of `put` over keys that appear once reads as the function at each key. -/
theorem get_mapLanes_aux (mask : BitVec 32) (f : Nat → Lane → Lane) (ks : List Nat) (h : ks.Nodup) (m : Map Lane) (l : Nat) :
    Map.get Lane.unlaunched
        (ks.foldl (fun m l => if mask.getLsbD l then Map.put m l (f l (Map.get Lane.unlaunched m l)) else m) m) l =
      if l ∈ ks ∧ mask.getLsbD l = true then f l (Map.get Lane.unlaunched m l) else Map.get Lane.unlaunched m l := by
  induction ks generalizing m with
  | nil => simp
  | cons k ks ih =>
    have hk : k ∉ ks := (List.nodup_cons.1 h).1
    rw [List.foldl_cons, ih (List.nodup_cons.1 h).2]
    by_cases hl : l = k
    · subst hl
      by_cases hm : mask.getLsbD l = true <;> simp [hk, hm]
    · by_cases hm : mask.getLsbD k = true <;> simp [hl, hm, Map.get_put_other _ _ _ hl]

/-- A lane after `mapLanes`. -/
theorem get_mapLanes (mask : BitVec 32) (f : Nat → Lane → Lane) (m : Map Lane) (l : Nat) :
    Map.get Lane.unlaunched (mapLanes mask f m) l =
      if mask.getLsbD l then f l (Map.get Lane.unlaunched m l) else Map.get Lane.unlaunched m l := by
  rw [mapLanes, get_mapLanes_aux mask f _ List.nodup_range m l]
  by_cases hm : mask.getLsbD l = true
  · have : l < 32 := Nat.lt_of_not_le fun hc => by
      simp [BitVec.getLsbD_of_ge mask l hc] at hm
    simp [hm, this]
  · simp [hm]

/-- A lane of the group after `onLanes`. -/
theorem State.lane_onLanes (s : State) (f : Group → Nat → Lane → Lane) (l : Nat) :
    (s.onLanes f).curGroup.lane l =
      if s.cur.lanes.getLsbD l then f s.curGroup l (s.curGroup.lane l) else s.curGroup.lane l := by
  rw [State.onLanes, State.curGroup_mapCurGroup]
  exact get_mapLanes _ _ _ _

end Sys2Proof.Machine
end

