-- ==== Sys2Proof/Laws/Lanes.lean ====
section
/-!
SUPPORT. What an update of the issuing group or team does: registers read back, lanes of a lane operation, bytes that stay.
-/

namespace Sys2Proof.Machine

/-! ### Registers -/

theorem Lane.readV_writeV (x : Lane) (d n : Nat) (r : Tagged Word) : (x.writeV d r).readV n = if n = d then r else x.readV n := by
  simp [Lane.readV, Lane.writeV, Map.get_set]

theorem Lane.readK_writeK (x : Lane) (d n : BitVec 3) (r : Tagged Bool) :
    (x.writeK d r).readK n = if n = 0 then clear true else if n = d then r else x.readK n := by
  by_cases hn : n = 0
  · simp [Lane.readK, hn]
  · have hn' : ¬n = 0#3 := hn
    by_cases hd : d = 0
    · subst hd
      simp [Lane.writeK, hn']
    · have h : (n.toNat = d.toNat) = (n = d) := by simp [BitVec.toNat_eq]
      have hd' : ¬d = 0#3 := hd
      simp [Lane.readK, Lane.writeK, hn', hd', Map.get_set, h]

theorem readSMap_writeSMap (m : Map (Tagged DWord)) (d n : Nat) (r : Tagged DWord) :
    readSMap (writeSMap m d r) n = if n = 0 then clear 0 else if n = d then r else readSMap m n := by
  unfold readSMap writeSMap
  split
  · rfl
  · split
    · rename_i h1 h2; subst h2; simp_all
    · simp [Map.get_set]

theorem Lane.setFlags_zero (x : Lane) : x.setFlags 0 = x := by simp [Lane.setFlags]

/-! ### Masks -/

theorem getLsbD_maskOf_aux (f : Nat → Bool) (ks : List Nat) (hk : ∀ k ∈ ks, k < 32) (m : BitVec 32) (i : Nat) :
    (ks.foldl (fun m l => if f l then m ||| BitVec.ofNat 32 (2 ^ l) else m) m).getLsbD i =
      (m.getLsbD i || (decide (i ∈ ks) && f i)) := by
  induction ks generalizing m with
  | nil => simp
  | cons k ks ih =>
    have hk32 := hk k List.mem_cons_self
    have hb : (BitVec.ofNat 32 (2 ^ k)).getLsbD i = decide (i = k) := by
      rw [BitVec.getLsbD_ofNat, Nat.testBit_two_pow]
      by_cases h : i = k
      · subst h; simp [hk32]
      · simp [h, Ne.symm h]
    rw [List.foldl_cons, ih (fun j hj => hk j (List.mem_cons_of_mem _ hj))]
    cases hf : f k with
    | false => by_cases hi : i = k <;> simp [hf, hi]
    | true =>
      rw [if_pos rfl, BitVec.getLsbD_or, hb]
      by_cases hi : i = k <;> simp [hf, hi]

/-- A bit of a mask built from a test. -/
theorem getLsbD_maskOf (f : Nat → Bool) (i : Nat) : (maskOf f).getLsbD i = (decide (i < 32) && f i) := by
  rw [maskOf, getLsbD_maskOf_aux f _ (by simp) 0 i]
  simp

/-! ### Bytes that stay -/

theorem sameBytes_refl (s : State) : sameBytes s s := by simp [sameBytes]

/-- An update of a team that keeps its scratchpad and private bytes keeps every byte. -/
theorem sameBytes_mapTeam (s : State) (u : Nat) (f : Team → Team) (hp : (f (s.team u)).pad = (s.team u).pad)
    (hq : (f (s.team u)).priv = (s.team u).priv) : sameBytes s (s.mapTeam u f) := by
  refine ⟨fun a => rfl, fun v => ?_⟩
  by_cases h : v = u
  · subst h; simp [hp, hq]
  · simp [State.team_mapTeam_other s f h]

theorem sameBytes_mapCurGroup (s : State) (f : Group → Group) : sameBytes s (s.mapCurGroup f) :=
  sameBytes_mapTeam s _ _ rfl rfl

/-- A lane operation: lanes of the execution set change, and nothing else. -/
theorem onlyLanes_onLanes (s : State) (f : Group → Nat → Lane → Lane) : onlyLanes s (s.onLanes f) :=
  ⟨mapLanes s.cur.lanes (f s.curGroup) s.curGroup.lanes, rfl⟩

theorem sameBytes_onLanes (s : State) (f : Group → Nat → Lane → Lane) : sameBytes s (s.onLanes f) :=
  sameBytes_mapCurGroup s _

/-- A lane after an instruction on registers only. -/
theorem State.lane_laneOp (s : State) (f : Group → Lane → Lane) (l : Nat) :
    (s.laneOp f).curGroup.lane l =
      if s.cur.lanes.getLsbD l then (f s.curGroup (s.curGroup.lane l)).advance s.cur.len else s.curGroup.lane l :=
  State.lane_onLanes s _ l

end Sys2Proof.Machine
end

