-- ==== Sys2Proof/Laws/Ops.lean ====
section
/-!
SUPPORT. What each shared operation can do: registers, waiting, moving on, bytes written by the device, the end of a grid, a
trap; and that each keeps the canonical form of memory.
-/

namespace Sys2Proof.Machine

/-! ### The issuing party -/

theorem State.curStream_mapCurStream (s : State) (f : Stream → Stream) (h : s.cur.party.isGroup = false) :
    (s.mapCurStream f).curStream = f s.curStream := by
  unfold State.curStream State.curTeam State.mapCurStream State.mapCurTeam
  cases hp : s.cur.party with
  | group g => rw [hp] at h; cases h
  | matrix => simp [hp, Team.setStream, Team.stream]
  | copy => simp [hp, Team.setStream, Team.stream]

theorem sameBytes_mapCurStream (s : State) (f : Stream → Stream) : sameBytes s (s.mapCurStream f) :=
  sameBytes_mapTeam s _ _ (by cases s.cur.party <;> rfl) (by cases s.cur.party <;> rfl)

/-- Reading an s register after a write: s0 reads 0, the register written its value, every other one as before. -/
theorem State.readS_writeS (s : State) (d n : BitVec 5) (r : Tagged DWord) :
    (s.writeS d r).readS n = if n = 0 then clear 0 else if n = d then r else s.readS n := by
  have hn : (n.toNat = 0) = (n = 0) := by simp [BitVec.toNat_eq]
  have hd : (n.toNat = d.toNat) = (n = d) := by simp [BitVec.toNat_eq]
  cases h : s.cur.party.isGroup with
  | true =>
    simp [State.readS, State.writeS, h, Group.readS, Group.writeS, readSMap_writeSMap, hn, hd]
  | false =>
    have hc : (s.mapCurStream fun y => y.writeS d.toNat r).curStream = s.curStream.writeS d.toNat r :=
      State.curStream_mapCurStream s _ h
    have hp : (s.mapCurStream fun y => y.writeS d.toNat r).cur = s.cur := rfl
    have hl : (s.writeS d r).readS n = (s.curStream.writeS d.toNat r).readS n.toNat := by
      simp only [State.writeS, h, Bool.false_eq_true, if_false, State.readS, hp]
      rw [hc]
    rw [hl]
    simp [State.readS, h, Stream.readS, Stream.writeS, readSMap_writeSMap, hn, hd]

/-- The party moves past its instruction; no register and no byte changes. -/
theorem State.advance_spec (s : State) : s.pastPc s.advance ∧ (∀ n, s.advance.readS n = s.readS n) ∧ sameBytes s s.advance ∧ s.advance.cur = s.cur := by
  cases h : s.cur.party.isGroup with
  | true =>
    have e : s.advance = s.onLanes fun _ _ x => x.advance s.cur.len := by simp [State.advance, h]
    rw [e]
    refine ⟨?_, fun n => ?_, sameBytes_onLanes s _, rfl⟩
    · simp only [State.pastPc, h, if_true]
      intro l
      rw [State.lane_onLanes]
      split <;> rfl
    · simp [State.readS, h, State.onLanes, Group.readS]
  | false =>
    have e : s.advance = s.mapCurStream fun y => { y with pc := y.pc + BitVec.ofNat 56 (4 * s.cur.len) } := by simp [State.advance, h]
    rw [e]
    refine ⟨?_, fun n => ?_, sameBytes_mapCurStream s _, rfl⟩
    · simp only [State.pastPc, h, Bool.false_eq_true, if_false]
      rw [State.curStream_mapCurStream s _ h]
    · have hp : (s.mapCurStream fun y => { y with pc := y.pc + BitVec.ofNat 56 (4 * s.cur.len) }).cur = s.cur := rfl
      simp only [State.readS, hp, h, Bool.false_eq_true, if_false]
      rw [State.curStream_mapCurStream s _ h]
      rfl

/-- The party waits in the instruction; nothing else of it changes. -/
theorem State.hold_spec (s : State) (i : Instr) :
    waitsIn s (s.hold i) i ∧ (∀ n, (s.hold i).readS n = s.readS n) ∧ sameBytes s (s.hold i) ∧ (s.hold i).cur = s.cur := by
  cases h : s.cur.party with
  | group g =>
    have e : s.hold i = s.mapCurGroup fun y => { y with wait := some ⟨i, s.cur, s.now⟩ } := by simp [State.hold, h, Party.isGroup]
    rw [e]
    refine ⟨?_, fun n => ?_, sameBytes_mapCurGroup s _, rfl⟩
    · simp [waitsIn, State.waitOf, h, State.mapCurGroup, State.mapGroup, Party.groupNo]
    · simp [State.readS, h, Party.isGroup, Group.readS]
  | matrix =>
    have hg : s.cur.party.isGroup = false := by rw [h]; rfl
    have e : s.hold i = s.mapCurStream fun y => { y with wait := some ⟨i, s.cur, s.now⟩ } := by simp [State.hold, hg]
    have hp : (s.mapCurStream fun y => { y with wait := some ⟨i, s.cur, s.now⟩ }).cur = s.cur := rfl
    rw [e]
    refine ⟨?_, fun n => ?_, sameBytes_mapCurStream s _, rfl⟩
    · simp [waitsIn, State.waitOf, h, State.mapCurStream, State.mapCurTeam, Team.setStream, Team.stream]
    · simp only [State.readS, hp, hg, Bool.false_eq_true, if_false]
      rw [State.curStream_mapCurStream s _ hg]
      rfl
  | copy =>
    have hg : s.cur.party.isGroup = false := by rw [h]; rfl
    have e : s.hold i = s.mapCurStream fun y => { y with wait := some ⟨i, s.cur, s.now⟩ } := by simp [State.hold, hg]
    have hp : (s.mapCurStream fun y => { y with wait := some ⟨i, s.cur, s.now⟩ }).cur = s.cur := rfl
    rw [e]
    refine ⟨?_, fun n => ?_, sameBytes_mapCurStream s _, rfl⟩
    · simp [waitsIn, State.waitOf, h, State.mapCurStream, State.mapCurTeam, Team.setStream, Team.stream]
    · simp only [State.readS, hp, hg, Bool.false_eq_true, if_false]
      rw [State.curStream_mapCurStream s _ hg]
      rfl

/-! ### The device's writes -/

theorem wroteBytes_writeBytes (s t : State) (k : Nat) (bs : List Byte) (h : t.mem = writeBytes s.mem k bs) : wroteBytes s t k bs := by
  intro a
  rw [h, readMem_writeBytes]

/-- The bytes stand from the key on; every team is as before. -/
theorem State.putBytes_spec (s : State) (k : Nat) (bs : List Byte) : wroteBytes s (s.putBytes k bs) k bs ∧ (s.putBytes k bs).teams = s.teams :=
  ⟨wroteBytes_writeBytes s _ k bs rfl, rfl⟩

theorem State.wf_putBytes (s : State) (k : Nat) (bs : List Byte) (h : Memory.wf s.mem = true) : Memory.wf (s.putBytes k bs).mem = true :=
  wf_writeBytes bs s.mem k h

/-- A command at the head of the admin ring ends with a status, which its entry holds. -/
theorem State.adminDone_spec (s : State) (status : Nat) (k : Nat) (h : s.adminEntry = some k) : s.commandEnds (s.adminDone status) status := by
  refine ⟨k, h, ?_, ?_⟩
  · apply wroteBytes_writeBytes
    simp [State.adminDone, h, State.signal, State.putBytes, State.setBlock]
  · simp [State.adminDone, h, State.signal, State.putBytes, State.setBlock, State.block, adminRing]

/-! ### Range records -/

@[simp] theorem State.putBytes_mem (s : State) (k : Nat) (bs : List Byte) : (s.putBytes k bs).mem = writeBytes s.mem k bs := rfl
@[simp] theorem State.signal_mem (s : State) (b : Nat) : (s.signal b).mem = s.mem := rfl
@[simp] theorem State.logBox_mem (s : State) (c u : Nat) (d : List Byte) : (s.logBox c u d).mem = s.mem := by
  simp only [State.logBox]

/-- A range record is written where the fault ring's tail stands. -/
theorem State.ringWrite_mem (s : State) (r : RangeRec) :
    (s.ringWrite r).mem = writeBytes s.mem (ringKey ((s.block faultRing).base + 32 * (s.block faultRing).tail)) (rangeBytes r) := by
  unfold State.ringWrite
  simp only [apply_ite State.mem, State.logBox_mem, State.signal_mem, State.setBlock_mem, State.putBytes_mem, ite_self]

theorem State.wf_ringWrite (s : State) (r : RangeRec) (h : Memory.wf s.mem = true) : Memory.wf (s.ringWrite r).mem = true := by
  rw [State.ringWrite_mem]
  exact wf_writeBytes _ _ _ h

theorem State.wf_drainRing (s : State) (h : Memory.wf s.mem = true) : Memory.wf s.drainRing.mem = true := by
  unfold State.drainRing
  split
  · have key : ∀ (rs : List RangeRec) (u : State), Memory.wf u.mem = true → Memory.wf (rs.foldl (fun s r => s.ringWrite r) u).mem = true := by
      intro rs
      induction rs with
      | nil => exact fun u hu => hu
      | cons r rs ih => exact fun u hu => ih _ (State.wf_ringWrite u r hu)
    exact key _ _ h
  · exact h

theorem State.wf_deliver (s : State) (r : RangeRec) (h : Memory.wf s.mem = true) : Memory.wf (s.deliver r).mem = true :=
  State.wf_drainRing _ h

/-! ### The end of a grid -/

@[simp] theorem State.endGrid_teams (s : State) (n : Nat) (status : Word) : (s.endGrid n status).teams = endTeams n s.teams := rfl
@[simp] theorem State.endGrid_mem (s : State) (n : Nat) (status : Word) : (s.endGrid n status).mem = s.mem := rfl
@[simp] theorem State.endGrid_grids (s : State) (n : Nat) (status : Word) :
    (s.endGrid n status).grids = Map.put s.grids n
      { s.grid n with
        status := some ((s.grid n).status.getD status)
        ended := (s.grid n).gx * (s.grid n).gy * (s.grid n).gz
        placed := (s.grid n).gx * (s.grid n).gy * (s.grid n).gz } := rfl

/-- The grid's first status stays, its teams have ended, and every other team and grid is as it was. -/
theorem State.endGrid_spec (s : State) (n : Nat) (status : Word) :
    gridEnded s (s.endGrid n status) n status ∧ (s.endGrid n status).mem = s.mem ∧ ∀ m, m ≠ n → (s.endGrid n status).grid m = s.grid m := by
  unfold gridEnded
  refine ⟨⟨?_, ?_, ?_⟩, State.endGrid_mem s n status, fun m hm => ?_⟩
  · show (Map.get Grid.absent (s.endGrid n status).grids n).status = _
    rw [State.endGrid_grids, Map.get_put_same]
  · intro e he hn
    simp only [State.endGrid_teams, endTeams, List.mem_map] at he
    obtain ⟨x, _, rfl⟩ := he
    split at hn <;> rename_i hx
    · rw [if_pos hx]
    · rw [if_neg hx]
      simp only [Bool.and_eq_true, decide_eq_true_eq, not_and, Decidable.not_not] at hx
      exact hx hn
  · intro u hu
    let f : Team → Team := fun x =>
      if x.grid = n && decide (x.residency ≠ .ended) then { x with residency := .ended, copies := [], engine := [], dirty := [] } else x
    have he : (s.endGrid n status).teams = s.teams.map fun e => (e.1, f e.2) := by
      simp only [State.endGrid_teams, endTeams]
      apply List.map_congr_left
      intro e _
      simp only [f]
      split <;> rfl
    have hk : ∀ m : Map Team, (Map.get Team.absent m u).grid ≠ n → Map.get Team.absent (m.map fun e => (e.1, f e.2)) u = Map.get Team.absent m u := by
      intro m
      induction m with
      | nil => exact fun _ => rfl
      | cons e m ih =>
        simp only [List.map_cons, Map.get]
        intro hg
        split at hg <;> rename_i h1
        · simp only [if_pos h1]
          simp [f, hg]
        · simp only [if_neg h1]
          exact ih hg
    show Map.get Team.absent (s.endGrid n status).teams u = Map.get Team.absent s.teams u
    rw [he]
    exact hk s.teams hu
  · show Map.get Grid.absent (s.endGrid n status).grids m = _
    rw [State.endGrid_grids, Map.get_put_other _ _ _ hm]
    rfl

/-! ### Traps keep the canonical form of memory -/

theorem State.wf_devWrite (s t : State) (tag va : Nat) (bs : List Byte) (h : s.devWrite tag va bs = .ok t) (hm : Memory.wf s.mem = true) :
    Memory.wf t.mem = true := by
  unfold State.devWrite at h
  simp only at h
  split at h
  · cases h
  · split at h
    · cases h
      exact State.wf_putBytes s _ _ hm
    · split at h
      · cases h
      · cases h
        exact State.wf_putBytes _ _ _ (State.wf_putBytes s _ _ hm)

theorem State.wf_recordLost (s : State) (t a e c : Nat) (hm : Memory.wf s.mem = true) : Memory.wf (s.recordLost t a e c).mem = true := by
  unfold State.recordLost
  simp only
  exact State.wf_deliver s _ hm

@[simp] theorem State.freeTiles_mem (s : State) (f : Nat → Bool) : (s.freeTiles f).mem = s.mem := rfl
@[simp] theorem State.freeTiles_teams (s : State) (f : Nat → Bool) : (s.freeTiles f).teams = s.teams := rfl

@[simp] theorem State.leaveTile_mem (s : State) (t : Nat) : (s.leaveTile t).mem = s.mem := by
  unfold State.leaveTile
  simp only
  split
  · rfl
  · split <;> rfl

theorem State.checkTeamEnd_mem (s : State) (t : Nat) : (s.checkTeamEnd t).mem = s.mem := by
  unfold State.checkTeamEnd
  simp only
  split <;> simp

theorem State.wf_groupTrap (s : State) (i : TrapInfo) (hm : Memory.wf s.mem = true) : Memory.wf (s.groupTrap i).mem = true := by
  unfold State.groupTrap
  simp only
  split
  · split
    · exact State.wf_recordLost s _ _ _ _ hm
    · rename_i h
      have hw := State.wf_devWrite s _ _ _ _ h hm
      exact hw
  · split
    · exact State.wf_recordLost s _ _ _ _ hm
    · rename_i h
      have hw := State.wf_devWrite s _ _ _ _ h hm
      split <;> exact hw

theorem State.wf_streamTrap (s : State) (i : TrapInfo) (hm : Memory.wf s.mem = true) : Memory.wf (s.streamTrap i).mem = true := by
  unfold State.streamTrap
  simp only
  split
  · exact State.wf_recordLost s _ _ _ _ hm
  · rename_i h
    rw [State.checkTeamEnd_mem]
    have hw := State.wf_devWrite s _ _ _ _ h hm
    exact hw

/-- A trap, whichever of its ends it meets. -/
theorem State.wf_trap (s : State) (i : TrapInfo) (hm : Memory.wf s.mem = true) : Memory.wf (s.trap i).mem = true := by
  unfold State.trap
  split
  · exact State.wf_groupTrap s i hm
  · exact State.wf_streamTrap s i hm

theorem State.noteFault_mem (s : State) (tag va c a p : Nat) : (s.noteFault tag va c a p).mem = s.mem := rfl

theorem State.noteFail_mem (s : State) (t va c : Nat) : (s.noteFail t va c).mem = s.mem := by
  unfold State.noteFail
  simp only
  split <;> rfl

theorem State.wf_deschedule (s : State) (k : FaultKind) (i : Instr) (info : TrapInfo) (ps : List Nat) (hm : Memory.wf s.mem = true) :
    Memory.wf (s.deschedule k i info ps).mem = true := by
  unfold State.deschedule
  simp only
  split
  · exact State.wf_recordLost s _ _ _ _ hm
  · rename_i h
    have hw := State.wf_devWrite s _ _ _ _ h hm
    exact hw

/-! ### Stores keep it too -/

theorem State.wf_storeByte (s : State) (p : Spot) (i : Nat) (b : Byte) (hm : Memory.wf s.mem = true) :
    Memory.wf (s.storeByte p i b).mem = true := by
  cases p with
  | pad m o => exact hm
  | mem k f => exact wf_writeMem _ _ _ hm
  | priv t g l o => exact hm

theorem State.wf_storeBytes (p : Spot) (bs : List Byte) (s : State) (i : Nat) (hm : Memory.wf s.mem = true) :
    Memory.wf (s.storeBytes p i bs).mem = true := by
  induction bs generalizing s i with
  | nil => exact hm
  | cons b bs ih => exact ih _ _ (State.wf_storeByte s p i b hm)

@[simp] theorem State.logEvent_mem (s : State) (k : AccessKind) (e : EvSpec) (rf : List (Nat × Nat)) (late : Bool) :
    (s.logEvent k e rf late).mem = s.mem := rfl

theorem State.wf_writeUnitAt (s : State) (k : AccessKind) (p : Spot) (i0 : Nat) (bs : List Byte) (skip : List Nat)
    (hm : Memory.wf s.mem = true) : Memory.wf (s.writeUnitAt k p i0 bs skip).mem = true := by
  have key : ∀ (is : List Nat) (u : State), Memory.wf u.mem = true →
      Memory.wf (is.foldl (fun s i => s.storeByte p (i0 + i) (bs.getD i 0)) u).mem = true := by
    intro is
    induction is with
    | nil => exact fun u hu => hu
    | cons i is ih => exact fun u hu => ih _ (State.wf_storeByte u p _ _ hu)
  unfold State.writeUnitAt
  simp only
  split
  · exact hm
  · exact key _ s hm

theorem State.wf_writeAt (s : State) (k : AccessKind) (p : Spot) (bs : List Byte) (skip : List Nat) (hm : Memory.wf s.mem = true) :
    Memory.wf (s.writeAt k p bs skip).mem = true := by
  unfold State.writeAt
  split
  · exact State.wf_writeUnitAt s k p 0 bs skip hm
  · exact State.wf_writeUnitAt _ k p 8 _ skip (State.wf_writeUnitAt s k p 0 _ skip hm)

/-! ### What the caches and the poison bits record changes no byte -/

@[simp] theorem State.setPoison_mem (s : State) (k : Nat) (b : Bool) : (s.setPoison k b).mem = s.mem := by
  unfold State.setPoison
  split <;> rfl

@[simp] theorem State.mendSectors_mem (s : State) (keys : List Nat) : (s.mendSectors keys).mem = s.mem := by
  have key : ∀ (ks : List Nat) (u : State), u.mem = s.mem →
      (ks.foldl (fun (s : State) k =>
        if s.keyPoisoned k && (List.range 32).all (fun i => keys.contains (k / 32 * 32 + i)) then s.setPoison k false else s) u).mem = s.mem := by
    intro ks
    induction ks with
    | nil => exact fun u hu => hu
    | cons k ks ih =>
      intro u hu
      apply ih
      simp only
      split
      · simp [hu]
      · exact hu
  exact key keys s rfl

/-! Lines move between agents and homes without a byte of memory or a team changing. -/

/-- Two states agree on memory and teams. -/
def SameMemTeams (s t : State) : Prop := t.mem = s.mem ∧ t.teams = s.teams

theorem SameMemTeams.trans {s t u : State} (h : SameMemTeams s t) (k : SameMemTeams t u) : SameMemTeams s u :=
  ⟨k.1.trans h.1, k.2.trans h.2⟩

/-- What every step of a fold keeps, the fold keeps. -/
theorem SameMemTeams.foldl {α : Type} (f : State → α → State) (h : ∀ s a, SameMemTeams s (f s a)) (l : List α) (s : State) :
    SameMemTeams s (l.foldl f s) := by
  induction l generalizing s with
  | nil => exact ⟨rfl, rfl⟩
  | cons a l ih => exact (h s a).trans (ih (f s a))

theorem SameMemTeams.rfl {s : State} : SameMemTeams s s := ⟨Eq.refl _, Eq.refl _⟩

theorem State.setEntry_same (s : State) (home : HomeDir) (line : Nat) (e : DirEntry) : SameMemTeams s (s.setEntry home line e) := ⟨rfl, rfl⟩

theorem State.mscPut_same (s : State) (line : Nat) (dirty : Bool) : SameMemTeams s (s.mscPut line dirty) := ⟨rfl, rfl⟩

theorem State.putL2_same (s : State) (a : CacheAgent) (line : Nat) (x : L2State) : SameMemTeams s (s.putL2 a line x) := by
  unfold State.putL2
  split
  · exact ⟨rfl, rfl⟩
  · split <;> exact ⟨rfl, rfl⟩

theorem State.mergeWords_same (s : State) (c line : Nat) : SameMemTeams s (s.mergeWords c line) := by
  unfold State.mergeWords; simp only; split <;> exact ⟨rfl, rfl⟩

theorem State.setL2_same (s : State) (a : CacheAgent) (line : Nat) (x : L2State) : SameMemTeams s (s.setL2 a line x) := by
  unfold State.setL2
  split
  · exact (State.mergeWords_same s _ line).trans (State.putL2_same _ _ line x)
  · exact State.putL2_same s _ line x

theorem State.homeRead_same (s : State) (line : Nat) : SameMemTeams s (s.homeRead line) := ⟨rfl, rfl⟩

theorem State.grantFirst_same (s : State) (home : HomeDir) (line : Nat) (r : DirReq) (rest : List DirReq) :
    SameMemTeams s (s.grantFirst home line r rest) := by
  unfold State.grantFirst
  simp only
  refine SameMemTeams.trans ?_ (State.putL2_same _ _ _ _)
  split
  · exact ⟨rfl, rfl⟩
  · exact State.homeRead_same s line

theorem State.serve_same (home : HomeDir) (line fuel : Nat) (s : State) : SameMemTeams s (s.serve home line fuel) := by
  induction fuel generalizing s with
  | zero => exact ⟨rfl, rfl⟩
  | succ n ih =>
    unfold State.serve
    simp only
    split
    · exact ⟨rfl, rfl⟩
    · split
      · exact ⟨rfl, rfl⟩
      · split
        · exact SameMemTeams.trans (SameMemTeams.trans (t := s.setEntry home line _) ⟨rfl, rfl⟩ (State.grantFirst_same _ _ _ _ _)) (ih _)
        · exact ⟨rfl, rfl⟩

theorem State.serveLine_same (s : State) (home : HomeDir) (line : Nat) : SameMemTeams s (s.serveLine home line) := State.serve_same home line _ s

theorem State.request_same (s : State) (home : HomeDir) (line : Nat) (r : DirReq) : SameMemTeams s (s.request home line r) :=
  (State.setEntry_same s home line _).trans (State.serveLine_same _ home line)

theorem State.freeWay_same (s : State) (home : HomeDir) (line : Nat) (a : CacheAgent) : SameMemTeams s (s.freeWay home line a) := by
  cases a with
  | l2 c => unfold State.freeWay; simp only; split <;> exact ⟨rfl, rfl⟩
  | dieDir d => exact ⟨rfl, rfl⟩

theorem State.takeAnswer_same (s : State) (home : HomeDir) (line : Nat) (a : CacheAgent) (keeps : Bool) :
    SameMemTeams s (s.takeAnswer home line a keeps) :=
  (State.setEntry_same s home line _).trans (State.serveLine_same _ home line)

theorem State.dirtyLeaves_same (s : State) (home : HomeDir) (line : Nat) (a : CacheAgent) : SameMemTeams s (s.dirtyLeaves home line a) := by
  unfold State.dirtyLeaves
  simp only
  have h := ((State.setL2_same s a line .i).trans (State.freeWay_same _ home line a)).trans (State.mscPut_same _ line true)
  split
  · exact (h.trans (State.setEntry_same _ home line _)).trans (State.takeAnswer_same _ home line a false)
  · exact h.trans ⟨rfl, rfl⟩

theorem State.cleanLeaves_same (s : State) (home : HomeDir) (line : Nat) (a : CacheAgent) : SameMemTeams s (s.cleanLeaves home line a) :=
  ((State.setL2_same s a line .i).trans (State.freeWay_same _ home line a)).trans ⟨rfl, rfl⟩

theorem State.mergeDie_same (s : State) (d : Nat) : SameMemTeams s (s.mergeDie d) := by
  refine SameMemTeams.foldl _ (fun u line => ?_) _ s
  split
  · split
    · exact State.dirtyLeaves_same _ _ _ _
    · exact ⟨rfl, rfl⟩
  · exact ⟨rfl, rfl⟩

theorem State.dropDie_same (s : State) (d : Nat) : SameMemTeams s (s.dropDie d) := by
  refine SameMemTeams.foldl _ (fun u line => ?_) _ s
  split
  · split
    · exact ⟨rfl, rfl⟩
    · exact State.cleanLeaves_same _ _ _ _
  · exact SameMemTeams.foldl _ (fun v a => State.cleanLeaves_same v _ line a) _ u
  · exact ⟨rfl, rfl⟩

theorem State.useLeases_same (s : State) (core : Option Nat) (key n : Nat) (store : Bool) : SameMemTeams s (s.useLeases core key n store) := by
  unfold State.useLeases
  simp only
  split
  · exact ⟨rfl, rfl⟩
  · split
    · exact (State.setEntry_same s .hub _ _).trans (State.serveLine_same _ .hub _)
    · split <;> exact ⟨rfl, rfl⟩

theorem State.useLine_same (s : State) (core : Option Nat) (c key n : Nat) (f : Leaf) (store : Bool) :
    SameMemTeams s (s.useLine core c key n f store) := by
  have h : SameMemTeams s (if store then s.dirtied c (key / 128) else s) := by
    split
    · unfold State.dirtied; split <;> exact ⟨rfl, rfl⟩
    · exact ⟨rfl, rfl⟩
  unfold State.useLine
  simp only
  split
  · exact h
  · exact h.trans (State.useLeases_same _ _ _ _ _)

theorem State.wakeLinks_same (s : State) (ls : List Nat) : SameMemTeams s (s.wakeLinks ls) :=
  SameMemTeams.foldl _ (fun u l => by unfold State.wakeLink; simp only; split <;> exact ⟨rfl, rfl⟩) ls s

theorem State.useLinks_same (s : State) (ls : List Nat) : SameMemTeams s (s.useLinks ls) :=
  SameMemTeams.foldl (fun s l => s.setLink l { s.link l with lastUse := s.gtime }) (fun _ _ => ⟨rfl, rfl⟩) ls s

theorem State.evictL2_same (s : State) (c line : Nat) : SameMemTeams s (s.evictL2 c line) := by
  have h : SameMemTeams s ((s.setL2 (.l2 c) line .i).setCluster c
      ((s.cluster c).setWays line (((s.cluster c).waysOf line).filter fun k => decide (k ≠ line)))) :=
    (State.setL2_same s (.l2 c) line .i).trans ⟨rfl, rfl⟩
  unfold State.evictL2
  simp only
  split
  · exact h
  · split
    · exact State.dirtyLeaves_same _ _ _ _
    · split
      · exact State.dirtyLeaves_same _ _ _ _
      · exact h

theorem State.takeWay_same (s : State) (c line : Nat) : SameMemTeams s (s.takeWay c line) := by
  unfold State.takeWay
  simp only
  split
  · exact ⟨rfl, rfl⟩
  · split
    · exact (State.evictL2_same s c _).trans ⟨rfl, rfl⟩
    · exact ⟨rfl, rfl⟩

/-- An access at a cluster L2 moves lines; it changes no byte and no team. -/
theorem State.reachLine_same (s : State) (c line : Nat) (f : Leaf) (own : Bool) : SameMemTeams s (s.reachLine c line f own) := by
  unfold State.reachLine
  simp only
  generalize (if own = true then decide (s.holds (.l2 c) line = .i) || decide (s.holds (.l2 c) line = .s)
    else decide (s.holds (.l2 c) line = .i)) = wants
  split
  · split
    · exact State.takeWay_same s c line
    · split
      · exact ((State.useLinks_same s _).trans (State.takeWay_same _ c line)).trans (State.request_same _ _ line _)
      · exact State.wakeLinks_same s _
  · split
    · exact State.takeWay_same s c line
    · exact ⟨rfl, rfl⟩

theorem State.lastWay_same (s : State) (c line : Nat) : SameMemTeams s (s.lastWay c line) := by
  unfold State.lastWay; simp only; split <;> exact ⟨rfl, rfl⟩

theorem State.mergeShared_same (s : State) (c : Nat) (f : Nat → Bool) : SameMemTeams s (s.mergeShared c f) :=
  SameMemTeams.foldl
    (fun (s : State) l =>
      let s1 := s.mscPut l true
      { s1 with words := s1.words.filter fun e => !(decide (e.1 / 32 = l2Key c l) && decide (e.2 = .l2dirty)) })
    (fun _ _ => ⟨rfl, rfl⟩) _ s

@[simp] theorem State.quitLeases_mem (s : State) (core : Nat) : (s.quitLeases core).mem = s.mem := rfl

@[simp] theorem State.quitLeases_teams (s : State) (core : Nat) : (s.quitLeases core).teams = s.teams := rfl

/-- A release leaves every byte and every team as it was. -/
theorem State.performOwn_same (s : State) (sc : Scope) : SameMemTeams s (s.performOwn sc) := by
  have h1 : SameMemTeams s (if sc = .team then s else { s with words := flushOwned s.words s.cur.team }) := by split <;> exact ⟨rfl, rfl⟩
  have h2 (u : State) (k : SameMemTeams s u) (c : Nat) :
      SameMemTeams s (if sc = .wide ∨ sc = .fab then (u.mergeLeases s.cur.team).mergeShared c fun _ => true else u) := by
    split
    · exact (k.trans (t := u) (u := u.mergeLeases s.cur.team) ⟨rfl, rfl⟩).trans (State.mergeShared_same _ c _)
    · exact k
  have h3 (u : State) (k : SameMemTeams s u) (d : Nat) : SameMemTeams s (if sc = .fab then u.mergeDie d else u) := by
    split
    · exact k.trans (State.mergeDie_same u d)
    · exact k
  exact (h3 _ (h2 _ h1 _) _).trans ⟨rfl, rfl⟩

@[simp] theorem State.performOwn_mem (s : State) (sc : Scope) : (s.performOwn sc).mem = s.mem := (State.performOwn_same s sc).1

@[simp] theorem State.performOwn_teams (s : State) (sc : Scope) : (s.performOwn sc).teams = s.teams := (State.performOwn_same s sc).2

/-- An acquire or release drops copies in L1 and clean lines of the die, and changes no byte. -/
@[simp] theorem State.dropL1_mem (s : State) (t : Nat) (acquire : Bool) (sc : Scope) : (s.dropL1 t acquire sc).mem = s.mem := by
  unfold State.dropL1
  split
  · rfl
  · simp only
    split
    · exact (State.dropDie_same _ _).1
    · rfl

@[simp] theorem State.touch_mem (s : State) (t : Nat) (p : Spot) (n : Nat) (rt : ReqType) (sc : Scope) (store alloc last : Bool) :
    (s.touch t p n rt sc store alloc last).mem = s.mem := by
  cases p with
  | mem k f =>
    unfold State.touch
    simp only
    have h1 : (if f.location = 2 then s else s.mapTeam t fun x => x.touchL1 k rt store alloc).mem = s.mem := by split <;> rfl
    have h2 (u : State) (hu : u.mem = s.mem) (b own : Bool) (c : Nat) :
        ((if b = true then u else u.reachLine c (k / 128) f own).useLine (some t) c k n f store).mem = s.mem := by
      rw [(State.useLine_same _ _ _ _ _ _ _).1]
      split
      · exact hu
      · rw [(State.reachLine_same _ _ _ _ _).1, hu]
    split
    · split
      · rw [(State.lastWay_same _ _ _).1]
        exact h2 _ h1 _ _ _
      · exact h2 _ h1 _ _ _
    · exact h1
  | pad m o => rfl
  | priv t g l o => rfl

theorem State.wf_writeBack (s : State) (t : Nat) (k : AccessKind) (hm : Memory.wf s.mem = true) : Memory.wf (s.writeBack t k).mem = true := by
  have key : ∀ (bs : List (Nat × Nat × Leaf × ReqType)) (u : State), Memory.wf u.mem = true →
      Memory.wf (bs.foldl
        (fun (u : State) b =>
          let s1 := (u.writeUnitAt k (.mem b.2.1 b.2.2.1) 0 [Map.get 0 (u.team t).pad b.1] []).touch t (.mem b.2.1 b.2.2.1) 1 b.2.2.2 .team true true false
          if Map.get false (u.team t).padPoison (b.1 / 32) then s1.setPoison b.2.1 true else s1) u).mem = true := by
    intro bs
    induction bs with
    | nil => exact fun u hu => hu
    | cons b bs ih =>
      intro u hu
      apply ih
      have hw := State.wf_writeUnitAt u k (.mem b.2.1 b.2.2.1) 0 [Map.get 0 (u.team t).pad b.1] [] hu
      simp only
      split <;> simpa using hw
  unfold State.writeBack
  simp only [State.mapTeam_mem, State.mendSectors_mem]
  exact key _ s hm

theorem State.noteHeld_mem (t : Nat) (fails : List (Nat × Nat)) (s : State) : (s.noteHeld t fails).mem = s.mem := by
  unfold State.noteHeld
  induction fails generalizing s with
  | nil => rfl
  | cons f fs ih =>
    rw [List.foldl_cons, ih]
    split <;> rfl

/-- The end of a team, with its write-back. -/
theorem State.wf_teamEnds (s : State) (t : Nat) (hm : Memory.wf s.mem = true) : Memory.wf (s.teamEnds t).mem = true := by
  have h1 : Memory.wf (s.checkTeamEnd t).mem = true := by rw [State.checkTeamEnd_mem]; exact hm
  unfold State.teamEnds
  simp only
  split
  · exact h1
  · split
    · exact h1
    · split
      · exact State.wf_writeBack _ t _ h1
      · rw [State.noteHeld_mem]
        exact h1

/-- A read changes no byte of memory. -/
@[simp] theorem State.readUnitAt_mem (s : State) (k : AccessKind) (p : Spot) (i0 n : Nat) : (s.readUnitAt k p i0 n).1.mem = s.mem := rfl

theorem State.readAt_mem (s : State) (k : AccessKind) (p : Spot) (n : Nat) : (s.readAt k p n).1.mem = s.mem := by
  unfold State.readAt
  split
  · rfl
  · split <;> rfl

end Sys2Proof.Machine
end

