-- ==== Sys2Proof/Laws/PerInstr.lean ====
section
/-!
SUPPORT. The laws that are stated of each instruction by itself. Family Encoding: every well-formed instruction has an
encoding; an event of the opcode table is not well formed, since no word stands for it (R41, R43).
-/

namespace Sys2Proof.Laws.Encoding

/-- A well-formed instruction has an encoding. -/
def Statement (i : Instr) : Prop := i.wellFormed = true → (encode i).isSome = true

theorem add (d : Nat) (a b : Reg) : Statement (.add d a b) := fun _ => rfl
theorem addK (d : Nat) (a : Reg) (lit : Word) : Statement (.addK d a lit) := fun _ => rfl
theorem sub (d : Nat) (a b : Reg) : Statement (.sub d a b) := fun _ => rfl
theorem subK (d : Nat) (a : Reg) (lit : Word) : Statement (.subK d a lit) := fun _ => rfl
theorem mul (d : Nat) (a b : Reg) : Statement (.mul d a b) := fun _ => rfl
theorem mulK (d : Nat) (a : Reg) (lit : Word) : Statement (.mulK d a lit) := fun _ => rfl
theorem mulhiI (d : Nat) (a b : Reg) : Statement (.mulhiI d a b) := fun _ => rfl
theorem mulhiIK (d : Nat) (a : Reg) (lit : Word) : Statement (.mulhiIK d a lit) := fun _ => rfl
theorem mulhiN (d : Nat) (a b : Reg) : Statement (.mulhiN d a b) := fun _ => rfl
theorem mulhiNK (d : Nat) (a : Reg) (lit : Word) : Statement (.mulhiNK d a lit) := fun _ => rfl
theorem minI (d : Nat) (a b : Reg) : Statement (.minI d a b) := fun _ => rfl
theorem minIK (d : Nat) (a : Reg) (lit : Word) : Statement (.minIK d a lit) := fun _ => rfl
theorem maxI (d : Nat) (a b : Reg) : Statement (.maxI d a b) := fun _ => rfl
theorem maxIK (d : Nat) (a : Reg) (lit : Word) : Statement (.maxIK d a lit) := fun _ => rfl
theorem minN (d : Nat) (a b : Reg) : Statement (.minN d a b) := fun _ => rfl
theorem minNK (d : Nat) (a : Reg) (lit : Word) : Statement (.minNK d a lit) := fun _ => rfl
theorem maxN (d : Nat) (a b : Reg) : Statement (.maxN d a b) := fun _ => rfl
theorem maxNK (d : Nat) (a : Reg) (lit : Word) : Statement (.maxNK d a lit) := fun _ => rfl
theorem and (d : Nat) (a b : Reg) : Statement (.and d a b) := fun _ => rfl
theorem andK (d : Nat) (a : Reg) (lit : Word) : Statement (.andK d a lit) := fun _ => rfl
theorem or (d : Nat) (a b : Reg) : Statement (.or d a b) := fun _ => rfl
theorem orK (d : Nat) (a : Reg) (lit : Word) : Statement (.orK d a lit) := fun _ => rfl
theorem xor (d : Nat) (a b : Reg) : Statement (.xor d a b) := fun _ => rfl
theorem xorK (d : Nat) (a : Reg) (lit : Word) : Statement (.xorK d a lit) := fun _ => rfl
theorem andn (d : Nat) (a b : Reg) : Statement (.andn d a b) := fun _ => rfl
theorem andnK (d : Nat) (a : Reg) (lit : Word) : Statement (.andnK d a lit) := fun _ => rfl
theorem shl (d : Nat) (a b : Reg) : Statement (.shl d a b) := fun _ => rfl
theorem shlK (d : Nat) (a : Reg) (lit : Word) : Statement (.shlK d a lit) := fun _ => rfl
theorem shr (d : Nat) (a b : Reg) : Statement (.shr d a b) := fun _ => rfl
theorem shrK (d : Nat) (a : Reg) (lit : Word) : Statement (.shrK d a lit) := fun _ => rfl
theorem sra (d : Nat) (a b : Reg) : Statement (.sra d a b) := fun _ => rfl
theorem sraK (d : Nat) (a : Reg) (lit : Word) : Statement (.sraK d a lit) := fun _ => rfl
theorem mov (d : Nat) (b : Reg) : Statement (.mov d b) := fun _ => rfl
theorem movK (d : Nat) (lit : Word) : Statement (.movK d lit) := fun _ => rfl
theorem mad (d : Nat) (a b c : Reg) (p : Pred) : Statement (.mad d a b c p) := fun _ => rfl
theorem bitop (op : BitOp) (d : Nat) (p : Pred) : Statement (.bitop op d p) := fun _ => rfl
theorem idiv (op : DivOp) (d : Nat) (a b : Reg) (p : Pred) : Statement (.idiv op d a b p) := fun _ => rfl
theorem addr (op : AddrOp) (d : Nat) (p : Pred) : Statement (.addr op d p) := fun _ => rfl
theorem cmp (c : CmpKind) (d : BitVec 3) (p : Pred) : Statement (.cmp c d p) := fun _ => by cases c <;> rfl
theorem sel (d : Nat) (a b : Reg) (c : BitVec 3) (p : Pred) : Statement (.sel d a b c p) := fun _ => rfl
theorem fadd (rm : Rm) (d : Nat) (a b : Reg) (p : Pred) : Statement (.fadd rm d a b p) := fun _ => rfl
theorem fsub (rm : Rm) (d : Nat) (a b : Reg) (p : Pred) : Statement (.fsub rm d a b p) := fun _ => rfl
theorem fmul (rm : Rm) (d : Nat) (a b : Reg) (p : Pred) : Statement (.fmul rm d a b p) := fun _ => rfl
theorem ffma (rm : Rm) (d : Nat) (a b c : Reg) (p : Pred) : Statement (.ffma rm d a b c p) := fun _ => rfl
theorem fmin (d : Nat) (a b : Reg) (p : Pred) : Statement (.fmin d a b p) := fun _ => rfl
theorem fmax (d : Nat) (a b : Reg) (p : Pred) : Statement (.fmax d a b p) := fun _ => rfl
theorem fcmp (c : FCmpKind) (d : BitVec 3) (p : Pred) : Statement (.fcmp c d p) := fun _ => by cases c <;> rfl
theorem mufu (op : MufuOp) (d : Nat) (a : Reg) (p : Pred) : Statement (.mufu op d a p) := fun _ => rfl
theorem hf2 (op : HfOp) (ty : HfType) (d : Nat) (p : Pred) : Statement (.hf2 op ty d p) := fun _ => rfl
theorem cvt (op : CvtOp) (rm : Rm) (inf : Bool) (d : Nat) (a : Reg) (p : Pred) : Statement (.cvt op rm inf d a p) := fun _ => rfl
theorem dot4 (op : DotOp) (sat : Bool) (d : Nat) (a b c : Reg) (p : Pred) : Statement (.dot4 op sat d a b c p) := fun _ => rfl
theorem ld (m : MemX) (d : Nat) (a b : Reg) : Statement (.ld m d a b) := fun _ => rfl
theorem st (m : MemX) (d a b : Reg) : Statement (.st m d a b) := fun _ => rfl
theorem ldl (m : MemX) (d : Nat) (a b : Reg) : Statement (.ldl m d a b) := fun _ => rfl
theorem stl (m : MemX) (d a b : Reg) : Statement (.stl m d a b) := fun _ => rfl
theorem atom (x : AtomX) (d : Nat) (a b c : Reg) : Statement (.atom x d a b c) := fun _ => rfl
theorem red (x : AtomX) (d a : Reg) : Statement (.red x d a) := fun _ => rfl
theorem mpush (slot : BitVec 3) (quarter : BitVec 2) (d a c : Reg) (p : Pred) : Statement (.mpush slot quarter d a c p) := fun _ => rfl
theorem mpull (d : Nat) (a : BitVec 5) (off row : BitVec 4) (cb : BitVec 2) (p : Pred) : Statement (.mpull d a off row cb p) := fun _ => rfl
theorem qpush (q : BitVec 3) (d : Reg) (p : Pred) : Statement (.qpush q d p) := fun _ => rfl
theorem qpop (q : BitVec 3) (d : Nat) (p : Pred) : Statement (.qpop q d p) := fun _ => rfl
theorem txbInit (a b : Reg) (p : Pred) : Statement (.txbInit a b p) := fun _ => rfl
theorem txbArrive (a : Reg) (p : Pred) : Statement (.txbArrive a p) := fun _ => rfl
theorem txbExpect (a b : Reg) (p : Pred) : Statement (.txbExpect a b p) := fun _ => rfl
theorem txbArrivex (a b : Reg) (p : Pred) : Statement (.txbArrivex a b p) := fun _ => rfl
theorem txbWait (a b : Reg) (p : Pred) : Statement (.txbWait a b p) := fun _ => rfl
theorem txbTest (d : BitVec 3) (a b : Reg) (p : Pred) : Statement (.txbTest d a b p) := fun _ => rfl
theorem barArrive (b : BitVec 4) (p : Pred) : Statement (.barArrive b p) := fun _ => rfl
theorem barWait (b : BitVec 4) (p : Pred) : Statement (.barWait b p) := fun _ => rfl
theorem barSync (b : BitVec 4) (p : Pred) : Statement (.barSync b p) := fun _ => rfl
theorem barDrop (b : BitVec 4) (p : Pred) : Statement (.barDrop b p) := fun _ => rfl
theorem barCount (d : Nat) (b : BitVec 4) (p : Pred) : Statement (.barCount d b p) := fun _ => rfl
theorem fenceAcq (sc : Scope) (p : Pred) : Statement (.fenceAcq sc p) := fun _ => rfl
theorem fenceRel (sc : Scope) (p : Pred) : Statement (.fenceRel sc p) := fun _ => rfl
theorem fenceSc (sc : Scope) (p : Pred) : Statement (.fenceSc sc p) := fun _ => rfl
theorem fenceLight (sc : Scope) (p : Pred) : Statement (.fenceLight sc p) := fun _ => rfl
theorem fenceHeavy (sc : Scope) (p : Pred) : Statement (.fenceHeavy sc p) := fun _ => rfl
theorem bra (disp : BitVec 24) (p : Pred) : Statement (.bra disp p) := fun _ => rfl
theorem call (disp : BitVec 24) (p : Pred) : Statement (.call disp p) := fun _ => rfl
theorem brx (a : Reg) (p : Pred) : Statement (.brx a p) := fun _ => rfl
theorem ret (a : Reg) (p : Pred) : Statement (.ret a p) := fun _ => rfl
theorem exit (p : Pred) : Statement (.exit p) := fun _ => rfl
theorem shfl (op : ShflOp) (d : Nat) (a b : Reg) (c : BitVec 5) (p : Pred) : Statement (.shfl op d a b c p) := fun _ => rfl
theorem vote (op : VoteOp) (a : BitVec 3) (c : BitVec 5) (p : Pred) : Statement (.vote op a c p) := fun _ => by cases op <;> rfl
theorem sreg (d : Nat) (n : SReg) : Statement (.sreg d n) := fun _ => rfl
theorem brk (code : BitVec 7) (p : Pred) : Statement (.brk code p) := fun _ => rfl
theorem waitv (cond : WaitCond) (sc : Scope) (acq : Bool) (d : Nat) (a b c : Reg) (p : Pred) : Statement (.waitv cond sc acq d a b c p) := fun _ => rfl
theorem nop (x : BitVec 24) : Statement (.nop x) := fun _ => rfl
theorem nopTwoWord (x : BitVec 24) (w : Word) : Statement (.nopTwoWord x w) := fun _ => rfl
theorem hint (x : BitVec 24) : Statement (.hint x) := fun _ => rfl
theorem hintTwoWord (x : BitVec 24) (w : Word) : Statement (.hintTwoWord x w) := fun _ => rfl
theorem unop (x : BitVec 24) : Statement (.unop x) := fun _ => rfl
theorem unopTwoWord (x : BitVec 24) (w : Word) : Statement (.unopTwoWord x w) := fun _ => rfl
theorem uhint (x : BitVec 24) : Statement (.uhint x) := fun _ => rfl
theorem uhintTwoWord (x : BitVec 24) (w : Word) : Statement (.uhintTwoWord x w) := fun _ => rfl
theorem uadd (d a b : BitVec 5) (imm : BitVec 9) : Statement (.uadd d a b imm) := fun _ => rfl
theorem uaddK (d a : BitVec 5) (lit : Word) : Statement (.uaddK d a lit) := fun _ => rfl
theorem usub (d a b : BitVec 5) (imm : BitVec 9) : Statement (.usub d a b imm) := fun _ => rfl
theorem usubK (d a : BitVec 5) (lit : Word) : Statement (.usubK d a lit) := fun _ => rfl
theorem umul (d a b : BitVec 5) (imm : BitVec 9) : Statement (.umul d a b imm) := fun _ => rfl
theorem umulK (d a : BitVec 5) (lit : Word) : Statement (.umulK d a lit) := fun _ => rfl
theorem uand (d a b : BitVec 5) (imm : BitVec 9) : Statement (.uand d a b imm) := fun _ => rfl
theorem uandK (d a : BitVec 5) (lit : Word) : Statement (.uandK d a lit) := fun _ => rfl
theorem uor (d a b : BitVec 5) (imm : BitVec 9) : Statement (.uor d a b imm) := fun _ => rfl
theorem uorK (d a : BitVec 5) (lit : Word) : Statement (.uorK d a lit) := fun _ => rfl
theorem uxor (d a b : BitVec 5) (imm : BitVec 9) : Statement (.uxor d a b imm) := fun _ => rfl
theorem uxorK (d a : BitVec 5) (lit : Word) : Statement (.uxorK d a lit) := fun _ => rfl
theorem ushl (d a b : BitVec 5) (imm : BitVec 9) : Statement (.ushl d a b imm) := fun _ => rfl
theorem ushlK (d a : BitVec 5) (lit : Word) : Statement (.ushlK d a lit) := fun _ => rfl
theorem ushr (d a b : BitVec 5) (imm : BitVec 9) : Statement (.ushr d a b imm) := fun _ => rfl
theorem ushrK (d a : BitVec 5) (lit : Word) : Statement (.ushrK d a lit) := fun _ => rfl
theorem usra (d a b : BitVec 5) (imm : BitVec 9) : Statement (.usra d a b imm) := fun _ => rfl
theorem usraK (d a : BitVec 5) (lit : Word) : Statement (.usraK d a lit) := fun _ => rfl
theorem umov (d b : BitVec 5) (imm : BitVec 9) : Statement (.umov d b imm) := fun _ => rfl
theorem umovK (d : BitVec 5) (lit : Word) : Statement (.umovK d lit) := fun _ => rfl
theorem ubra (c : UCond) (a : BitVec 5) (disp : BitVec 22) : Statement (.ubra c a disp) := fun _ => rfl
theorem ucall (c : UCond) (d a : BitVec 5) (disp : BitVec 22) : Statement (.ucall c d a disp) := fun _ => rfl
theorem uret (a : BitVec 5) : Statement (.uret a) := fun _ => rfl
theorem uld (m : UMemX) (d a : BitVec 5) : Statement (.uld m d a) := fun _ => rfl
theorem ust (m : UMemX) (d a : BitVec 5) : Statement (.ust m d a) := fun _ => rfl
theorem urd (d a : BitVec 5) (v : Nat) (imm : BitVec 9) : Statement (.urd d a v imm) := fun _ => rfl
theorem usreg (d : BitVec 5) (n : SReg) : Statement (.usreg d n) := fun _ => rfl
theorem fork (mdisp : BitVec 22) (cdisp : BitVec 24) : Statement (.fork mdisp cdisp) := fun _ => rfl
theorem rdv : Statement (.rdv) := fun _ => rfl
theorem regq (d : BitVec 5) (rd : Bool) (n : BitVec 5) : Statement (.regq d rd n) := fun _ => rfl
theorem rotreq : Statement (.rotreq) := fun _ => rfl
theorem yield : Statement (.yield) := fun _ => rfl
theorem ubarInit (b : BitVec 4) (count : BitVec 12) : Statement (.ubarInit b count) := fun _ => rfl
theorem ubarArrive (b : BitVec 4) : Statement (.ubarArrive b) := fun _ => rfl
theorem ubarWait (b : BitVec 4) : Statement (.ubarWait b) := fun _ => rfl
theorem ubarSync (b : BitVec 4) : Statement (.ubarSync b) := fun _ => rfl
theorem ubarDrop (b : BitVec 4) : Statement (.ubarDrop b) := fun _ => rfl
theorem utxbInit (a b : BitVec 5) (off : BitVec 22) : Statement (.utxbInit a b off) := fun _ => rfl
theorem utxbArrive (a : BitVec 5) (off : BitVec 22) : Statement (.utxbArrive a off) := fun _ => rfl
theorem utxbExpect (a b : BitVec 5) (off : BitVec 22) : Statement (.utxbExpect a b off) := fun _ => rfl
theorem utxbWait (a b : BitVec 5) (off : BitVec 22) : Statement (.utxbWait a b off) := fun _ => rfl
theorem wmodeComp (w : BitVec 2) (n : BitVec 3) (bin1 keep : Bool) : Statement (.wmodeComp w n bin1 keep) := fun _ => rfl
theorem wmodeStore (w : BitVec 2) : Statement (.wmodeStore w) := fun _ => rfl
theorem wmodeSwitchPoint (p : PartyRef) : Statement (.wmodeSwitchPoint p) := fun h => by cases h
theorem weaveSwitchEnd (team : Nat) (w : BitVec 2) : Statement (.weaveSwitchEnd team w) := fun h => by cases h
theorem tdesc (h : BitVec 4) (a : BitVec 5) (off : BitVec 22) : Statement (.tdesc h a off) := fun _ => rfl
theorem accalloc (d : BitVec 5) (n : BitVec 5) : Statement (.accalloc d n) := fun _ => rfl
theorem accfree (a : BitVec 5) (off : BitVec 4) (n : BitVec 5) : Statement (.accfree a off n) := fun _ => rfl
theorem launch (d a : BitVec 5) (q : BitVec 8) (off : BitVec 22) : Statement (.launch d a q off) := fun _ => rfl
theorem ufenceAcq (sc : Scope) : Statement (.ufenceAcq sc) := fun _ => rfl
theorem ufenceRel (sc : Scope) : Statement (.ufenceRel sc) := fun _ => rfl
theorem ufenceSc (sc : Scope) : Statement (.ufenceSc sc) := fun _ => rfl
theorem ufenceLight (sc : Scope) : Statement (.ufenceLight sc) := fun _ => rfl
theorem ufenceHeavy (sc : Scope) : Statement (.ufenceHeavy sc) := fun _ => rfl
theorem ufenceWait (d a : BitVec 5) : Statement (.ufenceWait d a) := fun _ => rfl
theorem tret : Statement (.tret) := fun _ => rfl
theorem tkill (a : BitVec 5) : Statement (.tkill a) := fun _ => rfl
theorem tsusp : Statement (.tsusp) := fun _ => rfl
theorem mchainBegin : Statement (.mchainBegin) := fun _ => rfl
theorem mchainBeginOrdered : Statement (.mchainBeginOrdered) := fun _ => rfl
theorem mchainEnd : Statement (.mchainEnd) := fun _ => rfl
theorem mwait : Statement (.mwait) := fun _ => rfl
theorem marrive (b : BitVec 4) : Statement (.marrive b) := fun _ => rfl
theorem mend : Statement (.mend) := fun _ => rfl
theorem mma (x : MmaX) (a : BitVec 5) : Statement (.mma x a) := fun _ => rfl
theorem mmaExecution (team id : Nat) : Statement (.mmaExecution team id) := fun h => by cases h
theorem mmaCompletion (team id : Nat) : Statement (.mmaCompletion team id) := fun h => by cases h
theorem accz (a : BitVec 5) (off : BitVec 4) (n : BitVec 5) : Statement (.accz a off n) := fun _ => rfl
theorem accsc (a : BitVec 5) (off : BitVec 4) (n b : BitVec 5) (imm : BitVec 22) : Statement (.accsc a off n b imm) := fun _ => rfl
theorem wload (h : BitVec 4) (w : BitVec 2) (g0 : BitVec 5) (c0 : BitVec 10) : Statement (.wload h w g0 c0) := fun _ => rfl
theorem wloadCompletion (team id : Nat) : Statement (.wloadCompletion team id) := fun h => by cases h
theorem deferredTrap (team id : Nat) : Statement (.deferredTrap team id) := fun h => by cases h
theorem marriveArrival (team id : Nat) : Statement (.marriveArrival team id) := fun h => by cases h
theorem mwaitComplete (team : Nat) : Statement (.mwaitComplete team) := fun h => by cases h
theorem mendComplete (team : Nat) : Statement (.mendComplete team) := fun h => by cases h
theorem bcopy (x : CopyX) (d a b : BitVec 5) : Statement (.bcopy x d a b) := fun _ => rfl
theorem bcopyr (x : CopyX) (d a : BitVec 5) (h : BitVec 4) : Statement (.bcopyr x d a h) := fun _ => rfl
theorem bcopymc (x : CopyX) (d a b : BitVec 5) (len : BitVec 9) : Statement (.bcopymc x d a b len) := fun _ => rfl
theorem gather (x : CopyX) (d a b : BitVec 5) (trap : Bool) : Statement (.gather x d a b trap) := fun _ => rfl
theorem scatter (x : CopyX) (d a b : BitVec 5) (trap : Bool) : Statement (.scatter x d a b trap) := fun _ => rfl
theorem cpref (d b : BitVec 5) : Statement (.cpref d b) := fun _ => rfl
theorem copySectorWrite (team id sector : Nat) : Statement (.copySectorWrite team id sector) := fun h => by cases h
theorem copyCompletion (team id : Nat) : Statement (.copyCompletion team id) := fun h => by cases h
theorem cwait : Statement (.cwait) := fun _ => rfl
theorem carrive (b : BitVec 4) : Statement (.carrive b) := fun _ => rfl
theorem cend : Statement (.cend) := fun _ => rfl
theorem carriveArrival (team id : Nat) : Statement (.carriveArrival team id) := fun h => by cases h
theorem cwaitComplete (team : Nat) : Statement (.cwaitComplete team) := fun h => by cases h
theorem cendComplete (team : Nat) : Statement (.cendComplete team) := fun h => by cases h
theorem send (x : CopyX) (tracked : Bool) (d a b : BitVec 5) : Statement (.send x tracked d a b) := fun _ => rfl
theorem coll (x : CopyX) (op : CollOp) (ty : CollType) (rd : CollRed) (a : BitVec 5) : Statement (.coll x op ty rd a) := fun _ => rfl
theorem undefinedOpcode (w : Word) : Statement (.undefinedOpcode w) := fun _ => rfl
theorem qpushResume (p : PartyRef) : Statement (.qpushResume p) := fun h => by cases h
theorem qpopResume (p : PartyRef) : Statement (.qpopResume p) := fun h => by cases h
theorem mpushResume (p : PartyRef) : Statement (.mpushResume p) := fun h => by cases h
theorem accallocResume (p : PartyRef) : Statement (.accallocResume p) := fun h => by cases h
theorem accfreeResume (p : PartyRef) : Statement (.accfreeResume p) := fun h => by cases h
theorem barWaitComplete (p : PartyRef) : Statement (.barWaitComplete p) := fun h => by cases h
theorem txbWaitComplete (p : PartyRef) : Statement (.txbWaitComplete p) := fun h => by cases h
theorem rdvComplete (p : PartyRef) : Statement (.rdvComplete p) := fun h => by cases h
theorem ufenceWaitComplete (p : PartyRef) : Statement (.ufenceWaitComplete p) := fun h => by cases h
theorem waitvSatisfied (p : PartyRef) (lane : Nat) : Statement (.waitvSatisfied p lane) := fun h => by cases h
theorem waitvTimeout (p : PartyRef) (lane : Nat) : Statement (.waitvTimeout p lane) := fun h => by cases h
theorem convto (p : PartyRef) : Statement (.convto p) := fun h => by cases h
theorem watchdog (team : Nat) : Statement (.watchdog team) := fun h => by cases h
theorem loadValueArrival (p : PartyRef) : Statement (.loadValueArrival p) := fun h => by cases h
theorem flexUnitGrant (p : PartyRef) : Statement (.flexUnitGrant p) := fun h => by cases h
theorem stageLevelUpdate (team : Nat) : Statement (.stageLevelUpdate team) := fun h => by cases h
theorem faultBatchClose (device : Nat) : Statement (.faultBatchClose device) := fun h => by cases h
theorem contextSave (team : Nat) (area : Nat) : Statement (.contextSave team area) := fun h => by cases h
theorem restore (team : Nat) (tile : Nat) : Statement (.restore team tile) := fun h => by cases h
theorem rotationConsideration (cluster : Nat) (pairs : List (Nat × Nat)) : Statement (.rotationConsideration cluster pairs) := fun h => by cases h
theorem dispatchExamination (cluster : Nat) : Statement (.dispatchExamination cluster) := fun h => by cases h
theorem teamPlacement (grid : Nat) (places : List Place) : Statement (.teamPlacement grid places) := fun h => by cases h
theorem launchRecordTake (q : Nat) : Statement (.launchRecordTake q) := fun h => by cases h
theorem gridDispatch (device : Nat) : Statement (.gridDispatch device) := fun h => by cases h
theorem gridCompletion (grid : Nat) : Statement (.gridCompletion grid) := fun h => by cases h
theorem queueTailWrite (blk : QueueBlock) (tail : Word) : Statement (.queueTailWrite blk tail) := fun h => by cases h
theorem registerWrite (blk : QueueBlock) (reg : QueueReg) (val : DWord) : Statement (.registerWrite blk reg val) := fun h => by cases h
theorem createContext (desc : Nat) : Statement (.createContext desc) := fun h => by cases h
theorem destroyContext (tag : Nat) : Statement (.destroyContext tag) := fun h => by cases h
theorem assignQueue (tag q : Nat) : Statement (.assignQueue tag q) := fun h => by cases h
theorem invalidateTranslations (tag start pages : Nat) : Statement (.invalidateTranslations tag start pages) := fun h => by cases h
theorem resolveRange (batch start pages : Nat) (ok : Bool) : Statement (.resolveRange batch start pages ok) := fun h => by cases h
theorem retireUnit (u : Unit24) : Statement (.retireUnit u) := fun h => by cases h
theorem setPeerWindow (tag window package : Nat) (turn : DWord) (base : Nat) : Statement (.setPeerWindow tag window package turn base) := fun h => by cases h
theorem registerCommunicator (tag number : Nat) (members : List Member) : Statement (.registerCommunicator tag number members) := fun h => by cases h
theorem resumeGroup (tag cluster slot : Nat) (party : Party) : Statement (.resumeGroup tag cluster slot party) := fun h => by cases h
theorem endGrid (tag cluster slot : Nat) (status : Word) : Statement (.endGrid tag cluster slot status) := fun h => by cases h
theorem adminUndefined : Statement (.adminUndefined) := fun h => by cases h
theorem readShared (home : HomeDir) (line : Nat) (a : Sender) : Statement (.readShared home line a) := fun h => by cases h
theorem readOwn (home : HomeDir) (line : Nat) (a : Sender) (write : Bool) : Statement (.readOwn home line a write) := fun h => by cases h
theorem dirtyWriteBack (home : HomeDir) (line : Nat) (a : Sender) : Statement (.dirtyWriteBack home line a) := fun h => by cases h
theorem cleanEvictionNotice (home : HomeDir) (line : Nat) (a : Sender) : Statement (.cleanEvictionNotice home line a) := fun h => by cases h
theorem snoop (home : HomeDir) (line : Nat) (a : CacheAgent) : Statement (.snoop home line a) := fun h => by cases h
theorem snoopAnswer (home : HomeDir) (line : Nat) (a : Sender) : Statement (.snoopAnswer home line a) := fun h => by cases h
theorem leaseEnd (line core : Nat) : Statement (.leaseEnd line core) := fun h => by cases h
theorem leaseReclaim (line core : Nat) : Statement (.leaseReclaim line core) := fun h => by cases h
theorem timingMessage (die : Nat) (offset : Option Int) : Statement (.timingMessage die offset) := fun h => by cases h
theorem agentRejoin (a : CacheAgent) : Statement (.agentRejoin a) := fun h => by cases h
theorem pageWalk (cluster : Nat) : Statement (.pageWalk cluster) := fun h => by cases h
theorem bloomFilterSwap (slice : Nat) : Statement (.bloomFilterSwap slice) := fun h => by cases h
theorem refresh (channel : Nat) (computeBound : Bool) : Statement (.refresh channel computeBound) := fun h => by cases h
theorem railControl (die : Nat) (x : RailReading) : Statement (.railControl die x) := fun h => by cases h
theorem controlRampStep (cluster slice : Nat) (c : SliceControl) (target : Nat) : Statement (.controlRampStep cluster slice c target) := fun h => by cases h
theorem thermalEmergency (cluster slice : Nat) : Statement (.thermalEmergency cluster slice) := fun h => by cases h
theorem energyUpdate (grid : Nat) : Statement (.energyUpdate grid) := fun h => by cases h
theorem dieGate (die : Nat) : Statement (.dieGate die) := fun h => by cases h
theorem memoryDieGate (mdie : Nat) : Statement (.memoryDieGate mdie) := fun h => by cases h
theorem linkIdle (link : Nat) : Statement (.linkIdle link) := fun h => by cases h
theorem linkwake (link : Nat) : Statement (.linkwake link) := fun h => by cases h
theorem diedead (die : Nat) : Statement (.diedead die) := fun h => by cases h
theorem evictionUncorr (x : EvictedLine) (tag : Nat) : Statement (.evictionUncorr x tag) := fun h => by cases h
theorem relocationUncorr (cluster : Nat) : Statement (.relocationUncorr cluster) := fun h => by cases h
theorem memoryIslandFailure (mdie : Nat) : Statement (.memoryIslandFailure mdie) := fun h => by cases h
theorem frameReceive (f : Frame) : Statement (.frameReceive f) := fun h => by cases h
theorem sendAck (team id frame : Nat) (ok : Bool) : Statement (.sendAck team id frame ok) := fun h => by cases h
theorem trackedSendTimeout (team id frame : Nat) : Statement (.trackedSendTimeout team id frame) := fun h => by cases h
theorem collCompletion (team id : Nat) (others : List Contribution) : Statement (.collCompletion team id others) := fun h => by cases h
theorem collTimeout (team id : Nat) : Statement (.collTimeout team id) := fun h => by cases h
theorem hostApertureRead (x : HostAccess) (n : Nat) : Statement (.hostApertureRead x n) := fun h => by cases h
theorem hostApertureWrite (x : HostAccess) (bytes : List Byte) : Statement (.hostApertureWrite x bytes) := fun h => by cases h
theorem hostAtomicop (x : HostAccess) (op : HostAtomic) : Statement (.hostAtomicop x op) := fun h => by cases h
theorem packageReset (image : List Byte) (valid : Bool) : Statement (.packageReset image valid) := fun h => by cases h
theorem recoveryImageWrite (image : List Byte) (valid : Bool) : Statement (.recoveryImageWrite image valid) := fun h => by cases h
theorem attestationRequest : Statement (.attestationRequest) := fun h => by cases h
theorem blackBoxRead (i : Nat) : Statement (.blackBoxRead i) := fun h => by cases h
theorem accscStart (team id : Nat) : Statement (.accscStart team id) := fun h => by cases h
theorem storePerformed (p : PartyRef) : Statement (.storePerformed p) := fun h => by cases h
theorem softError (site : SoftSite) : Statement (.softError site) := fun h => by cases h
theorem powerCapSet (cap ramp : Nat) : Statement (.powerCapSet cap ramp) := fun h => by cases h
theorem clusterReset (cluster : Nat) : Statement (.clusterReset cluster) := fun h => by cases h
theorem regenerationComplete (image : ImageRef) : Statement (.regenerationComplete image) := fun h => by cases h
theorem linkWakeComplete (link : Nat) : Statement (.linkWakeComplete link) := fun h => by cases h
theorem dieWakeComplete (die : Nat) : Statement (.dieWakeComplete die) := fun h => by cases h
theorem sendFrameAccepted (team id frame : Nat) : Statement (.sendFrameAccepted team id frame) := fun h => by cases h

end Sys2Proof.Laws.Encoding
end

