-- ==== Sys2Proof/Tests/Slice0.lean ====
section
/-!
SUPPORT. Tests. Expected words and results come from the spec's own encodings, tables and worked examples, as each comment says.
Then one witness for every statement with hypotheses: a concrete state and operands that meet them.
-/

namespace Sys2Proof.Tests

open Sys2Proof Sys2Proof.Machine

/-! ### Words: the decoder reads each word worked out in the spec, and the encoder gives it back -/

def k0 : Pred := ⟨false, 0⟩

/-- First word, second word, instruction. -/
abbrev Row := Nat × Option Nat × Instr

def agrees (r : Row) : Bool := decide ((decode r.1 (r.2.1.getD 0)).toOption = some r.2.2) && decide (encode r.2.2 = some ⟨r.1, r.2.1⟩)

/-- Chapters 01, 02 and 05. -/
def laneArithmetic : List Row :=
  [(0x0101_0200, none, .add 1 (.v 2) (.v 0)), (0x4101_0200, some 7, .addK 1 (.v 2) 7), (0x4201_0100, some 1, .subK 1 (.v 1) 1),
   (0x0504_0506, none, .mulhiN 4 (.v 5) (.v 6)), (0x4F01_0200, some 3, .shlK 1 (.v 2) 3), (0x1701_0002, none, .mov 1 (.v 2)),
   (0x5701_0000, some 0x1234, .movK 1 0x1234), (0x4601_0203, some 0x0001_0000, .mad 1 (.v 2) (.v 3) (.v 4) k0),
   (0x5201_0203, some 0x01C1_00F8, .bitop (.lop3 (.v 2) (.v 3) (.v 4) 0xF8) 1 k0),
   (0x5307_0809, some 0x0040_0000, .idiv .divN 7 (.v 8) (.v 9) k0),
   (0x540A_0203, some 0x0103_0000, .addr (.madwI (.v 2) (.v 3) (.v 12)) 10 k0),
   (0x5401_0203, some 0x0080_0004, .addr (.lea (.v 2) (.v 3) 4) 1 k0), (0x5501_01E0, some 0x0040_0000, .cmp (.cmp .ne (.v 1) (.s 0)) 1 k0),
   (0x5601_0203, some 0x0000_8000, .sel 1 (.v 2) (.v 3) 2 k0), (0x6201_0203, some 0x0001_0001, .dot4 .ii true 1 (.v 2) (.v 3) (.v 4) k0)]

/-- Chapters 02 and 05. -/
def laneFloat : List Row :=
  [(0x5805_0102, some 1, .fadd .rz 5 (.v 1) (.v 2) k0), (0x5B0A_0203, some 0x0001_0003, .ffma .rd 10 (.v 2) (.v 3) (.v 4) k0),
   (0x5E01_0200, some 0x0200_0207, .fcmp (.cls (.v 2) 0x207) 1 k0), (0x5E03_0405, some 0x0080_0000, .fcmp (.cmp .lt (.v 4) (.v 5)) 3 k0),
   (0x5F03_0400, some 0x0040_0000, .mufu .rsq 3 (.v 4) k0),
   (0x6001_0203, some 0x0081_0005, .hf2 (.fma .ru (.v 2) (.v 3) (.v 4)) .bf16 1 k0),
   (0x6105_0600, some 0x0140_0001, .cvt .h16f32 .rz false 5 (.v 6) k0), (0x6105_0600, some 0x0140_0005, .cvt .h16f32 .rz true 5 (.v 6) k0)]

/-- Chapters 02 and 03. -/
def laneControl : List Row :=
  [(0x70FF_FFFA, some 0xB000_0000, .bra (-6) ⟨true, 3⟩), (0x70FF_FFFC, some 0x1000_0000, .bra (-4) ⟨false, 1⟩),
   (0x7200_000A, some 0, .call 10 k0), (0x7100_0400, some 0, .brx (.v 4) k0), (0x7300_0000, some 0, .ret (.v 0) k0),
   (0x7400_0000, some 0, .exit k0), (0x7503_02E1, some 0x00F8_0000, .shfl .xor 3 (.v 2) (.s 1) 0 k0),
   (0x7609_0300, some 0x00F9_0000, .vote (.ballot 9) 3 4 k0), (0x3706_0D00, none, .sreg 6 .clk), (0x3700_0000, none, .sreg 0 .lane),
   (0x7800_0005, some 0, .brk 5 k0), (0x7905_E206, some 0x0038_C031, .waitv .ne .wide true 5 (.s 2) (.v 6) (.s 3) k0),
   (0, none, .nop 0), (0xFF12_3456, some 0xDEAD_BEEF, .uhintTwoWord 0x123456 0xDEADBEEF)]

/-- Chapters 01, 06, 07, 09 and 10. -/
def laneMemory : List Row :=
  [(0x6304_E206, some 0x04C0_0000, .ld ⟨k0, .b32, .glob, .selfinv, .plain, .team, 0, false, 0⟩ 4 (.s 2) (.v 6)),
   (0x6404_E2E0, some 0x06B4_0008, .st ⟨k0, .b64, .glob, .wt, .ar, .wide, 0, false, 8⟩ (.v 4) (.s 2) (.s 0)),
   (0x6501_E203, some 0x0914_0804, .atom ⟨k0, .cas, false, .ar, .wide, 4⟩ 1 (.s 2) (.v 3) (.v 4)),
   (0x6605_E200, some 0x0002_0000, .red ⟨k0, .add, false, .plain, .cluster, 0⟩ (.v 5) (.s 2)),
   (0x6904_0500, some 0x0001_800A, .mpush 2 1 (.v 4) (.v 5) (.v 6) k0), (0x6A08_E400, some 0x0000_0251, .mpull 8 4 1 5 2 k0),
   (0x6B07_0000, some 2, .qpush 2 (.v 7) k0), (0x6C09_0000, some 2, .qpop 2 9 k0),
   (0x6D00_E506, some 0, .txbInit (.s 5) (.v 6) k0), (0x6D00_E500, some 0x0040_0000, .txbArrive (.s 5) k0),
   (0x6D00_E506, some 0x0080_0000, .txbExpect (.s 5) (.v 6) k0), (0x6D00_E506, some 0x00C0_0000, .txbArrivex (.s 5) (.v 6) k0),
   (0x6D00_E507, some 0x0100_0000, .txbWait (.s 5) (.v 7) k0), (0x6D01_E507, some 0x0140_0000, .txbTest 1 (.s 5) (.v 7) k0),
   (0x6E00_0000, some 0x0000_0003, .barArrive 3 k0), (0x6E00_0000, some 0x0040_0003, .barWait 3 k0),
   (0x6E00_0000, some 0x0080_0003, .barSync 3 k0), (0x6E00_0000, some 0x00C0_0003, .barDrop 3 k0),
   (0x6E04_0000, some 0x0100_0003, .barCount 4 3 k0), (0x6E09_0000, some 0x3100_0001, .barCount 9 1 ⟨false, 3⟩),
   (0x6F00_0000, some 0x0040_0002, .fenceRel .wide k0), (0x6F00_0000, some 0x0100_0001, .fenceHeavy .cluster k0)]

/-- Chapters 02, 06, 08 to 11, 23. -/
def uniform : List Row :=
  [(0x8118_4400, none, .uadd 3 1 2 0), (0x8118_4005, none, .uadd 3 1 0 5), (0xC118_4000, some 1000, .uaddK 3 1 1000),
   (0x8A20_0064, none, .umov 4 0 100), (0xCB01_4002, some 0x003F_FFFC, .ubra .nz 5 (-4)), (0xCC10_0000, some 0xC, .ucall .al 2 0 12),
   (0x8D00_8000, none, .uret 2), (0xCE20_800B, some 0x0080_0010, .uld ⟨.selfinv, .b64, .glob, .plain, .team, 16⟩ 4 2),
   (0xD020_0005, some 3, .urd 4 0 3 5), (0x9130_0009, none, .usreg 6 .slot), (0xD200_0040, some 0x28, .fork 40 64),
   (0xD200_0000, some 0x0040_0000, .rdv), (0xD228_0003, some 0x0080_0000, .regq 5 false 3), (0xD200_0000, some 0x00C0_0000, .rotreq),
   (0xD200_0000, some 0x0100_0000, .yield), (0xD300_0002, some 0x81, .ubarInit 2 129), (0xD300_0002, some 0x0040_0000, .ubarArrive 2),
   (0xD401_4C00, some 0x0080_0100, .utxbExpect 5 6 0x100), (0xD401_4000, some 0x0040_0100, .utxbArrive 5 0x100),
   (0x9500_003C, none, .wmodeComp 0 7 false false), (0x9500_009E, none, .wmodeComp 2 3 false true),
   (0x9500_0045, none, .wmodeComp 1 0 true false), (0x9500_0003, none, .wmodeStore 3), (0xD601_8003, some 0x20, .tdesc 3 6 32),
   (0x9720_0002, none, .accalloc 4 2), (0x9801_0020, none, .accfree 4 0 2), (0xD929_8003, some 0, .launch 5 6 3 0),
   (0x9A00_000C, none, .ufenceHeavy .cluster), (0x9A39_801D, none, .ufenceWait 7 6), (0xDB00_0000, some 0, .tret),
   (0xDB01_4000, some 0x0040_0000, .tkill 5), (0xDB00_0000, some 0x0080_0000, .tsusp)]

/-- Chapters 09, 10 and 24. -/
def streams : List Row :=
  [(0xE301_0010, some 0x3800, .mma ⟨1, 0, false, 0, 0, 7, 0, 0, 0⟩ 4), (0xE301_00F2, some 0x0020_1468, .mma ⟨0xF, 2, true, 0, 0, 2, 4, 3, 8⟩ 4),
   (0xE401_0020, some 0, .accz 4 0 2), (0xE501_0E20, some 0, .accsc 4 0 2 7 0), (0xE000_0000, some 0, .mchainBegin),
   (0xE000_0000, some 0x0040_0000, .mchainBeginOrdered), (0xE000_0000, some 0x0080_0000, .mchainEnd), (0xA100_0000, none, .mwait),
   (0xA200_0002, none, .marrive 2), (0xA800_0000, none, .mend), (0xE600_0013, some 4, .wload 3 1 4 0),
   (0xF039_4C00, some 0x0002_0010, .bcopy ⟨.selfinv, false, 0x10⟩ 7 5 6), (0xFA39_4003, some 0x0002_0010, .bcopyr ⟨.selfinv, false, 0x10⟩ 7 5 3),
   (0xF141_4C03, some 0x0002_0020, .bcopymc ⟨.selfinv, false, 0x20⟩ 8 5 6 3), (0xF241_4C00, some 0x0002_0010, .gather ⟨.selfinv, false, 0x10⟩ 8 5 6 false),
   (0xF341_8A00, some 0x0002_0010, .scatter ⟨.selfinv, false, 0x10⟩ 8 6 5 false), (0xF438_0C00, some 0, .cpref 7 6), (0xB500_0000, none, .cwait),
   (0xB600_0002, none, .carrive 2), (0xB900_0000, none, .cend), (0xF841_4C00, some 0x0006_0010, .send ⟨.selfinv, false, 0x10⟩ true 8 5 6),
   (0xF841_4C00, some 0x0002_0010, .send ⟨.selfinv, false, 0x10⟩ false 8 5 6),
   (0xF701_800C, some 0x0002_0010, .coll ⟨.selfinv, false, 0x10⟩ .allreduce .f32 .add 6)]

theorem test_words_lane_arithmetic : laneArithmetic.all agrees = true := by decide
theorem test_words_lane_float : laneFloat.all agrees = true := by decide
theorem test_words_lane_control : laneControl.all agrees = true := by decide
theorem test_words_lane_memory : laneMemory.all agrees = true := by decide
theorem test_words_uniform : uniform.all agrees = true := by decide
theorem test_words_streams : streams.all agrees = true := by decide

/-- Table 2.13 and R41: an undefined op, a second word where none may stand, and one missing. -/
theorem test_words_refused :
    decode 0x7A00_0000 0 = .ok (.undefinedOpcode 0x7A00_0000) ∧ decode 0xA700_0000 0 = .ok (.undefinedOpcode 0xA700_0000) ∧
      decode 0x4101_0201 7 = .error .wordClass ∧ decode 0x7700_0000 0 = .error .wordClass ∧ decode 0xA300_0000 0 = .error .wordClass :=
  ⟨rfl, rfl, rfl, rfl, rfl⟩

/-! ### Well-formedness: one ill-formed term for each check -/

/-- The checks of R32, R163, R164, R168, R170, R143, R146, R205, R212, R214, R222, R245, R378 and of Tables 2.2 to 2.12. -/
def illFormed : List Instr :=
  [.add 224 (.v 0) (.v 0), .add 0 (.v 224) (.v 0), .add 0 (.v 0) (.s 32), .addK 224 (.v 0) 1, .mov 224 (.v 0), .movK 224 0,
   .mad 0 (.v 0) (.v 0) (.v 224) k0, .bitop (.lop3 (.v 0) (.v 0) (.s 32) 0) 0 k0, .bitop (.popc (.v 0)) 224 k0,
   .addr (.add64 (.v 1) (.v 0)) 0 k0, .addr (.add64 (.v 0) (.v 0)) 1 k0, .addr (.madwI (.v 0) (.v 0) (.v 3)) 0 k0,
   .cmp (.cmp .eq (.v 224) (.v 0)) 1 k0, .fcmp (.cls (.v 224) 0) 1 k0, .hf2 (.add .rne (.v 0) (.v 224)) .h16 0 k0,
   .cvt .i8i32 .rz false 0 (.v 0) k0, .cvt .i8i32 .rne true 0 (.v 0) k0, .dot4 .ii false 0 (.v 0) (.v 0) (.v 224) k0,
   .ld ⟨k0, .b64, .glob, .own, .plain, .team, 0, false, 0⟩ 1 (.s 0) (.v 0), .ld ⟨k0, .b128, .glob, .own, .plain, .team, 0, false, 0⟩ 2 (.s 0) (.v 0),
   .ld ⟨k0, .b32, .glob, .own, .plain, .team, 0, false, 0⟩ 0 (.v 1) (.v 0), .ld ⟨k0, .b32, .glob, .own, .plain, .wide, 0, false, 0⟩ 0 (.s 0) (.v 0),
   .ld ⟨k0, .b32, .loc, .own, .mk, .wide, 0, false, 0⟩ 0 (.s 0) (.v 0), .ld ⟨k0, .b32, .priv, .own, .mk, .team, 0, false, 0⟩ 0 (.s 0) (.v 0),
   .ld ⟨k0, .b128, .glob, .own, .ar, .team, 0, false, 0⟩ 0 (.s 0) (.v 0), .st ⟨k0, .i8, .glob, .own, .plain, .team, 0, false, 0⟩ (.v 0) (.s 0) (.v 0),
   .st ⟨k0, .b128, .glob, .own, .plain, .team, 0, false, 0⟩ (.s 0) (.s 0) (.v 0),
   .atom ⟨k0, .fadd, true, .plain, .team, 0⟩ 0 (.s 0) (.v 0) (.v 0), .atom ⟨k0, .prog, false, .plain, .team, 0⟩ 0 (.s 0) (.v 0) (.v 0),
   .atom ⟨k0, .add, false, .plain, .team, 0⟩ 0 (.s 0) (.v 0) (.v 1), .atom ⟨k0, .add, true, .plain, .team, 0⟩ 1 (.s 0) (.v 0) (.v 0),
   .red ⟨k0, .exch, false, .plain, .team, 0⟩ (.v 0) (.s 0), .red ⟨k0, .cas, false, .plain, .team, 0⟩ (.v 0) (.s 0),
   .mpush 0 0 (.v 224) (.v 0) (.v 0) k0, .mpull 224 0 0 0 0 k0, .qpop 0 224 k0, .txbInit (.v 1) (.v 0) k0, .txbArrive (.v 1) k0,
   .barCount 224 0 k0, .brx (.v 1) k0, .shfl .idx 224 (.v 0) (.v 0) 0 k0, .vote (.ballot 224) 0 0 k0, .sreg 1 .clk, .sreg 224 .lane,
   .waitv .eq .team false 0 (.v 1) (.v 0) (.v 0) k0, .ubra .al 1 0, .ucall .al 0 1 0, .uld ⟨.own, .b128, .glob, .plain, .team, 0⟩ 0 0,
   .uld ⟨.own, .b32, .priv, .plain, .team, 0⟩ 0 0, .ust ⟨.own, .i8, .glob, .plain, .team, 0⟩ 0 0, .urd 0 0 224 0, .usreg 0 .lane,
   .regq 0 true 1, .ubarInit 0 0, .wmodeComp 0 1 true false, .accalloc 0 0, .accalloc 0 17, .accfree 0 0 0, .accz 0 0 17, .accsc 0 0 0 0 0,
   .mma ⟨0, 0, false, 0, 0, 0, 0, 0, 0⟩ 0, .mma ⟨1, 0, false, 0, 0, 0, 0, 1, 31⟩ 0, .mma ⟨1, 0, false, 0, 0, 4, 0, 0, 0⟩ 0,
   .mma ⟨1, 0, false, 9, 0, 0, 0, 0, 0⟩ 0, .bcopy ⟨.own, true, 1⟩ 0 0 0, .bcopymc ⟨.own, false, 0⟩ 30 0 0 0, .gather ⟨.own, false, 0⟩ 0 0 0 false,
   .send ⟨.own, false, 0⟩ false 31 0 0, .coll ⟨.own, false, 0⟩ .barrier .f32 .add 0, .coll ⟨.own, false, 0⟩ .bcast .i32 .min 0,
   .undefinedOpcode 0x0100_0000, .mwaitComplete 0]

theorem test_ill_formed_refused : illFormed.all (fun i => !i.wellFormed) = true := by decide

/-- The worked words above are well formed, so the limits shut out none of them. -/
theorem test_worked_words_well_formed :
    (laneArithmetic ++ laneFloat ++ laneControl ++ laneMemory ++ uniform ++ streams).all (fun r => r.2.2.wellFormed) = true := by decide

/-! ### A small machine: team 0 with group 0, whose lane 0 is live and issues; its streams run -/

/-- A page table of context 0: its page 0 lies at 0x80000 of device memory, readable, writable and executable (R339, Table 20.5). -/
def tables (m : List Host.Cell) : List Host.Cell :=
  writeBytes (writeBytes (writeBytes m 0x10000 (leBytes 8 0x20001)) 0x20000 (leBytes 8 0x30001)) 0x30000 (leBytes 8 0x8002F)

/-- Lanes of the execution set, v registers of lane 0, s registers of the group and of both streams. -/
def small (lanes : BitVec 32) (p : Party) (vs : List (Nat × Word)) (ss : List (Nat × DWord)) : State :=
  let s := State.reset.place 0
  let sm : Map (Tagged DWord) := ss.map fun e => (e.1, clear e.2)
  let st : Stream := { Stream.absent with s := sm, state := .running, pc := BitVec.ofNat 56 placedVa }
  { s.mapTeam 0 (fun x => { (x.setGroup 0 { x.group 0 with
      s := sm, lanes := Map.put (x.group 0).lanes 0 { (x.group 0).lane 0 with v := vs.map fun e => (e.1, clear e.2) } }) with
      matrix := st, copy := st }) with
    ctxs := [(0, { Context.absent with root := 0x10000 })]
    mem := tables s.mem
    cur := ⟨0, p, lanes, BitVec.ofNat 56 placedVa, 2, 0, 0⟩ }

/-- Lane 0 issues. -/
def unit (vs : List (Nat × Word)) (ss : List (Nat × DWord)) : State := small 1 (.group 0) vs ss

/-- A sequencer issues. -/
def stream (p : Party) (ss : List (Nat × DWord)) : State := small 1 p [] ss

def after (i : Instr) (s : State) : State :=
  match exec i s with
  | .next t => t
  | _ => State.reset

/-- A v register of lane 0 and the lane's flags, after an instruction. -/
def vOf (i : Instr) (d : Nat) (s : State) : Word × BitVec 8 :=
  let x := (after i s).curGroup.lane 0
  ((x.readV d).val, x.status)

/-- An s register after an instruction. -/
def sOf (i : Instr) (d : BitVec 5) (s : State) : DWord := ((after i s).readS d).val

/-- The code with which the group, its grid or a stream ended up. -/
def trapOf (i : Instr) (s : State) : Option Word :=
  let t := after i s
  if s.cur.party.isGroup then (t.grid t.curTeam.grid).status
  else match t.curStream.state with | .stopped c => some (c.setWidth 32) | _ => none

/-! ### Results worked out in the spec -/

/-- Table 5.8 and R108. -/
theorem test_idiv_corner : vOf (.idiv .divI 3 (.v 1) (.v 2) k0) 3 (unit [(1, 0x8000_0000), (2, 0xFFFF_FFFF)] []) = (0x8000_0000, 0) := by decide
theorem test_idiv_by_zero : vOf (.idiv .remN 4 (.v 1) (.s 0) k0) 4 (unit [(1, 0x8000_0000)] []) = (0x8000_0000, 0) := by decide
theorem test_dot4_saturates :
    vOf (.dot4 .ii true 5 (.v 6) (.v 7) (.v 8) k0) 5 (unit [(6, 0x8080_8080), (7, 0x8080_8080), (8, 0x7FFF_FFF0)] []) = (0x7FFF_FFFF, 0x20) := by decide
theorem test_dot4_wraps :
    vOf (.dot4 .ii false 5 (.v 6) (.v 7) (.v 8) k0) 5 (unit [(6, 0x8080_8080), (7, 0x8080_8080), (8, 0x7FFF_FFF0)] []) = (0x8000_FFF0, 0) := by decide
theorem test_fadd_toward_zero :
    vOf (.fadd .rz 9 (.v 10) (.v 11) k0) 9 (unit [(10, 0x7F7F_FFFF), (11, 0x7F7F_FFFF)] []) = (0x7F7F_FFFF, 0x14) := by decide
theorem test_fadd_overflows :
    vOf (.fadd .rne 9 (.v 10) (.v 11) k0) 9 (unit [(10, 0x7F7F_FFFF), (11, 0x7F7F_FFFF)] []) = (0x7F80_0000, 0x14) := by decide
theorem test_hf2_add :
    vOf (.hf2 (.add .rne (.v 13) (.v 14)) .h16 12 k0) 12 (unit [(13, 0x3C00_7BFF), (14, 0x3C00_3C00)] []) = (0x4000_7BFF, 0x10) := by decide
theorem test_cvt_t8 : vOf (.cvt .t8f32 .rne false 15 (.v 16) k0) 15 (unit [(16, 0x42CC_0000)] []) = (0x6A, 0x10) := by decide
theorem test_cvt_h16_infinity : vOf (.cvt .h16f32 .rne true 17 (.v 18) k0) 17 (unit [(18, 0x477F_F000)] []) = (0x7C00, 0x14) := by decide
/-- R94: the same with saturation sets SAT too. -/
theorem test_cvt_h16_saturates : vOf (.cvt .h16f32 .rne false 17 (.v 18) k0) 17 (unit [(18, 0x477F_F000)] []) = (0x7BFF, 0x34) := by decide
theorem test_mufu_rcp_zero : vOf (.mufu .rcp 19 (.s 0) k0) 19 (unit [] []) = (0x7F80_0000, 2) := by decide
theorem test_fcmp_nan :
    let x := (after (.fcmp (.cmp .lt (.v 20) (.v 21)) 1 k0) (unit [(20, 0x7FC0_0000), (21, 0x3F80_0000)] [])).curGroup.lane 0
    (x.readK 1).val = false ∧ x.status = 1 := by decide
theorem test_fmin_nan : vOf (.fmin 22 (.v 20) (.v 21) k0) 22 (unit [(20, 0x7FC0_0000), (21, 0x3F80_0000)] []) = (0x3F80_0000, 0) := by decide
/-- R107: shift counts are not reduced. -/
theorem test_shl_whole_count : vOf (.shlK 1 (.v 2) 32) 1 (unit [(2, 5)] []) = (0, 0) := by decide
theorem test_sra_whole_count : vOf (.sraK 1 (.v 2) 0x8000_0000) 1 (unit [(2, 0x8000_0000)] []) = (0xFFFF_FFFF, 0) := by decide
theorem test_add_wraps : vOf (.add 2 (.v 2) (.v 2)) 2 (unit [(2, 0x8000_0001)] []) = (2, 0) := by decide
/-- Table 5.2 and R110: fields beyond the word. -/
theorem test_bfe_sign : vOf (.bitop (.bfeI (.v 1) (.v 2) (.v 3)) 4 k0) 4 (unit [(1, 0x8000_0000), (2, 28), (3, 8)] []) = (0xFFFF_FFF8, 0) := by decide
theorem test_lop3 : vOf (.bitop (.lop3 (.v 1) (.v 2) (.v 3) 0x96) 4 k0) 4 (unit [(1, 0xF0), (2, 0xCC), (3, 0xAA)] []) = (0x96, 0) := by decide
/-- R113: 32 × 32 + 64 signed into a pair. -/
theorem test_madw_high : (vOf (.addr (.madwI (.v 2) (.v 3) (.v 4)) 6 k0) 7 (unit [(2, 0xFFFF_FFFF), (3, 2), (4, 1)] [])).1 = 0xFFFF_FFFF := by decide
/-- R8, R141: a K literal is sign-extended to 64 bits; s0 discards. -/
theorem test_umov_literal : sOf (.umovK 4 0xFFFF_FFFF) 4 (unit [] []) = 0xFFFF_FFFF_FFFF_FFFF ∧ sOf (.umovK 0 5) 0 (unit [] []) = 0 := by decide
theorem test_uadd_imm : sOf (.uadd 3 1 0 0x1FF) 3 (unit [] [(1, 5)]) = 4 := by decide
/-- R144: `ucall` goes on its condition, and links the address after its two words. -/
theorem test_ucall_links :
    let t := after (.ucall .nz 2 5 12) (unit [] [(5, 1)])
    (t.readS 2).val = BitVec.ofNat 64 (placedVa + 8) ∧ (t.curGroup.lane 0).pc = BitVec.ofNat 56 (placedVa + 48) := by decide
/-- R65: `bra` counts words from its first word. -/
theorem test_bra_back : ((after (.bra (-6) k0) (unit [] [])).curGroup.lane 0).pc = BitVec.ofNat 56 (placedVa - 24) := by decide
/-- R64, R65: `call` writes v0:v1. -/
theorem test_call_links :
    let x := (after (.call 10 k0) (unit [] [])).curGroup.lane 0
    (x.readV 0).val = 8 ∧ (x.readV 1).val = 0x40 ∧ x.pc = BitVec.ofNat 56 (placedVa + 40) := by decide
/-- R53: `sreg` clears what it reads. -/
theorem test_sreg_status_clears :
    let s := (unit [] []).mapCurGroup fun y => y.setLane 0 ((y.lane 0).setFlags 0x14)
    vOf (.sreg 3 .status) 3 s = (0x14, 0) := by decide
/-- Table 11.1: the traps of a group in a context without a handler end its grid with their code (R264). -/
theorem test_codes :
    trapOf (.brk 5 k0) (unit [] []) = some 0x85 ∧ trapOf (.undefinedOpcode 0x7A00_0000) (unit [] []) = some 1 ∧ trapOf .tret (unit [] []) = some 3 ∧
      trapOf (.brx (.v 0) k0) (unit [(0, 2)] []) = some 4 := by decide +kernel

/-! ### Witnesses: lanes and scalars -/

theorem only {s : State} {X : Nat → Prop} (h : s.cur.lanes = 1) (x : X 0) (l : Nat) (hl : s.cur.lanes.getLsbD l = true) : X l := by
  rw [h] at hl
  have h0 : l = 0 := by simpa using hl
  exact h0 ▸ x

theorem onlyActive {s : State} {p : Pred} {X : Nat → Prop} (h : s.cur.lanes = 1) (x : X 0) (l : Nat) (hl : s.active p l) : X l :=
  only h x l hl.1

theorem cleanPred_k0 {s : State} (h : s.cur.lanes = 1) : s.cleanPred k0 :=
  ⟨only h rfl, 0, by decide, by simp [h], rfl⟩

/-- Values for the witnesses. -/
def wv : State := unit [(0, 0x100), (1, 6), (2, 7), (3, 3), (4, 0x8000_0000), (5, 0), (6, 0x7FC0_0000)] [(1, 0x100), (2, 2), (3, 0xFFFF_FFFF_FFFF_FFFF)]

/-- The same with v8 and k2 poisoned. -/
def wPoison : State := wv.mapCurGroup fun y => y.setLane 0 (((y.lane 0).writeV 8 ⟨0, some ⟨2, true⟩⟩).writeK 2 ⟨false, some ⟨1, false⟩⟩)

theorem active_wv : wv.active k0 0 := by unfold State.active; decide

theorem clean_wv : wv.clean 0 [.v 0, .v 1, .v 2, .v 3, .v 4, .v 5, .v 6, .s 0, .s 1, .s 2, .s 3] := by unfold State.clean; decide

theorem clean64_wv : wv.clean64 0 [.v 0, .v 2, .v 4, .s 1, .s 3] := by unfold State.clean64; decide

theorem witness_IntegerResult :
    (∃ o ∈ kClass, o.2.2 6 7 = 13) ∧ wv.cur.lanes.getLsbD 0 = true ∧ wv.clean 0 [.v 1, .v 2] ∧ wv.clean 0 [.s 3] :=
  ⟨⟨(.add, .addK, _), List.mem_cons_self, by decide⟩, by decide, by unfold State.clean; decide, by unfold State.clean; decide⟩

theorem witness_PoisonPropagates :
    wPoison.cur.lanes.getLsbD 0 = true ∧ (src wPoison.curGroup (wPoison.curGroup.lane 0) (.v 8)).tag = some ⟨2, true⟩ ∧
      (src wPoison.curGroup (wPoison.curGroup.lane 0) (.v 1)).tag = none := by decide

/-- Active lanes with clean sources; a zero divisor, a negative and a NaN among the values. -/
theorem witness_MultiplyDivideSelect : wv.active k0 0 ∧ wv.clean 0 [.v 1, .v 5] ∧ wv.val 0 (.v 5) = 0 ∧ ((wv.curGroup.lane 0).readK 2).tag = none :=
  ⟨active_wv, by unfold State.clean; decide, by decide, by decide⟩

theorem witness_BitOpResult : wv.active k0 0 ∧ ∀ r, BitOp.Reads (.bfi (.v 1) (.v 2) (.v 3)) r → wv.clean 0 [r] :=
  ⟨active_wv, fun r h => by
    have hr : r = .v 1 ∨ r = .v 2 ∨ r = .v 3 := h
    obtain rfl | rfl | rfl := hr <;> (unfold State.clean; decide)⟩

theorem witness_AddressResult : wv.active k0 0 ∧ wv.clean64 0 [.v 2, .s 3] ∧ wv.clean 0 [.v 1] :=
  ⟨active_wv, by unfold State.clean64; decide, by unfold State.clean; decide⟩

theorem witness_CompareResult : wv.active k0 0 ∧ wv.clean 0 [.v 1, .v 6] ∧
    ((wv.curGroup.lane 0).readK 0).tag = none ∧ ((wv.curGroup.lane 0).readK 7).tag = none :=
  ⟨active_wv, by unfold State.clean; decide, by decide, by decide⟩

theorem witness_FloatResult : wv.active k0 0 ∧ wv.clean 0 [.v 4, .v 5, .v 6] := ⟨active_wv, by unfold State.clean; decide⟩

/-- Targets at both ends of the address space, and a misaligned one. -/
theorem witness_LaneBranches :
    (∀ l, wv.cur.lanes.getLsbD l = true → (predOf (wv.curGroup.lane l) k0).tag = none) ∧
      (∀ l, wv.active k0 l → (srcPair wv.curGroup (wv.curGroup.lane l) (.s 1)).tag = none ∧
        (srcPair wv.curGroup (wv.curGroup.lane l) (.s 1)).val.toNat % 4 = 0 ∧ (srcPair wv.curGroup (wv.curGroup.lane l) (.s 1)).val.toNat < 2 ^ 56) ∧
      (wv.active k0 0 ∧ (wv.val64 0 (.s 2)).toNat % 4 ≠ 0 ∧ ∀ k, k < 0 → wv.active k0 k → (wv.val64 k (.s 2)).toNat % 4 = 0) :=
  ⟨only rfl rfl, onlyActive rfl (by decide), active_wv, by decide, fun k h => absurd h (Nat.not_lt_zero k)⟩

theorem witness_ExitEndsLanes :
    (∀ l, wv.cur.lanes.getLsbD l = true → (predOf (wv.curGroup.lane l) k0).tag = none) ∧ wv.active k0 0 ∧ wv.curTeam.residency = .resident :=
  ⟨only rfl rfl, active_wv, by decide⟩

theorem of_all {α : Type} {P : α → Prop} [DecidablePred P] {o : Option α} (h : o.all (fun x => decide (P x)) = true) : ∀ x, o = some x → P x := by
  intro x hx
  subst hx
  exact of_decide_eq_true h

/-- Lane 0 has stood at a `shfl` for 2^20 - 1 clk. -/
def wArrived : State :=
  { (wv.mapCurGroup fun y => y.setLane 0 { y.lane 0 with arrived := some ⟨1, .shfl .idx 1 (.v 1) (.v 2) 0 k0, wv.cur⟩ }) with clk := [(0, 2 ^ 20)] }

/-- s0 names all lanes; lane 0 is the one live participant, and lane 6 is none. -/
theorem witness_ShuffleAndVote :
    let y := wArrived.curGroup
    let set := participants y 0
    (∀ j, j < 32 → set.getLsbD j = true ∧ (y.lane j).cond = .live →
      wArrived.cur.lanes.getLsbD j = true ∧ ∀ e, (y.lane j).arrived = some e → wArrived.now < e.since + 2 ^ 20) ∧ (y.readS 0).tag = none ∧
      (∀ j, j < 32 → set.getLsbD j = true → (y.lane j).cond = .live → wArrived.cur.lanes.getLsbD j = true ∧ ((y.lane j).readK 1).tag = none) ∧
      wArrived.active k0 0 ∧ set.getLsbD 0 = true ∧ ¬(set.getLsbD 6 = true ∧ (y.lane 6).cond = .live) ∧ wArrived.clean 0 [.v 1] := by
  refine ⟨fun j hj hp => ?_, by decide, by decide, by unfold State.active; decide, by decide, by decide, by unfold State.clean; decide⟩
  have h := (show ∀ j, j < 32 → (participants wArrived.curGroup 0).getLsbD j = true ∧ (wArrived.curGroup.lane j).cond = .live →
    wArrived.cur.lanes.getLsbD j = true ∧ ((wArrived.curGroup.lane j).arrived.all fun e => decide (wArrived.now < e.since + 2 ^ 20)) = true by decide) j hj hp
  exact ⟨h.1, of_all h.2⟩

/-- A sequencer outside a chain and inside one; a `cpref` of 2^32 bytes, and one of two lines of global memory. -/
theorem witness_NoOperations :
    ¬((stream .matrix []).cur.party = .matrix ∧ (stream .matrix []).curStream.chain ≠ .closed) ∧
      (let s := (stream .matrix []).mapCurStream fun y => { y with chain := .ordered }; s.cur.party = .matrix ∧ s.curStream.chain ≠ .closed) ∧
      (let s := stream .copy [(1, 0x1_0000_0000)]; s.cur.party = .copy ∧ (s.readS 1).tag = none ∧ (s.readS 2).tag = none ∧ (s.readS 1).val.toNat ≤ 2 ^ 32) ∧
      (let s := stream .copy [(1, 0x90), (2, 0x40_0000_0000)]
       linesOf (s.readS 2).val.toNat (s.readS 1).val.toNat = [0x40_0000_0000, 0x40_0000_0080] ∧
         ∀ l ∈ linesOf (s.readS 2).val.toNat (s.readS 1).val.toNat,
           s.decodeGeneric s.cur.team l = some (.glob l) ∧ s.find s.cur.team l .read ≠ .full) := by decide

theorem witness_ScalarResult : (wv.readS 1).tag = none ∧ (wv.readS 3).tag = none ∧ ((stream .copy [(1, 5)]).readS 1).tag = none := by decide

/-- The condition holds and does not hold; targets at 0 and at the top of the address space. -/
theorem witness_UniformBranch :
    (wv.readS 1).tag = none ∧ (wv.readS 1).val ≠ 0 ∧ (wv.cur.pc.setWidth 64 + (-4 : BitVec 22).signExtend 64 * 4 : DWord).toNat < 2 ^ 56 ∧
      (wv.cur.pc.setWidth 64 + (-4 : BitVec 22).signExtend 64 * 4 : DWord).toNat % 4 = 0 ∧
      (let s := unit [] [(4, 0xFF_FFFF_FFFF_FFFC)]; (s.readS 4).val.toNat % 4 = 0 ∧ (s.readS 4).val.toNat < 2 ^ 56) := by decide

theorem witness_SpecialRegisterReads :
    wv.cur.party.isGroup = true ∧ (stream .copy []).cur.party.isGroup = false ∧ (wv.readS 0).tag = none ∧
      (let x := wv.curGroup.lane (((wv.readS 0).val + (32 : BitVec 9).signExtend 64).toNat % 32); x.cond = .live ∧ (x.readV 223).tag = none) ∧
      (wv.curGroup.lane (((wv.readS 0).val + (31 : BitVec 9).signExtend 64).toNat % 32)).cond ≠ .live := by decide

/-! ### Witnesses: memory -/

/-- The leaf of page 0. -/
def page0 : Leaf := ⟨0x80000, 0, 0, 1, false, true, true, true⟩

/-- An address of page 0 lands in device memory. -/
theorem lands_page0 {s : State} {g l n a : Nat} {r : Option Reached} {acc : Access} {ord : Bool} {sc : Scope}
    (h : s.victim = none ∧ a % n = 0 ∧ r = some (.glob a) ∧ s.translate s.cur.team g l n (.glob a) acc = .ok (.mem (0x80000 + a) page0) ∧
      s.peerCode (.mem (0x80000 + a) page0) ord sc = none ∧ s.sectorPoisoned (.mem (0x80000 + a) page0) n = false) :
    s.lands g l n a r acc ord sc (.mem (0x80000 + a) page0) :=
  ⟨h.1, h.2.1, _, h.2.2.1, h.2.2.2.1, h.2.2.2.2.1, h.2.2.2.2.2, fun _ => ⟨rfl, rfl⟩⟩

/-- An address of the team's scratchpad. -/
theorem lands_pad {s : State} {g l n a o : Nat} {r : Option Reached} {acc : Access} {ord : Bool} {sc : Scope}
    (h : s.victim = none ∧ a % n = 0 ∧ r = some (.pad s.cur.team o) ∧ s.translate s.cur.team g l n (.pad s.cur.team o) acc = .ok (.pad s.cur.team o) ∧
      s.peerCode (.pad s.cur.team o) ord sc = none ∧ s.sectorPoisoned (.pad s.cur.team o) n = false ∧
      s.inSwitch (.pad s.cur.team o) = false ∧ s.inCompute (.pad s.cur.team o) = false) :
    s.lands g l n a r acc ord sc (.pad s.cur.team o) :=
  ⟨h.1, h.2.1, _, h.2.2.1, h.2.2.2.1, h.2.2.2.2.1, h.2.2.2.2.2.1, fun _ => ⟨h.2.2.2.2.2.2.1, h.2.2.2.2.2.2.2⟩⟩

def mPlain : MemX := ⟨k0, .b32, .glob, .own, .plain, .team, 0, false, 0⟩
def mSc : MemX := ⟨k0, .b64, .glob, .own, .sc, .fab, 0, false, 8⟩

theorem empty_log {s : State} (h : s.log = []) : s.noWrites := by
  unfold State.noWrites
  simp [h]

/-- A plain 32-bit and a sequentially consistent 64-bit access at global addresses, now and late. -/
theorem witness_LoadCompletes :
    (∀ l, wv.active k0 l → wv.clean64 l [.s 1] ∧ wv.clean l [.s 0] ∧
      wv.lands 0 l 4 (laneAddr mPlain (wv.val64 l (.s 1)) (wv.val l (.s 0)))
        (wv.decodeSpace 0 .glob (laneAddr mPlain (wv.val64 l (.s 1)) (wv.val l (.s 0)))) .read false .team (.mem 0x80100 page0)) ∧
    (∀ l, wv.active k0 l →
      wv.lands 0 l 8 (laneAddr mSc (wv.val64 l (.s 1)) (wv.val l (.s 0)))
        (wv.decodeSpace 0 .glob (laneAddr mSc (wv.val64 l (.s 1)) (wv.val l (.s 0)))) .read true .fab (.mem 0x80108 page0)) ∧
    wv.cleanPred k0 ∧ wv.mayRelease true true ∧ wv.late = false ∧ (wv.released true).noWrites ∧ (wv.released false).noWrites ∧
    wv.steady (.mem 0x80108 page0) ∧
    (let s := { wv with late := true }; s.mayBeLate (.mem 0x80100 page0) = true) ∧ wv.noRmws :=
  ⟨onlyActive rfl ⟨by unfold State.clean64; decide, by unfold State.clean; decide, lands_page0 (a := 0x100) (by decide +kernel)⟩,
    onlyActive rfl (lands_page0 (a := 0x108) (by decide +kernel)), cleanPred_k0 rfl, by unfold State.mayRelease; decide +kernel, rfl,
    empty_log (by decide +kernel), empty_log rfl, trivial, by decide +kernel, fun x h => by cases h⟩

theorem of_toOption {ε α : Type} {e : Except ε α} {x : α} (h : e.toOption = some x) : e = .ok x := by
  cases e with
  | error _ => cases h
  | ok y => cases h; rfl

theorem leBytes_len (n x : Nat) : (leBytes n x).length = n := by
  induction n generalizing x with
  | zero => rfl
  | succ n ih => rw [leBytes, List.length_cons, ih]

theorem flatten_len (f : Nat → List Byte) (h : ∀ i, (f i).length = 8) (n : Nat) : ((List.range n).flatMap f).length = n * 8 := by
  induction n with
  | zero => rfl
  | succ n ih => rw [List.range_succ, List.flatMap_append, List.length_append, ih]; simp [h]; omega

/-- A record has 384 bytes (R249). -/
theorem record_len (r : Record) : (recordBytes r).length = 384 := by
  unfold recordBytes
  simp only [List.length_append, leBytes_len, List.length_cons, List.length_nil, List.length_replicate,
    flatten_len _ (fun _ => leBytes_len 8 _)]

def failed : Trans → Bool
  | .fail _ _ _ => true
  | _ => false

/-- Lane 0 is to reach page 1, which is not mapped. -/
def wFar : State := unit [(0, 0x100), (1, 6)] [(1, 0x4_0000)]

def carried : Map PoisonEntry := (List.range 8).map fun e => (e, ⟨false, 0, 0, 0, 1, [], 0, [], 0, 0, 1⟩)

/-- The same with every entry of the poison table in a register of lane 1. -/
def wFull : State :=
  wFar.mapCurGroup fun y =>
    { y.setLane 1 { y.lane 1 with v := (List.range 8).map fun e => (e, ⟨0, some ⟨BitVec.ofNat 3 e, true⟩⟩) } with poison := carried }

/-- `wv` with a poisoned sector at 0x80100. -/
def wBadSector : State := { wv with memPoison := [(0x80100 / 32, true)] }

/-- A load of a page that is not mapped, with a free entry of the poison table and without, and one of a poisoned sector. -/
theorem witness_LoadFails :
    wFar.victim = none ∧ wFar.noRmws ∧ wFar.cleanPred k0 ∧
    (∀ l, wFar.active k0 l → wFar.clean64 l [.s 1] ∧ wFar.clean l [.s 0] ∧
      laneAddr mPlain (wFar.val64 l (.s 1)) (wFar.val l (.s 0)) % 4 = 0 ∧
      wFar.decodeSpace 0 .glob (laneAddr mPlain (wFar.val64 l (.s 1)) (wFar.val l (.s 0))) = some (.glob 0x4_0000) ∧
      failed (wFar.translate 0 0 l 4 (.glob 0x4_0000) .read) = true) ∧
    wFar.active k0 0 ∧ wFar.curGroup.prune.freeEntry = some 0 ∧
    wFull.active k0 0 ∧ wFull.cleanPred k0 ∧ wFull.clean64 0 [.s 1] ∧ wFull.curGroup.prune.freeEntry = none ∧
      failed (wFull.translate 0 0 0 4 (.glob 0x4_0000) .read) = true ∧
    wBadSector.active k0 0 ∧ wBadSector.translate 0 0 0 4 (.glob 0x100) .read = .ok (.mem 0x80100 page0) ∧
      wBadSector.sectorPoisoned (.mem 0x80100 page0) 4 = true ∧ wBadSector.peerCode (.mem 0x80100 page0) false .team = none := by
  refine ⟨rfl, (fun x h => by cases h), cleanPred_k0 rfl, onlyActive rfl ⟨by unfold State.clean64; decide, by unfold State.clean; decide, by decide,
    by decide +kernel, by decide +kernel⟩, by unfold State.active; decide, by decide +kernel, by unfold State.active; decide, cleanPred_k0 rfl,
    by unfold State.clean64; decide, by decide +kernel, by decide +kernel, by unfold State.active; decide, by decide +kernel, by decide +kernel,
    by decide +kernel⟩

theorem witness_StoreCompletes :
    (∀ l, wv.active k0 l → storeTags wv.curGroup (wv.curGroup.lane l) mPlain (.v 1) (.s 1) (.s 0) = [] ∧
      wv.lands 0 l 4 (laneAddr mPlain (wv.val64 l (.s 1)) (wv.val l (.s 0)))
        (wv.decodeSpace 0 .glob (laneAddr mPlain (wv.val64 l (.s 1)) (wv.val l (.s 0)))) .write false .team (.mem 0x80100 page0)) ∧
    wv.lands 0 0 8 (laneAddr mSc (wv.val64 0 (.s 1)) (wv.val 0 (.s 0)))
      (wv.decodeSpace 0 .glob (laneAddr mSc (wv.val64 0 (.s 1)) (wv.val 0 (.s 0)))) .write true .fab (.mem 0x80108 page0) ∧
    wv.cleanPred k0 ∧ wv.mayRelease true true ∧ wv.noRmws ∧ wv.storeHeld (.mem 0x80100 page0) = false ∧
    wv.roomFor ((lanesOf (activeMask wv.curGroup wv.cur.lanes k0)).map fun _ => .mem 0x80100 page0) 4 = true ∧
    outside 0x80104 4 (fun _ => some (.mem 0x80100 page0)) ∧ (wv.team 0).unmapped 0x7FFFF ∧ outsidePad 0 0x7FFFF 4 (fun _ => some (.mem 0x80100 page0)) ∧
    outsidePriv 0 5 4 (fun _ => some (.mem 0x80100 page0)) :=
  ⟨onlyActive rfl ⟨by decide, lands_page0 (a := 0x100) (by decide +kernel)⟩,
    lands_page0 (a := 0x108) (by decide +kernel), cleanPred_k0 rfl, by unfold State.mayRelease; decide +kernel, (fun _ h => by cases h), by decide, by decide +kernel,
    fun _ k f h => by cases h; decide, fun _ _ => rfl, (fun _ _ h => by cases h), (fun _ _ _ _ _ _ h => by cases h)⟩

/-- A store to a page that is not mapped, with a record that can be written; one to part of a poisoned sector. -/
theorem witness_StoreFails :
    wFar.victim = none ∧ wFar.cleanPred k0 ∧ wFar.active k0 0 ∧ wFar.cur.party.isGroup = true ∧ wFar.curGroup.handler = false ∧
    (∀ l, wFar.active k0 l → storeTags wFar.curGroup (wFar.curGroup.lane l) mPlain (.v 1) (.s 1) (.s 0) = [] ∧
      (laneAddr mPlain (wFar.val64 l (.s 1)) (wFar.val l (.s 0))) % 4 = 0 ∧
      wFar.decodeSpace 0 .glob (laneAddr mPlain (wFar.val64 l (.s 1)) (wFar.val l (.s 0))) = some (.glob 0x4_0000) ∧
      wFar.inSwitch (.glob 0x4_0000) = false ∧ wFar.inCompute (.glob 0x4_0000) = false ∧
      failed (wFar.translate 0 0 l 4 (.glob 0x4_0000) .write) = true) ∧
    (∀ r, ∃ s1, wFar.writeRecord 0 0 r = .ok s1) ∧ wFar.devKey 0 (wFar.recordAddr 0 0) .write = .ok 0x80000 ∧
    (∀ l, wBadSector.active k0 l → wBadSector.translate 0 0 l 4 (.glob 0x100) .write = .ok (.mem 0x80100 page0) ∧
      wBadSector.peerCode (.mem 0x80100 page0) false .team = none) ∧
    wBadSector.poisonedAt (.mem 0x80100 page0) 0 = true ∧
    (∀ h k, wBadSector.active k0 h → k < 4 → wBadSector.spotKey (.mem 0x80100 page0) k ≠ wBadSector.spotKey (.mem 0x80100 page0) 0 / 32 * 32 + 31) := by
  have hk : wFar.devKey 0 (wFar.recordAddr 0 0) .write = .ok 0x80000 := of_toOption (by decide +kernel)
  have ha : wFar.recordAddr 0 0 = 0 := by decide +kernel
  refine ⟨rfl, cleanPred_k0 rfl, by unfold State.active; decide, rfl, rfl,
    onlyActive rfl ⟨by decide, by decide, by decide +kernel, by decide +kernel, by decide +kernel, by decide +kernel⟩, fun r => ?_, hk,
    onlyActive rfl ⟨by decide +kernel, by decide +kernel⟩, by decide +kernel, fun h k _ hk => ?_⟩
  · have hl : (recordBytes r).length ≤ 2 ^ 18 := by rw [record_len]; decide
    unfold State.writeRecord State.devWrite
    rw [show (wFar.team 0).ctx = 0 from by decide +kernel, hk, ha]
    simp only [Nat.zero_mod, Nat.sub_zero, if_pos hl]
    exact ⟨_, rfl⟩
  · simp only [State.spotKey]; omega

theorem witness_UniformMemory :
    (wv.readS 1).tag = none ∧ (wv.readS 2).tag = none ∧ wv.mayRelease true true ∧ wv.noRmws ∧ wv.roomFor [.mem 0x80100 page0] 8 = true ∧
    wv.lands 0 0 8 0x100 (uniformReach wv .glob 0x100) .read false .team (.mem 0x80100 page0) ∧
    wv.lands 0 0 8 0x100 (uniformReach wv .glob 0x100) .write true .wide (.mem 0x80100 page0) ∧
    (let s := stream .copy [(1, 0xFF_0000_0000_0100)]
     s.lands 0 0 4 0xFF_0000_0000_0100 (uniformReach s .gen 0xFF_0000_0000_0100) .write false .team (.pad 0 0x100) ∧ s.roomFor [.pad 0 0x100] 4 = true ∧
       s.storeHeld (.pad 0 0x100) = false) ∧
    (wv.released true).noWrites ∧ (wv.released false).noWrites :=
  ⟨by decide, by decide, by unfold State.mayRelease; decide +kernel, (fun _ h => by cases h), by decide +kernel, lands_page0 (by decide +kernel), lands_page0 (by decide +kernel),
    ⟨lands_pad (s := stream .copy [(1, 0xFF_0000_0000_0100)]) (by decide +kernel), by decide +kernel, by decide +kernel⟩,
    empty_log (by decide +kernel), empty_log rfl⟩

def xAdd : AtomX := ⟨k0, .add, false, .plain, .team, 4⟩

theorem witness_AtomicCompletes :
    wv.cleanPred k0 ∧ (∀ l r, wv.active k0 l → r ∈ [Reg.v 1, .v 0] → (atomSrc wv.curGroup (wv.curGroup.lane l) false r).tag = none) ∧
    (∀ l, wv.active k0 l → wv.clean64 l [.s 1] ∧
      wv.lands 0 l 4 (wv.val64 l (.s 1) + xAdd.off.signExtend 64).toNat
        (wv.decodeGeneric 0 (wv.val64 l (.s 1) + xAdd.off.signExtend 64).toNat) .atomic false .team (.mem 0x80104 page0)) ∧
    wv.placementBad false xAdd (.mem 0x80104 page0) = false ∧ wv.placementBad true xAdd (.mem 0x80104 page0) = false ∧
    (∀ h, wv.active k0 h → h = 0) ∧ wv.mayRelease true true ∧ wv.noRmws ∧
    ({ wv with late := true } : State).mayDefer xAdd (.mem 0x80104 page0) = true ∧ wv.mayDefer xAdd (.mem 0x80104 page0) = false ∧
    wv.sectorPoisoned (.mem (0x80104 / 128 * 128) page0) 128 = false ∧ (wv.released true).noWrites ∧ (wv.released false).noWrites :=
  ⟨cleanPred_k0 rfl, fun l r hl => onlyActive (X := fun l => r ∈ [Reg.v 1, .v 0] → (atomSrc wv.curGroup (wv.curGroup.lane l) false r).tag = none) rfl
      (by intro h; simp only [List.mem_cons, List.not_mem_nil, or_false] at h; obtain rfl | rfl := h <;> decide) l hl,
    onlyActive rfl ⟨by unfold State.clean64; decide, lands_page0 (a := 0x104) (by decide +kernel)⟩, by decide +kernel, by decide +kernel,
    onlyActive rfl rfl, by unfold State.mayRelease; decide +kernel, (fun _ h => by cases h), rfl, rfl, by decide +kernel, empty_log (by decide +kernel), empty_log rfl⟩

/-- Lane 0 of `wv` held in `waitv`, since clk 0, with a timeout of 64. -/
def waitvOn : WaitvState := ⟨0, 5, .waitv .eq .team false 9 (.s 1) (.v 5) (.v 1) k0, { wv.cur with lanes := 1 }, 0x100, 0, 64⟩
def wWaitv : State :=
  { (wv.mapCurGroup fun y => y.setLane 0 { y.lane 0 with waitv := some waitvOn }) with clk := [(0, 64)] }

theorem witness_WaitOnValue :
    wv.cleanPred k0 ∧ wv.noWrites ∧
    (∀ l, wv.active k0 l → (wv.curGroup.lane l).waitv = none ∧ wv.clean64 l [.s 1] ∧ wv.clean l [.v 5, .v 1] ∧ wv.steady (.mem 0x80100 page0) ∧
      wv.lands 0 l 4 (wv.val64 l (.s 1)).toNat (wv.decodeGeneric 0 (wv.val64 l (.s 1)).toNat) .read true .team (.mem 0x80100 page0)) ∧
    wWaitv.waitingLane ⟨0, .group 0⟩ 0 = some waitvOn ∧ waitvOn.issue.team = 0 ∧ waitvOn.issue.party = .group 0 ∧
    (let u := { wWaitv with cur := { waitvOn.issue with lanes := BitVec.ofNat 32 (2 ^ 0) } }
     u.noWrites ∧ u.steady (.mem 0x80100 page0) ∧
       u.lands 0 0 4 0x100 (u.decodeGeneric 0 0x100) .read true .team (.mem 0x80100 page0) ∧
       waitSat .eq (BitVec.ofNat 32 (leValue ((List.range 4).map (u.byteAt (.mem 0x80100 page0))))) waitvOn.b = true) ∧
    waitSat .eq 1 waitvOn.b = false ∧ waitvOn.timeout ≠ 0 ∧ waitvOn.timeout.toNat ≤ wWaitv.clkOf 0 - waitvOn.start :=
  ⟨cleanPred_k0 rfl, empty_log rfl,
    onlyActive rfl ⟨by decide, by unfold State.clean64; decide, by unfold State.clean; decide, trivial, lands_page0 (a := 0x100) (by decide +kernel)⟩,
    by decide, rfl, rfl, ⟨empty_log rfl, trivial, lands_page0 (a := 0x100) (by decide +kernel), by decide +kernel⟩, by decide, by decide, by decide⟩

/-- Group 1 of team 0 owns the cluster instance, with a store that waits to be performed; group 0, and a sequencer, fence it. -/
def wOwner (p : Party) : State :=
  let s := small 1 p [] []
  { (s.mapTeam 0 fun x => { x.setGroup 1 { x.group 0 with light := some .cluster } with nGroups := 2 }) with
    log := [⟨1, 0, s.agentOf 0 1, .plain, .team, false, false, [], [], 0, [], [], [], false, false, [], 0, 0⟩] }

theorem witness_FenceCompletes :
    wv.cleanPred k0 ∧ wv.cur.party.isGroup = true ∧ wv.mayRelease true true ∧ (stream .copy []).cur.party.isGroup = false ∧
      (stream .copy []).mayRelease true true ∧ (wOwner (.group 0)).ownersOf .cluster = [(0, 1)] ∧ (wOwner .copy).ownersOf .cluster = [(0, 1)] ∧
      (wOwner (.group 0)).mayRelease true true :=
  ⟨cleanPred_k0 rfl, rfl, by unfold State.mayRelease; decide +kernel, rfl, by unfold State.mayRelease; decide +kernel, by decide +kernel,
    by decide +kernel, by unfold State.mayRelease; decide +kernel⟩

/-! ### Witnesses: waits, queues, slots, banks, barriers -/

/-- `wv` with its team changed. -/
def withTeam (f : Team → Team) : State := wv.mapTeam 0 f

/-- A state whose issuing party waits in `j`, and the state in which its wait is tried again. -/
def heldIn (j : Instr) (s : State) : State := s.hold j
def again (j : Instr) (s : State) : State := (s.hold j).resumeAs ⟨0, s.cur.party⟩ ⟨j, s.cur, s.now⟩

theorem issues (j : Instr) (s : State) (resume : PartyRef → Instr) : runsAs j s j s resume := .inl ⟨rfl, rfl⟩

theorem resumes (j : Instr) (s : State) (resume : PartyRef → Instr) (hp : s.cur.party = .group 0)
    (h : (heldIn j s).waitOf ⟨0, .group 0⟩ = some ⟨j, s.cur, s.now⟩ ∧ s.cur.team = 0 ∧ ((heldIn j s).team 0).residency = .resident) :
    runsAs (resume ⟨0, .group 0⟩) (heldIn j s) j (again j s) resume :=
  .inr ⟨⟨0, .group 0⟩, _, rfl, ⟨h.1, rfl, by rw [h.2.1, hp], h.2.2⟩, by unfold again; rw [hp]; rfl⟩

theorem resumesStream (j : Instr) (s : State) (p : Party) (resume : Nat → Instr) (hp : s.cur.party = p)
    (h : (heldIn j s).waitOf ⟨0, p⟩ = some ⟨j, s.cur, s.now⟩ ∧ s.cur.team = 0 ∧ ((heldIn j s).team 0).residency = .resident) :
    runsAsStream (resume 0) (heldIn j s) j (again j s) p resume :=
  .inr ⟨0, _, rfl, ⟨h.1, rfl, by rw [h.2.1, hp], h.2.2⟩, by subst hp; rfl⟩

/-- Queue 2 has room for one more entry of its producer; queue 3 holds one for its consumer. -/
def wQueue : State := withTeam fun x => { x with queues := [(2, ⟨2, 0, 1, [[(0, 5)]]⟩), (3, ⟨1, 1, 0, [[(0, 9)]]⟩)] }

theorem witness_StageQueueMoves :
    wQueue.cleanPred k0 ∧ (again (.qpush 2 (.v 1) k0) wQueue).cleanPred k0 ∧
    (∀ s ∈ [wQueue, again (.qpush 2 (.v 1) k0) wQueue], s.cur.party.isGroup = true ∧
      s.curTeam.unbacked s.cur.party.groupNo (.qpush 2 (.v 1) k0) = [] ∧ (s.curTeam.queue 2).depth ≠ 0 ∧
      (s.curTeam.queue 2).producer = s.curGroup.role ∧ (s.curTeam.queue 2).entries.length < (s.curTeam.queue 2).depth ∧
      (src s.curGroup (s.curGroup.lane 0) (.v 1)).tag = none) ∧
    runsAs (.qpush 2 (.v 1) k0) wQueue (.qpush 2 (.v 1) k0) wQueue .qpushResume ∧
    runsAs (.qpushResume ⟨0, .group 0⟩) (heldIn (.qpush 2 (.v 1) k0) wQueue) (.qpush 2 (.v 1) k0) (again (.qpush 2 (.v 1) k0) wQueue) .qpushResume ∧
    (∀ s ∈ [wQueue, again (.qpop 3 9 k0) wQueue], s.curTeam.unbacked s.cur.party.groupNo (.qpop 3 9 k0) = [] ∧ (s.curTeam.queue 3).depth ≠ 0 ∧ (s.curTeam.queue 3).consumer = s.curGroup.role ∧
      (s.curTeam.queue 3).entries = [[(0, 9)]]) ∧
    runsAs (.qpopResume ⟨0, .group 0⟩) (heldIn (.qpop 3 9 k0) wQueue) (.qpop 3 9 k0) (again (.qpop 3 9 k0) wQueue) .qpopResume :=
  ⟨cleanPred_k0 rfl, cleanPred_k0 rfl, by decide, issues _ _ _, resumes _ _ _ rfl (by decide), by decide, resumes _ _ _ rfl (by decide)⟩

/-- v7 holds format word 2 (MXFP8 E4M3); bank 5 is held. -/
def wSlots : State :=
  (withTeam fun x => { x with banks := 32 }).mapCurGroup fun y => y.setLane 0 ((y.lane 0).writeV 7 (clear 2))

theorem witness_SlotsAndPulls :
    (∀ s ∈ [wSlots, again (.mpush 7 3 (.v 1) (.v 2) (.v 7) k0) wSlots], s.cur.party.isGroup = true ∧
      s.curTeam.unbacked s.cur.party.groupNo (.mpush 7 3 (.v 1) (.v 2) (.v 7) k0) = [] ∧
      s.mpushCheck 7 (.v 7) (activeMask s.curGroup s.cur.lanes k0) = none ∧ (s.curTeam.slotAt 7).filled.getLsbD 3 = false ∧
      Elem.ofWord (s.val ((lanesOf (activeMask s.curGroup s.cur.lanes k0)).headD 0) (.v 7)).toNat = some .e4m3 ∧
      (∀ r ∈ [Reg.v 1, .v 2, .v 7], (src s.curGroup (s.curGroup.lane 0) r).tag = none)) ∧
    wSlots.cleanPred k0 ∧
    runsAs (.mpushResume ⟨0, .group 0⟩) (heldIn (.mpush 7 3 (.v 1) (.v 2) (.v 7) k0) wSlots) (.mpush 7 3 (.v 1) (.v 2) (.v 7) k0)
      (again (.mpush 7 3 (.v 1) (.v 2) (.v 7) k0) wSlots) .mpushResume ∧
    (wSlots.readS 2).tag = none ∧ wSlots.curTeam.banksHeld ((wSlots.readS 2).val.toNat % 16 + (3 : BitVec 4).toNat) 1 = true :=
  ⟨by decide, cleanPred_k0 rfl, resumes _ _ _ rfl (by decide), by decide, by decide⟩

/-- All banks free for 16; banks 0 to 13 held, and the last two taken; the last bank given back. -/
theorem witness_BanksAllocated :
    ((∀ k, k < 16 → wv.curTeam.bankFree k = true) ∧
      runsAs (.accallocResume ⟨0, .group 0⟩) (heldIn (.accalloc 4 16) wv) (.accalloc 4 16) (again (.accalloc 4 16) wv) .accallocResume) ∧
    (let s := withTeam fun x => { x with banks := 0x3FFF }
     (∀ k, 14 ≤ k ∧ k < 16 → s.curTeam.bankFree k = true) ∧ ∀ c, c < 14 → ∃ k, c ≤ k ∧ k < c + 2 ∧ s.curTeam.bankFree k = false) ∧
    (let s := withTeam fun x => { x with banks := 0x8000 }
     (s.readS 0).val.toNat % 16 + (15 : BitVec 4).toNat = 15 ∧ (∀ k, 15 ≤ k ∧ k < 16 → s.curTeam.bankFree k = false) ∧
       s.curTeam.banksNamed 15 1 = false ∧
       runsAs (.accfreeResume ⟨0, .group 0⟩) (heldIn (.accfree 0 15 1) s) (.accfree 0 15 1) (again (.accfree 0 15 1) s) .accfreeResume) := by
  refine ⟨⟨by decide, resumes _ _ _ rfl (by decide)⟩, ⟨fun k h => ?_, fun c h => ⟨c, by omega, by omega, ?_⟩⟩, by decide, fun k h => ?_, by decide,
    resumes _ _ _ rfl (by decide)⟩
  · exact (show ∀ k, k < 16 → 14 ≤ k → (withTeam fun x => { x with banks := 0x3FFF }).curTeam.bankFree k = true by decide) k h.2 h.1
  · exact (show ∀ k, k < 14 → (withTeam fun x => { x with banks := 0x3FFF }).curTeam.bankFree k = false by decide) c h
  · exact (show ∀ k, k < 16 → 15 ≤ k → (withTeam fun x => { x with banks := 0x8000 }).curTeam.bankFree k = false by decide) k h.2 h.1

/-- A descriptor at 0x100 of page 0: INT8, one column, one segment, pitch 16. -/
def tileOf : Nat := 7 * 2 ^ 196 + 16 * 2 ^ 128 + 2 ^ 200
def wTile : State := { wv with mem := writeBytes wv.mem 0x80100 (leBytes 32 tileOf) }

theorem witness_TileDescriptorRead :
    (wTile.readS 1).tag = none ∧ wTile.noWrites ∧
    (∀ i, i < 4 → wTile.steady (.mem (0x80000 + (0x100 + 8 * i)) page0) ∧
      wTile.lands 0 i 8 (0x100 + 8 * i) (uniformReach wTile .gen (0x100 + 8 * i)) .read false .fab (.mem (0x80000 + (0x100 + 8 * i)) page0)) ∧
    (let d := leValue ((List.range 4).flatMap fun i => (List.range 8).map (wTile.byteAt (.mem (0x80000 + (0x100 + 8 * i)) page0)))
     d = tileOf ∧ tileReserved d = false ∧ (Tile.ofNat d).fmt < 8 ∧ (Tile.ofNat d).rowBytes ≤ (Tile.ofNat d).pitch) := by
  refine ⟨by decide, empty_log rfl, fun i h => ⟨trivial, lands_page0 ?_⟩, by decide +kernel⟩
  exact (show ∀ i, i < 4 → wTile.victim = none ∧ (0x100 + 8 * i) % 8 = 0 ∧ uniformReach wTile .gen (0x100 + 8 * i) = some (.glob (0x100 + 8 * i)) ∧
    wTile.translate 0 0 i 8 (.glob (0x100 + 8 * i)) .read = .ok (.mem (0x80000 + (0x100 + 8 * i)) page0) ∧
    wTile.peerCode (.mem (0x80000 + (0x100 + 8 * i)) page0) false .fab = none ∧
    wTile.sectorPoisoned (.mem (0x80000 + (0x100 + 8 * i)) page0) 8 = false by decide +kernel) i h

/-- Barrier 3 with one arrival pending, and with three; a released token; a barrier that expects nobody. Group 5's token is pending. -/
def wBar (pending : Nat) (t : Token) : State := withTeam fun x => ((x.setBar 3 ⟨15, pending, pending, []⟩).setToken 5 3 .pending).setToken 0 3 t

theorem witness_NamedBarriers :
    (∀ n ∈ [1, 3], (wBar n .none).cur.party.isGroup = true ∧ 1 ≤ ((wBar n .none).curTeam.bar 3).pending ∧ 1 ≤ ((wBar n .none).curTeam.bar 3).expected) ∧
    ((wBar 1 .none).curTeam.token 5 3 = .pending ∧ (wBar 1 .none).barBehind 3 = false) ∧
    (let s := (stream .copy []).mapTeam 0 fun x => (x.setBar 3 ⟨15, 1, 1, []⟩).setToken 17 3 (.released [])
     s.barBehind 3 = false ∧ 1 ≤ (s.curTeam.bar 3).pending ∧ s.curTeam.token 17 3 = .released [] ∧ s.cur.party.number = 17) ∧
    (wBar 1 .none).cleanPred k0 ∧ (wBar 3 .none).cleanPred k0 ∧
    ((List.range 32).countP fun l => (wBar 1 .none).cur.lanes.getLsbD l && (predOf ((wBar 1 .none).curGroup.lane l) k0).val) = 1 ∧
    ((wBar 1 .none).curTeam.bar 3).pending = 1 ∧
    (∃ evs, (wBar 1 (.released [])).curTeam.token 0 3 = .released evs) ∧ ((wBar 0 .none).curTeam.bar 3).expected = 0 ∧
    (∀ j ∈ [Instr.barWait 3 k0, .ubarWait 3],
      runsAs (.barWaitComplete ⟨0, .group 0⟩) (heldIn j (wBar 1 (.released []))) j (again j (wBar 1 (.released []))) .barWaitComplete ∧
        (again j (wBar 1 (.released []))).curTeam.token 0 3 = .released []) := by
  refine ⟨by decide, by decide, by decide, cleanPred_k0 rfl, cleanPred_k0 rfl, by decide, by decide, ⟨[], by decide⟩, by decide, ?_⟩
  intro j h
  simp only [List.mem_cons, List.not_mem_nil, or_false] at h
  obtain rfl | rfl := h <;> exact ⟨resumes _ _ _ rfl (by decide), by decide⟩

/-- A barrier at offset 0x100 of the scratchpad, phase 15, one arrival pending; s1 and v10:v11 address it. -/
def padBar : Nat := 0xFF_0000_0000_0100
def wTxb : State :=
  ((unit [(0, 1), (1, 15), (2, 0xF_FFFF), (10, 0x100), (11, 0xFF_0000)] [(1, 0xFF_0000_0000_0100), (2, 1)]).mapTeam 0
    fun x => { x with pad := [(0x100, 0x1F), (0x103, 1)] })

theorem lands_txb (s : State) (h : s = wTxb ∨ s = again (.txbWait (.v 10) (.v 0) k0) wTxb ∨ s = again (.utxbWait 1 2 0) wTxb) (l : Nat) (hl : l = 0) :
    s.lands s.cur.party.groupNo l 16 padBar (s.decodeGeneric s.cur.team padBar) .atomic false .fab (.pad 0 0x100) := by
  subst hl
  obtain rfl | rfl | rfl := h <;> exact ⟨by decide, by decide, .pad 0 0x100, by decide, by decide, by decide, by decide, fun _ => by decide⟩

theorem witness_TransactionBarriers :
    wTxb.cur.party.isGroup = true ∧ wTxb.cleanPred k0 ∧
    (∀ l, wTxb.active k0 l → wTxb.clean64 l [.v 10] ∧ wTxb.clean l [.v 0] ∧
      wTxb.lands 0 l 16 (wTxb.val64 l (.v 10)).toNat (wTxb.decodeGeneric 0 (wTxb.val64 l (.v 10)).toNat) .atomic false .fab (.pad 0 0x100)) ∧
    wTxb.active k0 0 ∧ (∀ l, wTxb.active k0 l → l ≤ 0) ∧ (wTxb.readS 1).tag = none ∧ (wTxb.readS 2).tag = none ∧
    wTxb.lands 0 0 16 ((wTxb.readS 1).val + (0 : BitVec 22).signExtend 64).toNat (wTxb.decodeGeneric 0 padBar) .atomic false .fab (.pad 0 0x100) ∧
    (wTxb.team 0).mapAt 0x100 = none ∧ wTxb.mayRelease true true ∧ (1 ≤ (wTxb.val 0 (.v 0)).toNat ∧ (wTxb.val 0 (.v 0)).toNat < 2 ^ 20) ∧
    (1 ≤ (wTxb.val 0 (.v 2)).toNat ∧ (wTxb.val 0 (.v 2)).toNat < 2 ^ 20) ∧ (1 ≤ (wTxb.readS 2).val.toNat ∧ (wTxb.readS 2).val.toNat < 2 ^ 20) ∧
    1 ≤ (wTxb.txb 0 0x100).pending ∧ (wTxb.txb 0 0x100).phase ≠ (wTxb.val 0 (.v 0)).toNat % 16 ∧
    ¬(wTxb.txb 0 0x100).phase ≠ (wTxb.val 0 (.v 1)).toNat % 16 ∧ (wTxb.txb 0 0x100).phase ≠ (wTxb.readS 2).val.toNat % 16 ∧
    runsAs (.txbWaitComplete ⟨0, .group 0⟩) (heldIn (.txbWait (.v 10) (.v 0) k0) wTxb) (.txbWait (.v 10) (.v 0) k0)
      (again (.txbWait (.v 10) (.v 0) k0) wTxb) .txbWaitComplete ∧
    runsAs (.txbWaitComplete ⟨0, .group 0⟩) (heldIn (.utxbWait 1 2 0) wTxb) (.utxbWait 1 2 0) (again (.utxbWait 1 2 0) wTxb) .txbWaitComplete :=
  ⟨rfl, cleanPred_k0 rfl, onlyActive rfl ⟨by unfold State.clean64; decide, by unfold State.clean; decide, lands_txb _ (.inl rfl) 0 rfl⟩,
    by unfold State.active; decide, onlyActive rfl (Nat.le_refl 0), by decide, by decide, lands_txb _ (.inl rfl) 0 rfl, by decide, by unfold State.mayRelease; decide +kernel, by decide, by decide,
    by decide, by decide, by decide, by decide, by decide, resumes _ _ _ rfl (by decide), resumes _ _ _ rfl (by decide)⟩

/-! ### Witnesses: steps and traps -/

def wBufs (buffered : Bool) : List (BitVec 56 × BitVec 32) := if buffered then [(BitVec.ofNat 56 (placedVa + 4), 2)] else []

/-- `add v1, v2, v0` placed for the next step, alone, and with a second lane at the word after it, in its loop buffer; in the collector
with its grants, and with no turn named. -/
def wStep (buffered : Bool) : State :=
  let s := State.reset.place 0x0101_0200
  if buffered then
    s.mapTeam 0 fun x =>
      { x.setGroup 0 ((x.group 0).setLane 1
          { Lane.unlaunched with cond := .live, pc := BitVec.ofNat 56 (placedVa + 4), winBase := placedVa + 4, winEnd := placedVa + 8 }) with
        collector := x.collector.map fun e => (e.1, e.2.map fun k => { k with bufs := wBufs true }) }
  else s

def wFocus : State := { (wStep false).mapTeam 0 fun x => { x with collector := [] } with agenda := [] }

/-- The state in which a turn acts. -/
def turned (s : State) (u : Turn) (us : List Turn) : State := ({ (s.tick.passClks u.clks).1 with agenda := us } : State).passNs u.ns

def wTurn (buffered : Bool) : State := turned (wStep buffered) ⟨[], 0, .issue ⟨0, .group 0⟩ 0⟩ []
def wLeft (buffered : Bool) : State := (wTurn buffered).mapTeam 0 fun x => { x with collector := Map.set [] x.collector 0 [] }
def wPicked : State := (turned wFocus wFocus.defaultTurn []).atFocus

def kPicked : Picked := ⟨0, some (BitVec.ofNat 56 placedVa), [], wPicked.nextUniform 0 0 0, (wPicked.issueRegs 0 0 [] (some (BitVec.ofNat 56 placedVa))).1, (wPicked.issueRegs 0 0 [] (some (BitVec.ofNat 56 placedVa))).2⟩
def wGone : State :=
  ((wPicked.mapTeam 0 fun x => x.tookSlot 0 (wPicked.clkOf 0) (wPicked.nextUniform 0 0 0)).gather 0 kPicked).mapTeam 0 fun x =>
    { x with collector := Map.set [] x.collector 0 [] }

theorem turns_focus {s : State} {q : PartyRef} (ha : s.agenda = [])
    (h : s.focus = q ∧ (s.tick.passClks s.defaultTurn.clks).2 = [] ∧ (turned s s.defaultTurn []).focus = q ∧
      ((turned s s.defaultTurn []).atFocus).wantsUnit q = false ∧ ((turned s s.defaultTurn []).atFocus).waitOf q = none) :
    s.turnsTo q (turned s s.defaultTurn []).atFocus :=
  .inr ⟨_, ha, h.1, ⟨h.2.1, rfl⟩, h.2.2.1, rfl, h.2.2.2.1, by rw [h.2.2.2.2]; intro w h; cases h⟩

/-- From the collector, alone and with a buffered lane; and picked from the focus, with its grants at once. -/
theorem witness_StepRunsGroupWord :
    (∀ b, (wStep b).turnsTo ⟨0, .group 0⟩ (wTurn b) ∧ (wTurn b).executesNow (wLeft b) 0 0 (wBufs b) (some (BitVec.ofNat 56 placedVa)) ∧
      (wTurn b).lates = [] ∧ (((wTurn b).team 0).group 0).replayable = false ∧ (wTurn b).lateArrivals 0 0 = [] ∧ (wTurn b).hasRaced 0 = false) ∧
    (let q := wLeft false
     q.stillBuffered 0 0 (wBufs false) = [] ∧ (q.team 0).beyondQuota 0 (.add 1 (.v 2) (.v 0)) = false ∧
       q.cannotIssue 0 0 (.add 1 (.v 2) (.v 0)) = false) ∧
    (wLeft false).holdsAt 0 (.group 0) placedVa (.add 1 (.v 2) (.v 0)) 0x0101_0200 0 ∧
    (wLeft true).stillBuffered 0 0 (wBufs true) = wBufs true ∧ keepsLate (.add 1 (.v 2) (.v 0)) 0x0101_0200 = true ∧
    wFocus.turnsTo ⟨0, .group 0⟩ wPicked ∧
    wPicked.executesNow wGone 0 0 [] (some (BitVec.ofNat 56 placedVa)) := by
  refine ⟨fun b => ⟨.inl ⟨⟨[], 0, .issue ⟨0, .group 0⟩ 0⟩, [], by cases b <;> rfl, rfl, rfl, rfl⟩, ⟨?_, .inl ⟨false, [], rfl, [], ?_, rfl, ?_⟩⟩, ?_⟩, by decide +kernel,
    ⟨by decide, of_toOption (by decide +kernel), by rw [if_neg (by decide)], by decide, by decide, of_toOption (by decide +kernel)⟩, by decide +kernel, by decide,
    turns_focus rfl (by decide +kernel), by decide +kernel, .inr ⟨by decide +kernel, by decide +kernel, by decide +kernel, by decide +kernel,
      by decide +kernel, .inr ⟨by decide +kernel, by decide +kernel, by decide +kernel, rfl, [], by decide +kernel, rfl, by decide +kernel⟩⟩⟩ <;> cases b <;> decide +kernel

/-- `mwait` and `cwait` placed for a sequencer; and an event, and a release, of an agenda. -/
theorem witness_StepRunsStreamWord :
    (∀ o ∈ [(0xA100_0000, Party.matrix, Instr.mwait), (0xB500_0000, .copy, .cwait)],
      let s := State.reset.place o.1
      let p := turned s ⟨[], 0, .issue ⟨0, o.2.1⟩ 0⟩ []
      s.turnsTo ⟨0, o.2.1⟩ p ∧ ((p.team 0).residency = .resident ∧ ((p.team 0).stream o.2.1).state = .running ∧ ((p.team 0).stream o.2.1).failing = none ∧ ((p.team 0).stream o.2.1).wait = none ∧
        p.inIssueCycle 0 = true ∧ p.unpicked 0 (streamKey o.2.1) = true ∧ p.hasRaced 0 = false ∧ ((p.team 0).stream o.2.1).sourcesReady o.2.2 = true) ∧
        p.holdsAt 0 o.2.1 placedVa o.2.2 (BitVec.ofNat 32 o.1) 0) ∧
    ∀ a ∈ [Act.event (.packageReset [] true), .event (.carriveArrival 0 0), .event (.waitvSatisfied ⟨0, .group 0⟩ 0),
        .event (.barWaitComplete ⟨0, .group 0⟩), .host (.look 0 0), .release 0],
      let u : Turn := ⟨[(0, 8)], 1, a⟩
      let s := { State.reset with agenda := [u] }
      s.agenda = [u] ∧ s.timePasses u [] (turned s u []) := by
  refine ⟨?_, ?_⟩
  · intro o h
    simp only [List.mem_cons, List.not_mem_nil, or_false] at h
    obtain rfl | rfl := h <;>
      exact ⟨.inl ⟨_, [], rfl, rfl, rfl, rfl⟩, by decide +kernel, by decide, of_toOption (by decide +kernel), by rw [if_neg (by decide)],
        by decide, by decide, of_toOption (by decide +kernel)⟩
  · intro a h
    exact ⟨rfl, by cases a <;> rfl, rfl⟩

theorem witness_StepKeepsMemoryForm : State.reset.Inv ∧ (wStep false).Inv ∧ ∃ t, step (wStep false) = .next t :=
  ⟨by unfold State.Inv; decide, by unfold State.Inv; decide, _, rfl⟩

theorem witness_InstructionRoundTrip :
    (Instr.add 223 (.v 223) (.s 31)).wellFormed = true ∧ encode (.add 223 (.v 223) (.s 31)) = some ⟨0x01DF_DFFF, none⟩ ∧
      (Instr.undefinedOpcode 0x7A00_0000).wellFormed = true := by decide

/-- `wv` in a context with a handler; in handler mode; and with a record at 0x180 to return to. -/
def wHandled : State := { wv with ctxs := [(0, { wv.curCtx with handler := 0x4000 })] }
def wInHandler : State := wv.mapCurGroup fun y => { y.writeS 28 (clear 0x180) with handler := true }

theorem of_isOk {ε α : Type} {e : Except ε α} (h : e.isOk = true) : ∃ x, e = .ok x := by
  cases e with
  | error _ => cases h
  | ok y => exact ⟨y, rfl⟩

theorem witness_TrapEntersHandler :
    wHandled.cur.party.isGroup = true ∧ wHandled.curGroup.handler = false ∧ wHandled.curCtx.handler ≠ 0 ∧
    (∃ s1, wHandled.writeRecord 0 0 (wHandled.recordOf { code := 4, lanes := 1, addr := 2 }) = .ok s1) ∧
    wHandled.recordAddr 0 0 = 0 ∧ (wHandled.devKey 0 0 .write).toOption = some 0x80000 ∧ 0 % 2 ^ 18 + 384 ≤ 2 ^ 18 :=
  ⟨by decide, by decide, by decide, of_isOk (by decide +kernel), by decide, by decide +kernel, by decide⟩

theorem witness_TrapEndsGrid :
    (wInHandler.cur.party.isGroup = true ∧ wInHandler.curGroup.handler = true ∧
      ∃ s1, wInHandler.writeRecord 0 0 (wInHandler.recordOf { code := 4, flags := 0 ||| recDouble }) = .ok s1) ∧
    (wv.curGroup.handler = false ∧ wv.curCtx.handler = 0 ∧ ∃ s1, wv.writeRecord 0 0 (wv.recordOf { code := 0x85, lanes := 1 }) = .ok s1) :=
  ⟨⟨by decide, by decide, of_isOk (by decide +kernel)⟩, by decide, by decide, of_isOk (by decide +kernel)⟩

/-- The record at 0x180 of page 0, as 48 parts of 8 bytes. -/
theorem witness_HandlerInstructions :
    wInHandler.cur.party.isGroup = true ∧ wInHandler.curGroup.handler = true ∧ wInHandler.noWrites ∧ (wInHandler.readS 28).val.toNat = 0x180 ∧ 0x180 % 8 = 0 ∧
      (∀ i, i < 48 → (wInHandler.performOwn .team).recordUnit 0 0 (0x180 + 8 * i) = .ok (.mem (0x80180 + 8 * i) page0) ∧
        (wInHandler.performOwn .team).peerCode (.mem (0x80180 + 8 * i) page0) false .team = none ∧
        (wInHandler.performOwn .team).sectorPoisoned (.mem (0x80180 + 8 * i) page0) 8 = false ∧ wInHandler.steady (.mem (0x80180 + 8 * i) page0)) ∧
      wv.curGroup.handler = false :=
  ⟨by decide, by decide, empty_log rfl, by decide, by decide, fun i h =>
    have q := (show ∀ i, i < 48 → (wInHandler.performOwn .team).recordUnit 0 0 (0x180 + 8 * i) = .ok (.mem (0x80180 + 8 * i) page0) ∧
      (wInHandler.performOwn .team).peerCode (.mem (0x80180 + 8 * i) page0) false .team = none ∧
      (wInHandler.performOwn .team).sectorPoisoned (.mem (0x80180 + 8 * i) page0) 8 = false by decide +kernel) i h
    ⟨q.1, q.2.1, q.2.2, trivial⟩, by decide⟩

/-- Lane 0 arrived at a `shfl` at clk 0; it is now clk 2^20. Lane 1 is live elsewhere. -/
def wLate : State :=
  { (wv.mapCurGroup fun y => (y.setLane 0 { y.lane 0 with arrived := some ⟨0, .shfl .idx 1 (.v 1) (.v 2) 0 k0, wv.cur⟩ }).setLane 1
      { Lane.unlaunched with cond := .live, pc := 0x40 }) with clk := [(0, 2 ^ 20)] }

/-- A team that has waited in `rdv` for its context's watchdog interval; its streams wait too. -/
def wWatched : State :=
  let wait (j : Instr) (p : Party) : Option Wait := some ⟨j, { wv.cur with party := p }, 0⟩
  { (wv.mapTeam 0 fun x => { (x.setGroup 0 { x.group 0 with wait := wait .rdv (.group 0) }) with
      matrix := { x.matrix with wait := wait .mwait .matrix }, copy := { x.copy with wait := wait (.ubarWait 1) .copy } }) with gtime := 100000000 }

theorem witness_TimeoutTraps :
    (let a : Arrival := ⟨0, .shfl .idx 1 (.v 1) (.v 2) 0 k0, wv.cur⟩
     ((wLate.team 0).group 0).lane 0 = { ((wLate.team 0).group 0).lane 0 with cond := .live, arrived := some a } ∧
       2 ^ 20 ≤ wLate.clkOf 0 - a.since ∧ convC a.instr = some 0 ∧
       wLate.cur.party.isGroup = true ∧ wLate.cur.lanes.getLsbD 0 = true ∧ (participants wLate.curGroup 0).getLsbD 0 = true ∧ 2 ^ 20 ≤ wLate.now - a.since) ∧
    wWatched.watchdogDue 0 = true ∧ (wWatched.team 0).residency = .resident ∧
    (∃ i, ((wWatched.team 0).group 0).watchedIssue = some i) ∧ ((wWatched.team 0).group 1).watchedIssue = none ∧
    (∃ w, wWatched.waitOf ⟨0, .matrix⟩ = some w) ∧ (∃ w, wWatched.waitOf ⟨0, .copy⟩ = some w) ∧ wv.waitOf ⟨0, .copy⟩ = none :=
  ⟨by decide, by decide, by decide, ⟨_, rfl⟩, by decide, ⟨_, rfl⟩, ⟨_, rfl⟩, by decide⟩

/-- A matrix engine with an `accsc` that has begun nothing, whose factors are not readable: ACCESS is due. -/
def opAt (id : Nat) (i : Instr) (phase : EnginePhase) : EngineOp :=
  ⟨id, i, { wv.cur with party := .matrix }, 0, 0x100, 0, .closed, phase, 0, 0, [], [], [], [], 0, 0⟩

/-- A team whose matrix engine holds an instruction, on weaves of a mode. -/
def wEngine (ops : List EngineOp) (mode : WeaveMode) : State :=
  (stream .matrix [(1, 0x100), (2, 3)]).mapTeam 0 fun x =>
    { x with engine := ops, nextOp := 9, banks := 0xFFFF, weaves := (List.range 4).map fun w => (w, ⟨mode, 8, false, []⟩) }

theorem witness_StreamTrapStops :
    ((stream .copy []).cur.party ≠ .group (stream .copy []).cur.party.groupNo ∧
      (∃ s1, (stream .copy []).writeRecord 0 17 ((stream .copy []).recordOf { code := 2 }) = .ok s1) ∧ (stream .copy []).curTeam.allEnded = false) ∧
    (let s := wEngine [opAt 3 (.accsc 0 0 1 1 0) .issued] .compute
     let o := opAt 3 (.accsc 0 0 1 1 0) .issued
     (s.team 0).opOf 3 = some o ∧ o.phase ≠ .done ∧ (s.team 0).residency = .resident ∧ s.deferredCode 0 o = some 9 ∧ (s.team 0).matrix.state = .running ∧ (s.team 0).matrix.failing = none ∧
       let u : State := { s.setTeam 0 { s.team 0 with engine := [] } with cur := { o.issue with team := 0, party := .matrix } }
       ∃ s1, u.writeRecord 0 16 (u.recordOf { code := 9, flags := 32, lastIssued := (s.team 0).matrix.lastIssued, completed := completedMask [] }) = .ok s1) ∧
    (let s := wEngine [opAt 2 (.wload 1 3 2 0) .started, opAt 3 (.accsc 0 0 1 1 0) .issued] .compute
     let o := opAt 3 (.accsc 0 0 1 1 0) .issued
     (s.team 0).opOf 3 = some o ∧ s.deferredCode 0 o = some 9 ∧
       ∃ e ∈ (s.team 0).engine.filter fun e => decide (e.id ≠ o.id) && (decide (e.id < o.id) || e.begun), e.phase ≠ .done) ∧
    (let o := { opAt 3 (.mma ⟨1, 0, false, 0, 0, 0, 0, 0, 0⟩ 0) .started with rows := 16 }
     let f : Failing := ⟨o.issue, 9, 0⟩
     let s := (wEngine [o] .compute).mapTeam 0 fun x => { x with matrix := { x.matrix with failing := some f } }
     (s.team 0).opOf 3 = some o ∧ o.phase ≠ .done ∧ (s.team 0).residency = .resident ∧ (s.team 0).matrix.failing = some f ∧
       (∀ e ∈ (s.team 0).engine, e.id ≠ 3 → e.phase = .done) ∧
       let u : State := { s with cur := { f.issue with team := 0, party := .matrix } }
       ∃ s1, u.writeRecord 0 16 (u.recordOf { code := 9, flags := 32, lastIssued := (s.team 0).matrix.lastIssued, completed := 0 }) = .ok s1) :=
  ⟨⟨by decide, of_isOk (by decide +kernel), by decide⟩, ⟨by decide +kernel, by decide, by decide, by decide +kernel, by decide, rfl, of_isOk (by decide +kernel)⟩,
    ⟨by decide +kernel, by decide +kernel, by decide +kernel⟩, by decide +kernel, by decide, by decide, rfl, by decide, of_isOk (by decide +kernel)⟩

/-! ### Witnesses: teams, rotation, weaves, launches -/

/-- Both streams idle; both stopped with records; the matrix stream ended. -/
def wStreams (m c : StreamState) : State :=
  withTeam fun x =>
    { x with matrix := { x.matrix with state := m, record := some (wv.recordOf { code := 9 }) }
             copy := { x.copy with state := c, record := some (wv.recordOf { code := 6 }) } }

theorem witness_ForkAndJoin :
    (∀ s ∈ [wStreams .idle .idle, wStreams .running .idle, wStreams .ended (.stopped 6)], s.cur.party.isGroup = true) ∧
    (wStreams .running .idle).curTeam.matrix.state = .running ∧ (wStreams .ended .idle).curTeam.matrix.state = .ended ∧
    ¬((wStreams (.stopped 9) .idle).curTeam.matrix.state = .running ∨ (wStreams (.stopped 9) .idle).curTeam.matrix.state = .ended) ∧
    runsAs (.rdvComplete ⟨0, .group 0⟩) (heldIn .rdv (wStreams .ended .idle)) .rdv (again .rdv (wStreams .ended .idle)) .rdvComplete ∧
    (let x := (again .rdv (wStreams .ended .idle)).curTeam
     x.matrix.code = none ∧ x.copy.code = none ∧ x.matrix.state ≠ .running ∧ x.copy.state ≠ .running) ∧
    (let x := (wStreams (.stopped 9) (.stopped 6)).curTeam
     x.matrix.code = some 9 ∧ ∃ r, x.matrix.record = some r) ∧
    (let x := (wStreams .ended (.stopped 6)).curTeam
     x.matrix.code = none ∧ x.copy.code = some 6 ∧ ∃ r, x.copy.record = some r) :=
  ⟨by decide, by decide, by decide, by decide, resumes _ _ _ rfl (by decide), by decide, ⟨by decide, _, rfl⟩, by decide, by decide, _, rfl⟩

theorem witness_RegistersAndYield :
    wv.cur.party.isGroup = true ∧
      (let s := wv.mapCurGroup fun y => (y.setLane 0 { y.lane 0 with pend := [135] }).setLane 1 { y.lane 0 with pend := [] }
       (s.mapCurGroup fun y => { y with granted := 0x30000 }).curTeam.unitBusy 0 16 = true ∧
         (s.mapCurGroup fun y => { y with granted := 0x30000 }).curTeam.unitBusy 0 17 = false) := by decide

/-- A role of quota 4 and budget 8: the group waits at an instruction that names v40, of unit 5. -/
def wUnits (free : Bool) : State :=
  { ((withTeam fun x => { x with roles := [(0, ⟨placedVa, 2, if free then 4 else 16, 8⟩)], nGroups := if free then 1 else 16 }).mapTeam 0 fun x =>
      { (x.setGroup 0 { x.group 0 with wait := some ⟨.mov 136 (.v 0), wv.cur, 0⟩ }) with
        groups := Map.put (Map.put x.groups 0 { x.group 0 with wait := some ⟨.mov 136 (.v 0), wv.cur, 0⟩ }) 4
          { x.group 0 with granted := 0xFFFF0000, grantTime := [], wait := none } }) with clk := [(0, 256)] }

/-- A load of lane 0 whose value is late, of 4 bytes of page 0. -/
def wLateLoad : State :=
  { wv with lates := [⟨0, .group 0, some 0, 9, .b32, [1], none⟩]
            log := [⟨1, 1, wv.agentOf 0 0, .plain, .team, false, false, [0x80100, 0x80101, 0x80102, 0x80103], [], 0, [], [], [], false, false, [], 0, 0⟩] }

theorem witness_CoreEvents :
    (let s := wUnits true
     s.waitOf ⟨0, .group 0⟩ = some ⟨.mov 136 (.v 0), wv.cur, 0⟩ ∧ ((s.team 0).settle).unbacked 0 (.mov 136 (.v 0)) = [17] ∧
       (s.team 0).settle.residency = .resident ∧ ((s.team 0).settle.group 0).releasing.getLsbD 17 = false ∧ 0 < (s.team 0).settle.freePool (quadrantOf 0)) ∧
    ((wUnits false).team 0).settle.lent 0 ((wUnits false).clkOf 0) ≠ [] ∧
    (let s := (wUnits false).mapTeam 0 fun x => { x with area := some 0x10_0000 }
     let x := (s.team 0).settle
     x.unbacked 0 (.mov 136 (.v 0)) = [17] ∧ x.freePool (quadrantOf 0) = 0 ∧ x.area = some 0x10_0000 ∧
       ∃ v, pickLent (x.lent 0 (s.clkOf 0)) = some v ∧ v.group = 4 ∧ ((x.group v.group).lane 0).cond ≠ .never) ∧
    (∀ x ∈ wv.lates, x.of 0 (.group 0) = false) ∧
    (wLateLoad.lates.filter (fun x => x.of 0 (.group 0)) = [⟨0, .group 0, some 0, 9, .b32, [1], none⟩] ∧ (wv.team 0).residency ≠ .ended ∧ wLateLoad.noWrites) ∧
    (let a : Agent := wv.agentOf 0 0
     let e : MEvent := ⟨1, 1, a, .plain, .team, false, false, [], [(0x80100, 0, 5)], 0, [], [], [], false, false, [], 1, 0⟩
     let s := { wv with log := [] ++ e :: [] }
     (sameAgent e.agent (s.agentOf 0 0) = true ∧ e.performed = false ∧ e.wr ≠ []) ∧ (∀ f ∈ ([] : List MEvent), f.id ≠ e.id)) ∧
    16 ≤ ({ wv with clk := [(0, 16)] } : State).clkOf 0 - (wv.team 0).levelTime :=
  ⟨by decide, by decide, ⟨by decide, by decide, by decide, _, rfl, by decide, by decide⟩, by decide, ⟨by decide, by decide, by unfold State.noWrites; decide⟩, by decide, by decide⟩

/-- The context rotates on request; a second team stands on tile 5 of the cluster; 250 µs have passed. -/
def wRotate (mode : Nat) : State :=
  { wv with
    ctxs := [(0, { wv.curCtx with rotation := mode })], gtime := 10 ^ 10,
    clusters := [(0, { Cluster.reset with reloc := [(0, ⟨none, 0, 0, 0⟩), (5, ⟨none, 0, 1, 1⟩)] })]
    teams := Map.put wv.teams 1 { Team.absent with residency := .resident, tile := 5, slot := 1 } }

theorem team_all {P : Team → Prop} (h0 : P Team.absent) {s : State} (h : ∀ e ∈ s.teams, P e.2) (u : Nat) : P (s.team u) := by
  have hm : ∀ m : Map Team, (∀ e ∈ m, P e.2) → P (Map.get Team.absent m u) := by
    intro m
    induction m with
    | nil => intro _; exact h0
    | cons e m ih =>
      intro hm
      by_cases he : e.1 = u
      · simpa [Map.get, he] using hm e List.mem_cons_self
      · simpa [Map.get, he] using ih fun x hx => hm x (List.mem_cons_of_mem _ hx)
  exact hm s.teams h

theorem witness_Rotation :
    wv.curCtx.rotation ≠ 6 ∧
    ((wRotate 6).cur.party.isGroup = true ∧ (wRotate 6).curCtx.rotation = 6 ∧
      (wRotate 6).partnerOk 0 = true ∧ (∃ i, i < 192 ∧ i ≠ (wRotate 6).curTeam.tile ∧ (wRotate 6).destOk 0 i = true) ∧
      (wRotate 6).lates = [] ∧ (wRotate 6).curGroup.releasing = 0 ∧
      (∀ u w, (((wRotate 6).team u).weave w).mode.switching = false) ∧ (∀ u, ((wRotate 6).team u).matrix.failing = none) ∧
      (∀ i, i ≠ (wRotate 6).curTeam.tile → (wRotate 6).tileTeam (wRotate 6).curTeam.cluster i ≠ some (wRotate 6).cur.team)) ∧
    (((wRotate 1).cluster 0).considered + 250000 ≤ (wRotate 1).gtime ∧ (wRotate 1).pairsOk 0 [(0, 5)] = true ∧ (wRotate 1).tileTeam 0 0 = some 0) ∧
    (let s := (wRotate 6).mapTeam 0 fun x => { x with residency := .moving none }
     (s.team 0).residency = .moving none ∧ ∀ h ∈ (s.cluster (s.team 0).cluster).buffer, h.team ≠ 0) := by
  refine ⟨by decide, ⟨by decide, by decide, by decide, ⟨191, by decide⟩, by decide, by decide, fun u w => ?_, team_all (P := fun x => x.matrix.failing = none) rfl (by decide), fun i hi h => ?_⟩, by decide, by decide⟩
  · have hw : ((wRotate 6).team u).weaves = [] := team_all (P := fun x => x.weaves = []) rfl (by decide) u
    unfold Team.weave
    rw [hw]
    rfl
  have h0 : i ≠ 0 := hi
  have h1 : (wRotate 6).tileTeam 0 i = some 0 := h
  have h5 : (0 : Nat) ≠ i := fun e => h0 e.symm
  simp only [State.tileTeam, wRotate, State.cluster, Map.get, lookup?, h5, if_true, if_false] at h1
  split at h1 <;> simp at h1

/-- Weave 3 in each mode. -/
def wWeave (m : WeaveMode) : State := { (withTeam fun x => { x with weaves := [(3, ⟨m, 4, false, []⟩)] }) with clk := [(0, 24)] }

theorem sinceResumes (j : Instr) (s : State) (hp : s.cur.party = .group 0) (ht : s.cur.team = 0)
    (h : (heldIn j s).waitOf ⟨0, .group 0⟩ = some ⟨j, s.cur, s.now⟩ ∧ ((heldIn j s).team 0).residency = .resident) :
    runsSince (.wmodeSwitchPoint ⟨0, .group 0⟩) (heldIn j s) j (again j s) .wmodeSwitchPoint s.now :=
  .inr ⟨⟨0, .group 0⟩, _, rfl, ⟨h.1, rfl, by rw [ht, hp], h.2⟩, by unfold again; rw [hp]; rfl, rfl⟩

/-- A party waits for a switch that ends now; no other party waits for it. -/
def wSwitching : State :=
  (wWeave (.toCompute 24)).mapTeam 0 fun x => x.setGroup 0 { x.group 0 with wait := some ⟨.weaveSwitchEnd 0 3, wv.cur, 0⟩ }

theorem witness_WeaveModes :
    (∀ m ∈ [WeaveMode.compute, .storage], (wWeave m).chained = false ∧ (wWeave m).wmodeReady 0 (.group 0) 3 24 = true ∧ ((wWeave m).curTeam.weave 3).mode = m ∧
      (again (.wmodeComp 3 7 false true) (wWeave m)).chained = false ∧ (heldIn (.wmodeComp 3 7 false true) (wWeave m)).wmodeReady 0 (.group 0) 3 24 = true) ∧
    (∀ m ∈ [WeaveMode.compute, .storage], ∀ j ∈ [Instr.wmodeComp 3 7 false true, .wmodeStore 3],
      runsSince (.wmodeSwitchPoint ⟨0, .group 0⟩) (heldIn j (wWeave m)) j (again j (wWeave m)) .wmodeSwitchPoint 24) ∧
    (wSwitching.waitOf ⟨0, .group 0⟩ = some ⟨.weaveSwitchEnd 0 3, wv.cur, 0⟩ ∧ Party.group 0 ∈ parties ∧
      (∀ q ∈ parties, q ≠ .group 0 → wSwitching.waitOf ⟨0, q⟩ = none) ∧ ((wSwitching.team 0).weave 3).mode = .toCompute 24 ∧
      24 ≤ wSwitching.clkOf 0 ∧ ((wSwitching.team 0).weave 3).mode.switching = true) := by
  refine ⟨by decide, fun m hm j hj => ?_, by decide⟩
  simp only [List.mem_cons, List.not_mem_nil, or_false] at hm hj
  obtain rfl | rfl := hm <;> obtain rfl | rfl := hj <;> exact sinceResumes _ _ rfl rfl (by decide)

/-- Queue 255 of the context has room, or not; s1 addresses the record, at 0x100. -/
def wLaunch (size : Nat) : State :=
  { wv with
    hostQueues := [(255, ⟨some 0, List.replicate 16 ⟨[], []⟩, none, 0⟩)]
    blocks := [(255, { QueueRegs.reset with enable := true, size := size })] }

/-- An event at 0x100 that has completed with status 7. -/
def wEvent (state : Nat) : State := { wv with mem := writeBytes wv.mem 0x80100 (leBytes 8 (state + 7 * 2 ^ 32)) }

theorem event_lands (s : State) (h : s ∈ [wEvent 2, wEvent 1, again (.ufenceWait 4 1) (wEvent 2)]) :
    s.lands 0 0 8 (s.readS 1).val.toNat (uniformReach s .gen (s.readS 1).val.toNat) .read false .fab (.mem 0x80100 page0) := by
  simp only [List.mem_cons, List.not_mem_nil, or_false] at h
  obtain rfl | rfl | rfl := h <;> exact lands_page0 (a := 0x100) (by decide +kernel)

theorem witness_LaunchAndWait :
    (∀ n ∈ [4, 5], (wLaunch n).cur.party.isGroup = true ∧ ((wLaunch n).readS 1).tag = none ∧ (wLaunch n).heldWriteBacks 0 = [] ∧ (wLaunch n).heldOf (wLaunch n).curAgent = false ∧
      (255 : BitVec 8).toNat < queueCount (wLaunch n).curCtx.mode ∧ (wLaunch n).curCtx.hwQueue 255 = 255 ∧ ((wLaunch n).hostQueue 255).owner = some 0) ∧
    (wLaunch 4).queueFull 255 = true ∧ (wLaunch 5).queueFull 255 = false ∧
    (∀ n ∈ [4, 5], let s0 := ((wLaunch n).released true).fenceRelOp .fab
      s0.lands 0 0 128 0x100 (uniformReach (wLaunch n) .gen 0x100) .read false .fab (.mem 0x80100 page0) ∧ s0.noWrites ∧ (wLaunch n).steady (.mem 0x80100 page0)) ∧
    (∀ s ∈ [wEvent 2, wEvent 1, again (.ufenceWait 4 1) (wEvent 2)], s.cur.party.isGroup = true ∧ (s.readS 1).tag = none ∧ s.noWrites ∧
      s.steady (.mem 0x80100 page0) ∧ (s.readS 1).val.toNat % 16 = 0 ∧ s.lands 0 0 8 (s.readS 1).val.toNat (uniformReach s .gen (s.readS 1).val.toNat) .read false .fab (.mem 0x80100 page0)) ∧
    leValue ((List.range 4).map ((wEvent 2).byteAt (.mem 0x80100 page0))) = 2 ∧ leValue ((List.range 4).map ((wEvent 1).byteAt (.mem 0x80100 page0))) = 1 ∧
    runsAs (.ufenceWaitComplete ⟨0, .group 0⟩) (heldIn (.ufenceWait 4 1) (wEvent 2)) (.ufenceWait 4 1) (again (.ufenceWait 4 1) (wEvent 2)) .ufenceWaitComplete := by
  refine ⟨by decide, by decide, by decide, fun n hn => ?_, fun s hs => ⟨?_, ?_, ?_, trivial, ?_, event_lands s hs⟩, by decide +kernel, by decide +kernel,
    resumes _ _ _ rfl (by decide)⟩
  · simp only [List.mem_cons, List.not_mem_nil, or_false] at hn
    obtain rfl | rfl := hn <;>
      exact ⟨lands_page0 (by decide +kernel), by unfold State.noWrites; decide +kernel, trivial⟩
  all_goals
    simp only [List.mem_cons, List.not_mem_nil, or_false] at hs
    obtain rfl | rfl | rfl := hs <;> first | exact empty_log rfl | decide

/-! ### Witnesses: the matrix stream -/

/-- Weaves 0 and 1 in compute mode, slots 7 and 0 full of INT8 rows, every bank held, handle 15 a tile of one column. -/
def wMatrix : State :=
  (wEngine [] .compute).mapTeam 0 fun x =>
    { x with slots := [(7, ⟨[], 15, 0x70, false⟩), (0, ⟨[], 15, 0x70, false⟩)], handles := [(15, BitVec.ofNat 256 (tileOf + 0x100))] }

def mmaW : MmaX := ⟨3, 0, false, 1, 0, 7, 7, 1, 30⟩

theorem witness_MatrixIssue :
    let s := wMatrix
    let x := s.curTeam
    s.cur.party = .matrix ∧ (x.engine.filter fun o => decide (o.phase ≠ .done)).length < 32 ∧ (s.readS 1).tag = none ∧
    ((List.range 4).filter fun i => mmaW.mask.getLsbD i) = [0, 1] ∧ x.banksHeld 0 (2 * (x.mmaBanksIssue mmaW).toNat) = true ∧ 1 ≤ x.mmaBanksIssue mmaW ∧
    (∀ w ∈ [0, 1], x.wloadOn w = false ∧ (x.weave w).mode = .compute ∧ (x.weave w).n = (x.weave 0).n ∧ (x.weave w).bin1 = (x.weave 0).bin1) ∧
    128 * mmaW.cb.toNat < weaveCols (x.weave 0).n ∧ (∀ p ∈ mmaSlots mmaW, x.slotReady p = true ∧ (x.slotAt p).broken = false) ∧
    s.mmaSlotsOk mmaW [0, 1] = true ∧ x.matrix.chain = .closed ∧ x.banksHeld (0x100 % 16 + 15) 1 = true ∧
    (let s := (stream .matrix [(1, 0xFF_0000_0007_FFC0)]).mapTeam 0 fun x => { x with banks := 0xFFFF }
     (s.readS 1).tag = none ∧ s.decodeGeneric 0 0xFF_0000_0007_FFC0 = some (.pad 0 0x7FFC0) ∧ 0x7FFC0 + 64 ≤ 2 ^ 19 ∧
       (∀ w ∈ weavesOf 0x7FFC0 64, (s.curTeam.weave w).mode = .storage) ∧ s.curTeam.banksHeld 15 1 = true ∧
       (s.probeRange 0 .read (0xFF_0000_0007_FFC0, 64) []).isOk = true) ∧
    lookup? x.handles 15 = some (BitVec.ofNat 256 (tileOf + 0x100)) ∧ 31 + (Tile.ofNat (tileOf + 0x100)).segs ≤ 32 ∧
    127 + (Tile.ofNat (tileOf + 0x100)).cols ≤ weaveCols (Tile.ofNat (tileOf + 0x100)).elemBits ∧
    (s.probeAll 0 .read (Tile.ofNat (tileOf + 0x100)).ranges []).isOk = true ∧
    (∀ o ∈ x.engine, o.phase = .done ∨ o.chain = .closed) := by decide +kernel

theorem witness_MatrixStreamWaits :
    (let s := stream .matrix []
     s.cur.party = .matrix ∧ s.curTeam.matrix.chain = .closed ∧ s.curTeam.matrix.failing = none ∧ (∀ o ∈ s.curTeam.engine, o.phase = .done) ∧ s.curTeam.allEnded = false ∧
       runsAsStream (.mwaitComplete 0) (heldIn .mwait s) .mwait (again .mwait s) .matrix .mwaitComplete ∧
       runsAsStream (.mendComplete 0) (heldIn .mend s) .mend (again .mend s) .matrix .mendComplete ∧
       (again .mend s).curTeam.allEnded = false) ∧
    (let s := (wEngine [opAt 3 (.marrive 15) .issued] .storage).mapTeam 0 fun x => x.setBar 15 ⟨0, 2, 1, []⟩
     (s.team 0).opOf 3 = some (opAt 3 (.marrive 15) .issued) ∧ (s.team 0).residency = .resident ∧ (s.team 0).matrix.failing = none ∧
       (∀ e ∈ (s.team 0).engine, e.id < 3 → e.phase = .done) ∧ 1 ≤ ((s.team 0).bar 15).pending) :=
  ⟨⟨by decide, by decide, rfl, by decide, by decide, resumesStream _ _ _ _ rfl (by decide), resumesStream _ _ _ _ rfl (by decide), by decide⟩, by decide⟩

/-- An `mma` at a number of rows and passes. At RPT 7 its two segments' passes come first, 32 in all, else those of each row. -/
def mmaAt (rpt : BitVec 3) (rows seg : Nat) : EngineOp :=
  { opAt 3 (.mma { mmaW with rpt := rpt } 1) .issued with rows := rows, seg := seg, acts := [⟨[], 15, 0x70, false⟩, ⟨[], 15, 0x70, false⟩] }

theorem witness_MatrixExecution :
    (∀ r ∈ [mmaAt 7 0 0, mmaAt 7 0 32, mmaAt 6 0 0, mmaAt 6 0 2, mmaAt 6 15 32, mmaAt 7 16 32], let s := wEngine [r] .compute
      (s.team 0).opOf 3 = some r ∧ r.phase ≠ .done ∧ (s.team 0).residency = .resident ∧ (s.team 0).matrix.failing = none ∧ (s.team 0).mmaDue r = true) ∧
    (∀ k ∈ [6, 7], let o := mmaAt k 0 0
      let m := { mmaW with rpt := k }
      let s := { wEngine [o] .compute with clk := [(0, 4096)] }
      0 < mmaPassesBefore m 0 ∧ s.passTimeOver 0 o m = true ∧ (s.team 0).mmaUncorr o m = false) ∧
    mmaPassesBefore { mmaW with rpt := 7 } 0 ≤ 32 ∧ mmaPassesBefore { mmaW with rpt := 6 } 0 ≤ 2 ∧ mmaPassesBefore { mmaW with rpt := 6 } 15 ≤ 32 ∧
    (∀ i ∈ [Instr.accz 1 15 1, .accsc 1 15 1 1 0], ∀ p ∈ [EnginePhase.issued, .started], let s := wEngine [opAt 3 i p] .storage
      (s.team 0).opOf 3 = some (opAt 3 i p) ∧ (s.team 0).residency = .resident ∧ (s.team 0).matrix.failing = none ∧ (p = .issued → (s.team 0).accDue (opAt 3 i p) = true) ∧
        s.sectorPoisoned (.pad 0 0x100) 64 = false ∧ (∀ w ∈ weavesOf 0x100 64, ((s.team 0).weave w).mode = .storage) ∧
        s.log = [] ∧ (s.team 0).maps = []) := by decide +kernel

/-- A `wload` in a phase, after so many parts: part 0 reads a block, parts 1 to 32 write its rows. -/
def wloadAt (p : EnginePhase) (rows : Nat) : EngineOp :=
  { opAt 3 (.wload 15 3 31 127) p with handle := BitVec.ofNat 256 (tileOf + 0x100), pages := [(0, page0)], rows := rows }

theorem witness_WloadStages :
    (∀ m ∈ [(WeaveMode.compute, wloadAt .issued 0), (.storage, wloadAt .started 0), (.storage, wloadAt .started 1), (.storage, wloadAt .started 32),
        (.storage, wloadAt .started 33), (.compute, wloadAt .moved 33)], let s := wEngine [m.2] m.1
      (s.team 0).opOf 3 = some m.2 ∧ m.2.phase ≠ .done ∧ (s.team 0).residency = .resident ∧ ((s.team 0).weave 3).mode = m.1 ∧
        ((s.team 0).weave 3).mode.switching = false ∧ s.wloadWaits 0 3 3 = false ∧ (s.team 0).matrix.failing = none) ∧
    (let d := Tile.ofNat (tileOf + 0x100)
     31 + d.segs ≤ 32 ∧ 127 + d.cols ≤ weaveCols d.elemBits ∧ 0 / 33 / d.cols < d.segs ∧ 32 / 33 / d.cols < d.segs ∧ d.segs ≤ 33 / 33 / d.cols ∧
       let s := wEngine [wloadAt .started 0] .storage
       (∀ r ∈ d.blockRanges 0 0, s.engineHeld 0 [(0, page0)] r.1 r.2 = false ∧ s.enginePoisoned 0 [(0, page0)] r.1 r.2 = false) ∧
         (s.readRanges (s.engineKind 0 (wloadAt .started 0) .cluster []) 0 [(0, page0)] (d.blockRanges 0 0)).isSome = true) ∧
    (∀ j, j < 128 → ((wEngine [wloadAt .started 1] .storage).team 0).unmapped (3 * 0x20000 + 128 * (32 * 31) + j)) :=
  ⟨by decide +kernel, by decide +kernel, fun _ _ _ _ => rfl⟩

/-! ### Witnesses: copies, frames, collectives -/

theorem all_storage {s : State} {t : Nat} (h : (s.team t).weaves = []) (o : Nat) : (s.padWeave t o).mode = .storage := by
  unfold State.padWeave Team.weave
  rw [h]
  rfl

/-- Registers of the copy stream: destination, source, length; an index list in the scratchpad with its parameters and bitmap; a mask, a
scratchpad offset; a turn string with a length; a collective's descriptor. Handle 15 is a tile; the team is a gang of one. -/
def wCopy : State :=
  (({ stream .copy [(5, 0x1000), (6, 0x2000), (7, 0x101 * 16), (8, 0xFF_0000_0000_1000), (9, 32 * 2 ^ 32 + 2 ^ 16 + 2), (10, 0xFF_0000_0000_2000),
      (11, 1), (14, 0x7FE00), (16, 512), (18, 0x5000)] with
      clusters := [(0, { Cluster.reset with reloc := [(0, ⟨none, 0, 0, 0⟩)] })] } : State).mapTeam 0 fun x =>
    { x with handles := [(15, BitVec.ofNat 256 (tileOf + 0x100))], gang := some ⟨1, 0, 0⟩ })

def xTb : CopyX := ⟨.own, false, 0x10⟩

theorem of_some {α : Type} {P : α → Prop} [DecidablePred P] {o : Option α} (h : (o.map fun x => decide (P x)) = some true) : ∃ x, o = some x ∧ P x := by
  cases o with
  | none => cases h
  | some x => exact ⟨x, rfl, of_decide_eq_true (by simpa using h)⟩

/-- What there is to decide of `copyReady`. -/
abbrev isReady (s : State) (regs : List Nat) (ranges : List (Nat × Nat × Access)) (pages : Map Leaf) : Prop :=
  s.cur.party = .copy ∧ (∀ r ∈ regs, (readSMap s.curStream.s r).tag = none) ∧ (∀ r ∈ ranges, s.inOneWindow s.cur.team r.1 r.2.1 = true) ∧
    s.curTeam.flying.length < copyPlaces ∧ (s.probeRanges s.cur.team ranges []).toOption = some pages ∧
    (∀ e ∈ pages, s.peerRouteBad s.curTeam.ctx e.2 = false) ∧ (s.team s.cur.team).weaves = []

theorem ready {s : State} {x : CopyX} {regs : List Nat} {ranges : List (Nat × Nat × Access)} {pages : Map Leaf} (h : isReady s regs ranges pages) :
    s.copyReady x regs ranges pages :=
  ⟨h.1, h.2.1, h.2.2.1, fun o _ => by rw [all_storage h.2.2.2.2.2.2 o], h.2.2.2.1, of_toOption h.2.2.2.2.1, h.2.2.2.2.2.1⟩

theorem witness_CopyIssue_bcopy :
    wCopy.sNat 7 ≤ 2 ^ 32 ∧ wCopy.sNat 7 % 16 = 0 ∧ wCopy.sNat 5 % 16 = 0 ∧ wCopy.sNat 6 % 16 = 0 ∧
      wCopy.copyReady xTb [7, 5, 6] [(wCopy.sNat 6, wCopy.sNat 7, .read), (wCopy.sNat 5, wCopy.sNat 7, .write)] [(0, page0)] :=
  ⟨by decide, by decide, by decide, by decide, ready (by decide +kernel)⟩

theorem witness_CopyIssue_bcopyr :
    lookup? wCopy.curTeam.handles 15 = some (BitVec.ofNat 256 (tileOf + 0x100)) ∧
      (let t := Tile.ofNat (BitVec.ofNat 256 (tileOf + 0x100)).toNat
       t.base % 16 = 0 ∧ t.pitch % 16 = 0 ∧ wCopy.sNat 5 % 16 = 0 ∧ (wCopy.sNat 0 = 0 ∨ t.rowBytes ≤ wCopy.sNat 0) ∧
         wCopy.copyReady xTb [7, 5]
           ((List.range t.rows).flatMap fun k => [(t.base + k * t.pitch, t.rowBytes, .read), (wCopy.sNat 5 + k * wCopy.sNat 7, t.rowBytes, .write)]) [(0, page0)]) :=
  ⟨by decide, by decide, by decide, by decide, by decide, ready (by decide +kernel)⟩

theorem witness_CopyIssue_bcopymc :
    (let n := ((3 : BitVec 9).toNat + 1) * 128
     let mask := wCopy.sNat 11 + wCopy.sNat 12 * 2 ^ 64 + wCopy.sNat 13 * 2 ^ 128
     (∃ g, wCopy.decodeGeneric 0 (wCopy.sNat 6) = some (.glob g)) ∧
       (∀ i, i < 192 → mask.testBit i = true → wCopy.curTeam.gang ≠ none ∧ wCopy.member 0 i ≠ none) ∧ wCopy.sNat 14 + n ≤ 0x80000 ∧
       wCopy.sNat 14 % 128 = 0 ∧ wCopy.sNat 6 % 128 = 0 ∧ wCopy.copyReady xTb [11, 12, 13, 14, 6] (if mask = 0 then [] else [(wCopy.sNat 6, n, .read)]) [(0, page0)]) :=
  ⟨⟨_, rfl⟩, by decide +kernel, by decide, by decide, by decide, ready (by decide +kernel)⟩

/-- The list, two entries of 0, lies in the scratchpad; the bound is 32 rows of 32 bytes. -/
theorem witness_CopyIssue_gather :
    (let n := wCopy.sNat 9 % 2 ^ 16
     let rb := wCopy.sNat 9 / 2 ^ 16 % 2 ^ 16 * 32
     let bound := wCopy.sNat 9 / 2 ^ 32
     wCopy.sNat 8 % 4 = 0 ∧ wCopy.sNat 10 % 4 = 0 ∧ 0 < n ∧ n ≤ 4096 ∧ 0 < rb ∧ rb ≤ 32768 * 32 ∧ wCopy.sNat 5 % 32 = 0 ∧ wCopy.sNat 6 % 32 = 0 ∧
       wCopy.noWrites ∧
       (∀ i, i < n → (∀ j, j < 4 → ∃ p, wCopy.engineSpot 0 [(0, page0)] (wCopy.sNat 8 + 4 * i + j) = some p ∧ wCopy.spotHeld p = false) ∧
         ∃ p, wCopy.engineSpot 0 [(0, page0)] (wCopy.sNat 8 + 4 * i) = some p ∧ wCopy.steady p ∧ wCopy.sectorPoisoned p 4 = false ∧
           leValue ((List.range 4).map (wCopy.byteAt p)) < bound) ∧
       wCopy.copyReady xTb [8, 9, 10, 5, 6]
         ([(wCopy.sNat 8, 4 * n, .read), (wCopy.sNat 6, bound * rb, .read), (wCopy.sNat 5, n * rb, .write)] ++
           if wCopy.sNat 10 = 0 then [] else [(wCopy.sNat 10, (n + 31) / 32 * 4, .write)]) [(0, page0)] ∧
       wCopy.copyReady xTb [8, 9, 10, 5, 6]
         ([(wCopy.sNat 8, 4 * n, .read), (wCopy.sNat 5, bound * rb, .write), (wCopy.sNat 6, n * rb, .read)] ++
           if wCopy.sNat 10 = 0 then [] else [(wCopy.sNat 10, (n + 31) / 32 * 4, .write)]) [(0, page0)]) := by
  refine ⟨by decide, by decide, by decide, by decide, by decide, by decide, by decide, by decide, empty_log rfl, fun i hi => ?_,
    ready (by decide +kernel), ready (by decide +kernel)⟩
  have hi' : i = 0 ∨ i = 1 := by
    have h2 : wCopy.sNat 9 % 2 ^ 16 = 2 := by decide
    omega
  have hs (i : Nat) (hi : i = 0 ∨ i = 1) (j : Nat) (hj : j < 4) :
      ∃ p, wCopy.engineSpot 0 [(0, page0)] (wCopy.sNat 8 + 4 * i + j) = some p ∧ wCopy.spotHeld p = false := by
    apply of_some (P := fun p => wCopy.spotHeld p = false)
    obtain rfl | rfl := hi
    · exact (show ∀ j, j < 4 → ((wCopy.engineSpot 0 [(0, page0)] (wCopy.sNat 8 + 4 * 0 + j)).map fun p => decide (wCopy.spotHeld p = false)) = some true
        by decide) j hj
    · exact (show ∀ j, j < 4 → ((wCopy.engineSpot 0 [(0, page0)] (wCopy.sNat 8 + 4 * 1 + j)).map fun p => decide (wCopy.spotHeld p = false)) = some true
        by decide) j hj
  refine ⟨hs i hi', ?_⟩
  obtain rfl | rfl := hi'
  · exact ⟨.pad 0 0x1000, rfl, ⟨fun _ _ => rfl, by decide⟩, by decide, by decide⟩
  · exact ⟨.pad 0 0x1004, rfl, ⟨fun _ _ => rfl, by decide⟩, by decide, by decide⟩

theorem witness_CopyIssue_send :
    wCopy.sNat 16 ≤ 2 ^ 20 ∧ wCopy.pkg.routeBad (wCopy.sNat 15) = false ∧ wCopy.pkg.retiredPackages.contains (Config.cabling (wCopy.sNat 15)) = false ∧
      wCopy.sNat 5 % 16 = 0 ∧ wCopy.sNat 6 % 16 = 0 ∧ wCopy.sNat 16 % 16 = 0 ∧ wCopy.isGlobal (wCopy.sNat 5) = true ∧
      wCopy.isGlobal (wCopy.sNat 5 + wCopy.sNat 16 - 1) = true ∧ wCopy.copyReady xTb [15, 16, 5, 6] [(wCopy.sNat 6, wCopy.sNat 16, .read)] [(0, page0)] ∧
      (∀ h, h ∈ [7, 15] → wCopy.pkg.routeBad (h * 2 ^ 60) = true) :=
  ⟨by decide, by decide, rfl, by decide, by decide, by decide, by decide, by decide, ready (by decide +kernel), by decide⟩

/-- A collective's descriptor at 0x5000: communicator 3, rank 0, one FP32 element, send at 0x6000, receive at 0x7000. -/
def collDesc : List Byte := leBytes 4 3 ++ leBytes 4 0 ++ leBytes 4 1 ++ leBytes 4 0 ++ leBytes 8 0x6000 ++ leBytes 8 0x7000
def wColl : State :=
  { wCopy with
    mem := writeBytes (writeBytes wCopy.mem 0x85000 collDesc) 0x86000 (leBytes 4 0x3F800000)
    pkg := { wCopy.pkg with comms := [(commKey 0 3, [⟨0, 0, 0⟩])] } }

theorem witness_CopyIssue_coll :
    let i := Instr.coll xTb .allreduce .f32 .add 18
    ((readSMap wColl.curStream.s 18).tag = none ∧ wColl.sNat 18 = 0x5000 ∧ wColl.isGlobal 0x5000 = true ∧ wColl.inOneWindow 0 0x5000 64 = true ∧
      wColl.engineHeld 0 [(0, page0)] 0x5000 64 = false ∧ wColl.enginePoisoned 0 [(0, page0)] 0x5000 64 = false ∧ wColl.memberOf 0 = ⟨0, 0, 0⟩ ∧
      wColl.commRouteBad 0 [⟨0, 0, 0⟩] = false) ∧
    wColl.probeRange 0 .read (0x5000, 64) [] = .ok [(0, page0)] ∧
    ∃ q, wColl.engineSector 0 (wColl.newCopy i [(0, page0)]) 0x5000 64 = some q ∧
      (let e := CollDesc.ofBytes q.2.bytes
       e.reserved = false ∧ e.count = 1 ∧ lookup? wColl.pkg.comms (commKey 0 e.group) = some [⟨0, 0, 0⟩] ∧ e.rank = 0 ∧ e.send = 0x6000 ∧ e.recv = 0x7000) ∧
      q.1.copyReady xTb [18] [(0x6000, 4, .read), (0x7000, 4, .write), (0x5038, 4, .write)] [(0, page0)] := by
  refine ⟨by decide +kernel, of_toOption (by decide +kernel), ?_⟩
  obtain ⟨q, hq, h⟩ := of_some (o := wColl.engineSector 0 (wColl.newCopy (.coll xTb .allreduce .f32 .add 18) [(0, page0)]) 0x5000 64)
    (P := fun q => (let e := CollDesc.ofBytes q.2.bytes
       e.reserved = false ∧ e.count = 1 ∧ lookup? wColl.pkg.comms (commKey 0 e.group) = some [⟨0, 0, 0⟩] ∧ e.rank = 0 ∧ e.send = 0x6000 ∧ e.recv = 0x7000) ∧
      isReady q.1 [18] [(0x6000, 4, .read), (0x7000, 4, .write), (0x5038, 4, .write)] [(0, page0)]) (by decide +kernel)
  exact ⟨q, hq, h.1, ready h.2⟩

theorem witness_CopyIssue_cpref :
    wCopy.cur.party = .copy ∧ (readSMap wCopy.curStream.s 7).tag = none ∧ (readSMap wCopy.curStream.s 6).tag = none ∧ wCopy.sNat 7 ≤ 2 ^ 32 ∧
      ∀ l ∈ linesOf (wCopy.sNat 6) (wCopy.sNat 7), ∀ va, wCopy.decodeGeneric 0 l = some (.glob va) → wCopy.find 0 va .read ≠ .full := by
  refine ⟨by decide, by decide, by decide, by decide, fun l hl va hva => ?_⟩
  have h := (show ∀ l ∈ linesOf (wCopy.sNat 6) (wCopy.sNat 7),
    (match wCopy.decodeGeneric 0 l with | some (.glob va) => decide (wCopy.find 0 va .read ≠ .full) | _ => true) = true by decide +kernel) l hl
  rw [hva] at h
  exact of_decide_eq_true h

/-- A copy in flight: its operands, its count of sectors, the sectors done. -/
def copyOf (i : Instr) (f : Copy → Copy) : Copy := f { wCopy.newCopy i [(0, page0)] with id := 4 }
def wFlight (c : Copy) : State := wCopy.mapTeam 0 fun x => { x with copies := [c], nextOp := 9 }

/-- 40 bytes from 0x2010 to 0x1010: two sectors, of which the second is written whole or in part. -/
def flying (done : List Nat) : Copy := copyOf (.bcopy xTb 7 5 6) fun c => { c with a := 0x1010, b := 0x2010, d := 48, total := 2, done := done }

/-- R242: a plain store to a barrier that a copy in flight names is a data race; a marked store is none, nor is a store beside it. -/
theorem test_store_on_barrier :
    let s := (unit [(2, 7)] [(1, 0xFF_0000_0000_0100)]).mapTeam 0 fun x => { x with copies := [flying []] }
    let raced (o : Order) (off : Nat) : List Nat := (after (.st ⟨k0, .b32, .gen, .own, o, .team, 0, false, BitVec.ofNat _ off⟩ (.v 2) (.s 1) (.s 0)) s).raced
    raced .plain 12 = [0] ∧ raced .mk 12 = [] ∧ raced .plain 16 = [] := by decide +kernel

theorem witness_CopyProgress :
    (let c := flying []
     let s := wFlight c
     (s.team 0).copyOf 4 = some c ∧ c.complete = false ∧ c.instr = .bcopy xTb 7 5 6 ∧ 1 < c.total ∧ c.done.contains 1 = false ∧
       c.piece 1 = some ⟨some 0x1020, 32, .addr 0x2020⟩ ∧ c.piece 0 = some ⟨some 0x1010, 16, .addr 0x2010⟩ ∧
       s.engineSpot 0 c.pages 0x1020 = some (.mem 0x81020 page0) ∧
       (∀ i, i < 32 → s.engineSpot 0 c.pages (0x2020 + i) = some (.mem (0x82020 + i) page0)) ∧ s.enginePoisoned 0 c.pages 0x2020 32 = false ∧
       s.sectorPoisoned (.mem 0x81010 page0) 16 = false ∧ s.log = [] ∧ c.barrier = some 0x100 ∧ (s.team 0).maps = [] ∧
       (s.padWeave 0 0x100).mode = .storage ∧ s.moving 0 = false ∧ s.inBuffer 0 4 1 = false ∧ s.engineHeld 0 c.pages 0x2020 32 = false ∧
       s.leaseHeld none 0x81020 32 page0 = false ∧ s.pinStalls 0 c 1 = false) ∧
    (let c := flying [1, 0]
     ((wFlight c).team 0).copyOf 4 = some c ∧ c.finished = true ∧ c.complete = false) ∧
    (let s := wCopy
     s.cur.party = .copy ∧ (∀ c ∈ s.curTeam.copies, c.complete = true) ∧ s.curTeam.allEnded = false ∧
       runsAsStream (.cwaitComplete 0) (heldIn .cwait s) .cwait (again .cwait s) .copy .cwaitComplete ∧
       runsAsStream (.cendComplete 0) (heldIn .cend s) .cend (again .cend s) .copy .cendComplete) ∧
    (let c := copyOf (.carrive 2) id
     let s := (wFlight c).mapTeam 0 fun x => x.setBar 2 ⟨15, 1, 1, []⟩
     (s.team 0).copyOf 4 = some c ∧ c.instr = .carrive 2 ∧ c.complete = false ∧ (s.team 0).residency = .resident ∧ (∀ e ∈ (s.team 0).copies, e.id < 4 → e.complete = true) ∧
       1 ≤ ((s.team 0).bar (2 : BitVec 4).toNat).pending) :=
  ⟨by decide +kernel, by decide +kernel,
    ⟨by decide, by decide, by decide, resumesStream _ _ _ _ rfl (by decide), resumesStream _ _ _ _ rfl (by decide)⟩, by decide⟩

/-- A tracked send of 528 bytes, in two frames, the first accepted at 0 ns. -/
def sending (tracked : Bool) (accepted acked : List Nat) : Copy :=
  copyOf (.send xTb tracked 15 5 6) fun c => { c with d := 0, d1 := 528, a := 0x1000, b := 0x2000, accepted := accepted, acked := acked }

def frameOf (kind dst ctx : Nat) : Frame := ⟨0, ctx, 3, dst, kind, 1, 0x1000, 0, 0, List.replicate 16 5, [], none, 0, none, 0⟩

/-- The first frame of the send has left. -/
def wSent : State :=
  let s := wFlight (sending true [0] [])
  { s with gtime := 1000000, pkg := { s.pkg with sent := [{ frameOf 1 (Config.cabling 0) 0 with src := s.pkg.index, stream := some 0, send := 4 }] } }

theorem witness_FramesAndSends :
    (∀ tracked, let c := sending tracked [0] []
     let s := wFlight c
     (s.team 0).copyOf 4 = some c ∧ c.complete = false ∧ c.accepted.length < frames c.d1 ∧ (s.team 0).sendsBefore c = false ∧
       s.frameHeld 0 c c.accepted.length = false ∧ (s.readFrame 0 c 1).isSome = true ∧ s.memPoison = [] ∧ s.barrierFree 0 c) ∧
    (let c := sending true [0] []
     (wSent.team 0).copyOf 4 = some c ∧ c.awaits 0 = true ∧ (wSent.block 257).enable = false ∧ (wSent.frameSent 0 4 0).isSome = true ∧
       c.landed.contains 0 = false ∧ Map.get 0 c.sentAt 0 + 1000000 ≤ wSent.gtime ∧ wSent.barrierFree 0 c) ∧
    (∀ f ∈ [frameOf 0 5 0, frameOf 8 0 0, frameOf 0 0 4095], frameArrives f = true) ∧
    ((frameOf 0 5 0).dst ≠ wv.pkg.index ∧ 8 ≤ (frameOf 8 0 0).kind ∧ lookup? wv.ctxs (frameOf 0 0 4095).ctx = none) ∧
    (∀ k ∈ [0, 1], let f := frameOf k 0 0
      frameArrives f = true ∧ f.dst = wv.pkg.index ∧ lookup? wv.ctxs f.ctx ≠ none ∧ f.payload ≠ [] ∧ f.poison = [] ∧ wv.heldBefore f = none ∧
        wv.frameWaits f = false ∧ f.addr % 2 ^ 18 + f.payload.length ≤ 2 ^ 18 ∧ wv.physKey 0 page0 f.addr = 0x81000 ∧ wv.memPoison = [] ∧
        ∀ i, i < f.payload.length → wv.unreachable (0x81000 + i) = false) := by
  refine ⟨fun b => ⟨?_, ?_, ?_, ?_, ?_, ?_, ?_, fun o _ => ⟨⟨fun _ _ => rfl, all_storage (by cases b <;> rfl) o⟩, by cases b <;> decide⟩⟩,
    ⟨rfl, by decide, by decide, rfl, by decide, by decide, fun o _ => ⟨⟨fun _ _ => rfl, all_storage rfl o⟩, by decide⟩⟩, by decide, by decide,
    by decide +kernel⟩ <;> cases b <;> decide +kernel

/-- The walk to a frame's page reads nothing that the frame writes. -/
theorem witness_FramesAndSends_walk (m : List Host.Cell) (h : ∀ a, a < 0x81000 ∨ 0x81000 + 16 ≤ a → readMem m a = readMem wv.mem a) (i : Nat) (hi : i < 16) :
    walk m 0 (wv.ctx 0) (0x1000 + i) .write = .ok page0 := by
  have e (t j : Nat) (ht : t + 8 * j + 8 ≤ 0x81000) : tableEntry m t j = tableEntry wv.mem t j := by
    unfold tableEntry readBytes
    congr 1
    apply List.map_congr_left
    intro k hk
    simp only [List.mem_range] at hk
    exact h _ (.inl (by omega))
  have r : (wv.ctx 0).root = 0x10000 := rfl
  have i1 : (0x1000 + i) / 2 ^ 44 % 2 ^ 12 = 0 := by omega
  have i2 : (0x1000 + i) / 2 ^ 31 % 2 ^ 13 = 0 := by omega
  have i3 : (0x1000 + i) / 2 ^ 18 % 2 ^ 13 = 0 := by omega
  have t1 : tablePointer (tableEntry wv.mem 0x10000 0) = .ok 0x20000 := of_toOption (by decide +kernel)
  have t2 : tablePointer (tableEntry wv.mem 0x20000 0) = .ok 0x30000 := of_toOption (by decide +kernel)
  have t3 : tableEntry wv.mem 0x30000 0 = 0x8002F := by decide +kernel
  unfold walk walkLeaf pointer0 walkFrom pointer1 leafIn
  rw [r, i1, i2, i3, e _ _ (by omega), t1]
  simp only
  rw [e _ _ (by omega), t2]
  simp only
  rw [e _ _ (by omega), t3]
  rfl

/-- A collective in flight at its one rank. -/
def collecting : Copy :=
  copyOf (.coll xTb .allreduce .f32 .add 18) fun c =>
    { c with a := 0x5000, b := 0x7000, d := 0x6000, d1 := 4, d2 := 4, handle := packDesc ⟨3, 0, 0, 1, 0, 0, false⟩ }

def wCollecting : State := { wFlight collecting with mem := wColl.mem, pkg := wColl.pkg, gtime := 10 ^ 9 }

/-- Two ranks, the second on another package. -/
def wAfar : State := { wCollecting with pkg := { wCollecting.pkg with comms := [(commKey 0 3, [⟨0, 0, 0⟩, ⟨1, 0, 0⟩])] } }

theorem witness_Collectives :
    (wCollecting.team 0).copyOf 4 = some collecting ∧ collecting.complete = false ∧ collecting.data = [] ∧ collecting.done = [] ∧
    (∀ i, i < 4 → wCollecting.engineSpot 0 collecting.pages (0x5000 + 0x38 + i) = some (.mem (0x85038 + i) page0)) ∧
    wCollecting.sectorPoisoned (.mem 0x85038 page0) 4 = false ∧ wCollecting.collHeld 0 collecting 0 = false ∧
    ((lookup? wCollecting.pkg.comms (commKey 0 collecting.group)).getD []) = [⟨0, 0, 0⟩] ∧
    wCollecting.memberLost 0 ⟨0, 0, 0⟩ = false ∧ (wCollecting.setDie 0 { Die.reset with dead := true }).memberLost 0 ⟨0, 0, 0⟩ = true ∧
    wCollecting.lostAfar [⟨0, 0, 0⟩] [] = false ∧ wAfar.lostAfar [⟨0, 0, 0⟩, ⟨1, 0, 0⟩] [⟨1, .allreduce, .f32, .add, 1, [], 0, true⟩] = true ∧
    collecting.issuedAt + (wCollecting.ctx 0).watchdog * 1000000 < wCollecting.gtime ∧
    wCollecting.partners 0 collecting [⟨0, 0, 0⟩] = [(0, collecting)] ∧
    (∃ s1 xs, (wCollecting.collRelease 0 collecting [⟨0, 0, 0⟩]).shares 0 collecting [] 0 [⟨0, 0, 0⟩] = some (s1, xs) ∧
      (∀ y ∈ xs, y.parts = (.allreduce, .f32, .add) ∧ y.count = collecting.count ∧ y.poison = 0) ∧
      let n := (collResult .allreduce .f32 .add false (commKey 0 3) 0 0 1 (xs.map fun y => y.value)).1.length
      wCollecting.collHeld 0 collecting n = false ∧ ∀ i, i < n →
        wCollecting.engineSpot 0 collecting.pages (0x7000 + i) = some (.mem (0x87000 + i) page0) ∧ Map.get false wCollecting.memPoison ((0x87000 + i) / 32) = false) ∧
    0x85038 + 4 ≤ 0x87000 ∧ wCollecting.barrierFree 0 collecting ∧ ∀ d, (wCollecting.die d).drifted = false ∧ (wCollecting.die d).dead = false := by
  have hw : (wCollecting.team 0).copyOf 4 = some collecting ∧
      (∀ i, i < 4 → wCollecting.engineSpot 0 collecting.pages (0x5000 + 0x38 + i) = some (.mem (0x85038 + i) page0)) ∧
      wCollecting.sectorPoisoned (.mem 0x85038 page0) 4 = false ∧ wCollecting.collHeld 0 collecting 0 = false := by decide
  have hl : wCollecting.memberLost 0 ⟨0, 0, 0⟩ = false ∧ (wCollecting.setDie 0 { Die.reset with dead := true }).memberLost 0 ⟨0, 0, 0⟩ = true ∧
      wCollecting.lostAfar [⟨0, 0, 0⟩] [] = false ∧
      wAfar.lostAfar [⟨0, 0, 0⟩, ⟨1, 0, 0⟩] [⟨1, .allreduce, .f32, .add, 1, [], 0, true⟩] = true := by decide
  refine ⟨hw.1, rfl, rfl, rfl, hw.2.1, hw.2.2.1, hw.2.2.2, by decide, hl.1, hl.2.1, hl.2.2.1, hl.2.2.2, by decide, by decide, ?_, by decide, fun o _ => ⟨⟨fun _ _ => rfl, all_storage rfl o⟩, by decide⟩, fun d => ⟨rfl, rfl⟩⟩
  have h : (((wCollecting.collRelease 0 collecting [⟨0, 0, 0⟩]).shares 0 collecting [] 0 [⟨0, 0, 0⟩]).map fun r => r.2) =
      some [⟨(.allreduce, .f32, .add), 1, 0x3F800000, 0, false⟩] := by decide +kernel
  cases hs : (wCollecting.collRelease 0 collecting [⟨0, 0, 0⟩]).shares 0 collecting [] 0 [⟨0, 0, 0⟩] with
  | none => rw [hs] at h; cases h
  | some r =>
    rw [hs] at h
    have hx : r.2 = [⟨(.allreduce, .f32, .add), 1, 0x3F800000, 0, false⟩] := by simpa using h
    refine ⟨r.1, r.2, rfl, ?_, ?_⟩
    · rw [hx]; decide
    · rw [hx]; decide +kernel

/-! ### Witnesses: translation -/

/-- A command of an opcode stands at the head of the admin ring, at 0x90000; page 0 of context 0 is in none of the TLBs. -/
def wAdmin (op : Nat) : State :=
  { wv with
    blocks := [(256, ⟨0x90000, true, 4, 1, 0, 0⟩)]
    mem := writeBytes wv.mem 0x90000 (leBytes 8 op) }

/-- A cluster with one miss of team 0, and misses that wait for an entry of the table. -/
def wMiss (page : Nat) (waiting : List (Nat × Nat × Nat)) : State :=
  { wv with clusters := [(0, { Cluster.reset with misses := [⟨0, page, [0], none⟩], waiters := waiting })] }

def recOf (page : Nat) : FaultRec := ⟨0, page, 0, 1, [1]⟩

/-- A batch of context 0 with so many records, at a time; two of them are delivered already, in batch 1. -/
def wBatch (n time : Nat) : State :=
  { wv with
    batches := [(0, ⟨(List.range n).map recOf, 0, 1, [(1, recOf 70), (1, recOf 71)]⟩)]
    gtime := time }

/-- Page 70 is delivered in batch 1; group 0 waits on a store to it, with one on a page of its own in the filter. -/
def wResolve : State :=
  let s := { wAdmin 5 with
    batches := [(0, ⟨[], 0, 1, [(1, recOf 70)]⟩)]
    clusters := [(0, { Cluster.reset with filter := [(70, 0)] })] }
  s.mapCurGroup fun y => { y with replayable := true, fault := some ⟨.store, .st mPlain (.v 1) (.v 2) (.v 3), s.cur, [70], false⟩ }

theorem witness_TranslationEvents :
    ((((wMiss 0 []).cluster 0).misses = [⟨0, 0, [0], none⟩] ∧ ((wMiss 0 []).cluster 0).waiters = [] ∧
        (wMiss 0 []).missResult 0 ⟨0, 0, [0], none⟩ = .ok page0) ∧
      ((wMiss 1 []).missResult 0 ⟨0, 1, [0], none⟩).isOk = false ∧ ((wMiss 1 [(0, 7, 0)]).cluster 0).waiters ≠ [] ∧ 0 < missTableSize) ∧
    (∀ s ∈ [wBatch 1 2000, wBatch 64 0, wBatch 65 1], let b := Map.get Batch.empty s.batches 0
      b.records ≠ [] ∧ (64 ≤ b.records.length ∨ b.opened + 2000 ≤ s.gtime) ∧ (s.block 257).enable = false) ∧
    ((wAdmin 4).adminOp = some 4 ∧ (wAdmin 4).hasCtx 0 = true ∧ (wAdmin 4).rangeUsers 0 0 1 = false ∧ (wAdmin 4).buffered 0 = false ∧
      ((wAdmin 4).mapTeam 0 fun x => { x with copies := [{ wAdmin 4 |>.newCopy (.cwait) [(0, page0)] with complete := false }] }).rangeUsers 0 0 1 = true) ∧
    (let s := wResolve
     let inRange (p : Nat) : Prop := 70 ≤ p ∧ p < 70 + 1
     s.adminOp = some 5 ∧ (70 * 2 ^ 18) % 2 ^ 18 = 0 ∧
       (∃ e ∈ s.batches, ∃ d ∈ e.2.delivered, d.1 = 1 ∧ d.2.ctx = 0 ∧ d.2.page = 70 ∧ inRange 70) ∧
       (∀ e ∈ s.batches, ∀ d ∈ e.2.delivered, d.1 = 1 → inRange d.2.page → d.2.ctx = 0) ∧
       s.faultedGroups 0 = [(0, 0)] ∧ s.lates = [] ∧ (wAdmin 5).faultedGroups 0 = [] ∧
       ∃ f, ((s.team 0).group 0).fault = some f ∧ f.kind = .store ∧ f.failed = false ∧ (s.team 0).residency = .resident ∧ ((s.team 0).group 0).poison = [] ∧
         ∀ e ∈ s.batches, (∀ r ∈ e.2.records, r.ctx = 0 → r.page ∉ f.pages) ∧
           ∀ d ∈ e.2.delivered, d.2.ctx = 0 → d.2.page ∈ f.pages → d.1 = 1 ∧ inRange d.2.page) := by
  refine ⟨⟨⟨rfl, rfl, of_toOption (by decide +kernel)⟩, by decide +kernel, by decide, by decide⟩, by decide +kernel, by decide +kernel, ?_⟩
  refine ⟨by decide +kernel, by decide, by decide +kernel, by decide +kernel, by decide, rfl, by decide, _, rfl, rfl, rfl, rfl, rfl, by decide⟩

/-! ### Witnesses: teams and grids -/

/-- A dispatched grid of a context with two teams. -/
def gridOf2 (tag gang gx : Nat) : Grid :=
  { Grid.absent with
    ctx := tag, completed := false, dispatched := true, gx := gx, gy := 1, gz := 1, laneCount := 32, nGroups := 1, gang := gang
    roles := [(0, ⟨0, 1, 1, 0⟩)] }

def wGrid (gang : Nat) : State := { wv with grids := [(1, gridOf2 0 gang 2)] }

/-- Context 1's gang of so many teams waits for the cluster of team 0, whose quantum has passed. -/
def wFront (n : Nat) : State :=
  { wv with
    clusters := [(0, { Cluster.reset with reloc := [(0, ⟨none, 0, 0, 0⟩)] })]
    ctxs := wv.ctxs ++ [(1, Context.absent)], grids := [(1, gridOf2 1 n n)], gtime := 10 ^ 9 }

def wResidency (r : Residency) : State := wv.mapTeam 0 fun x => { x with residency := r, nGroups := 1, roles := [] }

theorem witness_TeamLife :
    (∀ c ∈ [(1, [(⟨0, 1, 1, 0x40_0000⟩ : Place)]), (2, [⟨0, 1, 5, 0x40_0000⟩, ⟨0, 2, 191, 0x80_0000⟩])], let s := wGrid c.1
      let g := s.grid 1
      g.dispatched = true ∧ g.completed = false ∧ g.status = none ∧ g.placed < g.total ∧
        c.2.length = (if g.gang ≤ 1 then 1 else min g.gang (g.total - g.placed)) ∧ s.placesOk g.ctx c.2 = true ∧
        ∀ p ∈ c.2, (s.die (p.cluster / 2)).dead = false ∧ (s.die (p.cluster / 2)).gated = false ∧
          s.isFront p.cluster (s.effective g.ctx g.priority g.headSince) g.headSince = true) ∧
    (∃ w, frontWaiter ((wFront 1).waiters 0) = some w ∧ ((wFront 1).cluster 0).examined + 20000 ≤ (wFront 1).gtime ∧ w.need ≤ (wFront 1).comingFree 0) ∧
    (∃ w, frontWaiter ((wFront 192).waiters 0) = some w ∧ ((wFront 192).cluster 0).examined + 20000 ≤ (wFront 192).gtime ∧
      (wFront 192).comingFree 0 < w.need ∧ (wFront 192).evictFirst (((wFront 192).teamsIn 0).filter (wFront 192).quantumOver) = some 0 ∧
      0 ∈ (wFront 192).gangOf 0 ∧ ((wFront 192).team 0).residency = .resident) ∧
    (∀ n u, (∀ p, ((wFront n).team u).residency ≠ .moving p) ∧ ((wFront n).team u).matrix.failing = none) ∧ (∀ n, (wFront n).lates = []) ∧
    (let s := wResidency .halted
     let x := s.team 0
     x.residency = .halted ∧ s.copiesOver 0 = true ∧ 0x200000 % 0x10000 = 0 ∧ 0x200000 + 0x190000 ≤ 2 ^ 39 ∧ x.priv = [] ∧ x.dirty = [] ∧ x.nGroups ≤ 16 ∧
       x.roles = []) ∧
    (let s := wResidency (.saved 0x200000)
     let x := s.team 0
     x.residency = .saved 0x200000 ∧ x.gang = none ∧ s.tileTeam x.cluster 191 = none ∧ (s.cluster x.cluster).stopped = false ∧
       (s.die (x.cluster / 2)).dead = false ∧ (s.die (x.cluster / 2)).gated = false ∧
       s.isFront x.cluster (s.effective x.ctx (s.grid x.grid).priority (s.gangSince 0)) (s.gangSince 0) = true) := by
  refine ⟨by decide +kernel, ⟨⟨7, 0, 1⟩, by decide +kernel, by decide, by decide +kernel⟩, ⟨⟨7, 0, 192⟩, by decide +kernel, by decide, by decide +kernel,
    by decide +kernel, by decide +kernel, by decide⟩, fun n u => ⟨fun p hp => ?_, team_all (P := fun x => x.matrix.failing = none) rfl ?_ u⟩, fun _ => rfl,
    by decide, by decide +kernel⟩
  · have h := team_all (P := fun x => ∀ p, x.residency ≠ .moving p) (s := wFront n) (fun _ h => by cases h) (fun e he p h => ?_) u
    · exact h p hp
    · have : e.2.residency = .resident := (show ∀ e ∈ wv.teams, e.2.residency = .resident by decide) e he
      rw [this] at h
      cases h
  · exact show ∀ e ∈ wv.teams, e.2.matrix.failing = none by decide

/-- With no role a group has neither quota nor budget. -/
theorem witness_TeamLife_quota (g : Nat) : ((wResidency .halted).team 0).quota g + ((wResidency .halted).team 0).budget g ≤ 28 := by
  have h : ((wResidency .halted).team 0).roles = [] := rfl
  simp [Team.quota, Team.budget, Team.role, h, Map.get]

/-- A launch record: kernel at 0x1000, 32 lanes, event at 0x2000, and its priority. -/
def recordOf (priority : Nat) : List Byte :=
  leBytes 8 0x1000 ++ leBytes 8 0 ++ leBytes 4 32 ++ leBytes 20 0 ++ leBytes 8 0x2000 ++ leBytes 32 0 ++ leBytes 8 priority ++ leBytes 40 0

/-- A kernel descriptor of one role with one group, entered at 0x40. -/
def kernelOf : List Byte :=
  leBytes 4 1 ++ leBytes 1 1 ++ leBytes 1 1 ++ leBytes 2 1 ++ leBytes 4 1 ++ leBytes 2 1 ++ leBytes 2 1 ++
    leBytes 8 0x40 ++ leBytes 1 1 ++ leBytes 1 1 ++ leBytes 1 0 ++ leBytes 5 0 ++ leBytes 96 0

/-- A record at the head of queue 3; its kernel in page 0. -/
def wTake (priority : Nat) : State :=
  { wv with
    hostQueues := [(3, ⟨some 0, [⟨recordOf priority, []⟩], none, 0⟩)]
    mem := writeBytes wv.mem 0x81000 kernelOf }

/-- Grids at the heads of queues 3 and 4, the one of queue 3 of higher priority, with a dependence at 0x2010. -/
def wHeads (dep : Nat) : State :=
  { wv with
    hostQueues := [(3, ⟨some 0, [], some 1, 0⟩), (4, ⟨some 0, [], some 2, 0⟩)]
    grids := [(1, { gridOf2 0 1 2 with dispatched := false, priority := 2, deps := [0x2010], event := 0x2000 }), (2, { gridOf2 0 1 2 with dispatched := false })]
    mem := writeBytes wv.mem 0x82010 (leBytes 4 dep) }

theorem heads_only (dep : Nat) (s : State) (hs : s = wHeads dep) (r : Nat) (h3 : r ≠ 3) (h4 : r ≠ 4) : s.eligible r = none := by
  subst hs
  have : ((wHeads dep).hostQueue r).head = none := by
    unfold State.hostQueue wHeads
    simp [Map.get, Ne.symm h3, Ne.symm h4]
    rfl
  unfold State.eligible
  rw [this]

theorem heads_four : ∀ dep ∈ [2, 3], (wHeads dep).eligible 4 = some (4, 2) := by decide +kernel

theorem witness_GridLife_take :
    (∀ p ∈ [2, 8], let s := wTake p
      let s1 := s.pendEvent 0 0x2000
      s.hostQueue 3 = ⟨some 0, [⟨recordOf p, []⟩], none, 0⟩ ∧ fieldAt (recordOf p) 0x28 8 = 0x2000 ∧ 0x2000 % 2 ^ 18 + 4 ≤ 2 ^ 18 ∧
        s.devKey 0 0x2000 .write = .ok 0x82000 ∧ s1.devKey 0 0x2000 .write = .ok 0x82000) ∧
    (let s1 := (wTake 7).pendEvent 0 0x2000
     launchOk (recordOf 7) = true ∧ fieldAt (recordOf 7) 0 8 = 0x1000 ∧ s1.devRead 0 0x1000 128 = .ok kernelOf ∧ kernelOk kernelOf = true ∧
       launchFits (s1.ctx 0) (recordOf 7) kernelOf = true ∧ s1.launchMaps 0 (recordOf 7) = some []) ∧
    launchOk (recordOf 8) = false := by
  refine ⟨fun p hp => ?_, ⟨by decide +kernel, by decide +kernel, of_toOption (by decide +kernel), by decide +kernel, by decide +kernel, by decide +kernel⟩, by decide +kernel⟩
  simp only [List.mem_cons, List.not_mem_nil, or_false] at hp
  obtain rfl | rfl := hp <;>
    exact ⟨rfl, by decide +kernel, by decide, of_toOption (by decide +kernel), of_toOption (by decide +kernel)⟩

theorem witness_GridLife_dispatch (dep : Nat) (hd : dep = 2 ∨ dep = 3) :
    (let s := wHeads dep
     let g := s.grid 1
     s.eligible 3 = some (3, 1) ∧
      (∀ r m, r < 256 → s.eligible r = some (r, m) → r ≠ 3 →
        let h := s.grid m
        h.priority < g.priority ∨ h.priority = g.priority ∧ (g.headSince < h.headSince ∨ g.headSince = h.headSince ∧ 3 < r)) ∧
      (∀ a ∈ g.deps, ∃ k, s.devKey g.ctx a .read = .ok k) ∧ (dep = 2 → (∀ a ∈ g.deps, s.depState g.ctx a ≠ 3) ∧ s.failedUnder g.ctx = none ∧
        ({ s with memDies := [(3, { MemDie.reset with failed := true })] } : State).failedUnder g.ctx = some 3) ∧
      (dep = 3 → (∃ a ∈ g.deps, s.depState g.ctx a = 3) ∧ s.devKey g.ctx g.event .write = .ok 0x82000)) := by
  have h4 : (wHeads dep).eligible 4 = some (4, 2) := heads_four dep (by simpa using hd)
  refine ⟨?_, fun r m _ hr h3 => ?_, ?_, ?_, ?_⟩
  · obtain rfl | rfl := hd <;> decide +kernel
  · by_cases h : r = 4
    · subst h
      have e : m = 2 := by
        have := h4.symm.trans hr
        simp only [Option.some.injEq, Prod.mk.injEq] at this
        exact this.2.symm
      subst e
      exact .inl (by show (0 : Nat) < 2; decide)
    · rw [heads_only dep _ rfl r h3 h] at hr
      cases hr
  · obtain rfl | rfl := hd <;> exact fun a ha => ⟨0x82010, by
      have : a = 0x2010 := by simpa [wHeads, State.grid, Map.get] using ha
      subst this
      exact of_toOption (by decide +kernel)⟩
  · rintro rfl
    decide +kernel
  · rintro rfl
    exact ⟨by decide +kernel, of_toOption (by decide +kernel)⟩

/-- Grid 1's teams have ended; one is still listed. -/
def wEnded : State :=
  { (wv.mapTeam 0 fun x => { x with grid := 1, residency := .ended }) with
    grids := [(1, { gridOf2 0 1 1 with ended := 1, placed := 1, event := 0x2000 })] }

theorem witness_GridLife_completion :
    let g := wEnded.grid 1
    g.dispatched = true ∧ g.completed = false ∧ g.total ≤ g.ended ∧ wEnded.teamsOf 1 = [0] ∧
      (∀ u ∈ wEnded.teamsOf 1, (wEnded.team u).flying = [] ∧ (wEnded.team u).dirty = []) ∧
      wEnded.devKey g.ctx g.event .write = .ok 0x82000 :=
  ⟨by decide, by decide, by decide, by decide, by decide, of_toOption (by decide +kernel)⟩

/-! ### Witnesses: the driver -/

/-- A host queue's block and the fault ring's, enabled. -/
def wBlocks : State :=
  { wv with blocks := [(3, ⟨0x92000, true, 4, 0, 0, 0⟩), (257, ⟨0x93000, true, 16, 0, 0, 0⟩)] }

/-- A descriptor (Table 23.1): tag, mode byte; the page table's root at 0x10000. -/
def descOf (tag mode : Nat) : List Byte :=
  leBytes 2 tag ++ leBytes 1 mode ++ leBytes 1 1 ++ leBytes 4 0 ++ leBytes 8 0x10000 ++ leBytes 8 0x4000 ++ leBytes 8 0x80 ++ leBytes 32 0

def wCreate (tag mode : Nat) : State := { wAdmin 1 with mem := writeBytes (wAdmin 1).mem 0x91000 (descOf tag mode) }

/-- Grid 1 of context 0 is open. -/
def wOpen : State := { wAdmin 2 with grids := [(1, gridOf2 0 1 2)] }

/-- Group 0 is suspended in its `tsusp`; its trap record lies at 0x1000. -/
def wSuspended : State := (wAdmin 9).mapCurGroup fun y =>
  { y.writeS 28 (clear 0x1000) with handler := true, suspended := true, wait := some ⟨.tsusp, wv.cur, 0⟩ }

theorem witness_DriverCommands_registers :
    ((∀ b ∈ [QueueBlock.host 3, .fault], (wBlocks.block (blockOf b)).enable = true) ∧ (∀ b ∈ [QueueBlock.host 3, .fault, .admin], (wv.block (blockOf b)).enable = false) ∧
      wBlocks.pkg.verified = true) ∧
    (wBlocks.faultOut = [] ∧ (0 : DWord).toNat % 128 = 0 ∧ (0x8000_0000_0000_0080 : DWord).toNat % 128 = 0 ∧ (64 : DWord).toNat % 128 ≠ 0 ∧ (2047 : DWord).toNat < 2 ^ 11 ∧
      ∀ c ∈ [(false, 4), (true, 4), (true, 16)], 4 ≤ c.2 ∧ c.2 ≤ 16 ∧ (BitVec.ofNat 64 ((if c.1 then 2 ^ 31 else 0) + c.2)).toNat = (if c.1 then 2 ^ 31 else 0) + c.2) := by
  refine ⟨by decide, by decide +kernel⟩

theorem witness_DriverCommands_contexts :
    (∀ c ∈ [(1, 0), (4095, 1 + 32 * 6)], let s := wCreate c.1 c.2
      let bs := readBytes s.mem (ringKey 0x91000) 64
      s.adminOp = some 1 ∧ bs = descOf c.1 c.2 ∧ s.descriptorOk bs = true ∧ s.routinesOk (fieldAt bs 0x20 8) = true ∧ s.hasCtx (fieldAt bs 0 2) = false ∧
        ∀ e ∈ s.memDies, e.2.failed = false) ∧
    ((wCreate 1 3).descriptorOk (readBytes (wCreate 1 3).mem (ringKey 0x91000) 64) = false ∧
      (wCreate 0 0).hasCtx (fieldAt (readBytes (wCreate 0 0).mem (ringKey 0x91000) 64) 0 2) = true) ∧
    (wOpen.adminOp = some 2 ∧ wOpen.hasCtx 0 = true ∧ wOpen.openGrids 0 = [1]) ∧
    (let s := wAdmin 3
     let n := queueCount (s.ctx 0).mode
     s.adminOp = some 3 ∧ s.hasCtx 0 = true ∧
       (∀ q ∈ [0, 255], (s.ctx 0).device * n ≤ q ∧ q < ((s.ctx 0).device + 1) * n ∧ (s.hostQueue q).owner = none) ∧
       ¬256 < ((s.ctx 0).device + 1) * n) := by
  refine ⟨by decide +kernel, by decide +kernel, by decide +kernel, by decide +kernel⟩

theorem witness_DriverCommands_others :
    ((wAdmin 6).adminOp = some 6 ∧ bitsOf (5 * 2 ^ 60 + 15 * 2 ^ 56) 59 56 = 15) ∧
    ((wAdmin 7).adminOp = some 7 ∧ (wAdmin 7).hasCtx 0 = true) ∧ ((wAdmin 8).adminOp = some 8 ∧ (wAdmin 8).hasCtx 0 = true) ∧
    (let s := wSuspended
     let y := (s.team 0).group 0
     s.adminOp = some 9 ∧ s.teamAt 0 (s.logicalCluster 0) (s.team 0).slot = some 0 ∧ y.suspended = true ∧ (s.team 0).residency = .resident ∧
       y.wait = some ⟨.tsusp, wv.cur, 0⟩ ∧ (y.readS 28).val.toNat = 0x1000 ∧ 0x1000 % 8 = 0 ∧ s.log = [] ∧
       (∀ i, i < 48 → ({ s with cur := wv.cur } : State).recordUnit 0 0 (0x1000 + 8 * i) = .ok (.mem (0x81000 + 8 * i) page0) ∧
         ({ s with cur := { wv.cur with team := 0 } } : State).peerCode (.mem (0x81000 + 8 * i) page0) false .team = none ∧
         ({ s with cur := wv.cur } : State).sectorPoisoned (.mem (0x81000 + 8 * i) page0) 8 = false) ∧
       (y.lane 0).cond = .live) ∧
    ((wAdmin 0xA).adminOp = some 0xA ∧ (wAdmin 0xA).teamAt 0 ((wAdmin 0xA).logicalCluster 0) ((wAdmin 0xA).team 0).slot = some 0) ∧
    ∀ op ∈ [0, 0x0B, 0xFF], (wAdmin op).adminOp = some op ∧ (op = 0 ∨ 0x0B ≤ op) := by
  refine ⟨by decide +kernel, by decide +kernel, by decide +kernel, by decide +kernel, by decide +kernel, by decide +kernel⟩

/-! ### Witnesses: lines and time -/

def wLine (home : HomeDir) (line : Nat) (f : DirEntry → DirEntry) : State := wv.setEntry home line (f DirEntry.absent)

/-- The holder's line in M, and a request of agent d in progress or answered. -/
def wSnoop (home : HomeDir) (own answered keeps : Bool) : State :=
  let s := wLine home 5 fun e => { e with
    state := .x (.l2 0), queue := [⟨.l2 1, own, own⟩], snoops := if answered then [] else [.l2 0], answers := if answered then [(.l2 0, keeps)] else [] }
  { s with l2 := [(l2Key 0 5, .m)] }

/-- Team 0 holds a lease of line 5 to 9 µs; its die has drifted or not. -/
def wLease (drifted : Bool) : State :=
  { (wLine .hub 5 fun e => { e with leases := [⟨0, 9000, [3], [3], false⟩] }) with gtime := 13000, dies := [(0, { Die.reset with drifted := drifted })] }

theorem witness_LinesAndTime :
    (∀ home ∈ [HomeDir.hub, .die 0], ∀ st ∈ [DirState.i, .x (.l2 1), .x (.l2 0), .s [.l2 1, .l2 0], .s [.l2 1]],
      let s := wLine home 5 fun e => { e with state := st }
      s.speaks home (.l2 1) = true ∧ s.hasWay 1 5 = true ∧ (∀ k ∈ (s.cluster 1).waysOf 5, k < 2 ^ 48) ∧ (s.dirEntry home 5).state = st ∧
        (st ≠ .i → s.homeFits home (.l2 1) 5 = true) ∧ wv.homeFits home (.l2 1) 5 = true ∧
        (∀ l ∈ s.linksOf home (.l2 1) 5, (s.link l).low = false) ∧ let e := s.dirEntry home 5
        e.queue = [] ∧ e.snoops = [] ∧ e.answers = [] ∧ e.leases = []) ∧
    (let s := { wv with links := [(0, { Link.reset with low := true })] }
     s.speaks .hub (.l2 1) = true ∧ s.homeFits .hub (.l2 1) 5 = true ∧ ∃ l ∈ s.linksOf .hub (.l2 1) 5, (s.link l).low = true) ∧
    (∀ home ∈ [HomeDir.hub, .die 0], ∀ own ∈ [false, true],
      (let s := wSnoop home own false false
       let e := s.dirEntry home 5
       e.state = .x (.l2 0) ∧ e.queue = [⟨.l2 1, own, own⟩] ∧ e.leases = [] ∧ e.snoops = [.l2 0] ∧ e.answers = [] ∧ s.speaks home (.l2 0) = true ∧
         (s.link 0).low = false ∧ s.holds (.l2 0) 5 = .m ∧ (({ s with links := [(0, { Link.reset with low := true })] } : State).link 0).low = true) ∧
      ∀ keeps ∈ [false, true], let e := (wSnoop home own true keeps).dirEntry home 5
        e.state = .x (.l2 0) ∧ e.queue = [⟨.l2 1, own, own⟩] ∧ e.leases = [] ∧ e.snoops = [] ∧ e.answers = [(.l2 0, keeps)]) ∧
    (∀ home ∈ [HomeDir.hub, .die 0],
      (let s := { wLine home 5 fun e => { e with state := .x (.l2 0) } with l2 := [(l2Key 0 5, .m)] }
       s.speaks home (.l2 0) = true ∧ (s.dirEntry home 5).state = .x (.l2 0) ∧ CacheAgent.l2 0 ∉ (s.dirEntry home 5).snoops ∧ s.holds (.l2 0) 5 = .m) ∧
      let s := wLine home 5 fun e => { e with state := .s [.l2 0, .l2 1] }
      s.speaks home (.l2 0) = true ∧ s.holds (.l2 0) 5 ≠ .m) ∧
    (1 : BitVec 8) ≠ Map.get 0 wv.incarnations (agentUnit (.l2 0)) ∧
    (∀ d ∈ [false, true], ∀ time ∈ [8999, 13000], let s := { wLease d with gtime := time }
      let l : Lease := ⟨0, 9000, [3], [3], false⟩
      s.leaseOf 5 0 = some l ∧ (s.dirEntry .hub 5).queue = [] ∧ s.leaseLost l = d ∧
        (if time = 8999 then (s.leaseDie l).reading s.gtime < l.ends ∧ s.gtime < l.ends + 4000
         else l.ends ≤ (s.leaseDie l).reading s.gtime ∧ l.ends + 4000 ≤ s.gtime)) ∧
    (∀ time ∈ [1000, 4000], let s := { wv with gtime := time }
      (s.die 0).gated = false ∧ (s.die 0).dead = false ∧ (s.die 0).lastTiming + 1000 ≤ s.gtime) ∧
    (wv.die 0).lastTiming + 4000 ≤ { wv with gtime := 4000 }.gtime ∧
    (let s := wLine (.die 0) 5 fun e => { e with state := .x (.l2 0) }
     (5 : Nat) < 2 ^ 48 ∧ (s.dirEntry (.die 0) 5).state = .x (.l2 0)) ∧
    (let s := { wv with dies := [(0, { Die.reset with dead := true, rejoined := [.l2 0, .l2 1, .dieDir 0] })] }
     (s.die (agentDie (.l2 1))).dead = true ∧ ∀ b ∈ agentsOf (agentDie (.l2 1)), b ≠ .l2 1 → b ∈ (s.die (agentDie (.l2 1))).rejoined) := by
  refine ⟨by decide +kernel, by decide +kernel, by decide +kernel, by decide +kernel, by decide, by decide +kernel, by decide, by decide, by decide +kernel,
    by decide +kernel⟩

/-! ### Witnesses: power, failures, the host -/

theorem witness_PowerControls :
    (0 < 16 ∧ 15 < 16 ∧ (Map.get Bloom.reset wv.blooms 15).swapped + 64000 ≤ { wv with gtime := 64000 }.gtime) ∧
    (wv.gtime < (wv.die 7).railAt + 100000 ∧ (wv.die 7).railAt + 100000 ≤ { wv with gtime := 100000 }.gtime) ∧
    (let s := { wv with gtime := 1000 }
     let x := Map.get Slice.reset (s.cluster 15).slices 5
     ((5 : Nat) < 6 ∧ 4 ≤ x.ratio.now 0 ∧ x.ratio.now 0 ≤ 8) ∧
     (∀ c ∈ [(SliceControl.grant, 4), (.ratio, 4)], SliceControl.lo c.1 ≤ c.2 ∧ c.2 ≤ SliceControl.hi c.1 ∧
       (c.1 = .grant ∧ (x.control c.1).target < c.2 ∧ x.matrix.target ≠ 7 ∨ c.1 = .ratio ∧ c.2 < (x.control c.1).target ∧ x.matrix.target ≠ 7)) ∧
     (x.admits .matrix 7 = true ∧ (x.control .matrix).changed + 1000 ≤ s.gtime ∧ (x.control .matrix).val ≠ 7) ∧
     let y : Slice := ⟨.steady 4, .steady 4, .steady 7⟩
     let z : Slice := ⟨.steady 8, .steady 4, .steady 7⟩
     z.admits .ratio 4 = true ∧ z.admits .grant 3 = true ∧ y.admits .ratio 5 = true ∧ 4 < y.grant.val + 1 ∧ y.admits .grant 3 = false ∧
       y.admits .matrix 6 = false) ∧
    (let s := { wGrid 1 with gtime := 1000 }
     (s.grid 1).dispatched = true ∧ (s.grid 1).completed = false ∧ (s.grid 1).energyAt + 1000 ≤ s.gtime) := by decide

/-- Line 0x1002 of page 0, dirty or clean in the L2 of cluster 0, or in the memory-side cache. -/
def wEvict (cluster dirty : Bool) : State :=
  if cluster then { wv with l2 := [(l2Key 0 0x1002, if dirty then .m else .e)] } else { wv with msc := [(0x1002, dirty)] }

theorem witness_DiesLinksFailures :
    ((wv.die 7).gated = false ∧ (wv.die 7).dead = false ∧ wv.dieInUse 7 = false ∧ (wv.memDie 3).failed = false) ∧
    (let s := { wv with dies := [(7, { Die.reset with gated := true, waking := true })] }
     (s.die 7).gated = true ∧ (s.die 7).waking = true) ∧
    ((11 : Nat) < 12 ∧ (wv.link 11).low = false ∧ (wv.link 11).lastUse + 10000 ≤ { wv with gtime := 10000 }.gtime) ∧
    (∀ d ∈ [0, 11], let s := { wv with links := [(d, { Link.reset with low := true, waking := some 96000 })], gtime := 100000 }
     (s.link d).waking = some 96000 ∧ 96000 + 4000 ≤ s.gtime ∧ (s.link d).low = true ∧
       (s.die d).gated = false ∧ (s.die d).dead = false ∧ (s.link d).first + 100000 ≤ s.gtime ∧ 0 ∈ s.teamsIn 0) ∧
    (0 ∈ wv.teamsIn 0 ∧ (wv.block 257).enable = false) ∧
    (∀ c ∈ [some 0, none], let x : EvictedLine := ⟨0x1002, c, 0x100⟩
      wv.cachedDirty x = none ∧ (wEvict c.isSome true).cachedDirty x = some true ∧ (wEvict c.isSome false).cachedDirty x = some false ∧
        (wEvict c.isSome true).mapsTo 0 x.va x.line = true ∧ (wEvict c.isSome true).asking 0 x.line = false) ∧
    (let s := wGrid 1
     ∃ e ∈ s.ctxs, e.2.onMemDie 3 = true ∧ mapsDevice s.mem e.1 e.2 = true ∧ 1 ∈ s.openGrids e.1) := by
  refine ⟨by decide, by decide, by decide, by decide, by decide, by decide +kernel, ?_⟩
  exact ⟨(0, { Context.absent with root := 0x10000 }), by decide, by decide, by decide +kernel, by decide⟩

/-- FIPS 180-4: the SHA-384 of no byte, and of "abc"; the image that reset leaves measured is the one it has booted. -/
theorem test_sha384 :
    sha384 [] = 0x38b060a751ac96384cd9327eb1b1e36a21fdb71114be07434c0cc7bf63f6e1da274edebfe76f65fbd51ad2f14898b95b ∧
      sha384 [0x61, 0x62, 0x63] = 0xcb00753f45a35e8bb5a03d699ac65007272c32ab0eded1631a8b605a43ff5bed8086072ba1e7cc2358baeca134c825a7 ∧
      Package.reset.measurement = sha384 Package.reset.image := by decide +kernel

theorem witness_HostAccess :
    (wv.pkg.verified = true ∧ wv.memPoison = [] ∧ wv.noWrites) ∧
    (∀ c ∈ [(0, 1), (2 ^ 39 - 64, 64)], wv.apertureOk c.1 c.2 = true ∧ wv.hostWaits c.1 c.2 = false) ∧
    (let s := { wv with memPoison := [(1, true)] }
     (s.apertureOk 31 2 = true ∧ s.hostWaits 31 2 = false ∧ ∃ i, i < 2 ∧ Map.get false s.memPoison ((31 + i) / 32) = true) ∧
       (∀ bs ∈ [List.replicate 32 (7 : Byte), [7]], s.apertureOk 32 bs.length = true ∧ s.hostWaits 32 bs.length = false ∧ 32 % 32 + bs.length ≤ 32 ∧
         Map.get false s.memPoison (32 / 32) = true)) ∧
    (∀ c ∈ [(HostAtomic.fetchAdd 8 (2 ^ 64 - 1), 8), (.swap 4 5, 12), (.cas 16 0 1, 2 ^ 39 - 16)], let n := HostAtomic.size c.1
      HostAtomic.ok c.1 = true ∧ c.2 % n = 0 ∧ wv.apertureOk c.2 n = true ∧ wv.hostWaits c.2 n = false) ∧
    { wv with pkg := { wv.pkg with verified := false } }.pkg.verified = false ∧
    { wv with pkg := { wv.pkg with blackBox := [⟨0, 0x21, 3, []⟩] } }.pkg.blackBox[0]? = some ⟨0, 0x21, 3, []⟩ := by
  refine ⟨⟨by decide, by decide, empty_log rfl⟩, by decide +kernel, by decide +kernel, by decide +kernel, rfl, rfl⟩

end Sys2Proof.Tests
end

/-!
# The driver's registers and admin commands

What each register write and each admin command of Tables 24.5 and 24.6 does, one equation for each way that it can end; what the end of a
command, the hub's own writes and the reading of a trap record leave alone; and from these the statement DriverCommands.
-/

namespace Sys2Proof.Machine

/-! ### Listed entries of a map -/

theorem lookup?_erase {α : Type} (m : Map α) (k j : Nat) : lookup? (Map.erase m k) j = if j = k then none else lookup? m j := by
  induction m with
  | nil => simp [Map.erase, lookup?]
  | cons e m ih =>
    simp only [Map.erase, lookup?]
    by_cases hk : e.1 = k
    · rw [if_pos hk, ih, hk]
      by_cases hj : j = k <;> simp [hj, Ne.symm]
    · rw [if_neg hk, lookup?, ih]
      by_cases he : e.1 = j
      · simp [he, show j ≠ k from he ▸ hk]
      · simp [he]

theorem lookup?_insert_other {α : Type} (m : Map α) {k j : Nat} (v : α) (h : j ≠ k) : lookup? (Map.insert k v m) j = lookup? m j := by
  induction m with
  | nil => simp [Map.insert, lookup?, Ne.symm h]
  | cons e m ih => by_cases hk : k < e.1 <;> simp [Map.insert, hk, lookup?, Ne.symm h, ih]

theorem lookup?_insert_same {α : Type} (m : Map α) (k : Nat) (v : α) (h : ∀ e ∈ m, e.1 ≠ k) : lookup? (Map.insert k v m) k = some v := by
  induction m with
  | nil => simp [Map.insert, lookup?]
  | cons e m ih =>
    obtain ⟨he, hm⟩ := List.forall_mem_cons.1 h
    by_cases hk : k < e.1 <;> simp [Map.insert, hk, lookup?, he, ih hm]

theorem lookup?_put {α : Type} (m : Map α) (k j : Nat) (v : α) : lookup? (Map.put m k v) j = if j = k then some v else lookup? m j := by
  split
  · next h => rw [h, Map.put, lookup?_insert_same _ k v (Map.erase_ne m k)]
  · next h => rw [Map.put, lookup?_insert_other _ v h, lookup?_erase, if_neg h]

/-! ### Queue blocks, host queues and signals -/

theorem SameMemTeams.sameBytes {s t : State} (h : SameMemTeams s t) : sameBytes s t := by
  obtain ⟨hm, ht⟩ := h
  simp [Sys2Proof.Machine.sameBytes, State.team, hm, ht]

theorem State.block_setBlock_other (s : State) {b n : Nat} (x : QueueRegs) (h : n ≠ b) : (s.setBlock b x).block n = s.block n :=
  Map.get_put_other _ _ _ h

@[simp] theorem State.hostQueue_setHostQueue_same (s : State) (q : Nat) (x : HostQueue) : (s.setHostQueue q x).hostQueue q = x :=
  Map.get_put_same _ _ _ _

/-! ### The driver's registers (R381) -/

theorem QueueBlock.there_of_lt (b : QueueBlock) (h : ∀ q, b = .host q → q < 256) : QueueBlock.there b = true := by
  cases b with
  | host q => simpa [QueueBlock.there] using h q rfl
  | admin => rfl
  | fault => rfl

theorem State.takeRecords_block (s : State) (q : Nat) : (s.takeRecords q).block q = { s.block q with head := (s.block q).tail } :=
  State.block_setBlock_same _ _ _

theorem State.takeRecords_hostQueue (s : State) (q : Nat) :
    (s.takeRecords q).hostQueue q =
      (s.hostQueue q).push ((s.ringRecords (s.block q)).map fun r => ⟨r, s.hostRelease.lastEvent⟩) s.gtime :=
  State.hostQueue_setHostQueue_same s.hostRelease q _

/-- A block has taken a new tail. -/
def State.withTail (s : State) (n : Nat) (tail : Word) : State :=
  s.setBlock n { s.block n with tail := tail.toNat % 2 ^ (s.block n).size }

@[simp] theorem State.withTail_block (s : State) (n : Nat) (tail : Word) :
    (s.withTail n tail).block n = { s.block n with tail := tail.toNat % 2 ^ (s.block n).size } := State.block_setBlock_same _ _ _

theorem State.withTail_regs (s : State) (n : Nat) (tail : Word) :
    ((s.withTail n tail).block n).tail = tail.toNat % 2 ^ (s.block n).size ∧ ((s.withTail n tail).block n).base = (s.block n).base ∧
      ((s.withTail n tail).block n).head = (s.block n).head := by
  rw [State.withTail_block]
  exact ⟨rfl, rfl, rfl⟩

/-- A host queue's head meets its new tail, as its records have been read. -/
theorem State.takeRecords_withTail_regs (s : State) (q : Nat) (tail : Word) :
    let y := ((s.withTail q tail).takeRecords q).block q
    y.tail = tail.toNat % 2 ^ (s.block q).size ∧ y.base = (s.block q).base ∧ y.head = tail.toNat % 2 ^ (s.block q).size := by
  intro y
  simp only [y, State.takeRecords_block, State.withTail_block, and_self]

theorem State.withTail_same (s : State) (n : Nat) (tail : Word) : SameMemTeams s (s.withTail n tail) := ⟨rfl, rfl⟩
theorem State.hostRelease_same (s : State) : SameMemTeams s s.hostRelease := ⟨rfl, rfl⟩
theorem State.takeRecords_same (s : State) (q : Nat) : SameMemTeams s (s.takeRecords q) := ⟨rfl, rfl⟩
theorem State.setBlock_same (s : State) (n : Nat) (x : QueueRegs) : SameMemTeams s (s.setBlock n x) := ⟨rfl, rfl⟩

theorem execQueueTailWrite_disabled (b : QueueBlock) (tail : Word) (s : State) (h : (s.block (blockOf b)).enable = false) :
    exec (.queueTailWrite b tail) s = .next s := by
  show execQueueTailWrite b tail s = _
  simp [execQueueTailWrite, h]

theorem execQueueTailWrite_host (q : Nat) (tail : Word) (s : State) (he : (s.block q).enable = true) (hv : s.pkg.verified = true)
    (hq : q < 256) : exec (.queueTailWrite (.host q) tail) s = .next ((s.withTail q tail).takeRecords q) := by
  show execQueueTailWrite (.host q) tail s = _
  simp [execQueueTailWrite, QueueBlock.there, blockOf, he, hv, hq, State.withTail]

theorem execQueueTailWrite_admin (tail : Word) (s : State) (he : (s.block 256).enable = true) (hv : s.pkg.verified = true) :
    exec (.queueTailWrite .admin tail) s = .next (s.withTail 256 tail).hostRelease := by
  show execQueueTailWrite .admin tail s = _
  simp [execQueueTailWrite, QueueBlock.there, blockOf, he, hv, State.withTail]

theorem execQueueTailWrite_fault (tail : Word) (s : State) (he : (s.block 257).enable = true) :
    exec (.queueTailWrite .fault tail) s = .next (s.withTail 257 tail) := by
  show execQueueTailWrite .fault tail s = _
  simp [execQueueTailWrite, QueueBlock.there, blockOf, faultRing, he, State.withTail]

/-- The records that a host queue holds after a tail write: those before it, then those that the tail covers. -/
theorem State.takeRecords_withTail_bytes (s : State) (q : Nat) (tail : Word) :
    let x := s.block q
    let cut := tail.toNat % 2 ^ x.size
    ((((s.withTail q tail).takeRecords q).hostQueue q).records.map fun r => r.bytes) =
      ((s.hostQueue q).records.map fun r => r.bytes) ++
        (List.range ((cut + 2 ^ x.size - x.head) % 2 ^ x.size)).map fun i =>
          readBytes s.mem (ringKey (x.base + 128 * ((x.head + i) % 2 ^ x.size))) 128 := by
  simp only [State.takeRecords_hostQueue, HostQueue.push, List.map_append, List.map_map, State.ringRecords, State.withTail_block]
  rfl

theorem execRegisterWrite_head (b : QueueBlock) (v : DWord) (s : State) : exec (.registerWrite b .head v) s = .next s := by
  show execRegisterWrite b .head v s = _
  simp [execRegisterWrite]

section
variable (b : QueueBlock) (v : DWord) (s : State) (hv : s.pkg.verified = true) (hq : ∀ q, b = .host q → q < 256)
include hv hq

/-- A register write that reaches its block: what each register makes of it. -/
theorem execRegisterWrite_base (h : v.toNat % 128 = 0) :
    exec (.registerWrite b .base v) s = .next (s.setBlock (blockOf b) { s.block (blockOf b) with base := v.toNat }) := by
  show execRegisterWrite b .base v s = _
  simp [execRegisterWrite, hv, QueueBlock.there_of_lt b hq, h]

theorem execRegisterWrite_base_bad (h : v.toNat % 128 ≠ 0) : exec (.registerWrite b .base v) s = .next s := by
  show execRegisterWrite b .base v s = _
  simp [execRegisterWrite, hv, QueueBlock.there_of_lt b hq, h]

theorem execRegisterWrite_vector (h : v.toNat < 2 ^ 11) :
    exec (.registerWrite b .vector v) s = .next (s.setBlock (blockOf b) { s.block (blockOf b) with vector := v.toNat }) := by
  show execRegisterWrite b .vector v s = _
  simp [execRegisterWrite, hv, QueueBlock.there_of_lt b hq, show ¬2048 ≤ v.toNat by omega]

theorem execRegisterWrite_size (on : Bool) (size : Nat) (h4 : 4 ≤ size) (h16 : size ≤ 16)
    (h : v.toNat = (if on then 2 ^ 31 else 0) + size) :
    exec (.registerWrite b .size v) s =
      .next (s.setBlock (blockOf b) { s.block (blockOf b) with enable := on, size := size }).drainRing := by
  have hval : on = false ∧ v.toNat = size ∨ on = true ∧ v.toNat = 2 ^ 31 + size := by cases on <;> simpa using h
  have hmid : bitsOf v.toNat 30 5 = 0 := by simp only [bitsOf]; omega
  have hsize : v.toNat % 32 = size := by omega
  have hok : ¬(v.toNat / 2 ^ 32 ≠ 0 ∨ bitsOf v.toNat 30 5 ≠ 0 ∨ size < 4 ∨ 16 < size) := by omega
  have hon : v.toNat.testBit 31 = on := by
    rw [Nat.testBit_eq_decide_div_mod_eq]
    obtain ⟨rfl, hv⟩ | ⟨rfl, hv⟩ := hval <;> simp <;> omega
  show execRegisterWrite b .size v s = _
  simp only [execRegisterWrite, hv, QueueBlock.there_of_lt b hq, hsize, hon, if_neg hok, Bool.true_eq_false, or_self, if_false]

end

/-- With no range record waiting, the fault ring writes nothing. -/
theorem State.drainRing_empty (s : State) (h : s.faultOut = []) : s.drainRing = s := by
  unfold State.drainRing
  split
  · rw [h]
    cases s
    cases h
    rfl
  · rfl

/-! ### The admin ring (R381, Table 24.6) -/

theorem State.adminEntry_congr {s t : State} (h : t.block adminRing = s.block adminRing) : t.adminEntry = s.adminEntry := by
  simp only [State.adminEntry, h]

/-- A command that is next: done with its effect, or rejected. -/
theorem State.admin_next {s : State} {op : Nat} (h : s.adminOp = some op) (ok : Bool) (f : State → State) :
    s.admin op ok f = if ok then (f s).adminDone 0 else s.adminDone 1 := by
  simp [State.admin, h]

theorem State.adminEntry_of_adminOp {s : State} {op : Nat} (h : s.adminOp = some op) : ∃ k, s.adminEntry = some k := by
  obtain ⟨k, hk, -⟩ := Option.map_eq_some_iff.1 h
  exact ⟨k, hk⟩

/-- A command whose effect leaves memory and the ring as they were ends with its status. -/
theorem State.adminDone_ends {s t : State} {op : Nat} (h : s.adminOp = some op) (hm : t.mem = s.mem)
    (hb : t.block adminRing = s.block adminRing) (status : Nat) : s.commandEnds (t.adminDone status) status := by
  obtain ⟨k, hk⟩ := State.adminEntry_of_adminOp h
  obtain ⟨k', hk', hw, hh⟩ := State.adminDone_spec t status k ((State.adminEntry_congr hb).trans hk)
  refine ⟨k', (State.adminEntry_congr hb).symm.trans hk', fun a => ?_, ?_⟩
  · rw [hw a, hm]
  · rw [hh, show t.block 256 = s.block 256 from hb]

theorem leBytes_length (n x : Nat) : (leBytes n x).length = n := by
  induction n generalizing x with
  | zero => rfl
  | succ n ih => simp [leBytes, ih]

/-- The bytes that the device wrote are read back. -/
theorem readBytes_of_wroteBytes {s t : State} {k : Nat} {bs : List Byte} (h : wroteBytes s t k bs) : readBytes t.mem k bs.length = bs := by
  refine List.ext_getElem (by simp [readBytes]) fun i h1 h2 => ?_
  simp [readBytes, h (k + i), h2]

/-- A command whose effect leaves the ring as it was is over with its status, whatever else it has written. -/
theorem State.adminDone_over {s t : State} {op : Nat} (h : s.adminOp = some op) (hb : t.block adminRing = s.block adminRing)
    (status : Nat) : s.commandOver (t.adminDone status) status := by
  obtain ⟨k, hk⟩ := State.adminEntry_of_adminOp h
  obtain ⟨k', hk', hw, hh⟩ := State.adminDone_spec t status k ((State.adminEntry_congr hb).trans hk)
  refine ⟨k', (State.adminEntry_congr hb).symm.trans hk', ?_, ?_⟩
  · simpa [leBytes_length] using readBytes_of_wroteBytes hw
  · rw [hh, show t.block 256 = s.block 256 from hb]

/-! What the end of a command leaves of the state. -/

@[simp] theorem State.adminDone_teams (s : State) (status : Nat) : (s.adminDone status).teams = s.teams := by
  unfold State.adminDone; split <;> rfl

@[simp] theorem State.adminDone_ctxs (s : State) (status : Nat) : (s.adminDone status).ctxs = s.ctxs := by
  unfold State.adminDone; split <;> rfl

@[simp] theorem State.adminDone_grids (s : State) (status : Nat) : (s.adminDone status).grids = s.grids := by
  unfold State.adminDone; split <;> rfl

@[simp] theorem State.adminDone_hostQueues (s : State) (status : Nat) : (s.adminDone status).hostQueues = s.hostQueues := by
  unfold State.adminDone; split <;> rfl

@[simp] theorem State.adminDone_team (s : State) (status t : Nat) : (s.adminDone status).team t = s.team t := by
  simp only [State.team, State.adminDone_teams]

@[simp] theorem State.adminDone_ctx (s : State) (status c : Nat) : (s.adminDone status).ctx c = s.ctx c := by
  simp only [State.ctx, State.adminDone_ctxs]

@[simp] theorem State.adminDone_grid (s : State) (status n : Nat) : (s.adminDone status).grid n = s.grid n := by
  simp only [State.grid, State.adminDone_grids]

@[simp] theorem State.adminDone_hostQueue (s : State) (status q : Nat) : (s.adminDone status).hostQueue q = s.hostQueue q := by
  simp only [State.hostQueue, State.adminDone_hostQueues]

@[simp] theorem State.adminDone_hasCtx (s : State) (status tag : Nat) : (s.adminDone status).hasCtx tag = s.hasCtx tag := by
  simp only [State.hasCtx, State.adminDone_ctxs]

/-- The end of a command changes the interrupts of the package and nothing else of it. -/
theorem State.adminDone_pkg (s : State) (status : Nat) :
    ∃ msix pending, (s.adminDone status).pkg = { s.pkg with msix := msix, pending := pending } := by
  unfold State.adminDone
  split
  · exact ⟨_, _, rfl⟩
  · simp only [State.signal, Package.signal]
    split <;> exact ⟨_, _, rfl⟩

@[simp] theorem State.adminDone_retiredPorts (s : State) (status : Nat) : (s.adminDone status).pkg.retiredPorts = s.pkg.retiredPorts := by
  obtain ⟨m, p, h⟩ := s.adminDone_pkg status
  rw [h]

@[simp] theorem State.adminDone_comms (s : State) (status : Nat) : (s.adminDone status).pkg.comms = s.pkg.comms := by
  obtain ⟨m, p, h⟩ := s.adminDone_pkg status
  rw [h]

@[simp] theorem State.adminDone_imageHeld (s : State) (status : Nat) (g : Grid) : (s.adminDone status).imageHeld g = s.imageHeld g := by
  obtain ⟨m, p, h⟩ := s.adminDone_pkg status
  simp only [State.imageHeld, h]

/-! ### Contexts (R349, R355) -/

@[simp] theorem State.putCtx_ctx_same (s : State) (tag : Nat) (c : Context) : ({ s with ctxs := Map.put s.ctxs tag c } : State).ctx tag = c :=
  Map.get_put_same _ _ _ _

theorem State.putCtx_ctx_other (s : State) {tag d : Nat} (c : Context) (h : d ≠ tag) :
    ({ s with ctxs := Map.put s.ctxs tag c } : State).ctx d = s.ctx d :=
  Map.get_put_other _ _ _ h

theorem execCreateContext_ok (desc : Nat) (s : State) (h : s.adminOp = some 1) :
    let bs := readBytes s.mem (ringKey desc) 64
    s.descriptorOk bs = true → s.routinesOk (fieldAt bs 0x20 8) = true → s.hasCtx (fieldAt bs 0 2) = false →
      (∀ e ∈ s.memDies, e.2.failed = false) →
      exec (.createContext desc) s =
        .next (({ s with ctxs := Map.put s.ctxs (fieldAt bs 0 2) (contextOf bs) } : State).adminDone 0) := by
  intro bs hd hr hc hf
  have hany : (s.memDies.any fun e => e.2.failed) = false := List.any_eq_false.2 fun e he => by simp [hf e he]
  show Host.Outcome.next (s.admin 1 _ _) = _
  rw [State.admin_next h]
  simp [bs, hd, hr, hc, hany]

theorem execCreateContext_rejected (desc : Nat) (s : State) (h : s.adminOp = some 1)
    (hbad : s.descriptorOk (readBytes s.mem (ringKey desc) 64) = false ∨ s.hasCtx (fieldAt (readBytes s.mem (ringKey desc) 64) 0 2) = true) :
    exec (.createContext desc) s = .next (s.adminDone 1) := by
  show Host.Outcome.next (s.admin 1 _ _) = _
  rw [State.admin_next h]
  obtain hd | hc := hbad
  · simp [hd]
  · simp [hc]

/-- The fields of a created context are those of Table 23.1, with the defaults of a watchdog and a quantum of 0. -/
theorem contextOf_fields (bs : List Byte) :
    let c := contextOf bs
    c.mode = fieldAt bs 2 1 % 4 ∧ c.device = fieldAt bs 2 1 / 4 % 8 ∧ c.rotation = fieldAt bs 2 1 / 32 ∧
      (c.flush = true ↔ fieldAt bs 3 1 = 1) ∧ c.watchdog = (if fieldAt bs 4 4 = 0 then 100 else fieldAt bs 4 4) ∧
      c.root = fieldAt bs 8 8 ∧ c.handler = fieldAt bs 0x10 8 ∧ c.trapBase = fieldAt bs 0x18 8 ∧ c.routines = fieldAt bs 0x20 8 ∧
      c.quantum = (if fieldAt bs 0x28 4 = 0 then 200 else fieldAt bs 0x28 4) ∧ c.privBase = fieldAt bs 0x30 8 ∧ c.windows = [] :=
  ⟨rfl, rfl, rfl, decide_eq_true_iff, rfl, rfl, rfl, rfl, rfl, rfl, rfl, rfl⟩

/-- The queue lies in the share of the context's presented device, and no other context has it. -/
def State.mayAssign (s : State) (tag q : Nat) : Prop :=
  let n := queueCount (s.ctx tag).mode
  (s.ctx tag).device * n ≤ q ∧ q < ((s.ctx tag).device + 1) * n ∧ ((s.hostQueue q).owner = none ∨ (s.hostQueue q).owner = some tag)

theorem execAssignQueue_ok (tag q : Nat) (s : State) (h : s.adminOp = some 3) (hc : s.hasCtx tag = true) (hq : s.mayAssign tag q) :
    exec (.assignQueue tag q) s = .next ((s.setHostQueue q { s.hostQueue q with owner := some tag }).adminDone 0) := by
  obtain ⟨h1, h2, h3⟩ := hq
  show Host.Outcome.next (s.admin 3 _ _) = _
  rw [State.admin_next h]
  simp [hc, h1, h2, h3]

theorem execAssignQueue_rejected (tag q : Nat) (s : State) (h : s.adminOp = some 3) (hq : ¬s.mayAssign tag q) :
    exec (.assignQueue tag q) s = .next (s.adminDone 1) := by
  show Host.Outcome.next (s.admin 3 _ _) = _
  rw [State.admin_next h, if_neg]
  simpa [State.mayAssign, and_assoc] using fun _ => hq

/-! ### DESTROY_CONTEXT (R349)

Its grids end one after the other, each with its completion event; then the package forgets the context. -/

/-- Contexts, teams, grids and the admin ring's registers stay: what a write of the hub, an interrupt or a record leaves. -/
structure HubFrame (s t : State) : Prop where
  ctxs : t.ctxs = s.ctxs
  teams : t.teams = s.teams
  grids : t.grids = s.grids
  ring : t.block adminRing = s.block adminRing

theorem HubFrame.trans {s t u : State} (h : HubFrame s t) (k : HubFrame t u) : HubFrame s u :=
  ⟨k.ctxs.trans h.ctxs, k.teams.trans h.teams, k.grids.trans h.grids, k.ring.trans h.ring⟩

theorem HubFrame.refl (s : State) : HubFrame s s := ⟨rfl, rfl, rfl, rfl⟩

theorem HubFrame.foldl {α : Type} (f : State → α → State) (h : ∀ s a, HubFrame s (f s a)) (l : List α) (s : State) :
    HubFrame s (l.foldl f s) := by
  induction l generalizing s with
  | nil => exact .refl s
  | cons a l ih => exact (h s a).trans (ih (f s a))

theorem State.putBytes_frame (s : State) (k : Nat) (bs : List Byte) : HubFrame s (s.putBytes k bs) := ⟨rfl, rfl, rfl, rfl⟩
theorem State.hubStore_frame (s : State) (tag k : Nat) (bs : List Byte) (cls : EvClass) (extra : List Nat) :
    HubFrame s (s.hubStore tag k bs cls extra) := ⟨rfl, rfl, rfl, rfl⟩
theorem State.signal_frame (s : State) (b : Nat) : HubFrame s (s.signal b) := ⟨rfl, rfl, rfl, rfl⟩
theorem State.logBox_frame (s : State) (c u : Nat) (d : List Byte) : HubFrame s (s.logBox c u d) := by
  constructor <;> simp only [State.logBox, State.block]
theorem State.setFaultRing_frame (s : State) (x : QueueRegs) : HubFrame s (s.setBlock faultRing x) :=
  ⟨rfl, rfl, rfl, State.block_setBlock_other s x (by decide)⟩

theorem State.ringWrite_frame (s : State) (r : RangeRec) : HubFrame s (s.ringWrite r) := by
  have h (x : QueueRegs) (k : Nat) (bs : List Byte) : HubFrame s (((s.putBytes k bs).setBlock faultRing x).signal faultRing) :=
    ((s.putBytes_frame k bs).trans (State.setFaultRing_frame _ x)).trans (State.signal_frame _ _)
  unfold State.ringWrite
  simp only
  split
  · exact (h _ _ _).trans (State.logBox_frame _ _ _ _)
  · exact h _ _ _

theorem State.drainRing_frame (s : State) : HubFrame s s.drainRing := by
  unfold State.drainRing
  split
  · exact HubFrame.trans (t := { s with faultOut := [] }) ⟨rfl, rfl, rfl, rfl⟩ (HubFrame.foldl _ State.ringWrite_frame _ _)
  · exact .refl s

theorem State.signalEvent_frame (s : State) (tag va : Nat) (status : Word) (extra : List Nat) :
    HubFrame s (s.signalEvent tag va status extra) := by
  unfold State.signalEvent
  split
  · exact HubFrame.trans (t := { s with faultOut := s.faultOut ++ [_] }) ⟨rfl, rfl, rfl, rfl⟩ (State.drainRing_frame _)
  · exact (s.hubStore_frame _ _ _ _ _).trans (State.hubStore_frame _ _ _ _ _ _)

/-- The grid has completed, and its teams have ended. -/
def State.gridOver (s : State) (n : Nat) : Prop := (s.grid n).completed = true ∧ ∀ e ∈ s.teams, e.2.grid = n → e.2.residency = .ended

/-- Ending a grid's teams ends them and leaves those that have ended. -/
theorem endTeams_ended (n m : Nat) (ts : Map Team) (h : m = n ∨ ∀ e ∈ ts, e.2.grid = m → e.2.residency = .ended) :
    ∀ e ∈ endTeams n ts, e.2.grid = m → e.2.residency = .ended := by
  intro e he hm
  obtain ⟨x, hx, rfl⟩ := List.mem_map.1 he
  split at hm <;> rename_i hc
  · simp only [if_pos hc]
  · simp only [if_neg hc]
    obtain rfl | h := h
    · simpa [hm] using hc
    · exact h x hx hm

/-- A grid that ends: its end, the hub's signal, and the completed grid. -/
theorem State.endAndSignal_steps (s : State) (n : Nat) (status : Word) :
    ∃ t, HubFrame (s.endGrid n status) t ∧ s.endAndSignal n status = t.setGrid n { (s.endGrid n status).grid n with completed := true } :=
  ⟨_, State.signalEvent_frame _ _ _ _ _, by unfold State.endAndSignal; rfl⟩

theorem State.endAndSignal_teams (s : State) (n : Nat) (status : Word) : (s.endAndSignal n status).teams = endTeams n s.teams := by
  obtain ⟨t, ht, h⟩ := s.endAndSignal_steps n status
  rw [h, State.setGrid_teams, ht.teams, State.endGrid_teams]

theorem State.endAndSignal_ctxs (s : State) (n : Nat) (status : Word) : (s.endAndSignal n status).ctxs = s.ctxs := by
  obtain ⟨t, ht, h⟩ := s.endAndSignal_steps n status
  rw [h, State.setGrid_ctxs, ht.ctxs]
  rfl

theorem State.endAndSignal_ring (s : State) (n : Nat) (status : Word) :
    (s.endAndSignal n status).block adminRing = s.block adminRing := by
  obtain ⟨t, ht, h⟩ := s.endAndSignal_steps n status
  rw [h, show (t.setGrid n _).block adminRing = t.block adminRing from rfl, ht.ring]
  rfl

theorem State.endAndSignal_completed_same (s : State) (n : Nat) (status : Word) : ((s.endAndSignal n status).grid n).completed = true := by
  obtain ⟨t, ht, h⟩ := s.endAndSignal_steps n status
  rw [h, State.grid_setGrid_same]

theorem State.grid_setGrid_other (s : State) {n m : Nat} (x : Grid) (h : m ≠ n) : (s.setGrid n x).grid m = s.grid m :=
  Map.get_put_other _ _ _ h

theorem State.endAndSignal_grid_other (s : State) {n m : Nat} (status : Word) (hm : m ≠ n) :
    (s.endAndSignal n status).grid m = s.grid m := by
  obtain ⟨t, ht, h⟩ := s.endAndSignal_steps n status
  obtain ⟨-, -, hother⟩ := State.endGrid_spec s n status
  rw [h, State.grid_setGrid_other t _ hm, State.grid, ht.grids]
  exact hother m hm

theorem State.endAndSignal_over (s : State) (n : Nat) (status : Word) : (s.endAndSignal n status).gridOver n := by
  refine ⟨s.endAndSignal_completed_same n status, ?_⟩
  rw [State.endAndSignal_teams]
  exact endTeams_ended n n s.teams (.inl rfl)

theorem State.endAndSignal_keeps_over (s : State) (n : Nat) (status : Word) {m : Nat} (h : s.gridOver m) :
    (s.endAndSignal n status).gridOver m := by
  obtain ⟨hc, ht⟩ := h
  by_cases hm : m = n
  · subst hm
    exact s.endAndSignal_over m status
  · refine ⟨by rw [s.endAndSignal_grid_other status hm, hc], ?_⟩
    rw [State.endAndSignal_teams]
    exact endTeams_ended n m s.teams (.inr ht)

/-- Grids end, each with a status that the spec leaves open (log 19). -/
def State.endGrids (s : State) (ns : List Nat) : State := ns.foldl (fun s n => s.endAndSignal n (s.openWord n)) s

theorem State.endGrids_cons (s : State) (n : Nat) (ns : List Nat) :
    s.endGrids (n :: ns) = (s.endAndSignal n (s.openWord n)).endGrids ns := by
  simp only [State.endGrids, List.foldl_cons]

theorem State.endGrids_ctxs (ns : List Nat) (s : State) : (s.endGrids ns).ctxs = s.ctxs := by
  induction ns generalizing s with
  | nil => rfl
  | cons n ns ih => rw [State.endGrids_cons, ih, State.endAndSignal_ctxs]

theorem State.endGrids_ring (ns : List Nat) (s : State) : (s.endGrids ns).block adminRing = s.block adminRing := by
  induction ns generalizing s with
  | nil => rfl
  | cons n ns ih => rw [State.endGrids_cons, ih, State.endAndSignal_ring]

theorem State.endGrids_keeps_over (ns : List Nat) (s : State) {m : Nat} (h : s.gridOver m) : (s.endGrids ns).gridOver m := by
  induction ns generalizing s with
  | nil => exact h
  | cons n ns ih =>
    rw [State.endGrids_cons]
    exact ih _ (s.endAndSignal_keeps_over n _ h)

theorem State.endGrids_over (ns : List Nat) (s : State) : ∀ n ∈ ns, (s.endGrids ns).gridOver n := by
  induction ns generalizing s with
  | nil => simp
  | cons k ns ih =>
    intro n hn
    rw [State.endGrids_cons]
    obtain rfl | hn := List.mem_cons.1 hn
    · exact State.endGrids_keeps_over ns _ (s.endAndSignal_over n _)
    · exact ih _ n hn

theorem State.forgetContext_ctxs (s : State) (tag : Nat) : (s.forgetContext tag).ctxs = Map.erase s.ctxs tag := rfl
theorem State.forgetContext_ring (s : State) (tag : Nat) : (s.forgetContext tag).block adminRing = s.block adminRing := rfl

theorem State.forgetContext_hasCtx (s : State) (tag : Nat) : (s.forgetContext tag).hasCtx tag = false := by
  simp [State.hasCtx, State.forgetContext_ctxs, lookup?_erase]

theorem State.forgetContext_ctx_other (s : State) {tag c : Nat} (h : c ≠ tag) : (s.forgetContext tag).ctx c = s.ctx c :=
  Map.get_erase_other _ _ h

/-- Only the core TLBs of its teams change. -/
theorem State.forgetContext_over (s : State) (tag : Nat) {n : Nat} (h : s.gridOver n) : (s.forgetContext tag).gridOver n := by
  obtain ⟨hc, ht⟩ := h
  refine ⟨hc, fun e he hn => ?_⟩
  obtain ⟨x, hx, rfl⟩ := List.mem_map.1 he
  split at hn <;> rename_i hx'
  · simpa only [if_pos hx'] using ht x hx hn
  · simpa only [if_neg hx'] using ht x hx hn

theorem State.forgetContext_owner (s : State) (tag q : Nat) : ((s.forgetContext tag).hostQueue q).owner ≠ some tag := by
  have key : ∀ m : Map HostQueue,
      (Map.get HostQueue.reset (m.map fun e => if e.2.owner = some tag then (e.1, HostQueue.reset) else e) q).owner ≠ some tag := by
    intro m
    induction m with
    | nil => exact nofun
    | cons e m ih =>
      by_cases ho : e.2.owner = some tag
      · by_cases hq : e.1 = q
        · simp [Map.get, ho, hq, HostQueue.reset]
        · simpa [Map.get, ho, hq] using ih
      · by_cases hq : e.1 = q
        · simp [Map.get, ho, hq]
        · simpa [Map.get, ho, hq] using ih
  exact key s.hostQueues

theorem execDestroyContext_ok (tag : Nat) (s : State) (h : s.adminOp = some 2) (hc : s.hasCtx tag = true) :
    exec (.destroyContext tag) s = .next (((s.endGrids (s.openGrids tag)).forgetContext tag).adminDone 0) := by
  show Host.Outcome.next (s.admin 2 _ _) = _
  rw [State.admin_next h, hc]
  rfl

/-! ### Routes (R22, R373 to R375, R379) -/

/-- A state with another package. -/
def State.withPkg (s : State) (p : Package) : State := { s with pkg := p }

/-- A frame that is lost changes the package: neither its routes nor what it holds for regeneration. -/
theorem State.loseFrame_spec (s : State) (f : Frame) :
    ∃ p, s.loseFrame f = s.withPkg p ∧ p.retiredPorts = s.pkg.retiredPorts ∧ p.holds = s.pkg.holds := by
  refine ⟨(s.loseFrame f).pkg, ?_, ?_, ?_⟩ <;> simp only [State.loseFrame, State.logBox, State.withPkg]

/-- Frames dropped at a retired unit, likewise. -/
theorem State.dropFrames_spec (s : State) (before : Package) :
    ∃ p, s.dropFrames before = s.withPkg p ∧ p.retiredPorts = s.pkg.retiredPorts ∧ p.holds = s.pkg.holds := by
  have key : ∀ (fs : List Frame) (q : Package), q.retiredPorts = s.pkg.retiredPorts → q.holds = s.pkg.holds →
      ∃ p, fs.foldl (fun s f => s.loseFrame f) (s.withPkg q) = s.withPkg p ∧ p.retiredPorts = s.pkg.retiredPorts ∧ p.holds = s.pkg.holds := by
    intro fs
    induction fs with
    | nil => exact fun q hr hh => ⟨q, rfl, hr, hh⟩
    | cons f fs ih =>
      intro q hr hh
      obtain ⟨p, hp, hpr, hph⟩ := State.loseFrame_spec (s.withPkg q) f
      rw [List.foldl_cons, hp]
      exact ih p (hpr.trans hr) (hph.trans hh)
  exact key _ s.pkg rfl rfl

/-- A turn string that crosses a retired port reaches nothing (R374). -/
theorem Package.routeBad_of_retired (p : Package) {n turn : Nat} (h : n ∈ p.retiredPorts) (ht : bitsOf turn 59 56 = n) :
    p.routeBad turn = true := by
  have hc : p.retiredPorts.contains (bitsOf turn 59 56) = true := by simpa [ht] using h
  simp only [Package.routeBad, hc, Bool.or_true, Bool.true_or]

/-- A port retires: the images of every context are held, and frames on their way across it may be lost. -/
theorem execRetirePort_ok (n : Nat) (s : State) (h : s.adminOp = some 6) (hn : n < 16) :
    ∃ p, exec (.retireUnit (.port n)) s = .next ((s.withPkg p).adminDone 0) ∧ p.retiredPorts = n :: s.pkg.retiredPorts ∧
      p.holds = s.ctxs.map fun e => (e.1, []) := by
  obtain ⟨p, hp, hr, hh⟩ := State.dropFrames_spec (s.withPkg { s.pkg.retire (.port n) with holds := s.ctxs.map fun e => (e.1, []) }) s.pkg
  refine ⟨p, ?_, hr, hh⟩
  show Host.Outcome.next (s.admin 6 _ _) = _
  rw [State.admin_next h, if_pos (show unitOk (.port n) = true from decide_eq_true hn)]
  exact congrArg (fun t => Host.Outcome.next (State.adminDone t 0)) hp

theorem mem_keys_of_lookup? {α : Type} {m : Map α} {k : Nat} (h : (lookup? m k).isSome = true) : ∃ e ∈ m, e.1 = k := by
  induction m with
  | nil => cases h
  | cons e m ih =>
    rw [lookup?] at h
    split at h <;> rename_i he
    · exact ⟨e, List.mem_cons_self, he⟩
    · obtain ⟨x, hx, hk⟩ := ih h
      exact ⟨x, List.mem_cons_of_mem _ hx, hk⟩

/-- While every context regenerates with no image complete, every image of a context is held. -/
theorem State.imageHeld_of_holds (s : State) (ctxs : Map Context) (hh : s.pkg.holds = ctxs.map fun e => (e.1, [])) (g : Grid)
    (hg : (lookup? ctxs g.ctx).isSome = true) : s.imageHeld g = true := by
  obtain ⟨e, he, hk⟩ := mem_keys_of_lookup? hg
  simp only [State.imageHeld, hh, List.any_eq_true]
  exact ⟨(e.1, []), List.mem_map.2 ⟨e, he, rfl⟩, by simp [hk]⟩

/-- An image that is complete is held no more; every other one is held as before. -/
theorem execRegenerationComplete_held (ctx image : Nat) (s : State) :
    ∃ t, exec (.regenerationComplete ⟨ctx, image⟩) s = .next t ∧ SameMemTeams s t ∧
      ∀ g, t.imageHeld g = (s.imageHeld g && !(decide (g.ctx = ctx) && decide (g.dataBase = image))) := by
  refine ⟨_, rfl, ⟨rfl, rfl⟩, fun g => ?_⟩
  simp only [State.imageHeld]
  induction s.pkg.holds with
  | nil => rfl
  | cons h hs ih =>
    rw [List.map_cons, List.any_cons, List.any_cons, ih, Bool.and_or_distrib_right]
    congr 1
    by_cases hc : h.1 = ctx
    · by_cases hg : g.ctx = ctx
      · by_cases hb : g.dataBase = image <;> simp [hc, hg, hb]
      · simp [hc, hg, Ne.symm hg]
    · by_cases hg : g.ctx = ctx
      · simp [hc, hg]
      · simp [hc, hg]

theorem execSetPeerWindow_ok (tag w package base : Nat) (turn : DWord) (s : State) (h : s.adminOp = some 7) (hc : s.hasCtx tag = true)
    (hw : w < 64) (hp : package < 512) :
    exec (.setPeerWindow tag w package turn base) s =
      .next (({ s with
        ctxs := Map.put s.ctxs tag { s.ctx tag with windows := Map.put (s.ctx tag).windows w ⟨package, turn, base⟩ } } : State).adminDone 0) := by
  show Host.Outcome.next (s.admin 7 _ _) = _
  rw [State.admin_next h]
  simp [hc, hw, hp]

theorem execRegisterCommunicator_ok (tag number : Nat) (ms : List Member) (s : State) (h : s.adminOp = some 8)
    (hc : s.hasCtx tag = true) (hn : number < 2 ^ 32) (hne : ms ≠ []) (hlen : ms.length ≤ 2 ^ 16) (hp : ∀ m ∈ ms, m.package < 512) :
    ∃ p, exec (.registerCommunicator tag number ms) s = .next ((s.withPkg p).adminDone 0) ∧
      p.comms = Map.put s.pkg.comms (commKey tag number) ms := by
  have hall : (ms.all fun m => decide (m.package < 512)) = true := List.all_eq_true.2 fun m hm => decide_eq_true (hp m hm)
  refine ⟨{ s.pkg with
    comms := Map.put s.pkg.comms (commKey tag number) ms
    collCount := s.pkg.collCount.filter fun e => decide (e.1 / 2 ^ 32 ≠ commKey tag number) }, ?_, rfl⟩
  show Host.Outcome.next (s.admin 8 _ _) = _
  rw [State.admin_next h, if_pos (by simp only [hc, hall, hn, hlen, hne, decide_true, Bool.and_self, ne_eq, not_false_eq_true])]
  rfl

/-! ### END_GRID and undefined commands (R255, Table 24.6) -/

theorem execEndGrid_ok (tag cluster slot u : Nat) (status : Word) (s : State) (h : s.adminOp = some 0xA)
    (hu : s.teamAt tag cluster slot = some u) :
    exec (.endGrid tag cluster slot status) s = .next ((s.endGrid (s.team u).grid status).adminDone 0) := by
  show execEndGrid tag cluster slot status s = _
  simp only [execEndGrid, hu, State.admin_next h, if_true]

/-- The end of the command adds nothing to the end of the grid. -/
theorem gridEnded_adminDone {s t : State} {n : Nat} {status : Word} (h : gridEnded s t n status) (st : Nat) :
    gridEnded s (t.adminDone st) n status := by
  simpa only [gridEnded, State.adminDone_grid, State.adminDone_teams, State.adminDone_team] using h

theorem execAdminUndefined_rejected (op : Nat) (s : State) (h : s.adminOp = some op) (hop : op = 0 ∨ 0x0B ≤ op) :
    exec .adminUndefined s = .next (s.adminDone 1) := by
  show execAdminUndefined s = _
  simp only [execAdminUndefined, h, if_pos hop]

/-! ### What reading the trap record leaves alone (R254)

The record is read in 48 units. Reading one unit enters its translation in the TLBs and the miss table and logs a read, and does no more: in a
log with no write, each unit gives the bytes that stand in memory or the scratchpad. -/

/-- Bytes, registers, routes and the log's lack of writes stay; translations cached and events logged may be new. -/
structure ReadFrame (s t : State) : Prop where
  mem : t.mem = s.mem
  blocks : t.blocks = s.blocks
  quiet : s.noWrites → t.noWrites
  team : ∀ v, ∃ tlb, t.team v = { s.team v with tlb := tlb }
  reloc : ∀ c, (t.cluster c).reloc = (s.cluster c).reloc

theorem ReadFrame.refl (s : State) : ReadFrame s s := ⟨rfl, rfl, id, fun _ => ⟨_, rfl⟩, fun _ => rfl⟩

theorem ReadFrame.trans {s t u : State} (h : ReadFrame s t) (k : ReadFrame t u) : ReadFrame s u where
  mem := k.mem.trans h.mem
  blocks := k.blocks.trans h.blocks
  quiet := k.quiet ∘ h.quiet
  team v := by
    obtain ⟨b, hb⟩ := h.team v
    obtain ⟨c, hc⟩ := k.team v
    exact ⟨c, by rw [hc, hb]⟩
  reloc c := (k.reloc c).trans (h.reloc c)

theorem State.setCluster_readFrame (s : State) (c : Nat) (x : Cluster) (h : x.reloc = (s.cluster c).reloc) : ReadFrame s (s.setCluster c x) where
  mem := rfl
  blocks := rfl
  quiet := id
  team v := ⟨_, rfl⟩
  reloc d := by
    by_cases hd : d = c
    · rw [hd, State.cluster_setCluster_same, h]
    · exact congrArg Cluster.reloc (Map.get_put_other _ _ _ hd)

theorem State.keepCore_readFrame (s : State) (t k : Nat) (f : Leaf) : ReadFrame s (s.keepCore t k f) where
  mem := rfl
  blocks := rfl
  quiet := id
  team v := by
    unfold State.keepCore
    by_cases hv : v = t
    · rw [hv, State.team_mapTeam_same]
      exact ⟨_, rfl⟩
    · rw [State.team_mapTeam_other _ _ hv]
      exact ⟨_, rfl⟩
  reloc c := rfl

theorem State.noteMiss_readFrame (s : State) (t va : Nat) : ReadFrame s (s.noteMiss t va) := by
  unfold State.noteMiss
  simp only
  split
  · exact s.keepCore_readFrame _ _ _
  · split
    · refine ReadFrame.trans ?_ (State.keepCore_readFrame _ _ _ _)
      exact s.setCluster_readFrame _ _ rfl
    · split
      · exact .refl s
      · split <;> exact s.setCluster_readFrame _ _ rfl

/-- A team's identity, and with it what an address reaches, does not depend on cached translations. -/
theorem ReadFrame.decodeGeneric {s t : State} (h : ReadFrame s t) (u a : Nat) : t.decodeGeneric u a = s.decodeGeneric u a := by
  obtain ⟨tlb, hu⟩ := h.team u
  have hr : ∀ c ctx slot, t.routed c ctx slot = s.routed c ctx slot := fun c ctx slot => by simp only [State.routed, h.reloc]
  have hm : ∀ slot, t.member u slot = s.member u slot := fun slot => by simp only [State.member, hu, hr]
  simp only [State.decodeGeneric, hu, hm]

/-- A spot at which a plain load gives the byte that stands there: memory, or scratchpad outside mapped regions in storage mode. -/
def State.plainSpot (s : State) (p : Spot) : Prop := s.steady p ∧ p.isPriv = false

theorem ReadFrame.plainSpot {s t : State} (h : ReadFrame s t) {p : Spot} (hp : s.plainSpot p) : t.plainSpot p := by
  obtain ⟨hs, hn⟩ := hp
  refine ⟨?_, hn⟩
  cases p with
  | pad m o =>
    obtain ⟨tlb, hm⟩ := h.team m
    show (t.team m).unmapped o ∧ ((t.team m).weave (weaveOf o)).mode = .storage
    rw [hm]
    exact hs
  | mem k f => trivial
  | priv v g l o => trivial

theorem ReadFrame.byteAt {s t : State} (h : ReadFrame s t) {p : Spot} (hp : p.isPriv = false) (i : Nat) : t.byteAt p i = s.byteAt p i := by
  cases p with
  | pad m o =>
    obtain ⟨tlb, hm⟩ := h.team m
    simp only [State.byteAt, hm]
  | mem k f => simp only [State.byteAt, h.mem]
  | priv v g l o => cases hp

theorem Spot.newest_eq_byteAt (s : State) {p : Spot} (hp : p.isPriv = false) (i : Nat) : s.newest p i = s.byteAt p i := by
  cases p with
  | pad m o => rfl
  | mem k f => rfl
  | priv v g l o => cases hp

/-- With no write in the log, the byte that a read returns from no listed write is the one that stands. -/
theorem valueOf_initial (log : List MEvent) (h : ∀ e ∈ log, e.wr = []) (b : Byte) (k : Nat) : valueOf log b k 0 = b := by
  simp only [valueOf, if_true, initialByte]
  induction log with
  | nil => rfl
  | cons e es ih =>
    obtain ⟨he, hes⟩ := List.forall_mem_cons.1 h
    rw [List.foldl_cons, he]
    exact ih hes

theorem readUnit_quiet (log : List MEvent) (h : ∀ e ∈ log, e.wr = []) (stamp : Nat) (p : EvSpec) : readUnit log stamp p = [] := by
  have hw : ∀ f, written log f = false := fun f => by
    simp only [written, List.any_eq_false, Bool.not_eq_true]
    exact fun e he k _ => by simp [MEvent.covers, h e he]
  simp only [readUnit, hw, Bool.false_eq_true, if_false]

/-- A plain load of 8 bytes: the bytes that stand, and no flag. -/
theorem State.readAt_plain (s : State) (k : AccessKind) {p : Spot} (hq : s.noWrites) (hp : s.plainSpot p) :
    (s.readAt k p 8).2 = ⟨(List.range 8).map (s.byteAt p), false⟩ ∧ ReadFrame s (s.readAt k p 8).1 := by
  obtain ⟨hs, hn⟩ := hp
  have hc : s.spotComputes p = false := by
    cases p with
    | pad m o => simp only [State.spotComputes, show (s.padWeave m o).mode = .storage from hs.2]; rfl
    | mem k f => rfl
    | priv v g l o => rfl
  have hr : ∀ spec, s.readSources k p spec = [] := fun spec => by
    cases p with
    | priv v g l o => cases hn
    | pad m o => exact readUnit_quiet s.log hq _ _
    | mem a f => exact readUnit_quiet s.log hq _ _
  simp only [State.readAt, hc, Bool.false_eq_true, if_false, Nat.le_refl, if_true, State.readUnitAt, hr]
  refine ⟨?_, ⟨rfl, rfl, fun _ => ?_, fun v => ⟨_, rfl⟩, fun c => rfl⟩⟩
  · congr 1
    refine List.map_congr_left fun i _ => ?_
    rw [← Spot.newest_eq_byteAt s hn]
    cases p with
    | priv v g l o => cases hn
    | pad m o => simpa only [Nat.zero_add, Map.get] using valueOf_initial s.log hq _ _
    | mem a f => simpa only [Nat.zero_add, Map.get] using valueOf_initial s.log hq _ _
  · exact List.forall_mem_cons.2 ⟨rfl, hq⟩

/-- An access that the team's windows take to memory, or to the scratchpad byte at which the spot lies. -/
def State.reaches (s : State) (t a : Nat) (p : Spot) : Prop :=
  (∃ va, s.decodeGeneric t a = some (.glob va)) ∨ ∃ m o, s.decodeGeneric t a = some (.pad m o) ∧ p = .pad m o

theorem ReadFrame.reaches {s u : State} (h : ReadFrame s u) {t a : Nat} {p : Spot} (hp : s.reaches t a p) : u.reaches t a p := by
  simpa only [State.reaches, h.decodeGeneric] using hp

theorem State.translate_pad_ok {s : State} {t g l n m o : Nat} {acc : Access} {p : Spot}
    (h : s.translate t g l n (.pad m o) acc = .ok p) : p = .pad m o := by
  simp only [State.translate] at h
  repeat' split at h
  all_goals cases h
  all_goals rfl

theorem State.translate_glob_ok {s : State} {t g l n va : Nat} {acc : Access} {p : Spot}
    (h : s.translate t g l n (.glob va) acc = .ok p) : ∃ k f, p = .mem k f := by
  simp only [State.translate] at h
  repeat' split at h
  all_goals cases h
  exact ⟨_, _, rfl⟩

/-- A part of the record lies in memory or in a scratchpad, never in a lane's own frame (R145). -/
theorem State.recordUnit_ok {s : State} {t g a : Nat} {p : Spot} (h : s.recordUnit t g a = .ok p) :
    s.reaches t a p ∧ p.isPriv = false := by
  unfold State.recordUnit at h
  cases hd : s.decodeGeneric t a with
  | none => simp only [hd, reduceCtorEq] at h
  | some r =>
    cases r with
    | priv o => simp only [hd, reduceCtorEq] at h
    | pad m o =>
      simp only [hd] at h
      obtain rfl := State.translate_pad_ok h
      exact ⟨.inr ⟨m, o, hd, rfl⟩, rfl⟩
    | glob va =>
      simp only [hd] at h
      obtain ⟨k, f, rfl⟩ := State.translate_glob_ok h
      exact ⟨.inl ⟨va, hd⟩, rfl⟩

/-! ### The record is read (R254) -/

/-- A record is loaded unit by unit. -/
theorem State.loadRecord_eq_foldl (s : State) (t g : Nat) (xs : List (Nat × Spot)) :
    s.loadRecord t g xs =
      xs.foldl (fun a x => ((a.1.loadRecord t g [x]).1, a.2 ++ (a.1.loadRecord t g [x]).2)) (s, []) := by
  simp only [State.loadRecord, List.foldl_cons, List.foldl_nil, List.nil_append]

/-- Before a unit is read, an unmapped scratchpad line has nothing to fill, and memory enters its miss. -/
theorem State.prepare_readFrame (s : State) (k : AccessKind) {t g a : Nat} {p : Spot} {r : Reached} (hp : s.plainSpot p)
    (hr : s.reaches t a p) (hd : s.decodeGeneric t a = some r) : ReadFrame s (s.prepare k t g 0 8 r false) := by
  obtain ⟨va, hg⟩ | ⟨m, o, hg, rfl⟩ := hr
  · obtain rfl := Option.some.inj (hd.symm.trans hg)
    exact s.noteMiss_readFrame t va
  · obtain rfl := Option.some.inj (hd.symm.trans hg)
    have hmap : (s.team m).mapAt o = none := hp.1.1 o rfl
    have hfill : s.toFill m o = none := by simp only [State.toFill, hmap]
    simp only [State.prepare, State.fillLine, hfill]
    exact .refl s

theorem State.loadRecord_unit (s : State) {t g a : Nat} {p : Spot} (hq : s.noWrites) (hp : s.plainSpot p) (hr : s.reaches t a p) :
    (s.loadRecord t g [(a, p)]).2 = (List.range 8).map (s.byteAt p) ∧ ReadFrame s (s.loadRecord t g [(a, p)]).1 := by
  obtain ⟨r, hd⟩ : ∃ r, s.decodeGeneric t a = some r := by
    obtain ⟨va, hd⟩ | ⟨m, o, hd, -⟩ := hr <;> exact ⟨_, hd⟩
  have hprep := s.prepare_readFrame (s.kindOf t (.group g) .plain .team) (g := g) hp hr hd
  obtain ⟨hbytes, hread⟩ := State.readAt_plain _ (s.kindOf t (.group g) .plain .team) (hprep.quiet hq) (hprep.plainSpot hp)
  simp only [State.loadRecord, List.foldl_cons, List.foldl_nil, hd, hbytes, Bool.false_eq_true, if_false, List.nil_append]
  exact ⟨List.map_congr_left fun i _ => hprep.byteAt hp.2 i, hprep.trans hread⟩

/-- The record as a whole: the bytes that stand at its spots, in order. -/
theorem State.loadRecord_plain (s : State) (t g : Nat) (addr : Nat → Nat) (spot : Nat → Spot) (is : List Nat) (hq : s.noWrites)
    (hp : ∀ i ∈ is, s.plainSpot (spot i)) (hr : ∀ i ∈ is, s.reaches t (addr i) (spot i)) :
    (s.loadRecord t g (is.map fun i => (addr i, spot i))).2 = is.flatMap (fun i => (List.range 8).map (s.byteAt (spot i))) ∧
      ReadFrame s (s.loadRecord t g (is.map fun i => (addr i, spot i))).1 := by
  rw [State.loadRecord_eq_foldl]
  suffices key : ∀ (u : State) (bs : List Byte), ReadFrame s u →
      ((is.map fun i => (addr i, spot i)).foldl
          (fun a x => ((a.1.loadRecord t g [x]).1, a.2 ++ (a.1.loadRecord t g [x]).2)) (u, bs)).2 =
        bs ++ is.flatMap (fun i => (List.range 8).map (s.byteAt (spot i))) ∧
      ReadFrame s ((is.map fun i => (addr i, spot i)).foldl
          (fun a x => ((a.1.loadRecord t g [x]).1, a.2 ++ (a.1.loadRecord t g [x]).2)) (u, bs)).1 from key s [] (.refl s)
  induction is with
  | nil => exact fun u bs hu => ⟨(List.append_nil bs).symm, hu⟩
  | cons i is ih =>
    intro u bs hu
    obtain ⟨hpi, hps⟩ := List.forall_mem_cons.1 hp
    obtain ⟨hri, hrs⟩ := List.forall_mem_cons.1 hr
    obtain ⟨hb, hf⟩ := u.loadRecord_unit (g := g) (hu.quiet hq) (hu.plainSpot hpi) (hu.reaches hri)
    obtain ⟨hbs, hfs⟩ := ih hps hrs _ (bs ++ (u.loadRecord t g [(addr i, spot i)]).2) (hu.trans hf)
    refine ⟨?_, hfs⟩
    rw [List.map_cons, List.foldl_cons, hbs, hb, List.append_assoc, List.flatMap_cons]
    rw [show u.byteAt (spot i) = s.byteAt (spot i) from funext (hu.byteAt hpi.2)]

/-- Every check of the record's reading passes (R165, R254). -/
theorem State.recordRead_spots (s : State) (t g a : Nat) (spot : Nat → Spot) (ha : a % 8 = 0)
    (hu : ∀ i, i < 48 → s.recordUnit t g (a + 8 * i) = .ok (spot i))
    (hc : ∀ i, i < 48 → ({ s with cur := { s.cur with team := t } } : State).peerCode (spot i) false .team = none)
    (hs : ∀ i, i < 48 → s.sectorPoisoned (spot i) 8 = false) :
    s.recordRead t g a = .spots ((List.range 48).map fun i => (a + 8 * i, spot i)) := by
  have hus : (recordUnits a).map (fun b => (b, s.recordUnit t g b)) = (List.range 48).map fun i => (a + 8 * i, Trans.ok (spot i)) := by
    rw [recordUnits, List.map_map]
    exact List.map_congr_left fun i hi => by rw [Function.comp, hu i (List.mem_range.1 hi)]
  have hpeer : ((List.range 48).find? fun i => (({ s with cur := { s.cur with team := t } } : State).peerCode (spot i) false .team).isSome) = none :=
    List.find?_eq_none.2 fun i hi => by simp [hc i (List.mem_range.1 hi)]
  have hgood : ((List.range 48).find? fun i => s.sectorPoisoned (spot i) 8) = none :=
    List.find?_eq_none.2 fun i hi => by simp [hs i (List.mem_range.1 hi)]
  have hok : ((List.range 48).find? fun _ => false) = none := List.find?_eq_none.2 fun _ _ => Bool.false_ne_true
  unfold State.recordRead
  simp only [hus, ha, List.find?_map, List.filterMap_map, Function.comp_def, List.filterMap_eq_map', hok, hpeer, hgood, List.length_map, Option.map_none,
    ne_eq, not_true_eq_false, if_false, Nat.lt_irrefl]

/-- Pieces of 8 bytes in a row: the bytes from 8 j on are the piece of that number. -/
theorem take_drop_flatMap_eight {α : Type} (f : Nat → List α) (hf : ∀ i, (f i).length = 8) (is : List Nat) (j : Nat) (h : j < is.length) :
    ((is.flatMap f).drop (8 * j)).take 8 = f is[j] := by
  induction is generalizing j with
  | nil => cases h
  | cons i is ih =>
    cases j with
    | zero => simp [hf i]
    | succ j =>
      rw [List.flatMap_cons, Nat.mul_succ, Nat.add_comm, ← List.drop_drop, List.drop_left' (hf i), ih j (Nat.lt_of_succ_lt_succ h)]
      rfl

/-- What a group becomes as it returns: out of handler mode, waiting for nothing, its live lanes at the PCs of the record. -/
theorem Group.returnFrom_spec (y : Group) (bs : List Byte) :
    (y.returnFrom bs).handler = false ∧ (y.returnFrom bs).suspended = false ∧ (y.returnFrom bs).wait = none ∧
      ∀ l, l < 32 → (y.lane l).cond = .live →
        ((y.returnFrom bs).lane l).pc = BitVec.ofNat 56 (leValue ((bs.drop (0x80 + 8 * l)).take 8)) := by
  refine ⟨rfl, rfl, rfl, fun l hl hlive => ?_⟩
  have hmask : (maskOf fun k => decide ((y.lane k).cond = .live)).getLsbD l = true := by simp [getLsbD_maskOf, hl, hlive]
  have hw : ∀ x : Nat, (BitVec.ofNat 64 x).setWidth 56 = BitVec.ofNat 56 x := fun x => by
    apply BitVec.eq_of_toNat_eq
    simp only [BitVec.toNat_setWidth, BitVec.toNat_ofNat]
    omega
  simp only [Group.returnFrom, Group.lane]
  rw [get_mapLanes, if_pos (by exact hmask)]
  exact hw _

/-! ### RESUME_GROUP (R254) -/

/-- The return of a group whose record can be read whole, unit by unit: each part of what it reads is what stands at its spot. -/
theorem State.trapReturn_plain (s : State) (t g a : Nat) (spot : Nat → Spot) (hq : s.noWrites)
    (hreg : (((s.team t).group g).readS 28).val.toNat = a) (ha : a % 8 = 0)
    (hu : ∀ i, i < 48 → s.recordUnit t g (a + 8 * i) = .ok (spot i))
    (hc : ∀ i, i < 48 → ({ s with cur := { s.cur with team := t } } : State).peerCode (spot i) false .team = none)
    (hs : ∀ i, i < 48 → s.sectorPoisoned (spot i) 8 = false) (hst : ∀ i, i < 48 → s.steady (spot i)) :
    ∃ v bs, s.trapReturn t g = some (v.mapGroup t g fun y => y.returnFrom bs) ∧ ReadFrame s v ∧
      ∀ j, j < 48 → (bs.drop (8 * j)).take 8 = (List.range 8).map (s.byteAt (spot j)) := by
  have hok := fun i hi => State.recordUnit_ok (hu i (List.mem_range.1 hi))
  obtain ⟨hbytes, hframe⟩ := s.loadRecord_plain t g (fun i => a + 8 * i) spot (List.range 48) hq
    (fun i hi => ⟨hst i (List.mem_range.1 hi), (hok i hi).2⟩) fun i hi => (hok i hi).1
  refine ⟨_, (s.loadRecord t g ((List.range 48).map fun i => (a + 8 * i, spot i))).2, ?_, hframe, fun j hj => ?_⟩
  · simp only [State.trapReturn, hreg, s.recordRead_spots t g a spot ha hu hc hs]
  · rw [hbytes, take_drop_flatMap_eight _ (fun i => by simp) _ j (by simpa using hj), List.getElem_range]

theorem execResumeGroup_ok (tag cluster slot g u : Nat) (w : Wait) (s : State) (s1 : State) (h : s.adminOp = some 9)
    (hu : s.teamAt tag cluster slot = some u) (hsus : ((s.team u).group g).suspended = true) (hres : (s.team u).residency = .resident)
    (hw : ((s.team u).group g).wait = some w) (hret : ({ s with cur := w.issue } : State).trapReturn u g = some s1) :
    exec (.resumeGroup tag cluster slot (.group g)) s = .next (({ s1 with cur := s.cur } : State).adminDone 0) := by
  have hrel : s.releaseMove u = s := by simp only [State.releaseMove, hres]
  have hwait : s.waitOf ⟨u, .group g⟩ = some w := hw
  show execResumeGroup tag cluster slot (.group g) s = _
  simp only [execResumeGroup, hu, h, ne_eq, not_true_eq_false, if_false, hrel, Party.isGroup, Party.groupNo, hsus, hres, Bool.not_true, Bool.or_self,
    Bool.false_eq_true, State.resumeSuspended, hwait, hret, Option.map_some]

theorem State.group_mapGroup_same (s : State) (t g : Nat) (f : Group → Group) : ((s.mapGroup t g f).team t).group g = f ((s.team t).group g) := by
  simp [State.mapGroup]

theorem State.setCur_readFrame (s : State) (c : Issue) : ReadFrame s { s with cur := c } := ⟨rfl, rfl, id, fun _ => ⟨_, rfl⟩, fun _ => rfl⟩

/-- A suspended group whose record can be read whole returns, with the bytes that stand at the record's spots. -/
theorem execResumeGroup_returns (tag cluster slot g u a : Nat) (w : Wait) (spot : Nat → Spot) (s : State) (h : s.adminOp = some 9)
    (hu : s.teamAt tag cluster slot = some u) (hsus : ((s.team u).group g).suspended = true) (hres : (s.team u).residency = .resident)
    (hw : ((s.team u).group g).wait = some w) (hreg : (((s.team u).group g).readS 28).val.toNat = a) (ha : a % 8 = 0) (hq : s.noWrites)
    (hunits : ∀ i, i < 48 → ({ s with cur := w.issue } : State).recordUnit u g (a + 8 * i) = .ok (spot i))
    (hroutes : ∀ i, i < 48 → ({ s with cur := { w.issue with team := u } } : State).peerCode (spot i) false .team = none)
    (hsectors : ∀ i, i < 48 → ({ s with cur := w.issue } : State).sectorPoisoned (spot i) 8 = false)
    (hsteady : ∀ i, i < 48 → s.steady (spot i)) :
    ∃ t bs, exec (.resumeGroup tag cluster slot (.group g)) s = .next t ∧ s.commandEnds t 0 ∧
      (t.team u).group g = ((s.team u).group g).returnFrom bs ∧
      ∀ j, j < 48 → (bs.drop (8 * j)).take 8 = (List.range 8).map (s.byteAt (spot j)) := by
  obtain ⟨v, bs, hret, hframe, hbytes⟩ :=
    State.trapReturn_plain { s with cur := w.issue } u g a spot hq hreg ha hunits hroutes hsectors hsteady
  obtain ⟨tlb, hteam⟩ := hframe.team u
  refine ⟨_, bs, execResumeGroup_ok tag cluster slot g u w s _ h hu hsus hres hw hret, State.adminDone_ends h (by exact hframe.mem) ?_ 0, ?_,
    fun j hj => (hbytes j hj).trans (List.map_congr_left fun i _ => ?_)⟩
  · exact congrArg (fun m => Map.get QueueRegs.reset m adminRing) hframe.blocks
  · rw [State.adminDone_team]
    refine (v.group_mapGroup_same u g fun y => y.returnFrom bs).trans (congrArg (fun y => Group.returnFrom y bs) ?_)
    rw [hteam]
    rfl
  · exact (s.setCur_readFrame w.issue).byteAt (State.recordUnit_ok (hunits j hj)).2 i

end Sys2Proof.Machine

namespace Sys2Proof.Proofs
open Sys2Proof Sys2Proof.Machine

/-! ### The statement -/

/-- Settles O56: each command of the driver takes effect and ends with its status, command by command; the hard one is RESUME_GROUP, for which the
reading of the trap record is shown to change nothing that later units of it, the group, or the admin ring depend on. -/
theorem driverCommands : Obligations.DriverCommands := by
  unfold Obligations.DriverCommands
  refine ⟨fun b tail s => ?tail, fun b v s => ?register, fun desc s h => ⟨fun hd hr hc hf => ?create, fun hbad => ?createBad⟩,
    fun tag s h hc => ?destroy, fun tag q s h hc => ?assign, fun p ctx image s => ⟨fun h hp => ?retire, ?regenerated⟩,
    fun tag w package base turn s h hc hw hp => ?window, fun tag number ms s h hc hn hne hlen hp => ?communicator,
    fun tag cluster slot g u w spot s h hu => ?resume, fun tag cluster slot u status s h hu => ?endGrid, fun op s h hop => ?undefined⟩
  case tail =>
    refine ⟨execQueueTailWrite_disabled b tail s, fun he hv hq => ?_⟩
    cases b with
    | host q =>
      obtain ⟨htail, hbase, hhead⟩ := s.takeRecords_withTail_regs q tail
      refine ⟨_, execQueueTailWrite_host q tail s he hv (hq q rfl), ((s.withTail_same q tail).trans (State.takeRecords_same _ q)).sameBytes,
        htail, hbase, fun hb => absurd rfl (hb q), fun r hr => ?_⟩
      obtain rfl := QueueBlock.host.inj hr
      refine ⟨hhead, ?_, s.takeRecords_withTail_bytes q tail⟩
      rw [State.takeRecords_hostQueue]
      rfl
    | admin =>
      obtain ⟨htail, hbase, hhead⟩ := s.withTail_regs 256 tail
      exact ⟨_, execQueueTailWrite_admin tail s he hv, ((s.withTail_same 256 tail).trans (State.hostRelease_same _)).sameBytes,
        htail, hbase, fun _ => ⟨rfl, hhead⟩, nofun⟩
    | fault =>
      obtain ⟨htail, hbase, hhead⟩ := s.withTail_regs 257 tail
      exact ⟨_, execQueueTailWrite_fault tail s he, (s.withTail_same 257 tail).sameBytes, htail, hbase, fun _ => ⟨rfl, hhead⟩, nofun⟩
  case register =>
    intro n x hv hq
    refine ⟨execRegisterWrite_base b v s hv hq, execRegisterWrite_base_bad b v s hv hq, execRegisterWrite_vector b v s hv hq,
      execRegisterWrite_head b v s, fun on size h4 h16 hval hout => ⟨_, execRegisterWrite_size b v s hv hq on size h4 h16 hval, ?_⟩⟩
    rw [State.drainRing_empty (s.setBlock _ _) hout]
    exact ⟨(s.setBlock_same _ _).sameBytes, State.block_setBlock_same _ _ _⟩
  case create =>
    refine ⟨_, execCreateContext_ok desc s h hd hr hc hf, State.adminDone_ends h (by rfl) (by rfl) 0, ?_, fun c hne => ?_, _, ?_, contextOf_fields _⟩
    · rw [State.adminDone_teams]
    · rw [State.adminDone_ctx]
      exact s.putCtx_ctx_other _ hne
    · rw [State.adminDone_ctxs, lookup?_put, if_pos rfl]
  case createBad =>
    exact ⟨_, execCreateContext_rejected desc s h hbad, State.adminDone_ends h (by rfl) (by rfl) 1, State.adminDone_ctxs s 1⟩
  case destroy =>
    have hover : ∀ n ∈ s.openGrids tag, ((s.endGrids (s.openGrids tag)).forgetContext tag).gridOver n :=
      fun n hn => State.forgetContext_over _ tag (State.endGrids_over _ s n hn)
    refine ⟨_, execDestroyContext_ok tag s h hc, State.adminDone_over h ?_ 0, ?_, ?_, fun q => ?_, fun c hne => ?_⟩
    · rw [State.forgetContext_ring, State.endGrids_ring]
    · rw [State.adminDone_hasCtx, State.forgetContext_hasCtx]
    · simp only [State.adminDone_grid, State.adminDone_teams]
      exact hover
    · rw [State.adminDone_hostQueue]
      exact State.forgetContext_owner _ tag q
    · rw [State.adminDone_ctx, State.forgetContext_ctx_other _ hne, State.ctx, State.endGrids_ctxs]
      rfl
  case assign =>
    intro n own good
    by_cases hq : s.mayAssign tag q
    · refine ⟨_, execAssignQueue_ok tag q s h hc hq, fun _ => ⟨State.adminDone_ends h (by rfl) (by rfl) 0, ?_⟩, fun hbad => absurd hq hbad⟩
      rw [State.adminDone_hostQueue, State.hostQueue_setHostQueue_same]
    · exact ⟨_, execAssignQueue_rejected tag q s h hq, fun hgood => absurd hgood hq,
        fun _ => ⟨State.adminDone_ends h (by rfl) (by rfl) 1, State.adminDone_hostQueues s 1⟩⟩
  case retire =>
    obtain ⟨pkg, hexec, hports, hholds⟩ := execRetirePort_ok p s h hp
    refine ⟨_, hexec, State.adminDone_ends h (by rfl) (by rfl) 0, ?_, fun turn ht => ?_, fun g hg => ?_⟩
    · rw [State.adminDone_retiredPorts]
      exact hports
    · refine Package.routeBad_of_retired _ ?_ ht
      rw [State.adminDone_retiredPorts, show (s.withPkg pkg).pkg.retiredPorts = _ from hports]
      exact List.mem_cons_self
    · rw [State.adminDone_imageHeld]
      exact State.imageHeld_of_holds _ s.ctxs hholds g hg
  case regenerated =>
    obtain ⟨t, hexec, hsame, hheld⟩ := execRegenerationComplete_held ctx image s
    exact ⟨t, hexec, hsame.sameBytes, hheld⟩
  case window =>
    refine ⟨_, execSetPeerWindow_ok tag w package base turn s h hc hw hp, State.adminDone_ends h (by rfl) (by rfl) 0, ?_, fun v hv => ?_⟩
    · rw [State.adminDone_ctx, State.putCtx_ctx_same, lookup?_put, if_pos rfl]
    · rw [State.adminDone_ctx, State.putCtx_ctx_same, lookup?_put, if_neg hv]
  case communicator =>
    obtain ⟨pkg, hexec, hcomms⟩ := execRegisterCommunicator_ok tag number ms s h hc hn hne hlen hp
    refine ⟨_, hexec, State.adminDone_ends h (by rfl) (by rfl) 0, ?_⟩
    rw [State.adminDone_comms, show (s.withPkg pkg).pkg.comms = _ from hcomms, lookup?_put, if_pos rfl]
  case resume =>
    intro y a s0 hsus hres hw ha hq hspots
    obtain ⟨t, bs, hexec, hends, hgroup, hbytes⟩ := execResumeGroup_returns tag cluster slot g u a w spot s h hu hsus hres hw rfl ha hq
      (fun i hi => (hspots i hi).1) (fun i hi => (hspots i hi).2.1) (fun i hi => (hspots i hi).2.2.1) fun i hi => (hspots i hi).2.2.2
    refine ⟨t, hexec, hends, ?_⟩
    obtain ⟨hhandler, hsuspended, hwait, hpc⟩ := y.returnFrom_spec bs
    intro z
    rw [show z = y.returnFrom bs from hgroup]
    refine ⟨hhandler, hsuspended, hwait, fun l hl hlive => ?_⟩
    rw [hpc l hl hlive, show 0x80 + 8 * l = 8 * (16 + l) by omega, hbytes (16 + l) (by omega)]
  case endGrid =>
    obtain ⟨hended, hmem, -⟩ := State.endGrid_spec s (s.team u).grid status
    exact ⟨_, execEndGrid_ok tag cluster slot u status s h hu, State.adminDone_ends h (by exact hmem) (by rfl) 0, gridEnded_adminDone hended 0⟩
  case undefined =>
    exact ⟨_, execAdminUndefined_rejected op s h hop, State.adminDone_ends h (by rfl) (by rfl) 1, State.adminDone_ctxs s 1, State.adminDone_teams s 1⟩

end Sys2Proof.Proofs

/-!
# Lane bit operations and addresses

What an instruction on registers only leaves alone and what it writes in an active lane; the words of Table 5.2 bit by bit and of Table 5.3 in
the integers; and from these the statements BitOpResult and AddressResult.
-/

namespace Sys2Proof.Machine

/-! ### Tags and activity -/

@[simp] theorem firstTag_eq_none {ts : List (Option Tag)} : firstTag ts = none ↔ ∀ t ∈ ts, t = none := by
  induction ts with
  | nil => simp [firstTag]
  | cons t ts ih => cases t <;> simp [firstTag, ih]

theorem activeLane_of_clear {x : Lane} {p : Pred} {b : Bool} (h : predOf x p = clear b) : activeLane x p = b := by
  simp [activeLane, h, clear]

/-- An active lane's predicate has no tag to pass on. -/
theorem State.active_tag {s : State} {p : Pred} {l : Nat} (h : s.active p l) : (predOf (s.curGroup.lane l) p).tag = none := by
  rw [h.2, clear]

/-! ### Instructions on registers only, under a predicate -/

theorem laneFrame_laneOp_whenActive (s : State) (p : Pred) (f : Group → Lane → Lane) :
    laneFrame s (s.laneOp fun y x => whenActive p x (f y x)) p := by
  refine ⟨onlyLanes_onLanes s _, sameBytes_onLanes s _, fun l => ⟨fun hl => ?_, fun hl hp => ?_⟩⟩
  · simp [State.lane_laneOp, hl]
  · simp [State.lane_laneOp, hl, whenActive, activeLane_of_clear hp]

theorem lane_laneOp_whenActive {s : State} {p : Pred} {l : Nat} (f : Group → Lane → Lane) (h : s.active p l) :
    (s.laneOp fun y x => whenActive p x (f y x)).curGroup.lane l = (f s.curGroup (s.curGroup.lane l)).advance s.cur.len := by
  simp [State.lane_laneOp, h.1, whenActive, activeLane_of_clear h.2]

/-- A lane that has written a word without a tag, with its flags, and moved on. -/
theorem laneV_result {s t : State} {l d : Nat} {tag : Option Tag} {r : Word} {fl : BitVec 8} (htag : tag = none)
    (h : t.curGroup.lane l = ((s.curGroup.lane l).result d tag r fl).advance s.cur.len) : laneV s t l fl (one d (clear r)) := by
  subst htag
  rw [laneV, h]
  refine ⟨rfl, fun n => ?_⟩
  show ((s.curGroup.lane l).writeV d (clear r)).readV n = _
  rw [Lane.readV_writeV, one]
  split <;> rfl

/-- A lane that has written a pair without a tag and moved on. -/
theorem laneV_resultPair {s t : State} {l d : Nat} {tag : Option Tag} {r : DWord} (htag : tag = none)
    (h : t.curGroup.lane l = ((s.curGroup.lane l).resultPair d tag r).advance s.cur.len) : laneV s t l 0 (two d r) := by
  subst htag
  rw [laneV, h]
  refine ⟨by simp [Lane.resultPair, Lane.advance, Lane.writeV], fun n => ?_⟩
  show (((s.curGroup.lane l).writeV d _).writeV (d + 1) _).readV n = _
  rw [Lane.readV_writeV, Lane.readV_writeV, two]
  by_cases hlow : n = d
  · simp [hlow]
  · by_cases hhigh : n = d + 1 <;> simp [hlow, hhigh]

section
variable {i : Instr} {s : State} {p : Pred} {d : Nat} {a b c : Reg}

/-- The one argument for every form that writes a word. -/
theorem result_completes {tag : Group → Lane → Option Tag} {g : Group → Lane → Word × BitVec 8} {r : Nat → Word × BitVec 8}
    (hi : exec i s = .next (s.laneOp fun y x => whenActive p x (x.result d (tag y x) (g y x).1 (g y x).2)))
    (hr : ∀ l, r l = g s.curGroup (s.curGroup.lane l)) :
    ∃ t, exec i s = .next t ∧ laneFrame s t p ∧
      ∀ l, s.active p l → tag s.curGroup (s.curGroup.lane l) = none → laneV s t l (r l).2 (one d (clear (r l).1)) := by
  refine ⟨_, hi, laneFrame_laneOp_whenActive s p _, fun l hl htag => ?_⟩
  rw [hr]
  exact laneV_result htag (lane_laneOp_whenActive _ hl)

theorem laneResult_xop1 {f : Word → Word × BitVec 8} {r : Nat → Word × BitVec 8} (hi : exec i s = .next (s.laneOp (xop1 p f d a)))
    (hr : ∀ l, r l = f (s.val l a)) : laneResult i s p [a] d r := by
  obtain ⟨t, hexec, hframe, hlane⟩ := result_completes hi hr
  exact ⟨t, hexec, hframe, fun l hl hc => hlane l hl (by simp [hc a, s.active_tag hl])⟩

theorem laneResult_xop2 {f : Word → Word → Word × BitVec 8} {r : Nat → Word × BitVec 8} (hi : exec i s = .next (s.laneOp (xop2 p f d a b)))
    (hr : ∀ l, r l = f (s.val l a) (s.val l b)) : laneResult i s p [a, b] d r := by
  obtain ⟨t, hexec, hframe, hlane⟩ := result_completes hi hr
  exact ⟨t, hexec, hframe, fun l hl hc => hlane l hl (by simp [hc a, hc b, s.active_tag hl])⟩

theorem laneResult_xop3 {f : Word → Word → Word → Word × BitVec 8} {r : Nat → Word × BitVec 8}
    (hi : exec i s = .next (s.laneOp (xop3 p f d a b c)))
    (hr : ∀ l, r l = f (s.val l a) (s.val l b) (s.val l c)) : laneResult i s p [a, b, c] d r := by
  obtain ⟨t, hexec, hframe, hlane⟩ := result_completes hi hr
  exact ⟨t, hexec, hframe, fun l hl hc => hlane l hl (by simp [hc a, hc b, hc c, s.active_tag hl])⟩

/-- The same for every form that writes a pair (R113). -/
theorem resultPair_completes {tag : Group → Lane → Option Tag} {g : Group → Lane → DWord} {r : Nat → DWord}
    (hi : exec i s = .next (s.laneOp fun y x => whenActive p x (x.resultPair d (tag y x) (g y x))))
    (hr : ∀ l, r l = g s.curGroup (s.curGroup.lane l)) :
    ∃ t, exec i s = .next t ∧ laneFrame s t p ∧
      ∀ l, s.active p l → tag s.curGroup (s.curGroup.lane l) = none → laneV s t l 0 (two d (r l)) := by
  refine ⟨_, hi, laneFrame_laneOp_whenActive s p _, fun l hl htag => ?_⟩
  rw [hr]
  exact laneV_resultPair htag (lane_laneOp_whenActive _ hl)

theorem pairPair_completes {f : DWord → DWord → DWord} {r : Nat → DWord} (hi : exec i s = .next (s.laneOp (pairPair p f d a b)))
    (hr : ∀ l, r l = f (s.val64 l a) (s.val64 l b)) :
    ∃ t, exec i s = .next t ∧ laneFrame s t p ∧ ∀ l, s.active p l → s.clean64 l [a, b] → laneV s t l 0 (two d (r l)) := by
  obtain ⟨t, hexec, hframe, hlane⟩ := resultPair_completes hi hr
  exact ⟨t, hexec, hframe, fun l hl hc => hlane l hl (by simp [hc a, hc b, s.active_tag hl])⟩

theorem pairWord_completes {f : DWord → Word → DWord} {r : Nat → DWord} (hi : exec i s = .next (s.laneOp (pairWord p f d a b)))
    (hr : ∀ l, r l = f (s.val64 l a) (s.val l b)) :
    ∃ t, exec i s = .next t ∧ laneFrame s t p ∧
      ∀ l, s.active p l → s.clean64 l [a] → s.clean l [b] → laneV s t l 0 (two d (r l)) := by
  obtain ⟨t, hexec, hframe, hlane⟩ := resultPair_completes hi hr
  exact ⟨t, hexec, hframe, fun l hl ha hb => hlane l hl (by simp [ha a, hb b, s.active_tag hl])⟩

theorem wideMad_completes {f : Word → Word → DWord → DWord} {r : Nat → DWord} (hi : exec i s = .next (s.laneOp (wideMad p f d a b c)))
    (hr : ∀ l, r l = f (s.val l a) (s.val l b) (s.val64 l c)) :
    ∃ t, exec i s = .next t ∧ laneFrame s t p ∧
      ∀ l, s.active p l → s.clean l [a, b] → s.clean64 l [c] → laneV s t l 0 (two d (r l)) := by
  obtain ⟨t, hexec, hframe, hlane⟩ := resultPair_completes hi hr
  exact ⟨t, hexec, hframe, fun l hl hab hc => hlane l hl (by simp [hab a, hab b, hc c, s.active_tag hl])⟩

end

/-! ### Table 5.2, bit by bit -/

theorem popcount_eq_countP (a : Word) : popcount a = (List.range 32).countP fun i => a.getLsbD i := by
  have hfold (n : Nat) (is : List Nat) :
      is.foldl (fun n i => if a.getLsbD i then n + 1 else n) n = n + is.countP fun i => a.getLsbD i := by
    induction is generalizing n with
    | nil => simp
    | cons i is ih => cases hi : a.getLsbD i <;> simp [ih, hi, Nat.add_assoc, Nat.add_comm]
  simpa [popcount] using hfold 0 (List.range 32)

theorem popcount_le (a : Word) : popcount a ≤ 32 := by
  rw [popcount_eq_countP]
  simpa only [List.length_range] using List.countP_le_length (p := fun i => a.getLsbD i) (l := List.range 32)

theorem log2_lt_width {a : Word} (h : a ≠ 0) : Nat.log2 a.toNat < 32 :=
  (Nat.log2_lt (by simpa [BitVec.toNat_eq] using h)).2 a.isLt

theorem leadingZeros_le (a : Word) : leadingZeros a ≤ 32 := by
  unfold leadingZeros
  split <;> omega

theorem getLsbD_above_leadingZeros {a : Word} {i : Nat} (h : 32 - leadingZeros a ≤ i) : a.getLsbD i = false := by
  by_cases ha : a = 0
  · simp [ha]
  · have hlog := log2_lt_width ha
    rw [leadingZeros, if_neg ha] at h
    exact Nat.testBit_lt_two_pow (Nat.lt_of_lt_of_le Nat.lt_log2_self (Nat.pow_le_pow_right (by decide) (by omega)))

theorem getLsbD_leadingZeros {a : Word} (h : leadingZeros a < 32) : a.getLsbD (31 - leadingZeros a) = true := by
  have ha : a ≠ 0 := by
    rintro rfl
    simp [leadingZeros] at h
  have hlog := log2_lt_width ha
  rw [leadingZeros, if_neg ha, show 31 - (31 - Nat.log2 a.toNat) = Nat.log2 a.toNat by omega]
  exact Nat.testBit_log2 (by simpa [BitVec.toNat_eq] using ha)

/-- The search of `trailingZeros` ends at the lowest one, or past the word. -/
theorem trailingZeros_cases (a : Word) :
    (trailingZeros a = 32 ∧ ∀ i, a.getLsbD i = false) ∨
      trailingZeros a < 32 ∧ a.getLsbD (trailingZeros a) = true ∧ ∀ i < trailingZeros a, a.getLsbD i = false := by
  unfold trailingZeros
  cases hf : (List.range 32).find? fun i => a.getLsbD i with
  | none =>
    refine .inl ⟨rfl, fun i => ?_⟩
    by_cases hi : i < 32
    · simpa using List.find?_eq_none.1 hf i (List.mem_range.2 hi)
    · exact BitVec.getLsbD_of_ge a i (by omega)
  | some n =>
    obtain ⟨hn, hmem, hbelow⟩ := List.find?_range_eq_some.1 hf
    exact .inr ⟨List.mem_range.1 hmem, hn, fun i hi => by simpa using hbelow i hi⟩

theorem getLsbD_bitReverse (a : Word) {i : Nat} (hi : i < 32) : (bitReverse a).getLsbD i = a.getLsbD (31 - i) := by
  rw [bitReverse, getLsbD_maskOf]
  simp [hi]

theorem getLsbD_bitField_signed (a b c : Word) {i : Nat} (hi : i < 32) :
    (bitField true a b c).getLsbD i =
      if min (c.toNat % 256) 32 = 0 then false
      else a.getLsbD (min 31 (b.toNat % 256 + min i (min (c.toNat % 256) 32 - 1))) := by
  have hbit (j : Nat) : (if 31 < j then true && a.getLsbD 31 else a.getLsbD j) = a.getLsbD (min 31 j) := by
    split
    · rw [Nat.min_eq_left (by omega), Bool.true_and]
    · rw [Nat.min_eq_right (by omega)]
  rw [bitField, getLsbD_maskOf]
  simp only [hbit, hi]
  generalize b.toNat % 256 = pos
  generalize min (c.toNat % 256) 32 = len
  by_cases hlen : len = 0
  · simp [hlen]
  · by_cases hin : i < len
    · simp [hlen, hin, show min i (len - 1) = i by omega]
    · simp [hlen, hin, show min i (len - 1) = len - 1 by omega, show 0 < len by omega, show pos + len - 1 = pos + (len - 1) by omega]

theorem getLsbD_bitField_unsigned (a b c : Word) {i : Nat} (hi : i < 32) :
    (bitField false a b c).getLsbD i = (decide (i < min (c.toNat % 256) 32) && a.getLsbD (b.toNat % 256 + i)) := by
  have hbit (j : Nat) : (if 31 < j then false && a.getLsbD 31 else a.getLsbD j) = a.getLsbD j := by
    split
    · rw [BitVec.getLsbD_of_ge a j (by omega), Bool.false_and]
    · rfl
  rw [bitField, getLsbD_maskOf]
  simp only [hbit, hi]
  by_cases hin : i < min (c.toNat % 256) 32 <;> simp [hin]

theorem getLsbD_bitInsert (a b c : Word) {i : Nat} (hi : i < 32) :
    (bitInsert a b c).getLsbD i =
      if c.toNat % 256 ≤ i ∧ i < c.toNat % 256 + min (c.toNat / 256 % 256) 32 then a.getLsbD (i - c.toNat % 256) else b.getLsbD i := by
  rw [bitInsert, getLsbD_maskOf]
  simp [hi]

theorem getLsbD_lop3 (table : BitVec 8) (a b c : Word) {i : Nat} (hi : i < 32) :
    (lop3 table a b c).getLsbD i =
      table.getLsbD ((a.getLsbD i).toNat + 2 * (b.getLsbD i).toNat + 4 * (c.getLsbD i).toNat) := by
  rw [lop3, getLsbD_maskOf]
  cases a.getLsbD i <;> cases b.getLsbD i <;> cases c.getLsbD i <;> simp [hi]

/-! ### The bytes of `prmt` (R111) -/

/-- The first `n` bytes that `prmt` forms. -/
def prmtBytes (a b c : Word) (n : Nat) : List Nat :=
  (List.range n).foldl (fun l i => l ++ [prmtByte a b l (c.toNat / 2 ^ (4 * i) % 16)]) []

/-- The number that bytes are the digits of, the lowest first. -/
def ofDigits256 (ds : List Nat) : Nat := ds.foldr (fun x n => x + 256 * n) 0

theorem ofDigits256_cons (x : Nat) (ds : List Nat) : ofDigits256 (x :: ds) = x + 256 * ofDigits256 ds := rfl

theorem prmt_eq (a b c : Word) : prmt a b c = BitVec.ofNat 32 (ofDigits256 (prmtBytes a b c 4)) := rfl

theorem prmtBytes_succ (a b c : Word) (n : Nat) :
    prmtBytes a b c (n + 1) = prmtBytes a b c n ++ [prmtByte a b (prmtBytes a b c n) (c.toNat / 2 ^ (4 * n) % 16)] := by
  simp [prmtBytes, List.range_succ]

@[simp] theorem length_prmtBytes (a b c : Word) (n : Nat) : (prmtBytes a b c n).length = n := by
  induction n with
  | zero => rfl
  | succ n ih => simp [prmtBytes_succ, ih]

/-- Each byte stays as it was formed from the bytes before it. -/
theorem getElem?_prmtBytes (a b c : Word) {i n : Nat} (h : i < n) :
    (prmtBytes a b c n)[i]? = some (prmtByte a b (prmtBytes a b c i) (c.toNat / 2 ^ (4 * i) % 16)) := by
  induction n with
  | zero => omega
  | succ n ih =>
    rw [prmtBytes_succ]
    by_cases hi : i < n
    · rw [List.getElem?_append_left (by simpa using hi), ih hi]
    · obtain rfl : i = n := by omega
      rw [List.getElem?_append_right (by simp)]
      simp

theorem prmtByte_lt (a b : Word) (formed : List Nat) (f : Nat) : prmtByte a b formed f < 256 := by
  unfold prmtByte
  repeat' split
  all_goals omega

theorem prmtBytes_lt (a b c : Word) (n : Nat) : ∀ x ∈ prmtBytes a b c n, x < 256 := by
  intro x hx
  obtain ⟨i, hi⟩ := List.mem_iff_getElem?.1 hx
  have hlt : i < n := by simpa using (List.getElem?_eq_some_iff.1 hi).1
  rw [getElem?_prmtBytes a b c hlt] at hi
  exact Option.some.inj hi ▸ prmtByte_lt a b _ _

/-- A digit of a number given by its digits. -/
theorem ofDigits256_div_pow_mod {ds : List Nat} (h : ∀ x ∈ ds, x < 256) (i : Nat) : ofDigits256 ds / 256 ^ i % 256 = ds.getD i 0 := by
  induction ds generalizing i with
  | nil => rw [ofDigits256, List.foldr_nil, Nat.zero_div, List.getD_nil]
  | cons x ds ih =>
    have hx : x < 256 := h x List.mem_cons_self
    rw [ofDigits256_cons]
    cases i with
    | zero =>
      rw [Nat.pow_zero, Nat.div_one, List.getD_cons_zero]
      omega
    | succ i =>
      have hrest : (x + 256 * ofDigits256 ds) / 256 = ofDigits256 ds := by omega
      rw [Nat.pow_succ', ← Nat.div_div_eq_div_mul, hrest, List.getD_cons_succ]
      exact ih (fun y hy => h y (List.mem_cons_of_mem _ hy)) i

theorem ofDigits256_lt {ds : List Nat} (h : ∀ x ∈ ds, x < 256) : ofDigits256 ds < 256 ^ ds.length := by
  induction ds with
  | nil => exact Nat.one_pos
  | cons x ds ih =>
    have hx : x < 256 := h x List.mem_cons_self
    have hds := ih fun y hy => h y (List.mem_cons_of_mem _ hy)
    rw [ofDigits256_cons, List.length_cons, Nat.pow_succ']
    omega

theorem byteOfWord_prmt (a b c : Word) {i : Nat} (hi : i < 4) :
    byteOfWord (prmt a b c) i = prmtByte a b (prmtBytes a b c i) (c.toNat / 2 ^ (4 * i) % 16) := by
  have hlt : ofDigits256 (prmtBytes a b c 4) < 2 ^ 32 := by
    have hpow := ofDigits256_lt (prmtBytes_lt a b c 4)
    rwa [length_prmtBytes] at hpow
  rw [prmt_eq, byteOfWord, BitVec.toNat_ofNat, Nat.mod_eq_of_lt hlt, Nat.pow_mul, ofDigits256_div_pow_mod (prmtBytes_lt a b c 4),
    List.getD_eq_getElem?_getD, getElem?_prmtBytes a b c hi, Option.getD_some]

/-- The bytes already formed, when byte `i` is, are those of the result below it. -/
theorem getElem?_prmtBytes_lt (a b c : Word) {i j : Nat} (hi : i < 4) :
    (prmtBytes a b c i)[j]? = if j < i then some (byteOfWord (prmt a b c) j) else none := by
  split
  · next hj => rw [getElem?_prmtBytes a b c hj, byteOfWord_prmt a b c (by omega)]
  · next hj => exact List.getElem?_eq_none (by simpa using hj)

theorem byteOfWord_prmt_eq_permutedByte (a b c : Word) {i : Nat} (hi : i < 4) :
    byteOfWord (prmt a b c) i = permutedByte a b c (prmt a b c) i := by
  have hf : c.toNat / 2 ^ (4 * i) % 16 < 16 := Nat.mod_lt _ (by decide)
  rw [byteOfWord_prmt a b c hi, prmtByte, permutedByte]
  generalize c.toNat / 2 ^ (4 * i) % 16 = f at hf
  by_cases h4 : f < 4
  · simp [h4, byteOfWord]
  by_cases h8 : f < 8
  · simp [h4, h8, byteOfWord]
  by_cases h12 : f < 12
  · simp only [h4, h8, h12, if_true, if_false, getElem?_prmtBytes_lt a b c hi]
    by_cases hj : f - 8 < i <;> simp [hj]
  · obtain rfl | rfl | rfl | rfl : f = 12 ∨ f = 13 ∨ f = 14 ∨ f = 15 := by omega
    all_goals rfl

/-! ### The funnel shifts -/

theorem toNat_append_word (a b : Word) : (a ++ b).toNat = a.toNat * 2 ^ 32 + b.toNat := by
  rw [BitVec.toNat_append, ← Nat.shiftLeft_add_eq_or_of_lt b.isLt, Nat.shiftLeft_eq]

theorem funnelL_eq (a b c : Word) : funnelL a b c = (((a ++ b) <<< min c.toNat 32) >>> 32).setWidth 32 := by
  apply BitVec.eq_of_toNat_eq
  rw [funnelL, BitVec.toNat_ofNat, BitVec.toNat_setWidth, BitVec.toNat_ushiftRight, BitVec.toNat_shiftLeft, toNat_append_word,
    Nat.shiftLeft_eq, Nat.shiftRight_eq_div_pow]
  omega

theorem funnelR_eq (a b c : Word) : funnelR a b c = ((a ++ b) >>> min c.toNat 32).setWidth 32 := by
  apply BitVec.eq_of_toNat_eq
  rw [funnelR, BitVec.toNat_ofNat, BitVec.toNat_setWidth, BitVec.toNat_ushiftRight, toNat_append_word, Nat.shiftRight_eq_div_pow]

/-! ### `bitop` (R109) -/

theorem BitOp.reads_of_mem_regs {op : BitOp} {r : Reg} (h : r ∈ BitOp.regs op) : BitOp.Reads op r := by
  cases op <;> simpa [BitOp.regs, BitOp.Reads] using h

/-- The word that the model computes for a `bitop`, from the values of its sources. -/
def BitOp.word (op : BitOp) (v : Reg → Word) : Word :=
  match op with
  | .popc a => BitVec.ofNat 32 (popcount (v a))
  | .clz a => BitVec.ofNat 32 (leadingZeros (v a))
  | .ctz a => BitVec.ofNat 32 (trailingZeros (v a))
  | .brev a => bitReverse (v a)
  | .bfeI a b c => bitField true (v a) (v b) (v c)
  | .bfeN a b c => bitField false (v a) (v b) (v c)
  | .bfi a b c => bitInsert (v a) (v b) (v c)
  | .lop3 a b c t => lop3 t (v a) (v b) (v c)
  | .prmt a b c => prmt (v a) (v b) (v c)
  | .fshL a b c => funnelL (v a) (v b) (v c)
  | .fshR a b c => funnelR (v a) (v b) (v c)

theorem laneResult_bitop (op : BitOp) (d : Nat) (p : Pred) (s : State) :
    laneResult (.bitop op d p) s p (BitOp.regs op) d fun l => (BitOp.word op (s.val l), 0) := by
  cases op with
  | popc | clz | ctz | brev => exact laneResult_xop1 rfl fun _ => rfl
  | bfeI | bfeN | bfi | lop3 | prmt | fshL | fshR => exact laneResult_xop3 rfl fun _ => rfl

theorem toNat_ofNat_of_le {n : Nat} (h : n ≤ 32) : (BitVec.ofNat 32 n).toNat = n := by
  rw [BitVec.toNat_ofNat]
  omega

theorem BitOp.gives_word (op : BitOp) (v : Reg → Word) : BitOp.Gives op v (BitOp.word op v) := by
  cases op with
  | popc a => exact (toNat_ofNat_of_le (popcount_le _)).trans (popcount_eq_countP _)
  | clz a =>
    simp only [BitOp.Gives, BitOp.word, toNat_ofNat_of_le (leadingZeros_le _)]
    exact ⟨leadingZeros_le _, fun i => getLsbD_above_leadingZeros, getLsbD_leadingZeros⟩
  | ctz a =>
    have hcases := trailingZeros_cases (v a)
    have hle : trailingZeros (v a) ≤ 32 := by omega
    simp only [BitOp.Gives, BitOp.word, toNat_ofNat_of_le hle]
    obtain ⟨hall, hzero⟩ | ⟨hlt, hone, hzero⟩ := hcases
    · exact ⟨hle, fun i _ => hzero i, fun h => absurd h (by omega)⟩
    · exact ⟨hle, hzero, fun _ => hone⟩
  | brev a => exact fun i => getLsbD_bitReverse _
  | bfeI a b c => exact fun i => getLsbD_bitField_signed _ _ _
  | bfeN a b c => exact fun i => getLsbD_bitField_unsigned _ _ _
  | bfi a b c => exact fun i => getLsbD_bitInsert _ _ _
  | lop3 a b c t => exact fun i => getLsbD_lop3 t _ _ _
  | prmt a b c => exact fun i => byteOfWord_prmt_eq_permutedByte _ _ _
  | fshL a b c => exact funnelL_eq _ _ _
  | fshR a b c => exact funnelR_eq _ _ _

/-! ### Table 5.3, in the integers -/

/-- A count of the width or more leaves nothing of the low bits. -/
theorem mul_two_pow_mod_of_le {w n : Nat} (x : Nat) (h : w ≤ n) : x * 2 ^ n % 2 ^ w = 0 :=
  Nat.mod_eq_zero_of_dvd (Nat.dvd_mul_left_of_dvd (Nat.pow_dvd_pow 2 h) x)

theorem shl64_eq (a : DWord) (b : Nat) : shl64 a b = BitVec.ofNat 64 (a.toNat * 2 ^ b) := by
  apply BitVec.eq_of_toNat_eq
  rw [shl64, BitVec.toNat_ofNat]
  split
  · next hb => exact (mul_two_pow_mod_of_le a.toNat hb).symm
  · rw [BitVec.toNat_shiftLeft, Nat.shiftLeft_eq]

theorem shr64_eq (a : DWord) (b : Nat) : shr64 a b = BitVec.ofNat 64 (a.toNat / 2 ^ b) := by
  apply BitVec.eq_of_toNat_eq
  rw [shr64, BitVec.toNat_ofNat, Nat.mod_eq_of_lt (Nat.lt_of_le_of_lt (Nat.div_le_self _ _) a.isLt)]
  split
  · next hb => exact (Nat.div_eq_of_lt (Nat.lt_of_lt_of_le a.isLt (Nat.pow_le_pow_right (by decide) hb))).symm
  · rw [BitVec.toNat_ushiftRight, Nat.shiftRight_eq_div_pow]

/-- A shift of the width or more leaves only the sign, as one of the width does. -/
theorem sshiftRight_min_width {w : Nat} (a : BitVec w) (n : Nat) : a.sshiftRight (min n w) = a.sshiftRight n := by
  ext i hi
  rw [BitVec.getElem_sshiftRight, BitVec.getElem_sshiftRight]
  by_cases hn : n ≤ w
  · simp [Nat.min_eq_left hn]
  · simp [show ¬min n w + i < w by omega, show ¬n + i < w by omega]

theorem sra64_eq (a : DWord) (b : Nat) : sra64 a b = BitVec.ofInt 64 (a.toInt / 2 ^ b) := by
  rw [sra64, sshiftRight_min_width, BitVec.sshiftRight, Int.shiftRight_eq_div_pow]
  norm_cast

theorem add64_eq (a b : DWord) : BitVec.ofNat 64 (a.toNat + b.toNat) = a + b := by
  rw [BitVec.ofNat_add]
  simp

theorem sub64_eq (a b : DWord) : BitVec.ofInt 64 (a.toInt - b.toInt) = a - b := by
  rw [Int.sub_eq_add_neg, BitVec.ofInt_add, BitVec.ofInt_neg, BitVec.ofInt_toInt, BitVec.ofInt_toInt, BitVec.sub_eq_add_neg]

theorem lea64_eq (a : DWord) (b : Word) (n : Nat) :
    BitVec.ofNat 64 (a.toNat + b.toNat * 2 ^ n) = a + shl64 (b.setWidth 64) n := by
  rw [shl64_eq, BitVec.ofNat_add, BitVec.toNat_setWidth_of_le (by decide)]
  simp

theorem lea_eq (a b : Word) (n : Nat) : BitVec.ofNat 32 (a.toNat + b.toNat * 2 ^ n) = if 32 ≤ n then a else a + (b <<< n) := by
  apply BitVec.eq_of_toNat_eq
  rw [BitVec.toNat_ofNat]
  split
  · next hn => rw [Nat.add_mod, mul_two_pow_mod_of_le b.toNat hn, Nat.add_zero, Nat.mod_mod, Nat.mod_eq_of_lt a.isLt]
  · rw [BitVec.toNat_add, BitVec.toNat_shiftLeft, Nat.shiftLeft_eq, Nat.add_mod_mod]

theorem madwI_eq (a b : Word) (c : DWord) :
    BitVec.ofInt 64 (a.toInt * b.toInt + c.toInt) = a.signExtend 64 * b.signExtend 64 + c := by
  rw [BitVec.ofInt_add, BitVec.ofInt_mul, BitVec.ofInt_toInt]
  rfl

theorem madwN_eq (a b : Word) (c : DWord) :
    BitVec.ofNat 64 (a.toNat * b.toNat + c.toNat) = a.setWidth 64 * b.setWidth 64 + c := by
  rw [BitVec.ofNat_add, BitVec.ofNat_mul]
  simp

end Sys2Proof.Machine

namespace Sys2Proof.Proofs
open Sys2Proof Sys2Proof.Machine

/-! ### The statements -/

/-- Settles O4: the words of Table 5.2 are characterised sub-op by sub-op, and an instruction on registers only writes its word in each active
lane. -/
theorem bitOpResult : Obligations.BitOpResult := by
  unfold Obligations.BitOpResult
  intro op d p s
  obtain ⟨t, hexec, hframe, hlane⟩ := laneResult_bitop op d p s
  refine ⟨t, hexec, hframe, fun l hl hclean => ⟨BitOp.word op (s.val l), BitOp.gives_word op _, hlane l hl fun r hr => ?_⟩⟩
  exact hclean r (BitOp.reads_of_mem_regs hr) r List.mem_cons_self

/-- Settles O5: each sub-op of Table 5.3 is one of four operand forms, each of which completes; what remains is the result in the integers. -/
theorem addressResult : Obligations.AddressResult := by
  unfold Obligations.AddressResult
  intro d a b c sh p s
  simp only [List.forall_mem_cons, List.not_mem_nil, false_implies, implies_true, and_true]
  refine ⟨⟨?add, ?sub⟩, ⟨?lea64, ?shl, ?shr, ?sra⟩, ⟨?madwI, ?madwN⟩, ?lea⟩
  case add => exact pairPair_completes rfl fun l => add64_eq _ _
  case sub => exact pairPair_completes rfl fun l => sub64_eq _ _
  case lea64 => exact pairWord_completes rfl fun l => lea64_eq _ _ _
  case shl => exact pairWord_completes rfl fun l => (shl64_eq _ _).symm
  case shr => exact pairWord_completes rfl fun l => (shr64_eq _ _).symm
  case sra => exact pairWord_completes rfl fun l => (sra64_eq _ _).symm
  case madwI => exact wideMad_completes rfl fun l => madwI_eq _ _ _
  case madwN => exact wideMad_completes rfl fun l => madwN_eq _ _ _
  case lea => exact laneResult_xop2 rfl fun l => congrArg (·, 0) (lea_eq _ _ _)

end Sys2Proof.Proofs

/-!
# Loads, stores, atomics and fences of a core

Four statements on a core's accesses to memory and on its fences, each refuted by a state that its hypotheses admit: for loads and atomics, a line of a
lane's own frame whose page has left the page tables; for stores, a sequencer as the issuing party; for fences, a map that lists a team twice.
-/

namespace Sys2Proof.Machine

/-! ### Outcomes that are evaluated -/

/-- The outcome is a next state, and it passes a test. -/
def goesTo (o : Out) (test : State → Bool) : Bool :=
  match o with
  | .next t => test t
  | _ => false

theorem of_goesTo {o : Out} {t : State} (P : State → Prop) [DecidablePred P] (ho : o = .next t) (h : goesTo o (fun t => decide (P t)) = true) :
    P t := by
  subst ho
  exact of_decide_eq_true h

/-! ### A predicate that is always true, and one lane that issues -/

/-- The predicate k0. -/
def always : Pred := ⟨false, 0⟩

theorem State.active_always {s : State} {l : Nat} : s.active always l ↔ s.cur.lanes.getLsbD l = true :=
  ⟨And.left, fun h => ⟨h, rfl⟩⟩

theorem State.cleanPred_always {s : State} {l : Nat} (hl : l < 32) (h : s.cur.lanes.getLsbD l = true) : s.cleanPred always :=
  ⟨fun _ _ => rfl, l, hl, State.active_always.2 h⟩

theorem eq_of_getLsbD_two_pow {k l : Nat} (h : (BitVec.ofNat 32 (2 ^ k)).getLsbD l = true) : l = k := by
  rw [BitVec.getLsbD_ofNat, Nat.testBit_two_pow, Bool.and_eq_true] at h
  exact (of_decide_eq_true h.2).symm

/-- What holds of the one lane that issues holds of every active lane. -/
theorem State.forall_active {s : State} {k : Nat} (hs : s.cur.lanes = BitVec.ofNat 32 (2 ^ k)) {p : Pred} {P : Nat → Prop} (h : P k) :
    ∀ l, s.active p l → P l := by
  rintro l ⟨hl, -⟩
  rw [hs] at hl
  exact eq_of_getLsbD_two_pow hl ▸ h

/-! ### A line of a lane's own frame whose page has left the page tables (R159, R160)

A byte of a frame that L1 does not hold stands at the key of its place in memory or, where the page is not there, at a key of its own
(`State.privByteKey`); there `State.evictPriv` puts it. `State.fillPriv` reads a whole line from the key of lane 0's byte on. The two agree only while
the page is there, and a TLB may still serve the access when it is not (R341, R342). -/

/-- Lane 1 of group 0 issues. L1 holds the first byte of its frame, in which the lane has written 1; the page of the frame is in the core TLB, and in no
page table. s1 holds the frame's first address. -/
def writtenFrame : State :=
  { State.reset with
    teams := [(0, { Team.absent with
      privSize := 16
      tlb := [(2 ^ 12, ⟨0x80000, 0, 0, 1, false, true, true, true⟩)]
      priv := [(privKey 0 1 0, 1)]
      privFilled := [(privLine 0 0, true)]
      groups := [(0, { Group.absent with
        s := [(1, clear 0xFD_0000_0000_0000)]
        lanes := [(1, { Lane.unlaunched with cond := .live })] })] })]
    ctxs := [(0, { Context.absent with privBase := 2 ^ 30 })]
    cur := ⟨0, .group 0, BitVec.ofNat 32 (2 ^ 1), 0, 1, 0, 0⟩ }

/-- The same once the line has left L1. -/
def evictedFrame : State := writtenFrame.evictPriv 0 (privLine 0 0)

/-- The first byte of each lane's frame. -/
def frameSpot (l : Nat) : Spot := .priv 0 0 l 0

theorem noRmws_evictedFrame : evictedFrame.noRmws := by
  have hlates : evictedFrame.lates = [] := by decide +kernel
  simp [State.noRmws, hlates]

theorem noWrites_evictedFrame : evictedFrame.noWrites := by
  have hlog : evictedFrame.log = [] := by decide +kernel
  simp [State.noWrites, hlog]

theorem mayRelease_evictedFrame (wide : Bool) : evictedFrame.mayRelease false wide := ⟨nofun, nofun⟩

theorem active_evictedFrame : evictedFrame.active always 1 := State.active_always.2 (by decide +kernel)

theorem cleanPred_evictedFrame : evictedFrame.cleanPred always := State.cleanPred_always (by decide) active_evictedFrame.1

theorem forall_active_evictedFrame {P : Nat → Prop} (h : P 1) : ∀ l, evictedFrame.active always l → P l :=
  State.forall_active (k := 1) (by decide +kernel) h

theorem clean64_evictedFrame : evictedFrame.clean64 1 [.s 1] := by
  unfold State.clean64
  decide +kernel

theorem clean_evictedFrame : evictedFrame.clean 1 [.s 0] := by
  unfold State.clean
  decide +kernel

theorem lands_evictedFrame (acc : Access) {a : Nat} (ha : a = 0xFD_0000_0000_0000) :
    evictedFrame.lands 0 1 4 a (evictedFrame.decodeGeneric 0 a) acc false .team (frameSpot 1) := by
  subst ha
  have hd : evictedFrame.decodeGeneric 0 0xFD_0000_0000_0000 = some (.priv 0) := by decide +kernel
  have ht : evictedFrame.translate 0 0 1 4 (.priv 0) acc = .ok (frameSpot 1) := by cases acc <;> decide +kernel
  exact ⟨by decide +kernel, by decide, _, hd, ht, by decide +kernel, by decide +kernel, fun _ => ⟨rfl, rfl⟩⟩

/-- A plain load of the frame's first word. -/
def frameLoad : MemX := ⟨always, .b32, .gen, .own, .plain, .team, 0, false, 0⟩

/-- A plain addition to the frame's first word. -/
def frameAdd : AtomX := ⟨always, .add, false, .plain, .team, 0⟩

/-- The byte that the lane wrote stands in its word. -/
theorem bytes_evictedFrame : (List.range 4).map (evictedFrame.byteAt (frameSpot 1)) = [1, 0, 0, 0] := by decide +kernel

/-- The load fills the line anew, and does not find that byte. -/
theorem readV_frameLoad {t : State} (h : exec (.ld frameLoad 1 (.s 1) (.s 0)) evictedFrame = .next t) : (t.curGroup.lane 1).readV 1 = clear 0 :=
  of_goesTo (fun t => (t.curGroup.lane 1).readV 1 = clear 0) h (by decide +kernel)

/-- Nor does the atomic. -/
theorem readV_frameAdd {t : State} (h : exec (.atom frameAdd 1 (.s 1) (.s 0) (.s 0)) evictedFrame = .next t) :
    (t.curGroup.lane 1).readV 1 = clear 0 :=
  of_goesTo (fun t => (t.curGroup.lane 1).readV 1 = clear 0) h (by decide +kernel)

/-! ### A sequencer that issues for lanes -/

/-- The matrix sequencer issues with lane 0 in its execution set; s1 of group 0 holds the first address of the scratchpad. -/
def laneOfStream : State :=
  { State.reset with
    teams := [(0, { Team.absent with
      groups := [(0, { Group.absent with
        s := [(1, clear 0xFF_0000_0000_0000)]
        lanes := [(0, { Lane.unlaunched with cond := .live })] })] })]
    cur := ⟨0, .matrix, BitVec.ofNat 32 (2 ^ 0), 0, 1, 0, 0⟩ }

/-- A plain store to the scratchpad's first word. -/
def padStore : MemX := ⟨always, .b32, .gen, .own, .plain, .team, 0, false, 0⟩

theorem noRmws_laneOfStream : laneOfStream.noRmws := fun _ h => by cases h

theorem roomFor_laneOfStream :
    laneOfStream.roomFor ((lanesOf (activeMask laneOfStream.curGroup laneOfStream.cur.lanes always)).map fun _ => .pad 0 0) 4 = true := by
  decide +kernel

theorem storeTags_laneOfStream : storeTags laneOfStream.curGroup (laneOfStream.curGroup.lane 0) padStore (.s 0) (.s 1) (.s 0) = [] := by
  decide +kernel

theorem lands_laneOfStream :
    let a := laneAddr padStore (laneOfStream.val64 0 (.s 1)) (laneOfStream.val 0 (.s 0))
    laneOfStream.lands 0 0 4 a (laneOfStream.decodeSpace 0 .gen a) .write false .team (.pad 0 0) := by
  intro a
  have hd : laneOfStream.decodeSpace 0 .gen a = some (.pad 0 0) := by decide +kernel
  exact ⟨rfl, by decide +kernel, _, hd, by decide +kernel, by decide +kernel, by decide +kernel, fun _ => ⟨by decide +kernel, by decide +kernel⟩⟩

/-- What completes in a sequencer moves the sequencer's PC, and no lane's (R62). -/
theorem pc_padStore {t : State} (h : exec (.st padStore (.s 0) (.s 1) (.s 0)) laneOfStream = .next t) : (t.curGroup.lane 0).pc = 0 :=
  of_goesTo (fun t => (t.curGroup.lane 0).pc = 0) h (by decide +kernel)

/-! ### A map that lists a team twice

A read of a map takes the first entry of a key, and a write leaves one. `State.ownersOf` goes through all entries. -/

/-- Team 0 stands twice in the map: its group owns nothing in the first entry, and its cluster in the second. -/
def teamTwice : State :=
  let x : Team := { Team.absent with nGroups := 1, groups := [(0, { Group.absent with lanes := [(0, { Lane.unlaunched with cond := .live })] })] }
  { State.reset with
    teams := [(0, x), (0, x.setGroup 0 { x.group 0 with light := some .cluster })]
    cur := ⟨0, .group 0, BitVec.ofNat 32 (2 ^ 0), 0, 1, 0, 0⟩ }

theorem owner_teamTwice : (0, 0) ∈ teamTwice.ownersOf .cluster := by decide +kernel

theorem mayRelease_teamTwice : teamTwice.mayRelease true true := by
  unfold State.mayRelease
  decide +kernel

/-- The write-back before the fence leaves one entry of the team, and the fence puts nothing before what the group does. -/
theorem unfenced_teamTwice {t : State} (h : exec (.ufenceHeavy .cluster) teamTwice = .next t) :
    ((t.team 0).group 0).fenced = [] ∧ ((t.team 0).group 0).fencedShared = [] :=
  of_goesTo (fun t => ((t.team 0).group 0).fenced = [] ∧ ((t.team 0).group 0).fencedShared = []) h (by decide +kernel)

end Sys2Proof.Machine

namespace Sys2Proof.Proofs
open Sys2Proof Sys2Proof.Machine

/-! ### The statements -/

/-- Refutes O15: a byte of lane 1's frame has left L1, and its page is in the core TLB and in no page table any more. The load fills the line from other
bytes than those that stand there (`bytes_evictedFrame`), and receives 0 for 1. -/
theorem not_loadCompletes : ¬ Obligations.LoadCompletes := by
  unfold Obligations.LoadCompletes
  rintro ⟨hload, -⟩
  obtain ⟨t, hexec, -, -, -, -, hlanes⟩ := hload frameLoad 1 (.s 1) (.s 0) evictedFrame frameSpot (mayRelease_evictedFrame _) noRmws_evictedFrame
    cleanPred_evictedFrame
    (forall_active_evictedFrame ⟨clean64_evictedFrame, clean_evictedFrame, lands_evictedFrame .read (by decide +kernel)⟩) _ List.mem_cons_self
  obtain ⟨-, -, -, hvalue⟩ := hlanes 1 active_evictedFrame
  obtain ⟨bs, -, hbytes, hregs⟩ := hvalue (by decide +kernel)
  have hbs : bs = [1, 0, 0, 0] := (hbytes trivial noWrites_evictedFrame).trans bytes_evictedFrame
  have hone := hregs 1 (Nat.le_refl 1) (by decide)
  rw [readV_frameLoad hexec, hbs] at hone
  exact absurd hone (by decide)

/-- Refutes O16: the statement does not say that the party is a group, and in a sequencer no lane moves past the store. -/
theorem not_storeCompletes : ¬ Obligations.StoreCompletes := by
  unfold Obligations.StoreCompletes
  rintro ⟨hstore, -⟩
  obtain ⟨t, hexec, -, hlanes, -⟩ := hstore padStore (.s 0) (.s 1) (.s 0) laneOfStream (fun _ => .pad 0 0) ⟨nofun, nofun⟩ noRmws_laneOfStream
    (State.cleanPred_always (l := 0) (by decide) rfl) (State.forall_active (k := 0) rfl ⟨storeTags_laneOfStream, lands_laneOfStream⟩)
    roomFor_laneOfStream _ List.mem_cons_self
  have hpc := congrArg Lane.pc (hlanes 0)
  rw [pc_padStore hexec] at hpc
  exact absurd hpc (by decide +kernel)

/-- Refutes O18: as for O15, the atomic of lane 1 takes 0 for the 1 that stands in its frame, and returns it. -/
theorem not_atomicCompletes : ¬ Obligations.AtomicCompletes := by
  unfold Obligations.AtomicCompletes
  intro hatom
  have hsources : ∀ l r, evictedFrame.active always l → r ∈ [Reg.s 0, .s 0] →
      (atomSrc evictedFrame.curGroup (evictedFrame.curGroup.lane l) false r).tag = none := by
    rintro l r - hr
    obtain rfl : r = .s 0 := by simpa using hr
    rfl
  obtain ⟨t, hexec, -, -, -, -, -, -, -, hvalue⟩ := hatom frameAdd 1 (.s 1) (.s 0) (.s 0) evictedFrame frameSpot (mayRelease_evictedFrame _)
    noRmws_evictedFrame cleanPred_evictedFrame hsources
    (forall_active_evictedFrame ⟨clean64_evictedFrame, lands_evictedFrame .atomic (by decide +kernel), nofun⟩) _ List.mem_cons_self
    (forall_active_evictedFrame (by decide +kernel))
  obtain ⟨-, hregs⟩ := hvalue 1 active_evictedFrame (forall_active_evictedFrame rfl) (by decide +kernel) trivial noWrites_evictedFrame nofun
  have hone := hregs 1
  rw [readV_frameAdd hexec] at hone
  exact absurd hone (by decide +kernel)

/-- Refutes O20: where the map of teams lists a team twice, the write-back before the fence leaves the first entry only, so that nothing is put before an
owner that only the second entry names. -/
theorem not_fenceCompletes : ¬ Obligations.FenceCompletes := by
  unfold Obligations.FenceCompletes
  rintro ⟨hfence, -⟩
  obtain ⟨t, hexec, -, -, -, -, -, -, -, hheavy⟩ := hfence .cluster always teamTwice (State.cleanPred_always (l := 0) (by decide) rfl) rfl
    (.ufenceHeavy .cluster, true, true, false) (by simp) fun _ => mayRelease_teamTwice
  obtain ⟨m, h, -, -, -, -, howners⟩ := hheavy (.inr rfl)
  obtain ⟨hfenced, hshared⟩ := unfenced_teamTwice hexec
  obtain ⟨hm, -⟩ := howners (0, 0) owner_teamTwice
  rw [hfenced, hshared] at hm
  exact hm.elim List.not_mem_nil List.not_mem_nil

end Sys2Proof.Proofs
